-- ==== Sys2Proof/Word.lean ====
section
/-!
DEFINITION. The word types of the Octeus and the shape of its sparse tables.
-/

namespace Sys2Proof

/-- A byte of memory (R7). -/
abbrev Byte := BitVec 8

/-- A 64-bit word: a register, a global address (R52) or a reference time (R27). -/
abbrev Word := BitVec 64

/-- An Edlum instruction word (R184). -/
abbrev Insn := BitVec 128

/-- One 32-byte sector of memory, byte 0 in the lowest bits (R285). -/
abbrev Sector := BitVec 256

/-- A sparse table: strictly rising keys, an absent key standing for the entry's reset value. -/
abbrev Tab (α : Type) := List (Nat × α)

end Sys2Proof
end

