-- ==== Sys2Proof/Ports.lean ====
section
/-!
DEFINITION. The plain data that crosses the engine's ports: element types, formes, the captured part of
an issued instruction, port statuses and the items of a Flothakar stream.
-/

namespace Sys2Proof

/-- The element types of R58 and R120. -/
inductive Ty where
  | u8 | i8 | u16 | i16 | u32 | i32 | i64
  | fp32 | bf16 | fp16 | e4m3 | e5m2 | e3m2 | e2m3 | e2m1
  | i4 | i2 | tern | u1
deriving DecidableEq, Repr

/-- The layouts of R57. -/
inductive Layout where
  | dense | ma | mb | mc | planar
deriving DecidableEq, Repr

/-- A forme: the fields of a descriptor image (R56, R57). `counts`, `before` and `after` hold dimensions
0 to 7; `strides` holds dimensions 1 to 7, dimension 1 first. -/
structure Forme where
  base : Word := 0
  ty : Ty := .u8
  rank : Nat := 1
  layout : Layout := .dense
  swap : Nat := 0
  planes : Nat := 0
  rd : Bool := false
  wr : Bool := false
  sealed : Bool := false
  rdim : Nat := 0
  planeStride : Nat := 0
  furniture : BitVec 32 := 0
  counts : List Nat := [1, 1, 1, 1, 1, 1, 1, 1]
  strides : List Int := [0, 0, 0, 0, 0, 0, 0]
  before : List Nat := [0, 0, 0, 0, 0, 0, 0, 0]
  after : List Nat := [0, 0, 0, 0, 0, 0, 0, 0]
deriving DecidableEq, Repr

/-- The status an attachment peer gives with RDATA or WRSP (R418). -/
inductive AttStatus where
  | ok | err | uncorr | timeout
deriving DecidableEq, Repr

/-- Who makes a register access (R455). -/
inductive Agent where
  | host | core | key | context (n : Nat)
deriving DecidableEq, Repr

/-- The kinds of correctable event (R394). -/
inductive CorrKind where
  | galley | sideband | ctlCrc | linkCrc
deriving DecidableEq, Repr

/-- The faults the test port can inject (R434). -/
inductive Inject where
  | galleySingle | galleyDouble | sideband | ctlCrc | attErr | attUncorr
deriving DecidableEq, Repr

/-- What the fuses hold, as POWER_GOOD reads them (R438): whether the read succeeded, the grade (R459),
the good-core map (R461) and the fused limits of the wear gauges (R411). -/
structure Fuses where
  readOk : Bool := true
  grade : Nat := 0
  good : BitVec 4608 := 0
  driftLimit : Nat := 65536
  emBudget : Nat := 0
deriving DecidableEq, Repr

/-- The operations a chime word can take (R258). -/
inductive ChimeOp where
  | add | give | sub
deriving DecidableEq, Repr

/-- The part of an issued instruction that its orders carry, captured at issue (R78, R128, R172, R199,
R209, R42). -/
structure Job where
  ctx : Nat := 0
  epoch : BitVec 32 := 0
  pc : Word := 0
  word : Insn := 0
  domain : Nat := 0
  locked : Bool := false
  home : Nat := 0
  srcs : List Forme := []
  dsts : List Forme := []
  aux : Option Forme := none
  profile : Word := 0
  seed : Word := 0
  phase : BitVec 32 := 0
  rate : Nat := 256
  deadline : Nat := 0xFFFFF
  frame : Nat := 0
  deadlineBound : Bool := false
  half : Bool := false
  lead : Bool := false
  issued : Word := 0
  mark : Option (BitVec 32) := none
  hostCell : Nat := 352
  registerSpace : Bool := false
deriving DecidableEq, Repr

/-- What one stream item carries (Remote operation over Flothakar links, opening paragraph). `insn` is the
number the issuing chip gave the instruction, the `id` of an update or poll the number it has there, `at_` the instant of completion (R38), `index` the index values of a GATHER or SCATTER (R111), `ends` tells that
the instruction ends (R354) and not only that an item was refused (R328), `pc` the address of the instruction whose
update or fault it is (R379). -/
inductive Payload where
  | order (insn : Nat) (job : Job) (index : List Nat) (asSource : Bool)
  | data (insn : Nat) (rank : Nat) (elems : List (Nat × Nat)) (scales : List (Nat × Nat)) (last : Bool)
  | chime (id : Nat) (addr : Word) (op : ChimeOp) (amount : BitVec 32) (pc : Word)
  | signal (id : Nat) (addr : Word) (op : ChimeOp) (amount : BitVec 32) (pc : Word)
  | poll (id : Nat) (addr : Word) (take : Option (BitVec 32))
  | pollResult (id : Nat) (value : BitVec 32) (took : Bool) (fault : BitVec 8)
  | subResult (fault : BitVec 8)
  | completion (insn : Nat) (skipped : Bool) (at_ : Word)
  | performed (insn : Nat)
  | refusal (insn : Option Nat) (code : BitVec 8) (ends : Bool) (pc : Word)
  | abandon (insns : List Nat)
deriving DecidableEq, Repr

/-- A stream item with its envelope (R323, R425) and the seal-group marks and tag of R352. `cipher` names the key and IV under which the
payload is encrypted; only who has that key can read it (log 76). -/
structure Item where
  chip : Nat := 0
  incarnation : BitVec 16 := 0
  seq : BitVec 32 := 0
  window : Nat := 0
  first : Bool := true
  last : Bool := true
  isSealed : Bool := true
  domain : Nat := 0
  ctx : Nat := 0
  epoch : BitVec 32 := 0
  payload : Payload
  cipher : Option (BitVec 256 × BitVec 96) := none
  tag : BitVec 128 := 0
deriving DecidableEq, Repr

/-- The flits of a system Peal line over a tree link (R340): each carries the line, the round's parity
and the sender's state. -/
inductive PealFlit where
  | arrival (up : Bool) | leave (up : Bool) | release | failure
deriving DecidableEq, Repr

/-- A register-counter owner: a cell or one of the two Belfries (R400). -/
inductive CounterOwner where
  | cell (n : Nat) | belfry (east : Bool)
deriving DecidableEq, Repr

/-- A Peal participant (R266): a context or a core. -/
inductive Party where
  | context (n : Nat) | core (n : Nat)
deriving DecidableEq, Repr

end Sys2Proof
end

