-- ==== Sys2Proof/Syntax.lean ====
section
/-!
DEFINITION. The commands of the block: one constructor per row of spec/opcode_table.json, in the table's
order. Operands: `c` a context, `cell` a cell, `ch` a channel, `d` a domain, `insn` the number of an
issued instruction, `id` the number of an access or update in flight. Data that a row delivers (read
data, fetched words, a poll's value) is an operand of the row.
-/

namespace Sys2Proof

/-- The commands: the operations and events of the opcode table. -/
inductive Instr where
  | forme (c : Nat)
  | formeImageReturn (c : Nat) (status : AttStatus) (image : List Word)
  | unforme (c : Nat)
  | ldscale (c : Nat)
  | stscale (c : Nat)
  | setcast (c : Nat)
  | setrate (c : Nat)
  | phase (c : Nat)
  | advance (c : Nat)
  | loop (c : Nat)
  | endloop (c : Nat)
  | branch (c : Nat)
  | call (c : Nat)
  | ret (c : Nat)
  | toll (c : Nat)
  | halt (c : Nat)
  | nop (c : Nat)
  | abandon (c : Nat)
  | swap (c : Nat)
  | drain (c : Nat)
  | move (c : Nat)
  | gather (c : Nat)
  | scatter (c : Nat)
  | fill (c : Nat)
  | mcast (c : Nat)
  | reduce (c : Nat)
  | amoadd (c : Nat)
  | check (c : Nat)
  | signalAdd (c : Nat)
  | signalGive (c : Nat)
  | signalSub (c : Nat)
  | waitGe (c : Nat)
  | waitTake (c : Nat)
  | pealArrive (c : Nat)
  | pealEnrol (c : Nat)
  | pealResign (c : Nat)
  | fence (c : Nat)
  | mark (c : Nat)
  | queueEntryTake (c : Nat) (entry : Insn)
  | fetchBurstReturn (c : Nat) (addr : Word) (status : AttStatus) (words : List Insn)
  | load (c : Nat) (agent : Agent) (grants : List Word)
  | unload (c : Nat)
  | save (c : Nat)
  | restore (c : Nat) (agent : Agent) (grants : List Word) (image : List Byte)
  | pause (c : Nat)
  | resume (c : Nat)
  | abort (c : Nat)
  | badOp (c : Nat) (op : Nat)
  | galleyScrubDone (c : Nat)
  | contextFreed (c : Nat)
  | doorbell (c : Nat) (value : Word)
  | ctxConfigWrite (c : Nat) (agent : Agent) (value : Word)
  | channelPause (cell ch : Nat)
  | channelResume (cell ch : Nat)
  | channelSkip (cell ch : Nat)
  | channelAbort (cell ch : Nat)
  | channelEnable (cell ch : Nat)
  | channelDisable (cell ch : Nat)
  | channelStopped (cell ch : Nat)
  | cellEnable (cell : Nat)
  | cellDisable (cell : Nat)
  | cellStopped (cell : Nat)
  | retire (cell : Nat)
  | degradedClear (cell : Nat)
  | healthConfigWrite (value : Word)
  | modeTest
  | modeInit
  | modeRun
  | modeRecovery
  | attach
  | attachEnterRun
  | attachTimeout
  | detach
  | detachDrained
  | detachTimeout
  | commit (d : Nat) (agent : Agent)
  | release (d : Nat) (agent : Agent)
  | loadKey (d : Nat) (key : BitVec 256) (frameOk : Bool)
  | zeroise (d : Nat) (frameOk : Bool)
  | lock (d : Nat) (frameOk : Bool)
  | unlock (d : Nat) (frameOk : Bool)
  | keyRelease (d : Nat) (frameOk : Bool)
  | write (addr : Word) (value : Word) (frameOk : Bool)
  | zeroiseAll (frameOk : Bool)
  | tamper
  | tollPeriodWrite (value : Word)
  | attSplitWrite (cell : Nat) (value : Word)
  | arbConfigWrite (value : Word)
  | routeWrite (chip : Nat) (value : Word)
  | pealEnable (line : Nat)
  | pealDisable (line : Nat)
  | pealLineStopped (line : Nat)
  | dumpTrigger
  | dumpDone (consumed : List Nat)
  | freeze (now : Bool)
  | thaw (now : Bool)
  | snapshot (now : Bool)
  | damperCancel
  | damperAction
  | evselWrite (owner : CounterOwner) (k : Nat) (value : Word)
  | evcntWrite (owner : CounterOwner) (k : Nat) (value : Word) (units : Nat)
  | impConfigWrite (cell : Nat) (value : Word)
  | lowerWordRead (offset : Nat)
  | registerWrite (agent : Agent) (offset : Nat) (width : Nat) (value : Word)
  | powerGood (fuses : Fuses)
  | mbistDone (fails : List Nat)
  | mbistRun (cell : Nat)
  | faultInject (cell : Nat) (kind : Inject)
  | scanEntry
  | refTick
  | syncOffset (cell : Nat) (offset : Int) (masterTime masterBase : Word) (masterPeriod : Nat)
  | tollTick
  | tollPulse (cell : Nat)
  | guardInstant (cell : Nat)
  | overrunReport (cell : Nat)
  | stoppedInterval (cell : Nat)
  | heartbeat (east : Bool)
  | heartbeatLoss (east : Bool)
  | orderArrival (cell insn : Nat)
  | indexDelivery (cell insn : Nat)
  | readResponse (cell tag : Nat) (status : AttStatus) (data : List Byte)
  | writeResponse (cell tag : Nat) (status : AttStatus)
  | haltFlit (cell insn : Nat)
  | slugArrival (cell id : Nat)
  | creditReturn (id : Nat)
  | destinationComplete (cell insn : Nat)
  | completionFlit (insn cell : Nat)
  | performedReport (c cell : Nat)
  | flushComplete (cell id : Nat) (status : AttStatus)
  | hostReadTimeout (cell tag : Nat)
  | hostLinkState (cell : Nat) (up : Bool)
  | chimeUpdate (cell id : Nat) (status : AttStatus) (old flags : Word)
  | pollTimer (c : Nat)
  | pollRequest (c : Nat) (status : AttStatus) (value : BitVec 32)
  | pollResult (c : Nat)
  | subResult (c : Nat)
  | waitTimeout (c : Nat)
  | corePealArrive (core line : Nat)
  | pealLeave (party : Party) (line : Nat)
  | pealRelease (cell line : Nat)
  | pealTimeout (line : Nat)
  | pealFlit (cell line : Nat) (odd : Bool) (kind : PealFlit)
  | abandonFlit (cell c : Nat)
  | abandonReport (cell c : Nat)
  | itemArrival (link : Nat) (item : Item)
  | refusalReport (c : Nat)
  | ackTimer (chip : Nat)
  | remoteAck (chip : Nat) (h : BitVec 32)
  | resendTimer (chip : Nat)
  | streamLostTimer (chip : Nat)
  | streamOpen (link chip : Nat) (incarnation : BitVec 16) (first : BitVec 32)
  | openReply (chip : Nat) (window : Option Nat)
  | openRetry (chip : Nat)
  | streamIdle (chip : Nat)
  | close (chip : Nat) (incarnation : BitVec 16)
  | goodbye (chip : Nat) (incarnation : BitVec 16)
  | peerSilence (chip : Nat)
  | linkDown (cell : Nat)
  | linkUp (cell : Nat)
  | slugReplayFail (id : Nat)
  | correctableError (cell : Nat) (kind : CorrKind)
  | cueWake (cell insn : Nat)
  | lendThreshold (cell : Nat)
  | floorLost (east : Bool)
  | stepNotice (east : Bool) (starts : Bool) (lower : Bool) (floorOk : Bool)
  | stretchChange (east : Bool) (high : Bool)
  | wearMeasure (cell : Nat) (drift : List Nat) (emStress ttSeconds : Nat)
  | engineCycle (east : Bool)
  | uncorrectableGalleyError (cell insn : Nat)
  | registerAccessResponse (id : Nat)
  | illegalOpcode (c : Nat)
deriving DecidableEq, Repr

end Sys2Proof
end

