-- ==== Sys2Proof/Decode.lean ====
section
/-!
DEFINITION. The table's words: spec/opcode_table.json gives none of the block's commands any bits, so no word
spells a command.
-/

namespace Sys2Proof

/-- The command that a word spells by the table's bits. No row of the opcode table gives bits (the block takes its
commands at ports), so every word spells none. -/
def decodeTableWord (_nbits _w : Nat) : Option Instr := none

end Sys2Proof
end

