-- ==== Sys2Proof/Config.lean ====
section
/-!
DEFINITION. What an implementation fixes and the values the manual leaves open: constants with no body, so
that a proof about the machine holds whatever they are.
-/

namespace Sys2Proof

/-- A free value, drawn with the counter `State.fresh` (log 23): where the manual says a value exists and
does not say which (R137). -/
opaque Config.freeWord : Nat → Word

/-- AES-256-GCM's authentication tag over a block of bytes (R352, R359): key, IV, data. The manual names the
algorithm and defines nothing of its arithmetic (log 12). -/
opaque Config.gcmTag : BitVec 256 → BitVec 96 → List Byte → BitVec 128

/-- AES-256-GCM's encryption of a block under a key and an IV (R359; log 12). -/
opaque Config.gcmEncrypt : BitVec 256 → BitVec 96 → List Byte → List Byte

/-- AES-256-GCM's decryption of a block under a key and an IV (R360; log 12). -/
opaque Config.gcmDecrypt : BitVec 256 → BitVec 96 → List Byte → List Byte

/-- The tag of one sealed link group (R352): key, IV, and the items of the group, whose headers it authenticates with their
payloads (log 12). -/
opaque Config.gcmGroupTag : BitVec 256 → BitVec 96 → List Item → BitVec 128

end Sys2Proof
end

