-- ==== Sys2Proof/Machine/Bits.lean ====
section
/-!
DEFINITION. Bit fields, byte order, sign extension and serial comparison (R7, R29, R33, R262).
-/

namespace Sys2Proof.Machine

/-- The field of `len` bits at bit `lo` of a natural number (R7). -/
def fieldOf (v lo len : Nat) : Nat := (v >>> lo) % 2 ^ len

/-- The field of `len` bits at bit `lo` of a word. -/
def field (w : BitVec n) (lo len : Nat) : Nat := fieldOf w.toNat lo len

/-- Bit `i` of a word. -/
def bit (w : BitVec n) (i : Nat) : Bool := w.getLsbD i

/-- A flag as a number. -/
def flag (b : Bool) : Nat := if b then 1 else 0

/-- A value placed at bit `lo`. -/
def place (v lo : Nat) : Nat := v <<< lo

/-- The two's complement value of a field of `len` bits. -/
def signedOf (v len : Nat) : Int :=
  if v % 2 ^ len < 2 ^ (len - 1) then (v % 2 ^ len : Nat) else ((v % 2 ^ len : Nat) : Int) - (2 ^ len : Nat)

/-- The field of `len` bits at `lo`, read as two's complement. -/
def signedField (w : BitVec n) (lo len : Nat) : Int := signedOf (field w lo len) len

/-- A two's complement value written into `len` bits. -/
def toField (v : Int) (len : Nat) : Nat := (v % (2 ^ len : Nat)).toNat

/-- The little-endian bytes of a value (R7). -/
def toBytes (len v : Nat) : List Byte := (List.range len).map fun i => BitVec.ofNat 8 (v >>> (8 * i))

/-- The value of little-endian bytes (R7). -/
def fromBytes : List Byte → Nat
  | [] => 0
  | b :: bs => b.toNat + 256 * fromBytes bs

/-- The little-endian value of `len` bytes at offset `at_` of a byte list. -/
def bytesAt (bs : List Byte) (at_ len : Nat) : Nat := fromBytes ((bs.drop at_).take len)

/-- Reference time `a` is later than `b` under the serial arithmetic of R29. -/
def later (a b : Word) : Bool := 1 ≤ (a - b).toNat && (a - b).toNat < 2 ^ 63

/-- Reference time `a` is `b` or later (R29). -/
def notBefore (a b : Word) : Bool := (a - b).toNat < 2 ^ 63

/-- A 16-bit Toll target has been reached by a count (R33). -/
def tollReached (count : Nat) (target : BitVec 16) : Bool :=
  (BitVec.ofNat 16 count - target).toNat < 2 ^ 15

/-- A chime word at `v` has reached the target `t` (R262). -/
def chimeReached (v t : BitVec 32) : Bool := (v - t).toNat < 2 ^ 31

/-- A chime word lies exactly half the circle behind its target (R262). -/
def chimeFar (v t : BitVec 32) : Bool := (t - v).toNat == 2 ^ 31

/-- A value that saturates at the largest number of `len` bits. -/
def saturate (len v : Nat) : Nat := min v (2 ^ len - 1)

/-- Rounded-up division. -/
def ceilDiv (a b : Nat) : Nat := (a + b - 1) / b

/-- Even parity over a number's low `len` bits (R427, R428). -/
def parityOf (v : Nat) : Nat → Bool
  | 0 => false
  | len + 1 => xor (v.testBit len) (parityOf v len)

end Sys2Proof.Machine
end

