-- ==== Sys2Proof/Machine/Types.lean ====
section
/-!
DEFINITION. The element types: codes, storage, planes and the parameters of their encodings (R57, R58, R117,
R120).
-/

namespace Sys2Proof.Machine

/-- The type that a type code names (R58); a code missing from the table names none. -/
def tyOfCode : Nat → Option Ty
  | 0x00 => some .u8 | 0x01 => some .i8 | 0x02 => some .u16 | 0x03 => some .i16
  | 0x04 => some .u32 | 0x05 => some .i32 | 0x06 => some .i64
  | 0x10 => some .fp32 | 0x12 => some .bf16 | 0x13 => some .fp16
  | 0x14 => some .e4m3 | 0x15 => some .e5m2 | 0x16 => some .e3m2 | 0x17 => some .e2m3 | 0x18 => some .e2m1
  | 0x20 => some .i4 | 0x21 => some .i2 | 0x22 => some .tern | 0x23 => some .u1
  | _ => none

/-- The type code of a type (R58). -/
def tyCode : Ty → Nat
  | .u8 => 0x00 | .i8 => 0x01 | .u16 => 0x02 | .i16 => 0x03 | .u32 => 0x04 | .i32 => 0x05 | .i64 => 0x06
  | .fp32 => 0x10 | .bf16 => 0x12 | .fp16 => 0x13 | .e4m3 => 0x14 | .e5m2 => 0x15
  | .e3m2 => 0x16 | .e2m3 => 0x17 | .e2m1 => 0x18
  | .i4 => 0x20 | .i2 => 0x21 | .tern => 0x22 | .u1 => 0x23

/-- The plane count of a type; 0 for a type stored in bytes (R58). -/
def tyPlanes : Ty → Nat
  | .e3m2 | .e2m3 => 6
  | .e2m1 | .i4 => 4
  | .i2 | .tern => 2
  | .u1 => 1
  | _ => 0

/-- A planar type: one narrower than a byte (R58). -/
def tyPlanar (t : Ty) : Bool := tyPlanes t != 0

/-- The storage width in bytes of a non-planar type; 0 for a planar one (R58). -/
def tyBytes : Ty → Nat
  | .u8 | .i8 | .e4m3 | .e5m2 => 1
  | .u16 | .i16 | .bf16 | .fp16 => 2
  | .u32 | .i32 | .fp32 => 4
  | .i64 => 8
  | _ => 0

/-- The width of a type in bits (R117). -/
def tyWidth (t : Ty) : Nat := if tyPlanar t then tyPlanes t else 8 * tyBytes t

/-- The elements of one 32-byte sector: 32 over the width in bytes, or the 256 bits of a plane sector (R89). -/
def tyPerSector (t : Ty) : Nat := if tyPlanar t then 256 else 32 / tyBytes t

/-- A matrix tile row's depth in elements for MA and MB: 64 over the storage width, or 512 for a planar type
(R83). -/
def tyTileDepth (t : Ty) : Nat := if tyPlanar t then 512 else 64 / tyBytes t

/-- How a floating type encodes infinities and NaNs (R120). -/
inductive Specials where
  | ieee | nanOnly | none
deriving DecidableEq, Repr

/-- A floating format: exponent bits, mantissa bits, bias, special codes (R120). -/
structure FloatFmt where
  ebits : Nat
  mbits : Nat
  bias : Nat
  specials : Specials
deriving DecidableEq, Repr

/-- What a type's codes mean: a floating format, a two's complement or unsigned integer of some bits, or TERN
(R120). -/
inductive Encoding where
  | float (f : FloatFmt)
  | int (bits : Nat)
  | nat (bits : Nat)
  | tern
deriving DecidableEq, Repr

/-- The encoding of a type (R120). -/
def tyEncoding : Ty → Encoding
  | .u8 => .nat 8 | .u16 => .nat 16 | .u32 => .nat 32 | .u1 => .nat 1
  | .i8 => .int 8 | .i16 => .int 16 | .i32 => .int 32 | .i64 => .int 64 | .i4 => .int 4 | .i2 => .int 2
  | .tern => .tern
  | .fp32 => .float ⟨8, 23, 127, .ieee⟩
  | .bf16 => .float ⟨8, 7, 127, .ieee⟩
  | .fp16 => .float ⟨5, 10, 15, .ieee⟩
  | .e4m3 => .float ⟨4, 3, 7, .nanOnly⟩
  | .e5m2 => .float ⟨5, 2, 15, .ieee⟩
  | .e3m2 => .float ⟨3, 2, 3, .none⟩
  | .e2m3 => .float ⟨2, 3, 1, .none⟩
  | .e2m1 => .float ⟨2, 1, 1, .none⟩

/-- A cast to `dst` runs at the source cell when `dst` is no wider than `src` (R117). -/
def castAtSource (src dst : Ty) : Bool := tyWidth dst ≤ tyWidth src

/-- The stream type: the narrower of two types, or the source type when they are equally wide (R117). -/
def streamTy (src dst : Ty) : Ty := if tyWidth dst < tyWidth src then dst else src

/-- The types a REDUCE or AMOADD destination may have (R144). -/
def tyReducible : Ty → Bool
  | .fp32 | .bf16 | .fp16 | .i32 | .u32 | .i64 => true
  | _ => false

/-- The wide types of a group-scaled MOVE (R129). -/
def tyWide : Ty → Bool
  | .fp32 | .bf16 | .fp16 => true
  | _ => false

/-- The quantised types of a group-scaled MOVE (R129). -/
def tyQuantised : Ty → Bool
  | .e4m3 | .e5m2 | .e3m2 | .e2m3 | .e2m1 | .i8 | .i4 | .i2 => true
  | _ => false

end Sys2Proof.Machine
end

