-- ==== Sys2Proof/Machine/Caster.lean ====
section
/-!
DEFINITION. The Caster: exact values, rounding, conversion, group scales, reduction arithmetic, byte swap and the
packing of elements into sectors and planes (R87, R88, R118-R147).
-/

namespace Sys2Proof.Machine

/-- An exact value: NaN, an infinity, or a finite number `num / den` with a sign (R120). -/
inductive Val where
  | nan (neg : Bool)
  | inf (neg : Bool)
  | fin (neg : Bool) (num den : Nat)
deriving DecidableEq, Repr

/-- The number `k * 2^e` as a fraction. -/
def scaled (neg : Bool) (k : Nat) (e : Int) : Val :=
  if 0 ≤ e then .fin neg (k * 2 ^ e.toNat) 1 else .fin neg k (2 ^ (-e).toNat)

/-- The number of bits of a floating code without its sign. -/
def magBits (f : FloatFmt) : Nat := f.ebits + f.mbits

/-- The largest finite code of a floating format, sign clear (R120). -/
def maxCode (f : FloatFmt) : Nat :=
  match f.specials with
  | .ieee => (2 ^ f.ebits - 1) * 2 ^ f.mbits - 1
  | .nanOnly => 2 ^ magBits f - 2
  | .none => 2 ^ magBits f - 1

/-- The value of a floating magnitude code: subnormals below the smallest normal (R120). -/
def magVal (f : FloatFmt) (neg : Bool) (m : Nat) : Val :=
  let e := m / 2 ^ f.mbits
  let frac := m % 2 ^ f.mbits
  if e = 0 then scaled neg frac (1 - (f.bias : Int) - (f.mbits : Int))
  else scaled neg (2 ^ f.mbits + frac) ((e : Int) - (f.bias : Int) - (f.mbits : Int))

/-- The value of a floating code (R120). -/
def floatVal (f : FloatFmt) (code : Nat) : Val :=
  let neg := code.testBit (magBits f)
  let m := code % 2 ^ magBits f
  let top := 2 ^ f.ebits - 1
  match f.specials with
  | .ieee =>
    if m / 2 ^ f.mbits = top then (if m % 2 ^ f.mbits = 0 then .inf neg else .nan neg) else magVal f neg m
  | .nanOnly => if m = 2 ^ magBits f - 1 then .nan neg else magVal f neg m
  | .none => magVal f neg m

/-- An integer as a value. -/
def intVal (v : Int) : Val := .fin (decide (v < 0)) v.natAbs 1

/-- The value of a code of a type (R120, R121). -/
def codeVal (t : Ty) (code : Nat) : Val :=
  match tyEncoding t with
  | .float f => floatVal f code
  | .int b => intVal (signedOf code b)
  | .nat _ => intVal code
  | .tern => if code.testBit 0 then .fin (code.testBit 1) 1 1 else .fin false 0 1

/-- The canonical NaN's magnitude code (R120). -/
def nanCode (f : FloatFmt) : Nat :=
  match f.specials with
  | .ieee => (2 ^ f.ebits - 1) * 2 ^ f.mbits + 2 ^ (f.mbits - 1)
  | _ => 2 ^ magBits f - 1

/-- A magnitude code with its sign. -/
def signed (f : FloatFmt) (neg : Bool) (m : Nat) : Nat := m + if neg then 2 ^ magBits f else 0

/-- floor(log2 (num / den)) for a positive number. -/
def ilog2 (num den : Nat) : Int :=
  let d : Int := (Nat.log2 num : Int) - (Nat.log2 den : Int)
  if num * 2 ^ (-d).toNat < den * 2 ^ d.toNat then d - 1 else d

/-- The rounding modes of R128 and rounding away from zero, which R132 uses for scales. -/
inductive Round where
  | rne | rtz | stochastic (r : Nat) | up
deriving DecidableEq, Repr

/-- Rounds a fraction of `rem / den` above `k` to `k` or `k + 1` (R126, R127). -/
def roundUnit (mode : Round) (k rem den : Nat) : Nat :=
  match mode with
  | .rne => if 2 * rem < den then k else if den < 2 * rem then k + 1 else k + k % 2
  | .rtz => k
  | .stochastic r => if r < rem * 2 ^ 24 / den then k + 1 else k
  | .up => if rem = 0 then k else k + 1

/-- The exponent of the grid's spacing at a positive magnitude (R122). -/
def gridExp (f : FloatFmt) (num den : Nat) : Int :=
  max (ilog2 num den) (1 - (f.bias : Int)) - (f.mbits : Int)

/-- The magnitude code a positive number rounds to on a format's grid, which may lie above the largest finite code
(R122). -/
def roundMag (f : FloatFmt) (mode : Round) (num den : Nat) : Nat :=
  if num = 0 then 0 else
  let s := gridExp f num den
  let n := num * 2 ^ (-s).toNat
  let d := den * 2 ^ s.toNat
  let e := (s + (f.mbits : Int) + (f.bias : Int) - 1).toNat
  e * 2 ^ f.mbits + roundUnit mode (n / d) (n % d) d

/-- The result of one conversion: the code, and whether it counts as a NaN or a saturation event (R125). -/
structure Cast where
  code : Nat
  nan : Bool := false
  sat : Bool := false
deriving DecidableEq, Repr

/-- The least and greatest integer of an integer encoding. -/
def intRange : Encoding → Int × Int
  | .int b => (-((2 ^ (b - 1) : Nat) : Int), ((2 ^ (b - 1) : Nat) : Int) - 1)
  | .nat b => (0, ((2 ^ b : Nat) : Int) - 1)
  | .tern => (-1, 1)
  | .float _ => (0, 0)

/-- The code of an integer in an integer encoding. -/
def intCode (e : Encoding) (v : Int) : Nat :=
  match e with
  | .int b => toField v b
  | .tern => if v = 0 then 0 else if v < 0 then 3 else 1
  | _ => v.toNat

/-- Conversion into a floating format (R122-R124). -/
def toFloat (f : FloatFmt) (mode : Round) (ovf : Bool) : Val → Cast
  | .nan neg =>
    match f.specials with
    | .none => { code := signed f neg (maxCode f), nan := true }
    | _ => { code := signed f neg (nanCode f) }
  | .inf neg =>
    match f.specials with
    | .ieee => { code := signed f neg ((2 ^ f.ebits - 1) * 2 ^ f.mbits) }
    | _ => { code := signed f neg (maxCode f), sat := true }
  | .fin neg num den =>
    let m := roundMag f mode num den
    if m ≤ maxCode f then { code := signed f neg m }
    else if f.specials = .ieee ∧ ovf ∧ mode ≠ .rtz then { code := signed f neg ((2 ^ f.ebits - 1) * 2 ^ f.mbits) }
    else { code := signed f neg (maxCode f), sat := true }

/-- Conversion into an integer encoding (R122-R124). -/
def toInt (e : Encoding) (mode : Round) : Val → Cast
  | .nan neg =>
    let r := intRange e
    { code := intCode e (if neg && decide (r.1 < 0) then r.1 else r.2), nan := true }
  | .inf neg =>
    let r := intRange e
    { code := intCode e (if neg then r.1 else r.2), sat := true }
  | .fin neg num den =>
    let k : Int := roundUnit mode (num / den) (num % den) den
    let v := if neg then -k else k
    let r := intRange e
    if v < r.1 then { code := intCode e r.1, sat := true }
    else if r.2 < v then { code := intCode e r.2, sat := true }
    else { code := intCode e v }

/-- Conversion of one value into a type (R122). -/
def convert (t : Ty) (mode : Round) (ovf : Bool) (v : Val) : Cast :=
  match tyEncoding t with
  | .float f => toFloat f mode ovf v
  | e => toInt e mode v

/-- The 24-bit draw of stochastic rounding (R127). -/
def stochasticDraw (seed : Word) (salt : Nat) (i : Nat) : Nat :=
  let z := seed ^^^ (BitVec.ofNat 64 salt <<< 48) ^^^ (BitVec.ofNat 64 i * 0x9E3779B97F4A7C15#64)
  let z := (z ^^^ (z >>> 30)) * 0xBF58476D1CE4E5B9#64
  let z := (z ^^^ (z >>> 27)) * 0x94D049BB133111EB#64
  let z := z ^^^ (z >>> 31)
  (z >>> 40).toNat

/-- `ROUND` of a profile (R128). -/
def profRound (p : Word) : Nat := field p 0 2
/-- `OVF` of a profile (R128). -/
def profOvf (p : Word) : Bool := bit p 2
/-- `GROUP` of a profile (R128). -/
def profGroup (p : Word) : Nat := field p 3 2
/-- The group size a profile names; 0 for none (R128). -/
def profG (p : Word) : Nat := match profGroup p with | 1 => 32 | 2 => 64 | 3 => 128 | _ => 0
/-- `SFMT` of a profile (R128). -/
def profSfmt (p : Word) : Nat := field p 5 2
/-- `SALT` of a profile (R128). -/
def profSalt (p : Word) : Nat := field p 16 16
/-- A profile that SETCAST accepts (R128, R197). -/
def profileOk (p : Word) : Bool :=
  decide (profRound p ≠ 3) && decide (profSfmt p ≠ 3) && decide (field p 7 9 = 0) && decide (field p 32 32 = 0)

/-- The rounding a profile gives the element of destination index `i` (R126-R128). -/
def profMode (p seed : Word) (i : Nat) : Round :=
  match profRound p with
  | 1 => .rtz
  | 2 => .stochastic (stochasticDraw seed (profSalt p) i)
  | _ => .rne

/-- One element's cast without group scales; equal types pass unchanged (R122). -/
def castCode (src dst : Ty) (p seed : Word) (i code : Nat) : Cast :=
  if src = dst then { code := code } else convert dst (profMode p seed i) (profOvf p) (codeVal src code)

/-- The scale formats' floating parameters: E5M3 and BF16 (R132). -/
def e5m3 : FloatFmt := ⟨5, 3, 15, .nanOnly⟩
/-- BF16 as a scale format. -/
def bf16 : FloatFmt := ⟨8, 7, 127, .ieee⟩

/-- emax of R131. -/
def emaxOf : Ty → Int
  | .e4m3 => 8 | .e5m2 => 15 | .e3m2 => 4 | .e2m3 => 2 | .e2m1 => 2 | .i8 => 6 | .i4 => 2 | _ => 0

/-- Qmax of R132: the largest finite value of a type. -/
def qmaxOf (t : Ty) : Nat × Nat :=
  match tyEncoding t with
  | .float f => match magVal f false (maxCode f) with | .fin _ n d => (n, d) | _ => (1, 1)
  | e => ((intRange e).2.toNat, 1)

/-- The magnitude of a value when it is finite. -/
def magOf : Val → Option (Nat × Nat)
  | .fin _ n d => some (n, d)
  | _ => none

/-- The larger of two fractions. -/
def fracMax (a b : Nat × Nat) : Nat × Nat := if a.1 * b.2 < b.1 * a.2 then b else a

/-- amax of a group of source codes; none when the group holds a NaN or an infinity (R130). -/
def amaxOf (t : Ty) : List Nat → Option (Nat × Nat)
  | [] => some (0, 1)
  | c :: cs =>
    match magOf (codeVal t c), amaxOf t cs with
    | some a, some b => some (fracMax a b)
    | _, _ => none

/-- The scale code of a group (R130-R132); `none` amax is the non-finite group. -/
def scaleOf (sfmt : Nat) (dst : Ty) (amax : Option (Nat × Nat)) : Nat :=
  match amax with
  | none => if sfmt = 2 then 0x7FC0 else 0xFF
  | some (0, _) => if sfmt = 2 then 0x3F80 else if sfmt = 1 then 0x78 else 0x7F
  | some (n, d) =>
    if sfmt = 0 then (min 127 (max (-127) (ilog2 n d - emaxOf dst)) + 127).toNat
    else
      let q := qmaxOf dst
      let f := if sfmt = 2 then bf16 else e5m3
      min (maxCode f) (roundMag f .up (n * q.2) (d * q.1))

/-- The value of a scale code (R131-R133). -/
def scaleVal (sfmt code : Nat) : Val :=
  match sfmt with
  | 0 => if code % 256 = 0xFF then .nan false else scaled false 1 ((code % 256 : Nat) - 127)
  | 1 => if code % 256 = 0xFF then .nan false else magVal e5m3 false (code % 256)
  | _ => floatVal bf16 (code % 65536)

/-- The quotient of an element by a finite, positive scale (R133). -/
def divVal (x s : Val) : Val :=
  match x, s with
  | .fin a n d, .fin _ n' d' => .fin a (n * d') (d * n')
  | v, _ => v

/-- The product of an element and a scale (R133). -/
def mulVal (x s : Val) : Val :=
  match x, s with
  | .nan a, .nan b | .nan a, .inf b | .nan a, .fin b _ _ | .inf a, .nan b | .fin a _ _, .nan b => .nan (xor a b)
  | .inf a, .inf b => .inf (xor a b)
  | .inf a, .fin b n _ => if n = 0 then .nan (xor a b) else .inf (xor a b)
  | .fin a n _, .inf b => if n = 0 then .nan (xor a b) else .inf (xor a b)
  | .fin a n d, .fin b n' d' => .fin (xor a b) (n * n') (d * d')

/-- Quantises an element under its group's scale; a group with a NaN scale is written as code 0 (R130, R133). -/
def quantise (src dst : Ty) (p seed : Word) (scale i code : Nat) : Cast :=
  match scaleVal (profSfmt p) scale with
  | .nan _ => { code := 0 }
  | s => convert dst (profMode p seed i) false (divVal (codeVal src code) s)

/-- Dequantises an element under its group's scale (R133). -/
def dequantise (src dst : Ty) (p seed : Word) (scale i code : Nat) : Cast :=
  convert dst (profMode p seed i) (profOvf p) (mulVal (codeVal src code) (scaleVal (profSfmt p) scale))

/-- The reduction operators (R144). -/
inductive Rop where
  | add | max | min
deriving DecidableEq, Repr

/-- The exact sum of two finite values, with the sign rule for zero (R145). -/
def addFin (a : Bool) (n d : Nat) (b : Bool) (n' d' : Nat) : Val :=
  let x : Int := (if a then -1 else 1) * ((n * d' : Nat) : Int)
  let y : Int := (if b then -1 else 1) * ((n' * d : Nat) : Int)
  let s := x + y
  .fin (if s = 0 then a && b && decide (n = 0) else decide (s < 0)) s.natAbs (d * d')

/-- A value is less than another; minus zero is less than plus zero (R145). -/
def lessVal : Val → Val → Bool
  | .inf true, .inf true => false
  | .inf true, _ => true
  | _, .inf true => false
  | _, .inf false => true
  | .inf false, _ => false
  | .fin a n d, .fin b n' d' =>
    let x : Int := (if a then -1 else 1) * ((n * d' : Nat) : Int)
    let y : Int := (if b then -1 else 1) * ((n' * d : Nat) : Int)
    decide (x < y) || (decide (x = y) && a && !b)
  | _, _ => false

/-- The floating combination of two codes (R145). -/
def combineFloat (f : FloatFmt) (op : Rop) (a b : Nat) : Nat :=
  let x := floatVal f a
  let y := floatVal f b
  match op, x, y with
  | _, .nan _, _ | _, _, .nan _ => nanCode f
  | .add, .inf s, .inf t => if s = t then a else nanCode f
  | .add, .inf _, _ => a
  | .add, _, .inf _ => b
  | .add, .fin s n d, .fin t n' d' => (toFloat f .rne true (addFin s n d t n' d')).code
  | .max, _, _ => if lessVal x y then b else a
  | .min, _, _ => if lessVal y x then b else a

/-- The combination of two codes of a reducible type (R144-R146). -/
def combine (t : Ty) (op : Rop) (a b : Nat) : Nat :=
  match tyEncoding t, op with
  | .float f, _ => combineFloat f op a b
  | _, .add => (a + b) % 2 ^ tyWidth t
  | .int w, .max => if signedOf a w < signedOf b w then b else a
  | .int w, .min => if signedOf b w < signedOf a w then b else a
  | _, .max => if a < b then b else a
  | _, .min => if b < a then b else a

/-- The bytes of a sector, lowest address first (R7, R285). -/
def sectorBytes (s : Sector) : List Byte := toBytes 32 s.toNat

/-- A sector of 32 bytes. -/
def bytesSector (bs : List Byte) : Sector := BitVec.ofNat 256 (fromBytes bs)

/-- The unit of a swap code in bytes and the offset each byte takes its value from (R142). -/
def swapFrom (code k : Nat) : Nat :=
  match code with
  | 1 => k - k % 2 + (1 - k % 2)
  | 2 => k - k % 4 + (3 - k % 4)
  | 3 => k - k % 8 + (7 - k % 8)
  | 4 => k - k % 4 + (k + 2) % 4
  | 5 => k - k % 8 + 2 * (3 - k % 8 / 2) + k % 2
  | _ => k

/-- Applies a `SWAP` code to a sector (R142). -/
def swapSector (code : Nat) (s : Sector) : Sector :=
  if code = 0 then s else
  let bs := sectorBytes s
  bytesSector ((List.range 32).map fun k => bs.getD (swapFrom code k) 0)

/-- The element codes of a unit: of one sector, or of one sector in each plane (R87, R88). -/
def unpackUnit (t : Ty) (ss : List Sector) : List Nat :=
  if tyPlanar t then
    (List.range 256).map fun e => fromPlanes e ss
  else
    let w := 8 * tyBytes t
    (List.range (tyPerSector t)).map fun e => fieldOf (ss.headD 0).toNat (w * e) w
where
  /-- The code of element `e`: bit k from plane k. -/
  fromPlanes (e : Nat) : List Sector → Nat
    | [] => 0
    | p :: ps => flag (p.getLsbD e) + 2 * fromPlanes e ps

/-- The sectors of a unit of element codes (R87, R88). -/
def packUnit (t : Ty) (es : List Nat) : List Sector :=
  if tyPlanar t then
    (List.range (tyPlanes t)).map fun k => BitVec.ofNat 256 (ofBits (es.map fun e => flag (e.testBit k)) 1)
  else [BitVec.ofNat 256 (ofBits es (8 * tyBytes t))]
where
  /-- Fields of `w` bits, the first in the lowest bits. -/
  ofBits (es : List Nat) (w : Nat) : Nat :=
    match es with
    | [] => 0
    | e :: es => e % 2 ^ w + 2 ^ w * ofBits es w

/-- The bytes an element list contributes to a CRC: codes packed at their width, first element lowest (R118, R232). -/
def streamBytes (t : Ty) (es : List Nat) : List Byte :=
  toBytes (tyWidth t * es.length / 8) (packUnit.ofBits es (tyWidth t))

end Sys2Proof.Machine
end

