-- ==== Sys2Proof/Machine/Codes.lean ====
section
/-!
DEFINITION. The fault codes of R378, the reports of remote refusals and the fault kinds' codes in the log.
-/

namespace Sys2Proof.Machine

/-- Fault codes (R378). -/
abbrev Code := BitVec 8
/-- R68. -/
abbrev ALIGN : Code := 0x01
/-- R54, R70-R74 and others. -/
abbrev RANGE : Code := 0x02
/-- R113-R115. -/
abbrev OVERLAP : Code := 0x03
/-- R79. -/
abbrev ZERO_STRIDE_WRITE : Code := 0x04
/-- R56-R65, R79, R83. -/
abbrev BAD_FORME : Code := 0x05
/-- R109-R111. -/
abbrev INDEX_RANGE : Code := 0x06
/-- R129, R144, R226. -/
abbrev CAST_ILLEGAL : Code := 0x07
/-- R185-R188 and others. -/
abbrev ILLEGAL_INSTR : Code := 0x08
/-- R170, R217, R269, R347. -/
abbrev CLASS_PRIV : Code := 0x09
/-- R135, R195. -/
abbrev SCALE_WINDOW : Code := 0x0A
/-- R380, R381, R384. -/
abbrev BUS_ERROR : Code := 0x10
/-- R380, R381, R384. -/
abbrev ECC_UNCORR : Code := 0x11
/-- R322, R338, R446. -/
abbrev LINK_LOST : Code := 0x12
/-- R381, R423. -/
abbrev HOST_TIMEOUT : Code := 0x13
/-- R45-R47. -/
abbrev FRAME_OVERRUN : Code := 0x18
/-- R264. -/
abbrev WAIT_TIMEOUT : Code := 0x19
/-- R233. -/
abbrev CHIME_UNDERFLOW : Code := 0x1A
/-- R262. -/
abbrev CHIME_FAR : Code := 0x1B
/-- R269, R273. -/
abbrev PEAL_NOT_ENROLLED : Code := 0x1C
/-- R272. -/
abbrev PEAL_TIMEOUT : Code := 0x1D
/-- R231. -/
abbrev CRC_MISMATCH : Code := 0x20
/-- R351-R359. -/
abbrev KEY_ABSENT : Code := 0x21
/-- R354, R360. -/
abbrev AUTH_FAIL : Code := 0x22
/-- R18, R392, R393. -/
abbrev INTERNAL : Code := 0x30

end Sys2Proof.Machine
end

