-- ==== Sys2Proof/Machine/Geometry.lean ====
section
/-!
DEFINITION. The sea of cells: roles, routers, hop counts, the path of a slug, and which cell serves a global
address (R10-R13, R23-R25, R52, R53).
-/

namespace Sys2Proof.Machine

/-- The number of cells (R11). -/
abbrev cellCount : Nat := 354
/-- The number of contexts (R149). -/
abbrev ctxCount : Nat := 1024
/-- The number of domains (R341). -/
abbrev domainCount : Nat := 256
/-- The number of Peal lines (R266). -/
abbrev lineCount : Nat := 16
/-- The number of chips a route table names (R320). -/
abbrev chipCount : Nat := 16384
/-- The number of core tiles of a chip (R12). -/
abbrev coreCount : Nat := 4608
/-- The number of channels of a cell (R171). -/
abbrev channelCount : Nat := 16

/-- The roles of cells (R10). -/
inductive Role where
  | c | m | l | h
deriving DecidableEq, Repr

/-- The role of a cell (R11). -/
def roleOf (cell : Nat) : Role :=
  if cell < 288 then .c else if cell < 336 then .m else if cell < 352 then .l else .h

/-- The half of a cell: East is true (R11). -/
def cellEast (cell : Nat) : Bool :=
  match roleOf cell with
  | .c => decide (144 ≤ cell)
  | .m => decide (312 ≤ cell)
  | .l => decide (344 ≤ cell)
  | .h => decide (cell = 353)

/-- The cells of one half, in ID order. -/
def cellsOfHalf (east : Bool) : List Nat := (List.range cellCount).filter fun c => cellEast c == east

/-- The half whose Belfry holds a context's table entry (R16). -/
def ctxEast (c : Nat) : Bool := decide (512 ≤ c)

/-- The half of a core (R12). -/
def coreEast (core : Nat) : Bool := decide (2304 ≤ core)

/-- A router position within a half (R11). -/
structure Router2 where
  east : Bool
  x : Nat
  y : Nat
deriving DecidableEq, Repr

/-- The global column of a router (R11). -/
def globalX (r : Router2) : Nat := 48 * flag r.east + r.x

/-- The data-mesh routers of a cell, in ascending x then y (R12). -/
def dataRouters (cell : Nat) : List Router2 :=
  let e := cellEast cell
  match roleOf cell with
  | .c =>
    let k := cell % 144
    [⟨e, 4 * (k % 12) + 1, 4 * (k / 12) + 1⟩]
  | .m =>
    let stack := (cell - 288) / 2
    let x := 8 * (stack % 6) + 4 * ((cell - 288) % 2)
    let y := if (stack / 6) % 2 = 0 then 0 else 47
    [⟨e, x, y⟩, ⟨e, x + 1, y⟩, ⟨e, x + 2, y⟩, ⟨e, x + 3, y⟩]
  | .l =>
    let y := 6 * ((cell - 336) % 8) + 2
    let x := if e then 47 else 0
    [⟨e, x, y⟩, ⟨e, x, y + 1⟩]
  | .h =>
    let x := if e then 47 else 0
    [⟨e, x, 23⟩, ⟨e, x, 24⟩]

/-- The control-network router of a cell (R12). -/
def ctlRouter (cell : Nat) : Router2 :=
  let e := cellEast cell
  match roleOf cell, dataRouters cell with
  | .m, _ :: r :: _ => r
  | _, r :: _ => r
  | _, [] => ⟨e, 0, 0⟩

/-- The absolute difference of two numbers. -/
def absDiff (a b : Nat) : Nat := (a - b) + (b - a)

/-- The hops between two routers (R24). -/
def hopsBetween (a b : Router2) : Nat := absDiff (globalX a) (globalX b) + absDiff a.y b.y

/-- The first pair with the fewest hops; pairs are listed in the order of preference among ties. -/
def bestPair (best : Router2 × Router2) : List (Router2 × Router2) → Router2 × Router2
  | [] => best
  | p :: ps => if hopsBetween p.1 p.2 < hopsBetween best.1 best.2 then bestPair p ps else bestPair best ps

/-- The injection and ejection routers used between two cells (R24). -/
def routerPair (a b : Nat) : Router2 × Router2 :=
  bestPair ((dataRouters a).headD (ctlRouter a), (dataRouters b).headD (ctlRouter b))
    ((dataRouters a).flatMap fun r => (dataRouters b).map fun t => (r, t))

/-- H of the distance table: the links a slug crosses; 0 within one cell (R20, R24). -/
def hops (a b : Nat) : Nat := if a = b then 0 else let p := routerPair a b; hopsBetween p.1 p.2

/-- H_ctl of the distance table (R24). -/
def ctlHops (a b : Nat) : Nat := hopsBetween (ctlRouter a) (ctlRouter b)

/-- S of the distance table: the path crosses the seam (R24). -/
def crossesSeam (a b : Nat) : Bool := cellEast a != cellEast b

/-- The position of a router among a cell's data routers, which numbers its mesh ports. -/
def portOf (cell : Nat) (r : Router2) : Nat := (dataRouters cell).findIdx (· == r)

/-- One link of the mesh: the router it leaves (half, x, y) and its direction: 0 east, 1 west, 2 south, 3 north. -/
abbrev Link := Nat × Nat × Nat × Nat

/-- The links of a row from global column `x`, `n` steps east or west. -/
def rowLinks (x y : Nat) (goEast : Bool) : Nat → List Link
  | 0 => []
  | n + 1 => (x / 48, x % 48, y, if goEast then 0 else 1) :: rowLinks (if goEast then x + 1 else x - 1) y goEast n

/-- The links of a column from row `y`, `n` steps south or north. -/
def columnLinks (x y : Nat) (south : Bool) : Nat → List Link
  | 0 => []
  | n + 1 => (x / 48, x % 48, y, if south then 2 else 3) :: columnLinks x (if south then y + 1 else y - 1) south n

/-- The path between two routers: along x first, crossing the seam on the source's row, then along y (R23). -/
def pathBetween (a b : Router2) : List Link :=
  rowLinks (globalX a) a.y (decide (globalX a < globalX b)) (absDiff (globalX a) (globalX b)) ++
    columnLinks (globalX b) a.y (decide (a.y < b.y)) (absDiff a.y b.y)

/-- The links a slug crosses between two cells (R23, R24). -/
def slugPath (a b : Nat) : List Link :=
  if a = b then [] else let p := routerPair a b; pathBetween p.1 p.2

/-- A link is the seam's: it leaves a half (R11). -/
def isSeamLink (l : Link) : Bool :=
  (l.1 == 0 && l.2.1 == 47 && l.2.2.2 == 0) || (l.1 == 1 && l.2.1 == 0 && l.2.2.2 == 1)

/-- The key of a link in the router table. -/
def linkKey (l : Link) : Nat := ((l.1 * 48 + l.2.1) * 48 + l.2.2.1) * 4 + l.2.2.2

/-- The chip a global address names (R52). -/
def addrChip (a : Word) : Nat := field a 50 14

/-- The spaces (R52). -/
inductive Space where
  | core | hbm | host | regs
deriving DecidableEq, Repr

/-- The space a global address names (R52). -/
def addrSpace (a : Word) : Space :=
  match field a 48 2 with
  | 0 => .core | 1 => .hbm | 2 => .host | _ => .regs

/-- The offset of a global address within its space (R52). -/
def addrOff (a : Word) : Nat := field a 0 48

/-- The C-cell of a core's cluster (R13). -/
def cellOfCore (core : Nat) : Nat :=
  (core / 2304) * 144 + ((core % 2304) / 48 / 4) * 12 + (core % 48) / 4

/-- The cores of a C-cell's cluster (R12). -/
def coresOfCell (cell : Nat) : List Nat :=
  let h := cell / 144
  let r := (cell % 144) / 12
  let c := cell % 12
  (List.range 16).map fun k => h * 2304 + (4 * r + k / 4) * 48 + 4 * c + k % 4

/-- The default host port of a home cell: the H-cell of its half (R13). -/
def defaultHost (home : Nat) : Nat := if cellEast home then 353 else 352

/-- log2 of the unit size of a space; the whole space for host (R53). -/
def unitLog : Space → Nat
  | .core => 24 | .hbm => 35 | .host => 48 | .regs => 16

/-- The populated limit within a unit (R53). -/
def populatedLimit : Space → Nat
  | .core => 0xC00000 | .hbm => 24000000000 | .host => 2 ^ 48 | .regs => 2 ^ 16

/-- The unit an offset lies in. -/
def unitOf (sp : Space) (off : Nat) : Nat := off >>> unitLog sp

/-- The cell that serves a unit of core local memory or HBM (R13). -/
def cellOfUnit (sp : Space) (u : Nat) : Nat :=
  match sp with
  | .core => cellOfCore u
  | .hbm => 288 + u
  | _ => 0

end Sys2Proof.Machine
end

