-- ==== Sys2Proof/Machine/State.lean ====
section
/-!
DEFINITION. The state of the Octeus: every register, queue, table, latch and mode the manual gives the
engine and its Belfries, the work in flight, and the queue of commands that wait. Plain data. Every
field's default is its reset value; a key that a sparse table does not list stands for the reset value.
-/

namespace Sys2Proof.Machine

/-- Why a step stops. Each stands for a command that the rules exclude in the present state; the engine's
own faults (R378) are latched in contexts and channels and stop nothing. -/
inductive Fault where
  /-- A command whose operand names no such context, cell, channel, line, domain or chip. Raised by every
  meaning with an index operand. Safe: the step stops where no hardware event exists (log 5). -/
  | badOperand
  /-- A timer command before its instant (TOLL_TICK before T_k, WAIT_TIMEOUT before WAIT_US has passed).
  Raised by the timer rows. Safe: the event cannot occur then (log 5). -/
  | notDue
  /-- An event about an order, access, slug, flit, window or stream that is not there. Raised by the arrival
  and response rows. Safe: nobody can deliver what was never sent (log 5). -/
  | noSubject
  /-- An event the rules exclude in the present state, such as the completion of an order that still has
  writes to make, or decoding an instruction of a context that issues nothing. Raised by the rows that
  report progress and by the Edlum rows. Safe (log 5). -/
  | outOfTurn
deriving DecidableEq, Repr

/-- Why a command has no meaning. -/
inductive Refusal where
  /-- The command of the opcode table named here has no meaning yet. Raised by Dispatch alone. Safe. -/
  | notModelled (mnemonic : String)
deriving DecidableEq, Repr

/-- The operating modes (R435). -/
inductive Mode where
  | init | test | run | recovery | detached
deriving DecidableEq, Repr

/-- RESULT of BELFRY.MODE (R436). -/
inductive ModeResult where
  | done | badMode | notFree | syncFail | belfryFailed
deriving DecidableEq, Repr

/-- The context states (R156). -/
inductive CtxState where
  | free | loaded | running | waiting | paused | halted | stopping
deriving DecidableEq, Repr

/-- OFF, STOPPING or ON, the state of a stoppable function (R389). -/
inductive Power where
  | off | stopping | on
deriving DecidableEq, Repr

/-- The states of a forme slot (R75). -/
inductive SlotState where
  | empty | valid | stale
deriving DecidableEq, Repr

/-- A forme slot (R75). -/
structure Slot where
  state : SlotState := .empty
  forme : Forme := {}
deriving DecidableEq, Repr

/-- The kinds of a fault (R378). -/
inductive FaultKind where
  | issue | late | halt | sync | chip | ending
deriving DecidableEq, Repr

/-- What keeps a context from issuing its next instruction: nothing, or the condition it waits on (R152,
R191, R211, R233, R37, R370). The read of a forme's image has a number and the accesses it has still to be granted (R168). -/
inductive Wait where
  | none
  | doorbell
  | chime
  | peal
  | toll (target : BitVec 16)
  | firstToll
  | drain (all : Bool)
  | fence (scope : Nat) (all : Bool) (cells : List Nat)
  | guarded
  | formeImage (slot : Nat) (addr : Word) (id left : Nat)
  | subResult
  | abandonReports (cells : List Nat)
deriving DecidableEq, Repr

/-- A 1 KiB instruction burst (R167): its address, the fault of a failed fetch (R380), its words. -/
structure Burst where
  addr : Word
  bad : Option (BitVec 8) := .none
  words : List Insn := []
deriving DecidableEq, Repr

/-- A fetch of a burst that a Compositor is making (R167, R168): its number, the burst's address, how many of its two accesses have been
granted, and whether it was made for a list that is over. -/
structure Fetch where
  id : Nat
  addr : Word
  granted : Nat := 0
  stale : Bool := false
deriving DecidableEq, Repr

/-- One grant of a grant list (R174). -/
structure Grant where
  first : Nat
  last : Nat
  channel : Nat
  work : Nat
  prefetch : Nat
deriving DecidableEq, Repr

/-- A context's settings for one channel (R149, R172). -/
structure RateSet where
  rate : Nat := 256
  budget : Nat := 0
deriving DecidableEq, Repr

/-- The synchronisation record (R275, R281): the pending or interrupted operation and its progress, and the lines the context is enrolled
on. `outstanding` is the number of the poll in flight. -/
structure SyncRec where
  op : Nat := 0
  index : Nat := 0
  addr : Word := 0
  target : BitVec 32 := 0
  last : BitVec 32 := 0
  since : Word := 0
  polls : Nat := 0
  lastPoll : Word := 0
  outstanding : Option Nat := .none
  round : BitVec 32 := 0
  enrolled : BitVec 16 := 0
deriving DecidableEq, Repr

/-- A LOAD, RESTORE, SAVE, PAUSE or ABORT still executing (R153, R361, R385). -/
inductive CtxCmd where
  | none | askedLoad (agent : Agent) | askedRestore (agent : Agent) | load | restore | pause
deriving DecidableEq, Repr

/-- The registers of a context (R150, R151, R152, R213; FAULT_PC of Faults, halts and recovery). -/
structure CtxRegs where
  config : Word := 0
  queue : Word := 0
  galleyList : Word := 0
  imageAddr : Word := 0
  seed : Word := 0
  state : CtxState := .free
  cmd : CtxCmd := .none
  cmdIgnored : Bool := false
  cmdResult : BitVec 8 := 0
  fault : BitVec 8 := 0
  faultKind : FaultKind := .issue
  faultByInsn : Bool := true
  rearm : Bool := false
  doorbellReject : Bool := false
  head : Nat := 0
  tail : Nat := 0
  faultPc : Word := 0
  lastDropped : Nat := 0
deriving DecidableEq, Repr

/-- A context (R149): its registers, its program's state and what it waits for. `prevDeadline` are the channels' last deadlines of frame
`prevFrame` (R42), `tollHold` a wait for the next Toll after RESUME (R386), `floorHold` tells that it has not issued anything since its doorbell and
needs the floor for it (R370). -/
structure Ctx where
  regs : CtxRegs := {}
  epoch : BitVec 32 := 0
  pc : Word := 0
  listBase : Word := 0
  listCount : Nat := 0
  bursts : List Burst := []
  fetches : List Fetch := []
  slots : Tab Slot := []
  profiles : Tab Word := []
  loops : Tab (BitVec 32) := []
  calls : List Word := []
  seed : Word := 0
  phase : BitVec 32 := 0
  rates : Tab RateSet := []
  halves : BitVec 16 := 0
  prevDeadline : Tab Nat := []
  prevFrame : Nat := 0
  mark : Option (BitVec 32) := .none
  sync : SyncRec := {}
  wait : Wait := .none
  tollHold : Bool := false
  floorHold : Bool := false
  grants : List Grant := []
  lendSince : Option Word := .none
deriving DecidableEq, Repr

/-- A range-table entry (R342). -/
structure Range where
  base : Word := 0
  last : Word := 0
  rd : Bool := false
  wr : Bool := false
  excl : Bool := false
  valid : Bool := false
deriving DecidableEq, Repr

/-- A domain (R341, R349, R357, BELFRY.DOMd.CTRL, BELFRY.DOMd.DUMP_ADDR). -/
structure Domain where
  current : Tab Range := []
  staged : Tab Range := []
  lock : Bool := false
  key : Option (BitVec 256) := .none
  keyGen : BitVec 32 := 0
  reject : Bool := false
  rejectCause : Nat := 0
  dumpAddr : Word := 0
  dumpWritten : Bool := false
  sealBase : Word := 0
  sealBlocks : Nat := 0
  tagBase : Word := 0
  sealGen : Nat := 0
deriving DecidableEq, Repr

/-- A galley slice (R175, R361): the context and channel, or the remote pool's chip and domain, that holds it;
the domain it was last granted to; whether it is being scrubbed. -/
structure Slice where
  owner : Option (Nat × Nat) := .none
  forPrefetch : Bool := false
  remote : Option (Nat × Nat) := .none
  lastDomain : Option Nat := .none
  scrubbing : Bool := false
deriving DecidableEq, Repr

/-- A channel's registers at a cell (R171, R382, R390, R466; fault registers of R381) and its scale registers
(R136, R362). -/
structure Chan where
  prio : Nat := 0
  enable : Bool := true
  state : Power := .on
  rearm : Bool := false
  halted : Bool := false
  pausing : Bool := false
  paused : Bool := false
  dir : Bool := false
  fault : BitVec 8 := 0
  ctx : Nat := 0
  cmdIgnored : Bool := false
  haltedInsn : Option Nat := .none
  faultAddr : Word := 0
  faultPc : Word := 0
  progress : Word := 0
  nextSrc : Word := 0
  nextDst : Word := 0
  scales : Tab (BitVec 16) := []
  scaleDomain : Option Nat := .none
deriving DecidableEq, Repr

/-- An event counter with its selector and snapshot (R400-R407). -/
structure Counter where
  select : BitVec 32 := 0
  count : Nat := 0
  ovf : Bool := false
  snap : Nat := 0
  snapOvf : Bool := false
deriving DecidableEq, Repr

/-- The six activity counts of one phase tag (R366). -/
structure Activity where
  tag : BitVec 32
  reads : Nat := 0
  writes : Nat := 0
  beats : Nat := 0
  galley : Nat := 0
  caster : Nat := 0
  tiles : Nat := 0
deriving DecidableEq, Repr

/-- The impression ring of a cell (R408-R410). -/
structure Impressions where
  interval : Nat := 0
  stopMode : Bool := false
  full : Bool := false
  count : BitVec 32 := 0
  lost : Nat := 0
  time : Word := 0
  since : Nat := 0
  ring : Tab (List Word) := []
deriving DecidableEq, Repr

/-- The wear gauges of a cell (R411-R414) and the history of the used fraction: the reference time in ns, and U as a numerator and a
denominator. -/
structure Wear where
  used : Nat := 0
  daysNow : Nat := 0xFFFF
  daysRated : Nat := 2190
  limit : Nat := 0
  drift : Word := 0
  em : Word := 0
  tt : Word := 0
  last : Option Word := .none
  history : List (Word × Nat × Nat) := []
deriving DecidableEq, Repr

/-- The stages of a cell at which requests are arbitrated (R301): the three classes of the attachment port,
the injection ports, the ejection ports, the datapath and the impose unit. -/
inductive Stage where
  | read | write | remote | inject (port : Nat) | eject (port : Nat) | datapath | impose
deriving DecidableEq, Repr

/-- What a cell's arbitration remembers (R306-R308): the last requester granted at each stage, the slug in
progress at a port with its beats left, the tile or slug that holds the datapath and the impose unit. -/
structure Arb where
  lastGrant : List (Stage × Nat) := []
  busy : List (Stage × Nat × Nat) := []
  datapath : Option Nat := .none
  impose : Option (Nat × Nat) := .none
  parkedTile : Option (Nat × Nat) := .none
deriving DecidableEq, Repr

/-- A late instruction as a cell records it (R45). -/
structure Late where
  insn : Nat
  ctx : Nat
  pc : Word
  ch : Nat
deriving DecidableEq, Repr

/-- A cell (R10-R15): its registers, its channels and what it is doing. `owed` counts service accesses already made whose slot is still to be
taken (R259, R302), `fetchWait` is the wait counter of the fetches of contexts without a deadline (R168). -/
structure Cell where
  enable : Bool := true
  state : Power := .on
  rearm : Bool := false
  retired : Bool := false
  degraded : Bool := false
  corrGalley : Nat := 0
  corrSideband : Nat := 0
  corrCtl : Nat := 0
  corrLink : Nat := 0
  events : List Nat := []
  healthTolls : Nat := 0
  shareRead : Nat := 112
  shareWrite : Nat := 112
  shareRemote : Nat := 32
  splitReject : Bool := false
  remoteSlices : Option Nat := .none
  readTimeoutUs : Nat := 20
  readRetries : Nat := 2
  linkUp : Bool := false
  upFrom : Nat := 0
  suspect : Bool := false
  authFails : Nat := 0
  refSnap : Word := 0
  counters : Tab Counter := []
  imp : Impressions := {}
  wear : Wear := {}
  activity : List Activity := []
  slices : Tab Slice := []
  chans : Tab Chan := []
  tollCount : Nat := 0
  lastServed : Nat := 0
  decode : Option Nat := .none
  guardList : List Late := []
  arb : Arb := {}
  owed : Nat := 0
  fetchWait : Nat := 0
  injected : Option Inject := .none
  lend : Bool := false
  reported : Nat := 0
deriving DecidableEq, Repr

/-- A participant of a Peal line (R266, R270): who it is, the first round it takes part in, the next round it enters, and for the even and
the odd wire the round its input is raised for. Its entry may be held (R267), or it has taken its arrival back after this chip had sent its own
up the tree (R271). -/
structure Participant where
  party : Party
  firstRound : BitVec 32 := 0
  next : BitVec 32 := 0
  even : Option (BitVec 32) := .none
  odd : Option (BitVec 32) := .none
  held : Bool := false
  withdrawn : Bool := false
deriving DecidableEq, Repr

/-- The states of a Peal line (BELFRY.PEALn.CONFIG). -/
inductive LineState where
  | off | stopping | on | failed
deriving DecidableEq, Repr

/-- A Peal line (R266-R274): registers, participants, the released round not yet delivered to each cell, and
the tree levels of a system line (R274, R340): by wire, the children that have arrived in the open round, and those that have
not yet left a released one (R267). -/
structure Line where
  domain : Nat := 0
  system : Bool := false
  enable : Bool := false
  state : LineState := .off
  rearm : Bool := false
  parent : Nat := 31
  children : BitVec 16 := 0
  depth : Nat := 0
  round : BitVec 32 := 0
  stalls : Nat := 0
  stallsOvf : Bool := false
  parties : List Participant := []
  firstArrival : Option Word := .none
  nextArrival : Option Word := .none
  childEven : BitVec 16 := 0
  childOdd : BitVec 16 := 0
  staleEven : BitVec 16 := 0
  staleOdd : BitVec 16 := 0
  sentUp : Bool := false
  deliver : List Nat := []
deriving DecidableEq, Repr

/-- PEER of a route entry (R324, R338, R339). -/
inductive Peer where
  | none | opened | lost | gone
deriving DecidableEq, Repr

/-- A route entry (BELFRY.ROUTEc). -/
structure Route where
  bits : BitVec 18 := 0
  useAlt : Bool := false
  peer : Peer := .none
deriving DecidableEq, Repr

/-- An item the owner of a stream holds until it is acknowledged (R325): the instruction it belongs to, the context of
this chip that it serves, if it is not a report, and the pools of the galley slots it holds. -/
structure Held where
  item : Item
  insn : Option Nat := .none
  ctx : Option Nat := .none
  credits : List Nat := []
deriving DecidableEq, Repr

/-- A running timer: its start, and its length in µs as it was set then. -/
structure Timer where
  since : Word := 0
  us : Nat := 0
deriving DecidableEq, Repr

/-- The outbound stream to a chip (R323-R338, R353): `held` are the items sent and not acknowledged, `waiting` those not yet
sent. The timers run since the window last advanced or the items were sent again (R336), since an OPEN was sent (R324), since anything was
sent (R324), and since the window last advanced (R338); `resent` tells that items were sent again under R336. -/
structure OutStream where
  nextSeq : BitVec 32 := 0
  wraps : Nat := 0
  opening : Bool := false
  refused : Bool := false
  owner : Nat := 336
  window : Nat := 0
  acked : BitVec 32 := 0xFFFFFFFF
  held : List Held := []
  waiting : List Held := []
  resendTimer : Timer := {}
  openTimer : Timer := {}
  idleTimer : Timer := {}
  lostTimer : Timer := {}
  resent : Bool := false
  closed : Bool := false
deriving DecidableEq, Repr

/-- How far a chip's sequence towards this chip has been heard (R324, R353): the incarnation, the next sequence, and its wrap
count. It outlives the windows. -/
structure SeqHeard where
  incarnation : BitVec 16 := 0
  next : BitVec 32 := 0
  wraps : Nat := 0
deriving DecidableEq, Repr

/-- The inbound window of a chip's stream (R324-R328, R354); `wraps` is the sender's wrap count at sequence h + 1. `group` are the items of a
seal group that is not complete, `ready` those of a group that has been opened and that are not yet handed on, which the window cell
holds in its remote pool (R330). -/
structure Window where
  cell : Nat
  incarnation : BitVec 16
  h : BitVec 32
  wraps : Nat := 0
  group : List Item := []
  ready : List Item := []
  handed : Nat := 0
  lastAck : Word := 0
  arrived : Bool := false
deriving DecidableEq, Repr

/-- A destination of an issued instruction: its cell, its branch, and whether it has completed or been skipped
there, and whether the home Compositor knows (R19, R221, R383). -/
structure Part where
  cell : Nat
  branch : Nat := 0
  done : Bool := false
  skipped : Bool := false
  known : Bool := false
  at_ : Word := 0
deriving DecidableEq, Repr

/-- Why an instruction's orders are parked, or are to be parked (R360, R381, R382, R385): a halt at a cell, a channel
PAUSE at a cell, a context PAUSE, or a failure at a cell that ends it once what came before has been written. -/
inductive ParkReason where
  | halt (cell : Nat) | channel (cell : Nat) | context | fail (cell : Nat)
deriving DecidableEq, Repr

/-- A stop of an instruction's transfer: nothing is read at or beyond stream position `limit`, everything below the
progress point `progress` is written, and `parked` tells that this has come about; `under` tells
of a halt that a context PAUSE parks the instruction too; a halt's code, direction and address (R102, R381, R385). -/
structure Stop where
  reason : ParkReason
  limit : Nat
  progress : Nat
  parked : Bool := false
  under : Bool := false
  code : BitVec 8 := 0
  dir : Bool := false
  addr : Word := 0
deriving DecidableEq, Repr

/-- The remote end of an instruction's life: what its stream items still owe, and when it completed there (R19, R38, R293, R338). -/
structure RemoteDue where
  chip : Nat
  completion : Bool := true
  performed : Bool := true
  at_ : Word := 0
deriving DecidableEq, Repr

/-- An issued instruction: what its orders captured and what has become of it (R19, R45, R211, R383). `index` holds the
index values once read, `indexCells` the cells that have checked them, `indexAt` the sectors of the index forme asked
for (R111). `origin` is the chip and number of an instruction that another chip issued, `ranks` the numbers that chip gives
the sources read here, `refusedAt` the stream positions of items refused (R328), `waits` the reference ns it has waited at each stage (R410). -/
structure Flight where
  id : Nat
  job : Job
  origin : Option (Nat × Nat) := .none
  ranks : List Nat := []
  refusedAt : List Nat := []
  srcCells : List Nat := []
  parts : List Part := []
  remotes : List RemoteDue := []
  index : Option (List Nat) := .none
  indexCells : List Nat := []
  indexAt : Nat := 0
  indexData : Tab Sector := []
  from_ : Nat := 0
  stop : Option Stop := .none
  ended : Option (BitVec 8) := .none
  skipped : Bool := false
  dropped : Bool := false
  kept : Bool := false
  complete : Bool := false
  waits : Tab Nat := []
  preempted : Bool := false
deriving DecidableEq, Repr

/-- Where an order stands at its channel (R21, R173): on the control network, held back by credits, in the shadow
set, in the active set, or out of it with a last write that is still to be answered. -/
inductive Place where
  | sent | held | shadow | active | left
deriving DecidableEq, Repr

/-- What a slug carries: the rank it belongs to, its elements by stream position in the stream type (R118), and
group scales by group number (R137). -/
structure SlugData where
  rank : Nat := 0
  elems : List (Nat × Nat) := []
  scales : List (Nat × Nat) := []
deriving DecidableEq, Repr

/-- A destination's place in its write order (R99, R100, R102): for a straight transfer the stream position `n` of
the next unit; for a corner turn the tile (`o`, `b`, `q`) and the next unit `w` within it. -/
structure WritePos where
  n : Nat := 0
  o : Nat := 0
  b : Nat := 0
  q : Nat := 0
  w : Nat := 0
deriving DecidableEq, Repr

/-- A sector write: of an order's data, or an auxiliary one it still has to make, a CRC record, scales, fetched values or a sealed
block's tag record (R137, R230, R232, R360). `unit` numbers the destination unit where units may share bytes (R80). -/
structure AuxWrite where
  sector : Nat
  data : Sector
  unit : Option Nat := .none
deriving DecidableEq, Repr

/-- A destination read-modify-write in progress (R229): its lane, the stream positions of its units, its sectors, how many of
them have been asked for, and the old sectors that have been read. -/
structure Rmw where
  lane : Nat
  next : WritePos
  positions : List Nat
  sectors : List Nat
  asked : Nat := 0
  got : Tab Sector := []
deriving DecidableEq, Repr

/-- The sectors that remain of a lane's data write whose planes lie in several 512-byte blocks, where the lane goes on after it,
and the fetch writes that follow (R230, R416). -/
structure PartWrite where
  lane : Nat
  next : WritePos
  ws : List AuxWrite
  fetch : List AuxWrite := []
deriving DecidableEq, Repr

/-- A slug whose galley slot a destination holds until its elements have been written (R177): its rank, its first and last stream
position (none of a slug of scales), and the pool of its credit. -/
structure Taken where
  rank : Nat
  first : Nat
  last : Nat
  pool : Nat
deriving DecidableEq, Repr

/-- A write an order has granted and not yet seen answered: its access, its lane (none for an auxiliary write), and
where that lane goes on once the write is answered. -/
structure Writing where
  tag : Nat
  lane : Option Nat := .none
  next : WritePos := {}
deriving DecidableEq, Repr

/-- A write answered with an error, which RESUME repeats first (R381, R382): its tag, the cell, what it writes, its
lane and where that lane goes on, and the stream position it stands for. -/
structure FailedWrite where
  tag : Nat
  cell : Nat
  ws : List AuxWrite
  lane : Option Nat := .none
  next : WritePos := {}
  pos : Nat := 0
deriving DecidableEq, Repr

/-- A slug position whose credit a source holds before it reads (R177): the rank, the stream position at which the slug
begins, the destination cell, and the pool the credit is of; a piece of the stream that no cell needs holds none. -/
structure Credit where
  rank : Nat
  start : Nat
  cell : Nat := 0
  pool : Option Nat := .none
deriving DecidableEq, Repr

/-- A slug made and not yet sent: its destination cell, its content, and the pool of the credit held for it. -/
structure Staged where
  cell : Nat
  data : SlugData
  pool : Option Nat := .none
deriving DecidableEq, Repr

/-- What an outstanding attachment access is for (R416-R418): source data by read step, a sealed block's tag record, a
read-modify-write's old data, an index or scale forme, a write, or data that nobody wants any more. -/
inductive AccessKind where
  | source (insn : Nat) (keys : List Nat)
  | tag (insn block : Nat)
  | modify (insn : Nat)
  | index (insn : Nat)
  | scale (insn : Nat) (keys : List Nat)
  | put (insn : Nat)
  | discard
deriving DecidableEq, Repr

/-- A read answered with an error, which RESUME repeats first (R382): what it is for and its sectors. -/
structure ReadAgain where
  kind : AccessKind
  sectors : List Nat
deriving DecidableEq, Repr

/-- An order at a cell (R20, R21, R173): the instruction it belongs to, its place, the number it was accepted under,
its deadline, rate limiters and wait counters (R304, R305), and its progress as source and as destination. As a
source, by rank: `rd` counts the read steps granted, `emit` is the stream position of the next slug, `opened` the
slugs whose credits are held; `pass` and `window` serve a quantising MOVE (R138); `out` holds slugs not yet sent, those
an MCAST retains among them (R334). As a destination: `elems` holds what arrived by position and rank, a lane is a
branch of an MCAST or a rank of an unordered REDUCE, `turned` the tile of a lane that the impose unit has turned. The
beats count what the datapath has done of the slug in hand (R308). `taken` are the slugs whose galley slots it holds, `indexHeld` the
pools of the slots that its index values hold (R111, R177). `joined` is the end of the slug of each rank whose planes have been joined, `splitAt` the
stream position up to which a lane's elements have been split into planes (R95, R118). `rest` is what remains of a data write in
several accesses; `failed` is a write and `readAgain` a read that RESUME repeats first, `reread` the keys of the latter (R382); `wrote`
gives for the sectors that units may share the unit that wrote each last (R80). `stopped` is set between an abandon flit and the
outcome of the reports (R211). -/
structure Order where
  insn : Nat
  cell : Nat
  ch : Nat
  ctx : Nat
  isSrc : Bool := false
  isDst : Bool := false
  place : Place := .sent
  accepted : Nat := 0
  deadline : Nat := 0xFFFFF
  accRead : Nat := 1024
  accWrite : Nat := 1024
  accInject : Tab Nat := []
  waitRead : Nat := 0
  waitWrite : Nat := 0
  waitInject : Tab Nat := []
  waitPath : Nat := 0
  waitTile : Nat := 0
  heldRead : Bool := false
  rd : Tab Nat := []
  emit : Tab Nat := []
  opened : List Credit := []
  pass : Nat := 0
  window : Nat := 0
  sectors : Tab Sector := []
  scales : Tab (BitVec 16) := []
  scaleSectors : Tab Sector := []
  scaleAt : Nat := 0
  scalesSent : Bool := false
  tags : Tab Sector := []
  out : List Staged := []
  srcBeats : Nat := 0
  dstBeats : Nat := 0
  turned : Tab WritePos := []
  joined : Tab Nat := []
  splitAt : Tab Nat := []
  words : Tab Word := []
  arrived : List (SlugData × Nat) := []
  elems : Tab Nat := []
  taken : List Taken := []
  indexHeld : List Nat := []
  lanes : Tab WritePos := []
  rmw : Option Rmw := .none
  writing : Option Writing := .none
  rest : Option PartWrite := .none
  failed : Option FailedWrite := .none
  readAgain : Option ReadAgain := .none
  reread : List Nat := []
  wrote : Tab Nat := []
  aux : List AuxWrite := []
  auxDone : List Nat := []
  auxMade : Bool := false
  sealedData : Tab Sector := []
  begun : Bool := false
  stopped : Bool := false
  finished : Bool := false
  gated : Option Word := .none
deriving DecidableEq, Repr

/-- An outstanding attachment access: its tag, cell, kind, context, its instruction's address, the sectors it names, what it writes and, for a
host read, when it was issued and how often it has been tried (R416, R423). -/
structure Access where
  tag : Nat
  cell : Nat
  kind : AccessKind
  ctx : Nat := 0
  pc : Word := 0
  prefetch : Bool := false
  isWrite : Bool := false
  sectors : List Nat := []
  data : List Sector := []
  units : List (Option Nat) := []
  issued : Word := 0
  tries : Nat := 0
deriving DecidableEq, Repr

/-- An outstanding register access of a transfer end in register space (R468): one 64-bit word. -/
structure RegAccess where
  id : Nat
  insn : Nat
  cell : Nat
  isWrite : Bool
  word : Nat
  key : Nat
  data : Word := 0
deriving DecidableEq, Repr

/-- A chime or SIGNAL update on its way (R220, R233, R287): the word, the operation, the cell it starts from, the
number below which accesses of its context at that cell must be performed first, the instruction below which orders must
have left it (R182), the flushing read it waits for,
whether a SUB's result is awaited, whether a PREFETCH-marked instruction made it, and whether it is at the cell that serves its word.
`origin` is the chip an item brought it from, `farId` its number there (R284), `epoch` its context's there, `pc` its instruction (R379). -/
structure ChimePend where
  id : Nat
  addr : Word
  op : ChimeOp
  amount : BitVec 32
  ctx : Nat
  tag : BitVec 32 := 0
  cell : Nat
  guard : Nat
  before : Nat := 0
  flush : Option Nat := .none
  wantsResult : Bool := false
  epoch : BitVec 32 := 0
  prefetch : Bool := false
  here : Bool := false
  origin : Option Nat := .none
  farId : Option Nat := .none
  pc : Word := 0
deriving DecidableEq, Repr

/-- A chime or SIGNAL update that has gone to another chip and of which no report has come back (R284, R293): its number, the chip, its
context, its instruction with the address. -/
structure Distant where
  id : Nat
  chip : Nat
  ctx : Nat
  insn : Nat
  prefetch : Bool := false
  pc : Word := 0
deriving DecidableEq, Repr

/-- A host write that has completed and that no flushing read covers yet, and its instruction (R284, R288). -/
structure HostWrite where
  id : Nat
  cell : Nat
  ctx : Nat
  sector : Nat
  insn : Nat := 0
  prefetch : Bool := false
deriving DecidableEq, Repr

/-- A flushing read (R288): its cell, its sector, the host writes it covers (numbered below `upto`), its context,
when it was issued and how often it has been tried (R423). -/
structure Flush where
  id : Nat
  cell : Nat
  ctx : Nat
  sector : Nat
  upto : Nat
  issued : Word := 0
  tries : Nat := 0
deriving DecidableEq, Repr

/-- A slug in the mesh (R427, R428): the links still to cross, the input at which it stands at its present router (the
direction of the link it came over, or for an injection the side of the router its cell uses, R12), the phase tag it counts under (R367), whether it is in the elastic buffer of
the seam link it came over (R374), its wait
counter there (R305), and whether it has been ejected. `chime` names the update that a one-beat slug carries (R220), `record` the CRC record
that an L-cell sends (R232). Slugs are listed in the order in which they reached where they stand. -/
structure Slug where
  id : Nat
  insn : Nat
  src : Nat
  dst : Nat
  ch : Nat
  ctx : Nat
  epoch : BitVec 32
  deadline : Nat
  beats : Nat
  data : SlugData
  pool : Nat
  path : List (Nat × Nat × Nat × Nat) := []
  input : Nat := 4
  tag : BitVec 32 := 0
  seam : Bool := false
  wait : Nat := 0
  ejected : Bool := false
  chime : Option Nat := .none
  record : List AuxWrite := []
deriving DecidableEq, Repr

/-- A CRC record that has reached the cell of its record forme and waits for a slot there (R232): its number, the instruction, the
cell, its wait counter there (R305), and what it writes. -/
structure Errand where
  id : Nat
  insn : Nat
  cell : Nat
  wait : Nat := 0
  ws : List AuxWrite
deriving DecidableEq, Repr

/-- A router output of the mesh (R301, R307): the slug in progress with its beats left, and the input served last. -/
structure Router where
  slug : Option (Nat × Nat) := .none
  lastInput : Nat := 4
deriving DecidableEq, Repr

/-- A credit pool of a destination's slices (R177-R180): the cell, context, channel and queue (0 and 1 the halves of
Pair mode, 2 the Lead queue, 3 the PREFETCH queue), its size, the credits free and those on their way back. -/
structure Pool where
  id : Nat
  cell : Nat
  ctx : Nat
  ch : Nat
  queue : Nat
  size : Nat
  free : Nat
  returning : Nat := 0
deriving DecidableEq, Repr

/-- A message on the control network (R430). A poll has a number here, a poll and its result the number of the chip that asks, and a context, or from 1,024 up the context of another
chip: 262,144 x (chip + 1) + 1,024 x domain + context. A halt notice carries the instruction, the halting cell, the code and the
failing address. -/
inductive Body where
  | haltNotice (insn : Late) (halted : Nat) (code : BitVec 8) (addr : Word)
  | completion (insn : Nat) (skipped : Bool)
  | remoteDone (insn chip : Nat) (at_ : Word)
  | poll (id ask c : Nat) (addr : Word) (take : Option (BitVec 32)) (epoch : BitVec 32)
  | pollResult (id c : Nat) (value : BitVec 32) (took : Bool) (fault : BitVec 8)
  | subResult (c : Nat) (fault : BitVec 8)
  | refusal (c : Nat) (insn : Option Nat) (code : BitVec 8) (ends : Bool) (pc : Word)
  | index (insn : Nat)
  | abandon (c : Nat) (epoch : BitVec 32)
  | abandonReport (c : Nat) (epoch : BitVec 32) (begun : List Nat)
  | overrun (late : List Late)
deriving DecidableEq, Repr

/-- A control message with its virtual channel (0 request, 1 response, 2 Belfry), source and destination. -/
structure Msg where
  vc : Nat
  src : Nat
  dst : Nat
  body : Body
deriving DecidableEq, Repr

/-- Who a fault-log entry, strike or dump names; the causes that start a proof dump (R277, R280). -/
inductive Trigger where
  | command
  | overrun (c : Nat)
  | waitTimeout (c : Nat)
  | pealTimeout (line : Nat)
deriving DecidableEq, Repr

/-- A proof dump being written (R277-R282): its sequence number, triggers, and each domain's captured records
and header. -/
structure Dump where
  seq : Nat
  triggers : List Trigger
  parts : List (Nat × List Byte × List Byte)
deriving DecidableEq, Repr

/-- A pending DAMPER action (R405): 1 FREEZE, 2 THAW, 3 SNAPSHOT, and its instant. -/
structure Damper where
  op : Nat
  instant : Word
deriving DecidableEq, Repr

/-- An ATTACH in progress (R443): the mode it came from, the instant it must be locked by, whether the step has
been made, the master's Toll period, base, and, once locked, the entry Toll. -/
structure Attach where
  fromMode : Mode
  limit : Word
  stepped : Bool := false
  period : Nat := 0
  base : Word := 0
  entry : Option (Nat × Word) := .none
deriving DecidableEq, Repr

/-- A DETACH in progress (R445): whether the contexts have stopped at the boundary, and the limit of steps 2-4. -/
structure Detach where
  stopped : Bool := false
  limit : Word := 0
deriving DecidableEq, Repr

/-- The signals of one half's power port and clock (R370, R372, R432), whether a step that the stretch holds back is towards a lower clock, and
what the cells measure of the clock (R309): when the last engine cycle was, and how many reference ns after the one before (R410). -/
structure Clock where
  floorOk : Bool := true
  stretch : Bool := false
  stepping : Bool := false
  stepHeld : Bool := false
  heldLower : Bool := false
  stretchFell : Option Word := .none
  cycles : Nat := 0
  cycleAt : Option Word := .none
  span : Nat := 0
  measure : Option (Word × Nat) := .none
  per256 : Nat := 0
deriving DecidableEq, Repr

/-- Signals that leave the block at a port and have no other home in the state: strikes (R221, R22), CHG
strobes (R261), activity reports (R365, R432), key-port answers (R433), frames to link controllers (R425). -/
inductive Out where
  | strike (cell : Nat) (cores : List Nat) (ctx : Nat)
  | chg (core chime : Nat)
  | activity (cell : Nat) (endTime : Word) (records : List Activity)
  | keyAnswer (refused : Bool) (cause : Nat)
  | linkFrame (link chip : Nat) (item : Item)
  | linkControl (link chip kind : Nat) (value : BitVec 32)
  | peal (link line : Nat) (odd : Bool) (kind : PealFlit)
  | pealFailed (line core : Nat)
  | pealRelease (line core : Nat)
  | lend (cell : Nat) (high : Bool)
  | hostRead (cell : Nat) (tag : Nat)
deriving DecidableEq, Repr

/-- A fault log (R398): entries ever written and the ring. -/
structure Flog where
  count : BitVec 32 := 0
  ring : Tab (List Word) := []
deriving DecidableEq, Repr

/-- The registers that each Belfry has of its own, class H of R453. -/
structure HalfRegs where
  daysMin : Nat := 0
  usedMax : Nat := 0xFFFF
  alarm : Bool := false
  alarmCell : Nat := 0
  flog : Flog := {}
  seesWestFailed : Bool := false
  seesEastFailed : Bool := false
  lastBeat : Word := 0
  counters : Tab Counter := []
  clock : Clock := {}
  tollCount : Nat := 0
deriving DecidableEq, Repr

/-- The chip-wide registers of the Belfries, class C of R453, and the fused contents, class F. -/
structure Regs where
  mode : Mode := .init
  busy : Bool := true
  result : ModeResult := .done
  modeIgnored : Bool := false
  chipId : Nat := 0
  master : Bool := false
  standalone : Bool := false
  nextInc : BitVec 16 := 0
  attachMs : Nat := 100
  detachUs : Nat := 10000
  fuseOk : Bool := false
  mbistDone : Bool := false
  mbistFails : Nat := 0
  initUs : BitVec 32 := 0
  grade : Nat := 0
  good : BitVec 4608 := 0
  fusedGood : BitVec 4608 := 0
  driftLimit : Nat := 0
  emBudget : Nat := 0
  waitLimit : Nat := 32
  cueGate : Bool := true
  waitUs : Nat := 10000
  pealUs : Nat := 10000
  lendUs : Nat := 2
  window : Nat := 1048576
  threshold : Nat := 16
  ackUs : Nat := 50
  lostUs : Nat := 5000
  idleUs : Nat := 100
  incarnation : BitVec 16 := 0
  routeReject : Bool := false
  openRefused : Nat := 0
  scan : Bool := false
  powered : Bool := false
deriving DecidableEq, Repr

/-- Reference time and the Toll (R27-R51). `next` numbers the next Toll and does not wrap, `pulses` are the cells that the last Toll's pulse has
not reached, `lates` the late instructions reported for it, `heldPulses` the contexts that own some and that the pulse has found (R45, R46). -/
structure Time where
  ref : Word := 0
  skews : Tab Int := []
  refCyc : Word := 0
  offset : Option Int := .none
  sinceCorrection : Nat := 10000
  periodUs : Nat := 50
  pendingPeriod : Option Nat := .none
  running : Bool := false
  periodReject : Bool := false
  syncLocked : Bool := false
  syncLost : Bool := false
  overruns : Nat := 0
  count : Nat := 0
  base : Word := 0
  next : Nat := 0
  pulses : List Nat := []
  lates : List Late := []
  heldPulses : List Nat := []
deriving DecidableEq, Repr

/-- Proof dumps and DAMPER (R277-R282, R405-R407). -/
structure Instruments where
  dump : Option Dump := .none
  merged : List Trigger := []
  dropped : Nat := 0
  dumpSeq : Nat := 0
  damperAt : Word := 0
  damperLast : Word := 0
  frozen : Bool := false
  damper : Option Damper := .none
deriving DecidableEq, Repr

/-- The class C mirrors of the East window once the West Belfry has failed: the words of its registers, by offset, and the route
entries, as they stood (R454). -/
structure Mirror where
  words : Tab (BitVec 64) := []
  routes : Tab Route := []
deriving DecidableEq, Repr

/-- The state of the block. `granted` lists the numbers of the polls and chime updates whose slot of their cell's port has been granted
(R302, R306). -/
structure State where
  pending : List Instr := []
  regs : Regs := {}
  time : Time := {}
  west : HalfRegs := {}
  east : HalfRegs := {}
  instr : Instruments := {}
  attach : Option Attach := .none
  detach : Option Detach := .none
  ctxs : Tab Ctx := []
  domains : Tab Domain := []
  cells : Tab Cell := []
  lines : Tab Line := []
  routes : Tab Route := []
  streams : Tab OutStream := []
  windows : Tab Window := []
  peerHeard : Tab Timer := []
  seqHeard : Tab SeqHeard := []
  flights : List Flight := []
  orders : List Order := []
  accesses : List Access := []
  regAccesses : List RegAccess := []
  chimes : List ChimePend := []
  distant : List Distant := []
  hostWrites : List HostWrite := []
  flushes : List Flush := []
  granted : List Nat := []
  errands : List Errand := []
  slugs : List Slug := []
  routers : Tab Router := []
  pools : List Pool := []
  ctl : List Msg := []
  mem : List Host.Cell := []
  latches : Tab (BitVec 32) := []
  mirror : Option Mirror := .none
  outbox : List Out := []
  seq : Nat := 0
  fresh : Nat := 0
deriving DecidableEq, Repr

/-- The machine at power-good: every field at its reset value, nothing in flight, no command waiting. -/
def State.reset : State := {}

end Sys2Proof.Machine
end

