-- ==== Sys2Proof/Machine/Formes.lean ====
section
/-!
DEFINITION. Formes: reading a descriptor image, its encoding, alignment, privilege and extent checks, the
addresses of its elements, the skew of the matrix-port layouts, scale shapes and sealed windows (R53-R74,
R80-R94, R160, R358).
-/

namespace Sys2Proof.Machine

/-- The layout of a layout code (R57). -/
def layoutOfCode : Nat → Option Layout
  | 0 => some .dense | 1 => some .ma | 2 => some .mb | 3 => some .mc | 4 => some .planar | _ => none

/-- The layout code (R57). -/
def layoutCode : Layout → Nat
  | .dense => 0 | .ma => 1 | .mb => 2 | .mc => 3 | .planar => 4

/-- The matrix-port layouts (R83). -/
def isMatrix : Layout → Bool
  | .ma | .mb | .mc => true
  | _ => false

/-- Reads a descriptor image of sixteen 64-bit words; nothing when a field holds a value that R57 and R58 do not
allow or a reserved byte is not zero (R56-R58). -/
def parseForme (img : List Word) : Option Forme :=
  let at_ := img.flatMap fun w => toBytes 8 w.toNat
  let attr := (img.getD 1 0)
  match tyOfCode (field attr 0 8), layoutOfCode (field attr 12 4) with
  | some ty, some layout =>
    let rank := field attr 8 4
    let rdim := field attr 32 3
    if img.length = 16 ∧ 1 ≤ rank ∧ rank ≤ 8 ∧ field attr 16 4 ≤ 5 ∧ field attr 20 4 = tyPlanes ty ∧
        field attr 27 5 = 0 ∧ field attr 35 29 = 0 ∧ rdim < rank ∧
        bytesAt at_ 0x1C 4 = 0 ∧ bytesAt at_ 0x6A 6 = 0 then
      some {
        base := img.getD 0 0, ty := ty, rank := rank, layout := layout, swap := field attr 16 4,
        planes := tyPlanes ty, rd := bit attr 24, wr := bit attr 25, sealed := bit attr 26, rdim := rdim,
        planeStride := (img.getD 2 0).toNat, furniture := BitVec.ofNat 32 (bytesAt at_ 0x18 4),
        counts := (List.range 8).map fun d => bytesAt at_ (0x20 + 4 * d) 4,
        strides := (List.range 7).map fun d => signedOf (bytesAt at_ (0x40 + 6 * d) 6) 48,
        before := (List.range 8).map fun d => bytesAt at_ (0x70 + d) 1,
        after := (List.range 8).map fun d => bytesAt at_ (0x78 + d) 1 }
    else none
  | _, _ => none

/-- The attributes field of a forme (R57). -/
def formeAttributes (f : Forme) : Nat :=
  tyCode f.ty + place f.rank 8 + place (layoutCode f.layout) 12 + place f.swap 16 + place f.planes 20 +
    place (flag f.rd) 24 + place (flag f.wr) 25 + place (flag f.sealed) 26 + place f.rdim 32

/-- A slot's record in a context image, 120 bytes (R160). -/
def slotRecord (s : Slot) : List Byte :=
  let f := s.forme
  match s.state with
  | .empty => List.replicate 120 0
  | st =>
    toBytes 8 f.base.toNat ++ toBytes 6 f.planeStride ++ toBytes 5 (formeAttributes f) ++
    [if st = .valid then 1 else 2] ++ toBytes 4 f.furniture.toNat ++
    f.counts.flatMap (toBytes 4) ++ f.strides.flatMap (fun v => toBytes 6 (toField v 48)) ++
    f.before.flatMap (toBytes 1) ++ f.after.flatMap (toBytes 1) ++ List.replicate 6 0

/-- The descriptor image held in a slot record, as the words of R56 (R77, R160). -/
def recordImage (r : List Byte) : List Word :=
  [BitVec.ofNat 64 (bytesAt r 0 8), BitVec.ofNat 64 (bytesAt r 0x0E 5), BitVec.ofNat 64 (bytesAt r 8 6),
    BitVec.ofNat 64 (bytesAt r 0x14 4)] ++
  ((List.range 4).map fun k => BitVec.ofNat 64 (bytesAt r (0x18 + 8 * k) 8)) ++
  ((List.range 5).map fun k => BitVec.ofNat 64 (bytesAt r (0x38 + 8 * k) 8)) ++
  [BitVec.ofNat 64 (bytesAt r 0x60 2), BitVec.ofNat 64 (bytesAt r 0x62 8), BitVec.ofNat 64 (bytesAt r 0x6A 8)]

/-- The count of a dimension (R62). -/
def countOf (f : Forme) (d : Nat) : Nat := f.counts.getD d 1

/-- The byte stride of dimensions 1 to 7 (R56). -/
def strideOf (f : Forme) (d : Nat) : Int := f.strides.getD (d - 1) 0

/-- The bleed before a dimension (R65). -/
def beforeOf (f : Forme) (d : Nat) : Nat := f.before.getD d 0

/-- The bleed after a dimension (R65). -/
def afterOf (f : Forme) (d : Nat) : Nat := f.after.getD d 0

/-- The logical length L_d (R65). -/
def lenOf (f : Forme) (d : Nat) : Nat := beforeOf f d + countOf f d + afterOf f d

/-- The logical lengths of the eight dimensions. -/
def lensOf (f : Forme) : List Nat := (List.range 8).map (lenOf f)

/-- The product of a list of lengths. -/
def prodOf (ls : List Nat) : Nat := ls.foldl (· * ·) 1

/-- The number of logical elements of a forme (R66). -/
def formeElems (f : Forme) : Nat := prodOf (lensOf f)

/-- A forme carries bleed in some dimension. -/
def hasBleed (f : Forme) : Bool := (List.range 8).any fun d => beforeOf f d != 0 || afterOf f d != 0

/-- The dimension-0 extent in bytes of one plane (R70). -/
def extent0 (f : Forme) : Nat := if tyPlanar f.ty then countOf f 0 / 8 else countOf f 0 * tyBytes f.ty

/-- The bytes of a forme's tensor (R115). -/
def formeBytes (f : Forme) : Nat :=
  extent0 f * prodOf (f.counts.drop 1) * (if tyPlanar f.ty then f.planes else 1)

/-- The strides that R70 counts with their counts: those of a count above 1, the plane stride included. -/
def countedStrides (f : Forme) : List (Int × Nat) :=
  (((List.range 7).map fun d => (strideOf f (d + 1), countOf f (d + 1))) ++ [((f.planeStride : Int), f.planes)]).filter
    fun p => decide (1 < p.2)

/-- No two units of a forme share bytes: each stride reaches past what the smaller ones span (R80). -/
def apart (f : Forme) : Bool :=
  let ds := (countedStrides f).map fun p => (p.1.natAbs, p.2)
  (List.range ds.length).all fun i =>
    let s := (ds.getD i (0, 1)).1
    (ds.eraseIdx i).all (fun p => p.1 != s) &&
      decide (extent0 f + ((ds.filter fun p => decide (p.1 < s)).map fun p => p.1 * (p.2 - 1)).sum ≤ s)

/-- Bits that a pad element's code may use (R61). -/
def padBits (t : Ty) : Nat := min 32 (tyWidth t)

/-- A stride belongs to the inner class or the unit class of R71. -/
def strideClassOk (sp : Space) (s : Int) : Bool :=
  match sp with
  | .core | .hbm => decide (s.natAbs < 2 ^ unitLog sp) || decide (s % (2 ^ unitLog sp : Nat) = 0)
  | _ => true

/-- An inner stride (R71). -/
def isInner (sp : Space) (s : Int) : Bool := decide (s.natAbs < 2 ^ unitLog sp)

/-- The shape rules of MA, MB and MC (R83). -/
def matrixOk (f : Forme) : Bool :=
  let t := f.ty
  let tile := if f.layout = .mc then 4096 else 2048
  let tyOk := if f.layout = .mc then decide (t = .fp32 ∨ t = .i32) else tyPlanar t || decide (tyBytes t = 1 ∨ tyBytes t = 2)
  let depth := if f.layout = .mc then 32 else tyTileDepth t
  let planeOk := if tyPlanar t && decide (2 ≤ f.planes) then decide (f.planeStride ≠ 0 ∧ f.planeStride % 2048 = 0)
    else decide (f.planeStride = 0)
  tyOk && decide (2 ≤ f.rank) && decide (countOf f 0 = depth) && decide (countOf f 1 = 32) &&
  decide (strideOf f 1 = if f.layout = .mc then 128 else 64) && decide (f.base.toNat % tile = 0) &&
  ((List.range 8).all fun d => decide (d < 2 ∨ strideOf f d % (tile : Int) = 0)) && planeOk && !hasBleed f &&
  decide (f.swap = 0) && decide (addrSpace f.base = .core ∨ addrSpace f.base = .hbm)

/-- The forme is remote: it names another chip (R52). -/
def isRemote (chip : Nat) (f : Forme) : Bool := addrChip f.base != chip

/-- The sealed formes' shape (R358, step 1). A sealed U1 forme never has it: R59 wants its plane stride 0 and R358 the bytes of its
one plane (log 27). -/
def sealedShapeOk (f : Forme) : Bool :=
  let unit0 : Int := extent0 f
  let ok (d : Nat) : Bool := if d = 1 then decide (strideOf f 1 = unit0)
    else decide (strideOf f d = strideOf f (d - 1) * (countOf f (d - 1) : Int))
  decide (f.base.toNat % 4096 = 0) && !isMatrix f.layout &&
  ((List.range 7).all fun k => decide (f.rank ≤ k + 1) || ok (k + 1)) &&
  (!(tyPlanar f.ty) || decide (f.planeStride = extent0 f * prodOf (f.counts.drop 1))) &&
  decide (formeBytes f % 4096 = 0)

/-- Step 1 of R69: the encoding of a parsed image (R55, R59-R62, R65, R71, R83, R358). -/
def encodingOk (chip : Nat) (f : Forme) : Bool :=
  let sp := addrSpace f.base
  let planar := tyPlanar f.ty
  (!isRemote chip f || decide (sp = .core ∨ sp = .hbm)) &&
  (!planar || decide (f.layout ≠ .mc)) && (planar || decide (f.layout ≠ .planar)) &&
  (!planar || decide (f.swap = 0)) && ((planar && decide (f.ty ≠ .u1)) || decide (f.planeStride = 0)) &&
  (f.rd || f.wr) && (!f.sealed || (decide (sp = .host) && !isRemote chip f)) &&
  decide (f.furniture.toNat < 2 ^ padBits f.ty) &&
  ((List.range 8).all fun d =>
    if d < f.rank then decide (1 ≤ countOf f d ∧ countOf f d < 2 ^ 32 ∧ lenOf f d < 2 ^ 32)
    else decide (countOf f d = 1 ∧ beforeOf f d = 0 ∧ afterOf f d = 0 ∧ strideOf f d = 0)) &&
  ((countedStrides f).all fun p => strideClassOk sp p.1) &&
  (!isMatrix f.layout || matrixOk f) && (!f.sealed || sealedShapeOk f)

/-- Step 2 of R69: alignment (R68). -/
def alignOk (f : Forme) : Bool :=
  let planar := tyPlanar f.ty
  let w := tyBytes f.ty
  decide (f.base.toNat % 32 = 0) &&
  ((List.range 7).all fun k => decide (f.rank ≤ k + 1) || decide (strideOf f (k + 1) % 32 = 0)) &&
  (!planar || decide (f.planes < 2) || decide (f.planeStride % 32 = 0)) &&
  (if planar then decide (countOf f 0 % 256 = 0 ∧ beforeOf f 0 = 0 ∧ afterOf f 0 = 0)
   else decide (countOf f 0 * w % 32 = 0 ∧ beforeOf f 0 * w % 32 = 0 ∧ afterOf f 0 * w % 32 = 0))

/-- The security classes (R150). -/
inductive Cls where
  | user | service | test | boot
deriving DecidableEq, Repr

/-- The class of a class code (R150). -/
def clsOfCode : Nat → Cls
  | 0 => .user | 1 => .service | 2 => .test | _ => .boot

/-- Step 3 of R69: the class rules (R347). -/
def privilegeOk (cls : Cls) (locked : Bool) (f : Forme) : Bool :=
  match addrSpace f.base with
  | .core | .hbm => true
  | .host => f.sealed || !locked
  | .regs => !locked && (if f.wr then decide (cls = .test ∨ cls = .boot) else decide (cls ≠ .user))

/-- The sum of the strides' pulls below (R70). -/
def hullDown (ps : List (Int × Nat)) : Int := (ps.map fun p => min 0 (((p.2 : Int) - 1) * p.1)).foldl (· + ·) 0

/-- The sum of the strides' pulls above (R70). -/
def hullUp (ps : List (Int × Nat)) : Int := (ps.map fun p => max 0 (((p.2 : Int) - 1) * p.1)).foldl (· + ·) 0

/-- The hull's ends as offsets in the forme's space (R70). -/
def hullOf (f : Forme) : Int × Int :=
  let ps := countedStrides f
  ((addrOff f.base : Int) + hullDown ps, (addrOff f.base : Int) + (extent0 f : Int) - 1 + hullUp ps)

/-- The hull as full global addresses (R73); used once the hull is known to lie in its space. -/
def hullGlobal (f : Forme) : Nat × Nat :=
  let top := (field f.base 48 16) * 2 ^ 48
  let h := hullOf f
  (top + h.1.toNat, top + h.2.toNat)

/-- The lowest and highest unit of the unit hull (R72). -/
def unitHull (f : Forme) : Int × Int :=
  let sp := addrSpace f.base
  let size : Int := (2 ^ unitLog sp : Nat)
  let ps := ((countedStrides f).filter fun p => !isInner sp p.1).map fun p => (p.1 / size, p.2)
  let u : Int := unitOf sp (addrOff f.base)
  (u + hullDown ps, u + hullUp ps)

/-- The units of the unit hull, lowest first (R72). -/
def hullUnits (f : Forme) : List Nat :=
  let h := unitHull f
  (List.range ((h.2 - h.1).toNat + 1)).map fun (k : Nat) => (h.1 + Int.ofNat k).toNat
/-- The units in which elements of a forme lie, lowest first: a unit stride steps over the others (R13, R72). -/
def touchedUnits (f : Forme) : List Nat :=
  let sp := addrSpace f.base
  let size : Int := (2 ^ unitLog sp : Nat)
  let ps := (countedStrides f).filter fun p => !isInner sp p.1
  let u : Int := unitOf sp (addrOff f.base)
  let us := ps.foldl (fun us p => (us.flatMap fun v => (List.range p.2).map fun (k : Nat) => v + Int.ofNat k * (p.1 / size)).eraseDups) [u]
  (us.map Int.toNat).mergeSort

/-- The inner hull lies in the populated part of a unit (R72). -/
def innerHullOk (f : Forme) : Bool :=
  let sp := addrSpace f.base
  let ps := (countedStrides f).filter fun p => isInner sp p.1
  let o : Int := (addrOff f.base % 2 ^ unitLog sp : Nat)
  decide (0 ≤ o + hullDown ps) && decide (o + (extent0 f : Int) - 1 + hullUp ps < (populatedLimit sp : Int))

/-- The register block an offset lies in, numbered: the Belfry windows 0 and 1, cell n at n + 2; none where
nothing is mapped (R53, R448). -/
def regBlock (off : Nat) : Option Nat :=
  if off < 0x800000 then some 0
  else if off < 0x1000000 then some 1
  else if off < 0x1000000 + cellCount * 0x10000 then some ((off - 0x1000000) / 0x10000 + 2)
  else none

/-- Every unit number that a populated address can have (R53, R54). -/
def unitNumberOk (sp : Space) (u : Nat) : Bool :=
  match sp with
  | .core => decide (u < coreCount)
  | .hbm => decide (u < 48)
  | _ => true

/-- The extent checks R70 to R72; `exist_` says which units exist. -/
def extentOk (exist_ : Space → Nat → Bool) (f : Forme) : Bool :=
  let sp := addrSpace f.base
  let h := hullOf f
  decide (0 ≤ h.1) && decide (h.2 < (2 ^ 48 : Nat)) &&
  match sp with
  | .host => true
  | .regs => match regBlock h.1.toNat, regBlock h.2.toNat with | some a, some b => a == b | _, _ => false
  | _ =>
    innerHullOk f && decide (0 ≤ (unitHull f).1) &&
    unitNumberOk sp (unitHull f).1.toNat && unitNumberOk sp (unitHull f).2.toNat &&
    (hullUnits f).all (exist_ sp)

/-- A hull lies within one valid entry that grants the permissions (R73). -/
def rangeGrants (t : Tab Range) (lo hi : Nat) (rd wr : Bool) : Bool :=
  t.any fun e => e.2.valid && decide (e.2.base.toNat ≤ lo) && decide (hi ≤ e.2.last.toNat + 31) &&
    (!rd || e.2.rd) && (!wr || e.2.wr)

/-- The sealed window's extent check (R358, step 4): the hull inside the window, and the tag records of its blocks
inside one entry. -/
def sealedExtentOk (d : Domain) (f : Forme) : Bool :=
  let h := hullOf f
  let base := d.sealBase.toNat
  let lo := h.1.toNat
  let hi := h.2.toNat
  let top := (field f.base 48 16) * 2 ^ 48
  let tag := d.tagBase.toNat
  decide (base ≤ lo) && decide (hi < base + 4096 * d.sealBlocks) &&
  rangeGrants d.current (top + tag + 32 * ((lo - base) / 4096)) (top + tag + 32 * ((hi - base) / 4096) + 31) f.rd f.wr

/-- What a forme is checked against: the chip, the context's class and its domain, which units exist, and whether
the cells it reaches lie in the context's reach (R74). -/
structure FormeRules where
  chip : Nat
  cls : Cls
  domain : Domain
  exist_ : Space → Nat → Bool
  reachOk : Forme → Bool

/-- Validation in the order of R69, with the key check of R358 after step 4: the fault, if any. -/
def validateForme (r : FormeRules) (f : Forme) : Option Code :=
  if !encodingOk r.chip f then some BAD_FORME
  else if !alignOk f then some ALIGN
  else if !privilegeOk r.cls r.domain.lock f then some CLASS_PRIV
  else if !(extentOk r.exist_ f && rangeGrants r.domain.current (hullGlobal f).1 (hullGlobal f).2 f.rd f.wr &&
      r.reachOk f && (!f.sealed || sealedExtentOk r.domain f)) then some RANGE
  else if f.sealed && r.domain.key.isNone then some KEY_ABSENT
  else none

/-- The digits of a number in the mixed radix of the lengths, dimension 0 fastest (R66, R97). -/
def digits (n : Nat) : List Nat → List Nat
  | [] => []
  | l :: ls => n % l :: digits (n / l) ls

/-- The number whose digits these are (R66). -/
def undigits : List Nat → List Nat → Nat
  | j :: js, l :: ls => j + l * undigits js ls
  | _, _ => 0

/-- Memory indices of logical indices; nothing at a bleed position (R65). -/
def memIndices (f : Forme) (js : List Nat) : Option (List Nat) :=
  if (List.range 8).all fun d => decide (beforeOf f d ≤ js.getD d 0) && decide (js.getD d 0 < beforeOf f d + countOf f d) then
    some ((List.range 8).map fun d => js.getD d 0 - beforeOf f d)
  else none

/-- The byte address R64 gives for memory indices, in plane `k`, before any skew. -/
def unskewed (f : Forme) (is : List Int) (k : Nat) : Int :=
  let i0 := is.getD 0 0
  (f.base.toNat : Int) + (if tyPlanar f.ty then (k * f.planeStride : Nat) + i0 / 8 else i0 * (tyBytes f.ty : Int)) +
    ((List.range 7).map fun d => is.getD (d + 1) 0 * strideOf f (d + 1)).foldl (· + ·) 0

/-- The skew of a byte address (R84). -/
def skewed (l : Layout) (u : Nat) : Nat :=
  match l with
  | .dense | .planar => u
  | _ =>
    let tile := if l = .mc then 4096 else 2048
    let a := u - u % tile
    let line := (u - a) / 64
    let key := if l = .mc then fieldOf a 12 2 else fieldOf a 11 2
    let c := if l = .mb then (4 * key + 8) % 16 else (4 * key) % 16
    a + 64 * (16 * (line / 16) + (line + c) % 16) + u % 64

/-- The byte address of memory indices in plane `k` (R64, R84). -/
def byteAddr (f : Forme) (is : List Nat) (k : Nat) : Nat :=
  skewed f.layout (unskewed f (is.map Int.ofNat) k).toNat

/-- The sectors (byte addresses over 32) that hold the unit of elements at memory indices `is`: one sector, or one
in each plane (R89). -/
def unitSectors (f : Forme) (is : List Nat) : List Nat :=
  (List.range (max 1 f.planes)).map fun k => byteAddr f is k / 32

/-- The elements in a unit of a forme: those of one sector, or 256 of a planar type (R89). -/
def perUnit (f : Forme) : Nat := tyPerSector f.ty

/-- The address R381 records for the element at memory indices, as if the forme had no bleed. -/
def elementAddr (f : Forme) (js : List Nat) : Word :=
  let is := (List.range 8).map fun d => (js.getD d 0 : Int) - (beforeOf f d : Int)
  BitVec.ofNat 64 (skewed f.layout (unskewed f is 0).toNat)

/-- The base after ADVANCE (R81); nothing when `m` is no multiple of 8 along dimension 0 of a planar type. -/
def advancedBase (f : Forme) (d : Nat) (m : Int) : Option Int :=
  if d = 0 then
    if tyPlanar f.ty then (if m % 8 = 0 then some ((f.base.toNat : Int) + m / 8) else none)
    else some ((f.base.toNat : Int) + m * (tyBytes f.ty : Int))
  else some ((f.base.toNat : Int) + m * strideOf f d)

/-- The required scale shape S of a data forme for group size `g` (R92). -/
def scaleShape (f : Forme) (g : Nat) : List Nat :=
  (List.range 8).map fun d => if d = f.rdim then ceilDiv (lenOf f d) g else lenOf f d

/-- The group number of a data element at logical indices (R92). -/
def groupOf (f : Forme) (g : Nat) (js : List Nat) : Nat :=
  undigits ((List.range 8).map fun d => if d = f.rdim then js.getD d 0 / g else js.getD d 0) (scaleShape f g)

/-- The number of groups of a data forme (R92). -/
def groupCount (f : Forme) (g : Nat) : Nat := prodOf (scaleShape f g)

/-- A scale forme matches its data forme (R93); `bf16` tells the profile's scale format is BF16. -/
def scaleFormeOk (data scale : Forme) (g : Nat) (bf16 : Bool) : Bool :=
  let s := scaleShape data g
  decide (scale.rank = data.rank) && decide (scale.layout = .dense) && !hasBleed scale &&
  decide (scale.ty = if bf16 then .bf16 else .u8) &&
  ((List.range 7).all fun k => decide (countOf scale (k + 1) = s.getD (k + 1) 1)) &&
  decide (s.getD 0 1 ≤ countOf scale 0)

/-- The hulls of two formes overlap (R113). -/
def hullsOverlap (a b : Forme) : Bool :=
  decide (addrChip a.base = addrChip b.base) &&
  decide ((hullGlobal a).1 ≤ (hullGlobal b).2) && decide ((hullGlobal b).1 ≤ (hullGlobal a).2)

/-- A destination forme whose zero strides R79 refuses. -/
def zeroStrideWrite (f : Forme) : Bool :=
  ((List.range 7).any fun k => decide (1 < countOf f (k + 1)) && decide (strideOf f (k + 1) = 0)) ||
  (decide (2 ≤ f.planes) && decide (f.planeStride = 0))

end Sys2Proof.Machine
end

