-- ==== Sys2Proof/Machine/Imposition.lean ====
section
/-!
DEFINITION. Imposition: the walk, straight transfers and corner turns, tiles, the gathered views and the windows of
group scales (R96-R112, R135).
-/

namespace Sys2Proof.Machine

/-- A walk: the destination dimension at each walk position (R96, R215). -/
def walkOf (imm : Nat) : List Nat := (List.range 8).map fun p => fieldOf imm (3 * p) 3

/-- The identity walk's encoding (R215). -/
abbrev identityWalk : Nat := 0xFAC688

/-- A walk is valid for a destination rank (R96). -/
def walkOk (w : List Nat) (rank : Nat) : Bool :=
  ((List.range rank).all fun d => (w.take rank).contains d) &&
  ((List.range 8).all fun p => decide (p < rank) || decide (w.getD p 0 = p))

/-- The counts of a destination in walk order. -/
def walkCounts (w counts : List Nat) : List Nat := w.map fun d => counts.getD d 1

/-- The destination indices of walk position `n` (R97). -/
def walkIndices (w counts : List Nat) (n : Nat) : List Nat :=
  let ds := digits n (walkCounts w counts)
  (List.range 8).map fun d => ds.getD (w.findIdx (· == d)) 0

/-- The walk position that holds destination dimension 0 (R98). -/
def walkP0 (w : List Nat) : Nat := w.findIdx (· == 0)

/-- K of R100: the product of the counts visited before dimension 0. -/
def walkK (w counts : List Nat) : Nat := prodOf ((walkCounts w counts).take (walkP0 w))

/-- The transfer is a corner turn (R98). -/
def cornerTurn (w counts : List Nat) : Bool := decide (1 < walkK w counts)

/-- The edge E of a stream type (R100). -/
def edgeOf (t : Ty) : Nat := if tyPlanar t then 256 else 256 / tyBytes t

/-- A destination as its walk sees it: the walk, the counts (count_g replaced by N for a SCATTER, R110), the stream
type, the source's L_0, and the elements in one destination unit. -/
structure Shape where
  walk : List Nat
  counts : List Nat
  stream : Ty
  rowLen : Nat
  unit : Nat
deriving DecidableEq, Repr

/-- The positions of a destination (R218). -/
def shapeTotal (s : Shape) : Nat := prodOf s.counts

/-- E_r of R100. -/
def tileRows (s : Shape) : Nat := min (edgeOf s.stream) (s.counts.headD 1)

/-- E_c of R100. -/
def tileCols (s : Shape) : Nat := min (min (edgeOf s.stream) s.rowLen) (walkK s.walk s.counts)

/-- Where a tile stands: the outer index, the band, and the column range's first position (R100). -/
structure Tile where
  o : Nat := 0
  b : Nat := 0
  q : Nat := 0
deriving DecidableEq, Repr

/-- The rows of a tile's band (R100). -/
def bandRows (s : Shape) (t : Tile) : Nat := min (tileRows s) (s.counts.headD 1 - t.b * tileRows s)

/-- The first stream position of a tile (R100, R102). -/
def tileStart (s : Shape) (t : Tile) : Nat :=
  (t.o * s.counts.headD 1 + t.b * tileRows s) * walkK s.walk s.counts + t.q

/-- The end of a tile's column range: a multiple of E_c, the start of a source row, or K (R100). -/
def tileEnd (s : Shape) (t : Tile) : Nat :=
  let k := walkK s.walk s.counts
  let byEdge := min k ((t.q / tileCols s + 1) * tileCols s)
  ((List.range (bandRows s t)).map fun i => t.q + (s.rowLen - (tileStart s t + i * k) % s.rowLen)).foldl min byEdge

/-- The tile after a tile in the order of R102: the next column range, else the next band, else the next outer
index. -/
def nextTile (s : Shape) (t : Tile) : Tile :=
  let e := tileEnd s t
  if e < walkK s.walk s.counts then { t with q := e }
  else if (t.b + 1) * tileRows s < s.counts.headD 1 then { o := t.o, b := t.b + 1, q := 0 }
  else { o := t.o + 1, b := 0, q := 0 }

/-- The number of destination units in a tile. -/
def tileUnits (s : Shape) (t : Tile) : Nat := (tileEnd s t - t.q) * (bandRows s t / s.unit)

/-- The stream positions of the `w`-th unit of a tile, in ascending order within the tile (R102; log 10). -/
def tileUnitPositions (s : Shape) (t : Tile) (w : Nat) : List Nat :=
  let per := bandRows s t / s.unit
  let k := walkK s.walk s.counts
  let q := t.q + w / per
  let j := t.b * tileRows s + (w % per) * s.unit
  (List.range s.unit).map fun i => (t.o * s.counts.headD 1 + j + i) * k + q

/-- The stream positions of a straight transfer's unit that begins at position `n` (R99). -/
def straightPositions (s : Shape) (n : Nat) : List Nat := (List.range s.unit).map fun i => n + i

/-- The source's view of a GATHER: the logical lengths with L_g replaced by the index count (R109). -/
def gatherLens (f : Forme) (g : Option (Nat × Nat)) : List Nat :=
  match g with
  | none => lensOf f
  | some (d, n) => (lensOf f).set d n

/-- The destination's view of a SCATTER: the counts with count_g replaced by the index count (R110). -/
def scatterCounts (f : Forme) (g : Option (Nat × Nat)) : List Nat :=
  match g with
  | none => f.counts
  | some (d, n) => f.counts.set d n

/-- An index of a list with one entry replaced by the value read from the index forme (R109, R110). -/
def mapIndex (js : List Nat) (g : Nat) (xs : List Nat) : List Nat := js.set g (xs.getD (js.getD g 0) 0)

/-- The walk rule of SCATTER: every position after the one that holds g holds a dimension of count 1 (R110). -/
def scatterWalkOk (w counts : List Nat) (g : Nat) : Bool :=
  (w.drop (w.findIdx (· == g) + 1)).all fun d => decide (counts.getD d 1 = 1)

/-- The dimensions of a data forme in stream order (R135): 0, 1, 2 … for a source, the walk for a destination. -/
def streamOrder (walk : Option (List Nat)) : List Nat := walk.getD (List.range 8)

/-- B of R135: the groups of a band. -/
def bandGroups (f : Forme) (order : List Nat) : Nat :=
  prodOf ((order.take (order.findIdx (· == f.rdim))).map (lenOf f))

/-- The stream positions in one band: B groups of G elements (R135). -/
def bandLen (f : Forme) (order : List Nat) (g : Nat) : Nat := bandGroups f order * g

/-- The bands in one window (R135). -/
def windowBands (f : Forme) (order : List Nat) : Nat := 512 / bandGroups f order

/-- The number of a band's last position plus one, for the band that holds stream position `n`: the last group along
`RDIM` holds the remaining elements (R91, R135). -/
def bandEnd (f : Forme) (order : List Nat) (g n : Nat) : Nat :=
  let b := bandGroups f order
  let run := b * lenOf f f.rdim
  let base := n - n % run
  base + min run ((n % run / (b * g) + 1) * (b * g))

/-- The band that holds stream position `n` (R135). -/
def bandIndex (f : Forme) (order : List Nat) (g n : Nat) : Nat :=
  let b := bandGroups f order
  let run := b * lenOf f f.rdim
  (n / run) * ceilDiv (lenOf f f.rdim) g + n % run / (b * g)

/-- The first stream position of band `k` (R135). -/
def bandStart (f : Forme) (order : List Nat) (g k : Nat) : Nat :=
  let b := bandGroups f order
  let per := ceilDiv (lenOf f f.rdim) g
  (k / per) * (b * lenOf f f.rdim) + (k % per) * (b * g)

/-- The first stream position of the window that holds position `n` (R135, R140). -/
def windowStart (f : Forme) (order : List Nat) (g n : Nat) : Nat :=
  let w := windowBands f order
  bandStart f order g ((bandIndex f order g n / w) * w)

/-- The stream position just past the window that holds position `n` (R135). -/
def windowEnd (f : Forme) (order : List Nat) (g n : Nat) : Nat :=
  let w := windowBands f order
  min (formeElems f) (bandStart f order g ((bandIndex f order g n / w + 1) * w))

/-- The elements that share a scale group are met at these positions: the group of a position (R92, R135). -/
def groupAt (f : Forme) (walk : Option (List Nat)) (g n : Nat) : Nat :=
  match walk with
  | none => groupOf f g (digits n (lensOf f))
  | some w => groupOf f g (walkIndices w f.counts n)

/-- The class of a conversion's impose stage (R95): the bytes of the tile's stage per engine cycle. -/
def imposeRate (t : Ty) : Nat :=
  if tyPlanar t then 32 * tyPlanes t else if tyBytes t = 1 then 256 else 512

end Sys2Proof.Machine
end

