-- ==== Sys2Proof/Machine/Operands.lean ====
section
/-!
DEFINITION. The fields of an Edlum word and the field rules of its opcodes (R184-R188, R214-R216).
-/

namespace Sys2Proof.Machine

/-- The opcode of a word (R184). -/
def opOf (w : Insn) : Nat := field w 120 8
/-- The channel field (R184). -/
def chOf (w : Insn) : Nat := field w 116 4
/-- The source slot field (R184). -/
def srcOf (w : Insn) : Nat := field w 110 6
/-- The destination slot field (R184). -/
def dstOf (w : Insn) : Nat := field w 104 6
/-- The auxiliary slot field (R184). -/
def auxOf (w : Insn) : Nat := field w 98 6
/-- The profile field (R184). -/
def profOf (w : Insn) : Nat := field w 94 4
/-- The chime field (R184). -/
def chimeOf (w : Insn) : Nat := field w 88 6
/-- The flags (R184). -/
def flagsOf (w : Insn) : Nat := field w 64 24
/-- The immediate (R184). -/
def immOf (w : Insn) : Word := w.setWidth 64

/-- FORME and the other opcodes (R185). -/
abbrev opForme : Nat := 0x01
/-- The opcodes that R185 lists. -/
def opListed (op : Nat) : Bool :=
  [0x01, 0x02, 0x03, 0x04, 0x05, 0x06, 0x07, 0x08, 0x10, 0x11, 0x12, 0x13, 0x14, 0x15, 0x16, 0x17, 0x18, 0x19, 0x1A,
    0x20, 0x21, 0x22, 0x23, 0x24, 0x25, 0x26, 0x30, 0x31, 0x32, 0x33, 0x34, 0x3F].contains op

/-- Which fields of a word an opcode uses: the channel, the three slots, the profile, the chime, the flag bits and
the immediate bits (R186, R187, R214, R215). -/
structure Uses where
  ch : Bool := false
  src : Bool := false
  dst : Bool := false
  aux : Bool := false
  prof : Bool := false
  chime : Bool := false
  chimeNeeded : Bool := false
  flags : List (Nat × Nat) := []
  imm : List (Nat × Nat) := []
deriving DecidableEq, Repr

/-- The bits of a value outside the given fields (low bit, length) are zero. -/
def onlyFields (v : Nat) (fs : List (Nat × Nat)) : Bool :=
  let mask := fs.foldl (fun m f => m ||| (2 ^ f.2 - 1) <<< f.1) 0
  decide (v &&& mask = v)

/-- LREG, SOP/WOP/COND and DISP fields. -/
abbrev fLreg : Nat × Nat := (0, 3)
/-- The field of `DISP` (R187). -/
abbrev fDisp : Nat × Nat := (32, 32)
/-- The chime core and chip fields, named when a chime is named (R215). -/
abbrev fChimeAddr : Nat × Nat := (37, 27)

/-- The field use of each opcode (R186, R187, R214, R215); flag positions count from bit 64 of the word. -/
def usesOf (w : Insn) : Uses :=
  let chimed (imm : List (Nat × Nat)) : List (Nat × Nat) := if chimeOf w = 63 then imm else fChimeAddr :: imm
  let auxFlag := (flagsOf w).testBit 3
  match opOf w with
  | 0x01 => { dst := true, imm := [(0, 64)] }
  | 0x02 => { imm := [(0, 64)] }
  | 0x03 => { ch := true, src := true, chime := true, imm := [(0, 9), (16, 9)] }
  | 0x04 => { ch := true, dst := true, chime := true, imm := [(0, 9), (16, 9)] }
  | 0x05 => { prof := true, imm := [(0, 64)] }
  | 0x06 => { ch := true, imm := [(0, 9), (9, 20)] }
  | 0x07 => { imm := [(0, 32)] }
  | 0x08 => { dst := true, imm := [(0, 3), (8, 40)] }
  | 0x10 => { flags := [fLreg], imm := [(0, 32), fDisp] }
  | 0x11 => { flags := [fLreg], imm := [fDisp] }
  | 0x12 => { flags := [fLreg, (4, 2), (8, 1)], imm := [(0, 32), fDisp] }
  | 0x13 => { imm := [fDisp] }
  | 0x15 => { flags := [(0, 1)], imm := [(0, 16)] }
  | 0x19 => { ch := !(flagsOf w).testBit 0, flags := [(0, 1)] }
  | 0x1A => { flags := [(0, 1)] }
  | 0x20 => { ch := true, src := true, dst := true, aux := auxFlag, prof := true, chime := true,
              flags := [(0, 6)], imm := chimed [(0, 24)] }
  | 0x21 | 0x22 => { ch := true, src := true, dst := true, aux := true, prof := true, chime := true,
                     flags := [(3, 3)], imm := chimed [(0, 27)] }
  | 0x23 => { ch := true, dst := true, chime := true, flags := [(4, 2)], imm := chimed [(0, 32)] }
  | 0x24 => { ch := true, src := true, aux := true, prof := true, chime := true, flags := [(3, 3)],
              imm := chimed [(0, 24), (28, 4)] }
  | 0x25 => { ch := true, src := true, dst := true, prof := true, chime := true, flags := [(4, 6)],
              imm := chimed [(0, 24), (28, 4)] }
  | 0x34 => { ch := true, src := true, dst := true, aux := auxFlag, prof := true, chime := true,
              flags := [(3, 3)], imm := chimed [(0, 24)] }
  | 0x26 => { ch := true, src := true, aux := auxFlag, chime := true, flags := [(3, 3)],
              imm := chimed (if auxFlag then [] else [(0, 32)]) }
  | 0x30 => { chime := true, chimeNeeded := true, flags := [(4, 2)], imm := [(0, 32), fChimeAddr] }
  | 0x31 => { chime := true, chimeNeeded := true, flags := [fLreg, (4, 2), (8, 12)], imm := [(0, 32), fChimeAddr] }
  | 0x32 => { flags := [(0, 6)] }
  | 0x33 => { flags := [(0, 3)] }
  | 0x3F => { imm := [(0, 32)] }
  | _ => {}

/-- Every field of a word obeys its opcode's use (R186, R187, R214, R215): unused fields are zero, an unused chime is
63, and no chime of 48 to 62 stands anywhere. -/
def fieldsOk (w : Insn) : Bool :=
  let u := usesOf w
  (u.ch || decide (chOf w = 0)) && (u.src || decide (srcOf w = 0)) && (u.dst || decide (dstOf w = 0)) &&
  (u.aux || decide (auxOf w = 0)) && (u.prof || decide (profOf w = 0)) &&
  (if u.chime then decide (chimeOf w < 48) || (!u.chimeNeeded && decide (chimeOf w = 63)) else decide (chimeOf w = 63)) &&
  onlyFields (flagsOf w) u.flags && onlyFields (immOf w).toNat u.imm

/-- The loop register named (R187, R215). -/
def lregOf (w : Insn) : Nat := field w 64 3
/-- `COND` of BRANCH (R187). -/
def condOf (w : Insn) : Nat := field w 68 2
/-- `ENDLIST` of BRANCH (R187). -/
def endlistOf (w : Insn) : Bool := bit w 72
/-- `REL` of TOLL and `ALL` of SWAP and DRAIN (R187). -/
def flag0Of (w : Insn) : Bool := bit w 64
/-- `DISP` (R187). -/
def dispOf (w : Insn) : Int := signedField w 32 32
/-- The count, `VALUE`, amount or target in the low half of the immediate (R187, R215). -/
def lowImm (w : Insn) : BitVec 32 := w.setWidth 32
/-- The cell of LDSCALE and STSCALE (R187). -/
def scaleCellOf (w : Insn) : Nat := field w 0 9
/-- The first register of LDSCALE and STSCALE (R187). -/
def scaleFirstOf (w : Insn) : Nat := field w 16 9
/-- `RATE` of SETRATE (R187). -/
def rateOf (w : Insn) : Nat := field w 0 9
/-- The budget of SETRATE (R187). -/
def budgetOf (w : Insn) : Nat := field w 9 20
/-- d of ADVANCE (R187). -/
def advDimOf (w : Insn) : Nat := field w 0 3
/-- m of ADVANCE (R187). -/
def advMulOf (w : Insn) : Int := signedField w 8 40
/-- `PREFETCH` of MOVE (R215). -/
def prefetchOf (w : Insn) : Bool := decide (opOf w = 0x20) && bit w 64
/-- `IN_PLACE` of MOVE (R215). -/
def inPlaceOf (w : Insn) : Bool := decide (opOf w = 0x20) && bit w 65
/-- `CRC` of MOVE (R215). -/
def crcOf (w : Insn) : Bool := decide (opOf w = 0x20) && bit w 66
/-- `AUX` (R215). -/
def auxFlagOf (w : Insn) : Bool := bit w 67
/-- `CSEL` (R215). -/
def cselOf (w : Insn) : Bool := bit w 68
/-- `CKIND` (R215). -/
def ckindOf (w : Insn) : Bool := bit w 69
/-- `ORDERED` of REDUCE (R215). -/
def orderedOf (w : Insn) : Bool := bit w 70
/-- `INIT` of REDUCE (R215). -/
def initOf (w : Insn) : Bool := bit w 71
/-- `ROP` of REDUCE; AMOADD adds (R144, R215). -/
def ropOf (w : Insn) : Rop :=
  if opOf w = 0x25 then (match field w 72 2 with | 1 => .max | 2 => .min | _ => .add) else .add
/-- `SOP` and `WOP`, `POP` (R215). -/
def subopOf (w : Insn) : Nat := field w 68 2
/-- `STEP` of WAIT (R215). -/
def stepOf (w : Insn) : Nat := field w 72 8
/-- `POLL` of WAIT (R215). -/
def pollOf (w : Insn) : Nat := field w 80 4
/-- `LINE` of PEAL (R215). -/
def lineOf (w : Insn) : Nat := field w 64 4
/-- `SCOPE` of FENCE (R215). -/
def scopeOf (w : Insn) : Nat := field w 64 2
/-- `ALL` of FENCE (R215). -/
def fenceAllOf (w : Insn) : Bool := bit w 66
/-- `G` of GATHER and SCATTER (R215). -/
def gOf (w : Insn) : Nat := field w 24 3
/-- `N` of MCAST and REDUCE (R215). -/
def nOf (w : Insn) : Nat := field w 28 4
/-- The chime core of the immediate (R215). -/
def chimeCoreOf (w : Insn) : Nat := field w 37 13
/-- The chime chip of the immediate (R215). -/
def chimeChipOf (w : Insn) : Nat := field w 50 14
/-- The walk of the immediate (R215). -/
def insnWalk (w : Insn) : List Nat := walkOf (field w 0 24)

/-- The movement, reduction and integrity opcodes of 09, which issue orders on a channel. -/
def isMovement (op : Nat) : Bool := [0x20, 0x21, 0x22, 0x23, 0x24, 0x25, 0x26, 0x34].contains op

/-- The opcodes whose words name a channel whose `CHMASK` bit is checked (R170, R188, R216). -/
def namesChannel (w : Insn) : Bool := (usesOf w).ch

/-- The slots a MCAST's branches or a REDUCE's ranks run over stay below 64 (R226, R228). -/
def slotRunOk (w : Insn) : Bool :=
  match opOf w with
  | 0x24 => decide (auxOf w + nOf w ≤ 63)
  | 0x25 => decide (srcOf w + nOf w ≤ 63)
  | _ => true

/-- The flag combinations of step 1 of R216 that need no slot: `AUX` where it must be 1, `CSEL` with chime 63,
PREFETCH with IN_PLACE, IN_PLACE's slots, INIT without ORDERED, `ROP` 3, G 0, MCAST's N 0, reserved sub-operations. -/
def comboOk (w : Insn) : Bool :=
  let op := opOf w
  (!(op = 0x21 || op = 0x22 || op = 0x24) || auxFlagOf w) &&
  (!crcOf w || auxFlagOf w) &&
  (!isMovement op || !(cselOf w && decide (chimeOf w = 63))) &&
  (!isMovement op || !cselOf w || decide (field w 37 27 = 0)) &&
  !(prefetchOf w && inPlaceOf w) &&
  (!inPlaceOf w || decide (srcOf w = dstOf w)) &&
  (op ≠ 0x25 || ((!initOf w || orderedOf w) && decide (field w 72 2 ≠ 3))) &&
  (!(op = 0x21 || op = 0x22) || decide (gOf w ≠ 0)) &&
  (op ≠ 0x24 || decide (1 ≤ nOf w)) &&
  (op ≠ 0x30 || decide (subopOf w ≠ 3)) && (op ≠ 0x31 || decide (subopOf w < 2)) && (op ≠ 0x32 || decide (subopOf w ≠ 3)) &&
  (!(op = 0x03 || op = 0x04) || decide (scaleCellOf w ≤ 353)) &&
  slotRunOk w

/-- The encoding rules of the control instructions that need no state: step 3 of R188 (R197, R198, R202-R204,
R207). -/
def controlOk (w : Insn) : Bool :=
  match opOf w with
  | 0x05 => profileOk (immOf w)
  | 0x06 => decide (1 ≤ rateOf w ∧ rateOf w ≤ 256)
  | 0x10 => decide (1 ≤ dispOf w)
  | 0x11 => decide (dispOf w ≤ 0)
  | 0x12 => decide (condOf w ≠ 3) && (!endlistOf w || decide (dispOf w = 0))
  | 0x15 => !flag0Of w || decide (field w 0 16 < 2 ^ 15)
  | _ => true

/-- Steps 1 to 3 of R188 and the word's own part of step 1 of R216: an opcode R185 lists, its fields and its
encoding rules. NOP ignores every bit but the opcode. -/
def wordOk (w : Insn) : Bool :=
  decide (opOf w = 0x17) || (opListed (opOf w) && fieldsOk w && comboOk w && controlOk w)

end Sys2Proof.Machine
end

