-- ==== Sys2Proof/Machine/Tab.lean ====
section
/-!
DEFINITION. Reading and writing a sparse table.
-/

namespace Sys2Proof.Machine

/-- The entry a table lists at a key, if any. -/
def tabFind (t : Tab α) (k : Nat) : Option α :=
  match t with
  | [] => none
  | (i, v) :: rest => if i = k then some v else tabFind rest k

/-- The entry at a key: the listed one, or the given reset value. -/
def tabGet (d : α) (t : Tab α) (k : Nat) : α := (tabFind t k).getD d

/-- Writes an entry, keeping the keys strictly rising. -/
def tabSet (t : Tab α) (k : Nat) (v : α) : Tab α :=
  match t with
  | [] => [(k, v)]
  | (i, w) :: rest => if k < i then (k, v) :: (i, w) :: rest else if i = k then (k, v) :: rest else (i, w) :: tabSet rest k v

/-- Removes an entry, so that the key reads as its reset value again. -/
def tabErase (t : Tab α) (k : Nat) : Tab α :=
  match t with
  | [] => []
  | (i, w) :: rest => if i = k then rest else (i, w) :: tabErase rest k

/-- Every key of a table is above `lo` and the keys rise strictly. -/
def tabAbove : Option Nat → Tab α → Bool
  | _, [] => true
  | lo, (i, _) :: rest => (match lo with | some l => decide (l < i) | none => true) && tabAbove (some i) rest

/-- The canonical form of a table: strictly rising keys. -/
def tabWf (t : Tab α) : Bool := tabAbove none t

end Sys2Proof.Machine
end

