-- ==== Sys2Proof/Machine/Ops.lean ====
section
/-!
DEFINITION. The named operations over the state: reading and updating its tables, memory, time, which cell serves an
address, the fault log, counters and galley slices.
-/

namespace Sys2Proof.Machine

/-- The outcome of a command. -/
abbrev Res := Host.Outcome State Fault Refusal

/-- Goes on when a condition holds and stops with a fault otherwise. -/
def need (c : Bool) (f : Fault) (k : Res) : Res := if c then k else .fault f

/-- Goes on with a value that is there and stops with a fault otherwise. -/
def needSome (o : Option α) (f : Fault) (k : α → Res) : Res :=
  match o with
  | some a => k a
  | none => .fault f

/-! Tables. -/

/-- A context's entry. -/
def getCtx (s : State) (c : Nat) : Ctx := tabGet {} s.ctxs c
/-- Replaces a context's entry. -/
def putCtx (s : State) (c : Nat) (x : Ctx) : State := { s with ctxs := tabSet s.ctxs c x }
/-- Changes a context's entry. -/
def modCtx (s : State) (c : Nat) (f : Ctx → Ctx) : State := putCtx s c (f (getCtx s c))
/-- Changes a context's registers. -/
def modRegs (s : State) (c : Nat) (f : CtxRegs → CtxRegs) : State := modCtx s c fun x => { x with regs := f x.regs }
/-- A cell's entry. -/
def getCell (s : State) (n : Nat) : Cell := tabGet {} s.cells n
/-- Replaces a cell's entry. -/
def putCell (s : State) (n : Nat) (x : Cell) : State := { s with cells := tabSet s.cells n x }
/-- Changes a cell's entry. -/
def modCell (s : State) (n : Nat) (f : Cell → Cell) : State := putCell s n (f (getCell s n))
/-- A channel as reset leaves it: priority n mod 4 (R171). -/
def chanReset (ch : Nat) : Chan := { prio := ch % 4 }
/-- A cell's channel. -/
def getChan (s : State) (n ch : Nat) : Chan := tabGet (chanReset ch) (getCell s n).chans ch
/-- Changes a cell's channel. -/
def modChan (s : State) (n ch : Nat) (f : Chan → Chan) : State :=
  modCell s n fun x => { x with chans := tabSet x.chans ch (f (tabGet (chanReset ch) x.chans ch)) }
/-- A domain's entry. -/
def getDom (s : State) (d : Nat) : Domain := tabGet {} s.domains d
/-- Changes a domain's entry. -/
def modDom (s : State) (d : Nat) (f : Domain → Domain) : State :=
  { s with domains := tabSet s.domains d (f (getDom s d)) }
/-- A Peal line's entry. -/
def getLine (s : State) (n : Nat) : Line := tabGet {} s.lines n
/-- Changes a Peal line's entry. -/
def modLine (s : State) (n : Nat) (f : Line → Line) : State := { s with lines := tabSet s.lines n (f (getLine s n)) }
/-- A route entry. -/
def getRoute (s : State) (c : Nat) : Route := tabGet {} s.routes c
/-- Changes a route entry. -/
def modRoute (s : State) (c : Nat) (f : Route → Route) : State :=
  { s with routes := tabSet s.routes c (f (getRoute s c)) }
/-- An outbound stream. -/
def getStream (s : State) (c : Nat) : OutStream := tabGet {} s.streams c
/-- Changes an outbound stream. -/
def modStream (s : State) (c : Nat) (f : OutStream → OutStream) : State :=
  { s with streams := tabSet s.streams c (f (getStream s c)) }
/-- A half's own Belfry registers. -/
def getHalf (s : State) (east : Bool) : HalfRegs := if east then s.east else s.west
/-- Changes a half's own Belfry registers. -/
def modHalf (s : State) (east : Bool) (f : HalfRegs → HalfRegs) : State :=
  if east then { s with east := f s.east } else { s with west := f s.west }
/-- An issued instruction by number. -/
def getFlight (s : State) (id : Nat) : Option Flight := s.flights.find? fun f => f.id == id
/-- Changes an issued instruction. -/
def modFlight (s : State) (id : Nat) (f : Flight → Flight) : State :=
  { s with flights := s.flights.map fun x => if x.id = id then f x else x }
/-- An instruction's order at a cell. -/
def getOrder (s : State) (insn cell : Nat) : Option Order :=
  s.orders.find? fun o => o.insn == insn && o.cell == cell
/-- Changes an instruction's order at a cell. -/
def modOrder (s : State) (insn cell : Nat) (f : Order → Order) : State :=
  { s with orders := s.orders.map fun o => if o.insn = insn ∧ o.cell = cell then f o else o }
/-- Changes every order of an instruction. -/
def modOrders (s : State) (insn : Nat) (f : Order → Order) : State :=
  { s with orders := s.orders.map fun o => if o.insn = insn then f o else o }
/-- Sends a message on the control network (R430). -/
def send (s : State) (vc src dst : Nat) (b : Body) : State := { s with ctl := s.ctl ++ [{ vc := vc, src := src, dst := dst, body := b }] }
/-- Drives a signal out of a port. -/
def emit (s : State) (o : Out) : State := { s with outbox := s.outbox ++ [o] }
/-- The first message that satisfies `p`, provided no earlier message of its virtual channel goes between the same
two cells (R430). -/
def findMsg (s : State) (p : Msg → Bool) : Option Msg :=
  match s.ctl.find? p with
  | none => none
  | some m =>
    match s.ctl.find? fun x => x.vc == m.vc && x.src == m.src && x.dst == m.dst with
    | some x => if x = m then some m else none
    | none => none
/-- Removes the first occurrence of a message. -/
def dropMsg (s : State) (m : Msg) : State := { s with ctl := s.ctl.erase m }
/-- The next number for an instruction, access, slug or update (log 23). -/
def bump (s : State) : State := { s with seq := s.seq + 1 }
/-- Applies an operation once for each item of a list. -/
def each (xs : List α) (f : State → α → State) (s : State) : State := xs.foldl f s

/-! Memory: what the engine wrote, byte by byte, addresses strictly rising (log 3). -/

/-- Writes one byte, keeping the addresses strictly rising. -/
def memPut (m : List Host.Cell) (a : Nat) (b : Byte) : List Host.Cell :=
  match m with
  | [] => [(a, b)]
  | (i, c) :: rest => if a < i then (a, b) :: (i, c) :: rest else if i = a then (a, b) :: rest else (i, c) :: memPut rest a b
/-- Reads one byte; nothing where the engine has not written (log 3). -/
def memRead (m : List Host.Cell) (a : Nat) : Option Byte := tabFind m a
/-- Writes consecutive bytes. -/
def memPutBytes (m : List Host.Cell) (a : Nat) : List Byte → List Host.Cell
  | [] => m
  | b :: bs => memPutBytes (memPut m a b) (a + 1) bs
/-- The canonical form of memory: strictly rising addresses. -/
def Memory.wf (m : List Host.Cell) : Bool := tabWf m
/-- Writes a 32-byte sector given by its number. -/
def writeSector (s : State) (sector : Nat) (d : Sector) : State :=
  { s with mem := memPutBytes s.mem (32 * sector) (sectorBytes d) }
/-- Writes a 32-bit word. -/
def writeWord32 (s : State) (a : Word) (v : BitVec 32) : State :=
  { s with mem := memPutBytes s.mem a.toNat (toBytes 4 v.toNat) }

/-! Time (R27-R48). -/

/-- The fixed skew of a copy of reference time (R27; log 6). -/
def skewOf (s : State) (cell : Nat) : Int := tabGet 0 s.time.skews cell
/-- Reference time as a cell's copy reads it (R27). -/
def timeAt (s : State) (cell : Nat) : Word := s.time.ref + BitVec.ofInt 64 (skewOf s cell)
/-- The Toll period in reference ns (R30). -/
def periodNs (s : State) : Nat := s.time.periodUs * 1000
/-- The instant of Toll k (R30). -/
def tollAt (s : State) (k : Nat) : Word := s.time.base + BitVec.ofNat 64 (k * periodNs s)
/-- How far a reference time lies from the next Toll's instant, which is near it whatever TOLL_BASE is (R34). -/
def fromNext (s : State) (t : Word) : Int := (t - tollAt s s.time.next).toInt
/-- The Toll a reference time lies at or after, before the first one a negative number (R36). -/
def frameInt (s : State) (t : Word) : Int := s.time.next + Int.fdiv (fromNext s t) (periodNs s)
/-- The frame a reference time belongs to (R36). -/
def frameAt (s : State) (t : Word) : Nat := (frameInt s t).toNat
/-- The offset of a reference time in its frame; below Toll 0 it counts as 0 (R42, R48). -/
def offsetAt (s : State) (t : Word) : Nat := if frameInt s t < 0 then 0 else (Int.emod (fromNext s t) (periodNs s)).toNat
/-- A reference time lies in a guard (R37). -/
def inGuard (s : State) (t : Word) : Bool :=
  s.time.running && decide (0 ≤ frameInt s t) && decide (periodNs s ≤ offsetAt s t + 1000)
/-- The guard instant of a frame (R37). -/
def guardOf (s : State) (k : Nat) : Word := tollAt s (k + 1) - 1000
/-- A number of microseconds has passed since an instant. -/
def elapsedUs (s : State) (since : Word) (us : Nat) : Bool := decide (us * 1000 ≤ (s.time.ref - since).toNat)

/-! Contexts' configuration (R150). -/

/-- `CLASS` (R150). -/
def cfgClass (w : Word) : Nat := field w 0 2
/-- `DOMAIN` (R150). -/
def cfgDomain (w : Word) : Nat := field w 2 8
/-- `HOME` (R150). -/
def cfgHome (w : Word) : Nat := field w 10 9
/-- `DEADLINE` (R150). -/
def cfgDeadline (w : Word) : Bool := bit w 19
/-- `REACH` names a half (R150). -/
def cfgReach (w : Word) (east : Bool) : Bool := if east then bit w 21 else bit w 20
/-- `HOSTPORT` (R150). -/
def cfgHostport (w : Word) : Nat := field w 22 2
/-- `MODE`: Lead (R150). -/
def cfgLead (w : Word) : Bool := bit w 24
/-- `CHMASK` allows a channel (R150). -/
def cfgChannel (w : Word) (ch : Nat) : Bool := bit w (25 + ch)
/-- `GRANTS` (R150). -/
def cfgGrants (w : Word) : Nat := field w 41 6
/-- The H-cell that serves a context's host formes (R13). -/
def cfgHostCell (w : Word) : Nat :=
  match cfgHostport w with
  | 1 => 352 | 2 => 353 | _ => defaultHost (cfgHome w)
/-- A context's CONFIG. -/
def configOf (s : State) (c : Nat) : Word := (getCtx s c).regs.config
/-- A context's home cell. -/
def homeOf (s : State) (c : Nat) : Nat := cfgHome (configOf s c)
/-- A context's domain. -/
def domOf (s : State) (c : Nat) : Nat := cfgDomain (configOf s c)
/-- A context's state (R156). -/
def stateOf (s : State) (c : Nat) : CtxState := (getCtx s c).regs.state
/-- A context's mode is Lead. -/
def isLead (s : State) (c : Nat) : Bool := cfgLead (configOf s c)
/-- The contexts that are listed. -/
def ctxNumbers (s : State) : List Nat := s.ctxs.map Prod.fst

/-! Which cell serves an address (R13, R321, R397). -/

/-- A cell of the East half after the East Belfry has failed (R18). -/
def eastLost (s : State) (n : Nat) : Bool := s.west.seesEastFailed && cellEast n
/-- A Belfry has failed: its window takes no writes and reads zero (R454). -/
def windowDead (s : State) (east : Bool) : Bool := if east then s.west.seesEastFailed else s.east.seesWestFailed
/-- A cell is ON (R389), its half alive (R18). -/
def cellOn (s : State) (n : Nat) : Bool := decide (n < cellCount) && decide ((getCell s n).state = .on) && !eastLost s n
/-- A cell has been retired (R396). -/
def cellRetired (s : State) (n : Nat) : Bool := (getCell s n).retired
/-- A core is enabled in the good-core map (R461). -/
def coreGood (s : State) (core : Nat) : Bool := decide (core < coreCount) && s.regs.good.getLsbD core
/-- A C-cell's cluster was disabled by fuse (R4). -/
def fusedOff (s : State) (n : Nat) : Bool :=
  decide (roleOf n = .c) && s.regs.fuseOk && (coresOfCell n).all fun k => !s.regs.fusedGood.getLsbD k
/-- A unit exists (R54, R397): an enabled core, or an HBM unit one of whose stack's M-cells still serves. -/
def unitExists (s : State) (sp : Space) (u : Nat) : Bool :=
  match sp with
  | .core => coreGood s u
  | .hbm => decide (u < 48) && !(cellRetired s (288 + u) && cellRetired s (288 + (u - u % 2) + (1 - u % 2)))
  | _ => true
/-- Every byte of a range exists, the range lying within a unit or units without holes (R54). -/
def bytesExist (s : State) (lo hi : Nat) : Bool :=
  let a : Word := BitVec.ofNat 64 lo
  let b : Word := BitVec.ofNat 64 hi
  let sp := addrSpace a
  let ok (w : Word) : Bool := unitExists s sp (unitOf sp (addrOff w)) && decide (addrOff w % 2 ^ unitLog sp < populatedLimit sp)
  addrSpace b == sp && ok a && ok b && (unitOf sp (addrOff a) == unitOf sp (addrOff b) || decide (populatedLimit sp = 2 ^ unitLog sp))
/-- The cell that serves a unit of core local memory or HBM: the partner M-cell's after a retirement (R13, R397). -/
def servingUnit (s : State) (sp : Space) (u : Nat) : Nat :=
  match sp with
  | .hbm => if cellRetired s (288 + u) then 288 + (u - u % 2) + (1 - u % 2) else 288 + u
  | _ => cellOfUnit sp u
/-- The owner L-cell of a chip's stream (R321, R323): that of the open stream, else the route's primary link. -/
def ownerCell (s : State) (chip : Nat) : Nat :=
  if (getRoute s chip).peer = .opened then (getStream s chip).owner else 336 + field (getRoute s chip).bits 0 4
/-- The cell that serves a global address for a context with the given home and host cells (R13, R468). -/
def servingCell (s : State) (home host : Nat) (a : Nat) : Nat :=
  let w : Word := BitVec.ofNat 64 a
  if addrChip w ≠ s.regs.chipId then ownerCell s (addrChip w)
  else match addrSpace w with
    | .host => host
    | .regs => home
    | sp => servingUnit s sp (unitOf sp (addrOff w))
/-- The cells that serve some units of a forme, each once, in unit order (R13). -/
def unitCells (s : State) (home host : Nat) (f : Forme) (units : List Nat) : List Nat :=
  if addrChip f.base ≠ s.regs.chipId then [ownerCell s (addrChip f.base)]
  else match addrSpace f.base with
    | .host => [host]
    | .regs => [home]
    | sp => (units.map (servingUnit s sp)).eraseDups
/-- The cells that a forme's data lies at: its source or destination cells (R13, R176; log 40). -/
def formeCells (s : State) (home host : Nat) (f : Forme) : List Nat := unitCells s home host f (touchedUnits f)
/-- The cells that serve a forme's unit hull (R74). -/
def hullCells (s : State) (home host : Nat) (f : Forme) : List Nat := unitCells s home host f (hullUnits f)
/-- The half of the owner of a register block (R468). -/
def blockEast (b : Nat) : Bool := if b < 2 then decide (b = 1) else cellEast (b - 2)
/-- R74: for a deadline-bound context every cell the forme reaches lies in its reach; the H-cell of a host forme is
not retired (R397). A remote forme's route must be valid (R321). -/
def reachOk (s : State) (cfg : Word) (f : Forme) : Bool :=
  let loc := decide (addrChip f.base = s.regs.chipId)
  (loc || bit (getRoute s (addrChip f.base)).bits 16) &&
  (!(loc && decide (addrSpace f.base = .host)) || !cellRetired s (cfgHostCell cfg)) &&
  (!cfgDeadline cfg ||
    (if loc && decide (addrSpace f.base = .regs) then
      (match regBlock (addrOff f.base) with | some b => cfgReach cfg (blockEast b) | none => false)
    else (hullCells s (cfgHome cfg) (cfgHostCell cfg) f).all fun n => cfgReach cfg (cellEast n)))
/-- What FORME checks a context's forme against (R69). -/
def formeRules (s : State) (c : Nat) : FormeRules :=
  let cfg := configOf s c
  { chip := s.regs.chipId, cls := clsOfCode (cfgClass cfg), domain := getDom s (cfgDomain cfg),
    exist_ := unitExists s, reachOk := reachOk s cfg }
/-- Validation of a forme for a context (R69). For a remote forme the core's being enabled is left to the receiving
chip (R321). -/
def checkForme (s : State) (c : Nat) (f : Forme) : Option Code :=
  let r := formeRules s c
  validateForme (if isRemote r.chip f then { r with exist_ := unitNumberOk } else r) f

/-! The fault log (R398). -/

/-- Units counted by the counters of an owner whose selector matches, unless the chip is frozen (R400, R401, R407). -/
def bumpCounter (event units : Nat) (ctx dom : Option Nat) (k : Counter) : Counter :=
  let sel := k.select.toNat
  let ctxOk := !sel.testBit 8 || ctx == some (fieldOf sel 9 10)
  let domOk := !sel.testBit 19 || dom == some (fieldOf sel 20 8)
  if fieldOf sel 0 8 = event ∧ event ≠ 0 ∧ ctxOk ∧ domOk then
    { k with count := (k.count + units) % 2 ^ 48, ovf := k.ovf || decide (2 ^ 48 ≤ k.count + units) }
  else k
/-- Counts an event at a cell (R400, R403). -/
def countCell (s : State) (cell event units : Nat) (ctx dom : Option Nat) : State :=
  if s.instr.frozen || decide ((getCell s cell).counters = []) || decide (units = 0) then s
  else modCell s cell fun x => { x with counters := x.counters.map fun p => (p.1, bumpCounter event units ctx dom p.2) }
/-- Counts an event at a Belfry (R400, R404). -/
def countHalf (s : State) (east : Bool) (event units : Nat) (ctx dom : Option Nat) : State :=
  if s.instr.frozen then s
  else modHalf s east fun h => { h with counters := h.counters.map fun p => (p.1, bumpCounter event units ctx dom p.2) }

/-- One fault-log entry's fields (R398). -/
structure LogEntry where
  kind : Nat
  addr : Word := 0
  pc : Word := 0
  cell : Option Nat := none
  ctx : Option Nat := none
  code : Code := 0
  ch : Option Nat := none
  dom : Option Nat := none
deriving DecidableEq, Repr
/-- The four words of an entry (R398). -/
def logWords (now : Word) (e : LogEntry) : List Word :=
  [now, e.addr, e.pc,
    BitVec.ofNat 64 (e.cell.getD 0xFFFF + place (e.ctx.getD 0xFFFF) 16 + place e.code.toNat 32 + place e.kind 40 +
      place (e.ch.getD 0xFF) 48 + place (e.dom.getD 0xFF) 56)]
/-- Writes an entry to the ring of a half; the address field is zero for a locked domain (R363, R398). -/
def logTo (s : State) (east : Bool) (e : LogEntry) : State :=
  let hide := match e.dom with | some d => (getDom s d).lock | none => false
  let e := if hide then { e with addr := 0 } else e
  countHalf (modHalf s east fun h =>
    { h with flog := { count := h.flog.count + 1, ring := tabSet h.flog.ring (h.flog.count.toNat % 256) (logWords s.time.ref e) } })
    east 0x46 1 e.ctx (e.ctx.bind fun _ => e.dom)
/-- The ring an entry goes to: its context's half, else its cell's, else the detecting Belfry's (R398). -/
def logEvent (s : State) (detector : Bool) (e : LogEntry) : State :=
  logTo s (match e.ctx, e.cell with | some c, _ => ctxEast c | none, some n => cellEast n | none, none => detector) e

/-! Galley slices, grants and credits (R174-R181, R361). -/

/-- The remote pool's size of a cell (R332). -/
def remoteSlicesOf (s : State) (n : Nat) : Nat := (getCell s n).remoteSlices.getD (if roleOf n = .l then 16 else 2)
/-- A cell's slice. -/
def getSlice (x : Cell) (k : Nat) : Slice := tabGet {} x.slices k
/-- The slices of a cell outside its remote pool, in ascending order (log 21). -/
def contextSlices (s : State) (n : Nat) : List Nat := List.range (64 - remoteSlicesOf s n)
/-- The slices of a cell that no context holds. -/
def freeSlices (s : State) (n : Nat) : List Nat :=
  (contextSlices s n).filter fun k => (getSlice (getCell s n) k).owner.isNone
/-- Slices reserved at a cell (R465). -/
def reservedCount (s : State) (n : Nat) : Nat := (contextSlices s n).length - (freeSlices s n).length
/-- The grant of a context for a channel at a cell (R176). -/
def grantAt (s : State) (c cell ch : Nat) : Option Grant :=
  (getCtx s c).grants.find? fun g => decide (g.first ≤ cell) && decide (cell ≤ g.last) && g.channel == ch
/-- The queue of credits an instruction uses (R178-R180): the PREFETCH queue, the Lead queue, or the half. -/
def queueOf (j : Job) : Nat := if prefetchOf j.word then 3 else if j.lead then 2 else flag j.half
/-- The credit pool of a context's channel and queue at a cell. -/
def findPool (s : State) (cell ctx ch queue : Nat) : Option Pool :=
  s.pools.find? fun p => p.cell == cell && p.ctx == ctx && p.ch == ch && p.queue == queue
/-- Changes a pool. -/
def modPool (s : State) (id : Nat) (f : Pool → Pool) : State :=
  { s with pools := s.pools.map fun p => if p.id = id then f p else p }
/-- Sends a credit back to its source (R177); it is free again when the return arrives. -/
def returnCredit (s : State) (pool : Option Nat) : State :=
  match pool with
  | some id => modPool s id fun p => { p with returning := p.returning + 1 }
  | none => s

/-! Work counts (R366, R367, R403). -/

/-- The kinds of work that reports and counters count. -/
inductive Work where
  | reads | writes | beats | galley | caster | tiles
deriving DecidableEq, Repr
/-- Adds work to one record, saturating (R366). -/
def addWork (w : Work) (n : Nat) (a : Activity) : Activity :=
  match w with
  | .reads => { a with reads := saturate 32 (a.reads + n) }
  | .writes => { a with writes := saturate 32 (a.writes + n) }
  | .beats => { a with beats := saturate 32 (a.beats + n) }
  | .galley => { a with galley := saturate 32 (a.galley + n) }
  | .caster => { a with caster := saturate 32 (a.caster + n) }
  | .tiles => { a with tiles := saturate 32 (a.tiles + n) }
/-- Counts work under a phase tag. A report holds at most eight records: what comes when there are eight joins the one of tag 0xFFFF_FFFF, which
the eighth becomes if there is none yet (R366, R367; log 28). -/
def addActivity (as : List Activity) (tag : BitVec 32) (w : Work) (n : Nat) : List Activity :=
  let add (t : BitVec 32) : List Activity := as.map fun a => if a.tag = t then addWork w n a else a
  if as.any (fun a => a.tag == tag) then add tag
  else if as.length < 8 then as ++ [addWork w n { tag := tag }]
  else if as.any (fun a => a.tag == 0xFFFFFFFF) then add 0xFFFFFFFF
  else as.dropLast ++ (as.getLast?.map fun a => addWork w n { a with tag := 0xFFFFFFFF }).toList
/-- Counts work at a cell: in the activity record and in the event counters (R366, R403). -/
def work (s : State) (cell : Nat) (tag : BitVec 32) (w : Work) (n : Nat) (event : Nat) (ctx dom : Option Nat) : State :=
  countCell (modCell s cell fun x => { x with activity := addActivity x.activity tag w n }) cell event n ctx dom
/-- Counts 512-byte accesses of galley slices at a cell for an instruction (R366, R403). -/
def countGalley (s : State) (cell : Nat) (j : Job) (n : Nat) : State := work s cell j.phase .galley n 0x06 (some j.ctx) (some j.domain)

end Sys2Proof.Machine
end

