-- ==== Sys2Proof/Machine/Flags.lean ====
section
/-!
DEFINITION. Status bits computed from the state: a context's STATUS, IDLE and WAIT_REASON, DEADLINE_ACTIVE, channel
and cell status words, Peal line status (R41, R152, R465, R467 and the Register tables).
-/

namespace Sys2Proof.Machine

/-- The code of a context state (R152). -/
def stateCode : CtxState → Nat
  | .free => 0 | .loaded => 1 | .running => 2 | .waiting => 3 | .paused => 4 | .halted => 5 | .stopping => 6

/-- `WAIT_REASON` (R152): 0 unless the context is WAITING. -/
def waitReason (x : Ctx) : Nat :=
  if x.regs.state ≠ .waiting then 0
  else match x.wait with
    | .doorbell => 1 | .chime => 2 | .peal => 3 | .toll _ | .firstToll => 4 | .drain _ => 5 | .fence _ _ _ => 6
    | _ => 0

/-- Instructions of a context that are issued and incomplete (R152). -/
def openFlights (s : State) (c : Nat) : List Flight :=
  s.flights.filter fun f => f.origin.isNone && f.job.ctx == c && !f.complete

/-- Instructions of a context that are incomplete, or that a halt or a PAUSE still holds (R381, R385). -/
def heldFlights (s : State) (c : Nat) : List Flight :=
  s.flights.filter fun f => f.origin.isNone && f.job.ctx == c && (!f.complete || f.stop.isSome)

/-- `IDLE` (R152, R385). -/
def ctxIdle (s : State) (c : Nat) : Bool := (heldFlights s c).isEmpty

/-- `CMD_BUSY`: a command executes; UNLOAD and ABORT do until STOPPING ends (R153, R391). -/
def cmdBusy (x : Ctx) : Bool := decide (x.regs.cmd ≠ .none) || decide (x.regs.state = .stopping)

/-- BELFRY.CTXn.STATUS (R152). -/
def ctxStatus (s : State) (c : Nat) : Nat :=
  let x := getCtx s c
  stateCode x.regs.state + place (waitReason x) 3 + place (flag (cmdBusy x)) 6 + place (flag x.regs.cmdIgnored) 7 +
    place x.regs.cmdResult.toNat 8 + place x.regs.fault.toNat 16 + place (flag x.regs.rearm) 24 +
    place (flag (ctxIdle s c)) 25 + place (flag x.regs.doorbellReject) 26 + place x.regs.head 32

/-- A context keeps DEADLINE_ACTIVE of a half high (R41). -/
def holdsDeadline (s : State) (east : Bool) (c : Nat) : Bool :=
  let cfg := configOf s c
  cfgDeadline cfg && cfgReach cfg east &&
  match stateOf s c with
  | .running | .waiting | .paused | .stopping => true
  | .halted => !ctxIdle s c
  | _ => false

/-- DEADLINE_ACTIVE of a half; low while the Toll is stopped (R41). -/
def deadlineActive (s : State) (east : Bool) : Bool := s.time.running && (ctxNumbers s).any (holdsDeadline s east)

/-- The code of OFF, STOPPING and ON. -/
def powerCode : Power → Nat
  | .off => 0 | .stopping => 1 | .on => 2

/-- CELL.CTRL (Faults, halts and recovery, Registers). -/
def cellCtrl (x : Cell) : Nat :=
  flag x.enable + place (powerCode x.state) 1 + place (flag x.rearm) 3 + place (flag x.retired) 5 +
    place (flag x.degraded) 6

/-- CELL.CHn.CTRL (Faults, halts and recovery, Registers). -/
def chanCtrl (x : Chan) : Nat :=
  flag x.enable + place (powerCode x.state) 1 + place (flag x.rearm) 3 + place (flag x.halted) 4 +
    place (flag x.paused) 5 + place (flag x.dir) 6 + place x.fault.toNat 7 + place x.ctx 15 + place (flag x.cmdIgnored) 25

/-- The order in a descriptor set of a channel at a cell (R173). -/
def orderIn (s : State) (cell ch : Nat) (p : Place) : Option Order :=
  s.orders.find? fun o => o.cell == cell && o.ch == ch && decide (o.place = p)

/-- CELL.CHn.STATUS (R467). -/
def chanStatus (s : State) (cell ch : Nat) : Nat :=
  let a := orderIn s cell ch .active
  let b := orderIn s cell ch .shadow
  let half := match a with
    | some o => (match getFlight s o.insn with | some f => !f.job.lead && f.job.half | none => false)
    | none => false
  let slices := ((getCell s cell).slices.filter fun p => match p.2.owner with | some q => q.2 == ch | none => false).length
  flag a.isSome + place (flag b.isSome) 1 + place ((a.map Order.ctx).getD 0) 2 + place ((b.map Order.ctx).getD 0) 12 +
    place (flag half) 22 + place slices 23

/-- A slice of the cell is being scrubbed, or MBIST runs on it (R465). -/
def scrubbing (s : State) (n : Nat) : Bool :=
  ((getCell s n).slices.any fun p => p.2.scrubbing) || (s.regs.fuseOk && !s.regs.mbistDone && decide ((getCell s n).state = .on))

/-- CELL.GALLEY_STATUS (R465). -/
def galleyStatus (s : State) (n : Nat) : Nat :=
  let r := reservedCount s n
  r + place (64 - r - remoteSlicesOf s n) 7 + place (flag (scrubbing s n)) 14

/-- CELL.ATT_SPLIT (R303). -/
def attSplit (x : Cell) : Nat :=
  x.shareRead + place x.shareWrite 9 + place x.shareRemote 18 + place (flag x.splitReject) 27

/-- The code of a Peal line's state. -/
def lineCode : LineState → Nat
  | .off => 0 | .stopping => 1 | .on => 2 | .failed => 3

/-- The round for which a participant's input on the wire of round `r` is raised (R266). -/
def wireOf (p : Participant) (r : BitVec 32) : Option (BitVec 32) := if r.getLsbD 0 then p.odd else p.even
/-- A participant has raised its input for round `r` and has not left it (R266). -/
def arrivedIn (p : Participant) (r : BitVec 32) : Bool := wireOf p r == some r

/-- A participant takes part in round `r`: its first round is not after it (R270). -/
def enrolledIn (p : Participant) (r : BitVec 32) : Bool := decide ((r - p.firstRound).toNat < 2 ^ 31)

/-- Participants that have arrived in a round (R266). -/
def arrivedCount (l : Line) (r : BitVec 32) : Nat := (l.parties.filter fun p => enrolledIn p r && arrivedIn p r).length

/-- BELFRY.PEALn.CONFIG. -/
def pealConfig (l : Line) : Nat :=
  l.domain + place (flag l.system) 8 + place (flag l.enable) 9 + place (lineCode l.state) 10 + place (flag l.rearm) 12

/-- BELFRY.PEALn.TREE. -/
def pealTree (l : Line) : Nat := l.parent + place l.children.toNat 5 + place l.depth 21

/-- BELFRY.PEALn.STATUS. -/
def pealStatus (l : Line) : Nat :=
  l.round.toNat + place l.parties.length 32 + place (arrivedCount l l.round) 45

/-- BELFRY.PEALn.STALLS. -/
def pealStalls (l : Line) : Nat := l.stalls + place (flag l.stallsOvf) 63

/-- BELFRY.DOMd.CTRL. -/
def domCtrl (d : Domain) : Nat :=
  place (flag d.lock) 2 + place (flag d.key.isSome) 3 + place (flag d.reject) 4 + place d.rejectCause 5 +
    place d.keyGen.toNat 32

/-- BELFRY.TOLL_STATUS (R51). -/
def tollStatus (t : Time) : Nat :=
  flag t.running + place (flag t.pendingPeriod.isSome) 1 + place (flag t.periodReject) 2 + place (flag t.syncLocked) 3 +
    place (flag t.syncLost) 4 + place t.overruns 16

/-- The code of a mode (R435). -/
def modeCode : Mode → Nat
  | .init => 0 | .test => 1 | .run => 2 | .recovery => 3 | .detached => 4

/-- The code of `RESULT` (BELFRY.MODE). -/
def modeResultCode : ModeResult → Nat
  | .done => 0 | .badMode => 1 | .notFree => 2 | .syncFail => 3 | .belfryFailed => 4

/-- BELFRY.MODE. -/
def modeWord (r : Regs) : Nat :=
  modeCode r.mode + place (flag r.busy) 3 + place (modeResultCode r.result) 8 + place (flag r.modeIgnored) 16

/-- The code of `PEER` (BELFRY.ROUTEc). -/
def peerCode : Peer → Nat
  | .none => 0 | .opened => 1 | .lost => 2 | .gone => 3

/-- The number of set bits of the good-core map (R459). -/
def goodCount (good : BitVec 4608) : Nat := ((List.range coreCount).filter fun k => good.getLsbD k).length

/-- A C-cell has an enabled core, so that it is enabled; other cells are enabled in every grade (R3, R25, R397). -/
def cellMapped (s : State) (n : Nat) : Bool :=
  s.regs.fuseOk && (decide (roleOf n ≠ .c) || (coresOfCell n).any fun k => s.regs.good.getLsbD k)

end Sys2Proof.Machine
end

