-- ==== Sys2Proof/Machine/Items.lean ====
section
/-!
DEFINITION. Stream items towards other chips: queueing an item, opening a stream, sending a seal group, and the messages
that a fault of an item sends to its context (R320-R325, R338, R351-R354).
-/

namespace Sys2Proof.Machine

/-- The address of the instruction that an update belongs to (R379). -/
def payloadPc : Payload → Word
  | .order _ j _ _ => j.pc
  | .chime _ _ _ _ pc | .signal _ _ _ _ pc | .refusal _ _ _ pc => pc
  | _ => 0

/-- The context of another chip as orders, updates and polls name it here (State). -/
def foreignCtx (chip dom c : Nat) : Nat := 262144 * (chip + 1) + 1024 * dom + c
/-- The chip, domain and context that such a number names. -/
def foreignParts (k : Nat) : Nat × Nat × Nat := (k / 262144 - 1, k / 1024 % 256, k % 1024)
/-- The link a chip's stream runs on now (R321, R337). -/
def currentLink (s : State) (chip : Nat) : Nat :=
  let r := getRoute s chip
  if r.useAlt then field r.bits 8 4 else field r.bits 0 4
/-- The link kinds of the envelope that the engine sends outside the sequence (R425): 1 OPEN, 2 OPEN reply, 3 CLOSE,
4 GOODBYE, 5 acknowledgement. -/
def sendControl (s : State) (link chip kind : Nat) (v : BitVec 32) : State := emit s (.linkControl link chip kind v)
/-- A timer that starts now with a length of so many µs: a later write of the register changes only timers started after it. -/
def startTimer (s : State) (us : Nat) : Timer := { since := s.time.ref, us := us }
/-- A timer has run out. -/
def timerDue (s : State) (t : Timer) : Bool := elapsedUs s t.since t.us
/-- Asks a chip for a window for the stream to it (R324). -/
def sendOpen (s : State) (chip : Nat) : State :=
  modStream (sendControl s (currentLink s chip) chip 1 (getStream s chip).nextSeq) chip fun x =>
    { x with opening := true, refused := false, openTimer := startTimer s s.regs.ackUs }
/-- Something has come from a chip (R339). -/
def heardFrom (s : State) (chip : Nat) : State := { s with peerHeard := tabSet s.peerHeard chip (startTimer s s.regs.lostUs) }
/-- A chip's stream cannot carry anything: its peer is lost or gone (R338, R339). -/
def peerLost (s : State) (c : Nat) : Bool := decide ((getRoute s c).peer = .lost ∨ (getRoute s c).peer = .gone)
/-- Gives back the galley slots of some items (R325). -/
def freeHeld (s : State) (hs : List Held) : State := each (hs.flatMap Held.credits) (fun s id => returnCredit s (some id)) s
/-- Queues an item of the stream to a chip with the galley slots it holds, opening the stream if need be (R323-R325). Towards a lost or gone
peer the item is dropped. -/
def queueHeld (s : State) (chip dom ctx : Nat) (epoch : BitVec 32) (p : Payload) (insn : Option Nat) (credits : List Nat) : State :=
  let item : Item :=
    {
      chip := s.regs.chipId, incarnation := s.regs.incarnation, domain := dom
      ctx := if ctx < ctxCount then ctx else (foreignParts ctx).2.2, epoch := epoch, payload := p }
  let h : Held := { item := item, insn := insn, ctx := if ctx < ctxCount then some ctx else none, credits := credits }
  if peerLost s chip then freeHeld s [h]
  else
    let s := modStream s chip fun x => { x with waiting := x.waiting ++ [h] }
    if (getRoute s chip).peer = .none ∧ !(getStream s chip).opening then
      sendOpen (modStream s chip fun x => { x with owner := 336 + field (getRoute s chip).bits 0 4, closed := false }) chip
    else s
/-- Queues an item that holds no galley slot yet. -/
def queueItem (s : State) (chip dom ctx : Nat) (epoch : BitVec 32) (p : Payload) (insn : Option Nat) : State :=
  queueHeld s chip dom ctx epoch p insn []
/-- Queues a report of an item or instruction that another chip sent; dropped when that chip's window has retired and no stream back to it
is open (R339; log 139). -/
def queueReport (s : State) (chip dom ctx : Nat) (epoch : BitVec 32) (p : Payload) : State :=
  if (tabFind s.windows chip).isSome ∨ (getRoute s chip).peer = .opened then queueItem s chip dom ctx epoch p none else s
/-- Items of the stream to a chip that belong to an instruction, sent or waiting (R325). -/
def itemsOf (s : State) (chip insn : Nat) : Nat :=
  let x := getStream s chip
  ((x.held ++ x.waiting).filter fun h => decide (h.insn = some insn)).length
/-- An item carries data, which a seal group counts as one eighth of its 4 KiB (R352, R428). -/
def isData : Payload → Bool
  | .data _ _ _ _ _ => true
  | _ => false
/-- The next seal group of a stream: consecutive items of one instruction, at most 4 KiB of data and 64 items, as far as
the 4,096 unacknowledged items of R325 leave room (R352). -/
def nextGroup (x : OutStream) : List Held :=
  match x.waiting with
  | [] => []
  | h :: rest =>
    let same := rest.takeWhile fun k => h.insn.isSome && decide (k.insn = h.insn) && isData k.item.payload && isData h.item.payload
    (h :: same.take 7).take (4096 - x.held.length)
/-- The IV of a link group (R352). -/
def linkIv (src dst : Nat) (incarnation : BitVec 16) (wraps : Nat) (seq : BitVec 32) : BitVec 96 :=
  BitVec.ofNat 96 (place 1 92 + place (src % 2 ^ 14) 78 + place (dst % 2 ^ 14) 64 + place incarnation.toNat 48 + place (wraps % 2 ^ 16) 32 + seq.toNat)
/-- What the tag of a group is made of: its items, headers and payloads, without the tag and the payloads' encryption (R352). -/
def authed (g : List Item) : List Item := g.map fun it => { it with tag := 0, cipher := none }
/-- The items of a group numbered, marked, addressed to the window cell and, under a key, sealed (R323, R352). -/
def sealGroup (s : State) (chip : Nat) (key : Option (BitVec 256)) (x : OutStream) (g : List Held) : List Held :=
  let n := g.length
  let iv := linkIv s.regs.chipId chip s.regs.incarnation x.wraps x.nextSeq
  let mark (i : Nat) (it : Item) : Item :=
    { it with
      seq := x.nextSeq + BitVec.ofNat 32 i, window := x.window, first := decide (i = 0), last := decide (i + 1 = n), isSealed := key.isSome }
  let plain := (List.range n).filterMap fun i => (g[i]?).map fun h => mark i h.item
  let tag := match key with
    | some k => Config.gcmGroupTag k iv (authed plain)
    | none => 0
  (g.zip plain).map fun p => { p.1 with item := { p.2 with
    tag := if p.2.last then tag else 0, cipher := key.map fun k => (k, iv) } }
/-- Passes items to the link controller of the stream's current link (R325, R337). -/
def transmit (s : State) (chip : Nat) (hs : List Held) : State :=
  let link := currentLink s chip
  each hs (fun s h => emit s (.linkFrame link chip h.item)) s
/-- Takes `n` items off the queue and sends a group for them: it is numbered, sealed under the key of its domain, and held
until it is acknowledged (R323, R325, R352). -/
def sendGroup (s : State) (chip : Nat) (key : Option (BitVec 256)) (n : Nat) (g : List Held) : State :=
  let x := getStream s chip
  let g := sealGroup s chip key x g
  let next := x.nextSeq.toNat + g.length
  let s := modStream s chip fun x => { x with
    waiting := x.waiting.drop n, held := x.held ++ g, nextSeq := BitVec.ofNat 32 next
    wraps := if 2 ^ 32 ≤ next then x.wraps + 1 else x.wraps, idleTimer := startTimer s s.regs.idleUs
    resendTimer := if x.held.isEmpty then startTimer s s.regs.ackUs else x.resendTimer
    lostTimer := if x.held.isEmpty then startTimer s s.regs.lostUs else x.lostTimer }
  transmit s chip g
/-- What goes back in place of a report that cannot be sealed: the end of the peer's instruction, poll or SUB with KEY_ABSENT. It
travels unsealed, for the slot that would seal it is the one that is empty (R351, R353, R354; log 43). -/
def faultReport (h : Held) (code : BitVec 8) : Option Payload :=
  if h.ctx.isSome then none
  else match h.item.payload with
    | .completion i _ _ | .performed i | .data i _ _ _ _ => some (.refusal (some i) code true 0)
    | .pollResult id _ _ _ => some (.pollResult id 0 false code)
    | .subResult _ => some (.subResult code)
    | .refusal i _ e pc => some (.refusal i code e pc)
    | _ => none
/-- A payload that is taken from an unsealed item: the report of an empty key slot (R354; log 43). -/
def isFault : Payload → Bool
  | .refusal _ c _ _ => decide (c = KEY_ABSENT)
  | .pollResult _ _ _ f => decide (f = KEY_ABSENT)
  | .subResult f => decide (f = KEY_ABSENT)
  | _ => false
/-- A group can go out now (R324, R325). -/
def groupDue (s : State) (chip : Nat) : Bool :=
  decide ((getRoute s chip).peer = .opened) && !(nextGroup (getStream s chip)).isEmpty
/-- A stream may seal nothing more: its wrap count is used up (R353). -/
def wrapsSpent (x : OutStream) (n : Nat) : Bool := decide (0xFFFF < x.wraps) || (decide (x.wraps = 0xFFFF) && decide (2 ^ 32 < x.nextSeq.toNat + n))

end Sys2Proof.Machine
end

