-- ==== Sys2Proof/Machine/Rounds.lean ====
section
/-!
DEFINITION. The rounds of the Peal lines (R266-R271, R274, R340), and the fault latch of a context, whose waiting ARRIVE a fault or a PAUSE
takes back (R189, R271, R379, R385).
-/

namespace Sys2Proof.Machine

/-! Wires (R266, R267). -/

/-- Raises a participant's input for a round, which it has then entered. -/
def raiseWire (p : Participant) (r : BitVec 32) : Participant :=
  let q : Participant := { p with next := r + 1, held := false, withdrawn := false }
  if r.getLsbD 0 then { q with odd := some r } else { q with even := some r }
/-- A participant's input for a round falls. -/
def lowerWire (p : Participant) (r : BitVec 32) : Participant :=
  if !arrivedIn p r then p else if r.getLsbD 0 then { p with odd := none } else { p with even := none }
/-- A round has been released (R266). -/
def isReleased (l : Line) (r : BitVec 32) : Bool := decide (1 ≤ (l.round - r).toNat ∧ (l.round - r).toNat < 2 ^ 31)
/-- The children that have not left a released round of the wire of round `r` (R267, R274). -/
def staleChildren (l : Line) (r : BitVec 32) : BitVec 16 := l.children &&& (if r.getLsbD 0 then l.staleOdd else l.staleEven)
/-- The children of a line whose subtree has not arrived in the open round. -/
def missingChildren (l : Line) : BitVec 16 := l.children &&& ~~~(if l.round.getLsbD 0 then l.childOdd else l.childEven)
/-- Entry to a round is held: the input of some participant is still raised on its wire for an earlier round, or a child has not left that
one (R267, R274). -/
def entryHeld (l : Line) (r : BitVec 32) : Bool :=
  decide (l.system ∧ staleChildren l r ≠ 0) || l.parties.any fun p => (match wireOf p r with | some q => q != r | none => false)
/-- Every participant enrolled in the open round has arrived, and every child's subtree; a chip of a system line that has neither stands
for no one, and only the root then has nothing to release (R266, R274). -/
def roundComplete (l : Line) : Bool :=
  (l.parties.all fun p => !enrolledIn p l.round || arrivedIn p l.round) &&
  (if l.system then decide (missingChildren l = 0) && (decide (l.parties ≠ []) || decide (l.children ≠ 0) || decide (l.parent ≠ 0x1F))
   else l.parties.any fun p => enrolledIn p l.round)
/-- Notes the first arrival in the open round and in the next (R272, R282). -/
def noteArrival (now : Word) (r : BitVec 32) (l : Line) : Line :=
  if r = l.round then { l with firstArrival := some (l.firstArrival.getD now) }
  else if r = l.round + 1 then { l with nextArrival := some (l.nextArrival.getD now) }
  else l
/-- Changes a participant of a line. -/
def modParty (s : State) (n : Nat) (p : Party) (f : Participant → Participant) : State :=
  modLine s n fun l => { l with parties := l.parties.map fun x => if x.party = p then f x else x }
/-- A participant of a line, if enrolled. -/
def partyOf (l : Line) (p : Party) : Option Participant := l.parties.find? fun x => x.party == p
/-- The next round a context enters on a line: bit 0 of it is the line's bit of the parity mask (R275). -/
def parityMask (s : State) (c : Nat) : Nat :=
  ((List.range lineCount).map fun n => match partyOf (getLine s n) (.context c) with | some p => place (flag (p.next.getLsbD 0)) n | none => 0).sum

/-! Release (R266, R268, R274). -/

/-- Sends a Peal flit over a tree link (R274, R340). -/
def pealOut (s : State) (link n : Nat) (odd : Bool) (k : PealFlit) : State := emit s (.peal link n odd k)
/-- The tree links down from a chip. -/
def childLinks (l : Line) : List Nat := (List.range 16).filter fun i => l.children.getLsbD i
/-- The cells of the contexts that have arrived in a round. -/
def arrivedCells (s : State) (l : Line) (r : BitVec 32) : List Nat :=
  (l.parties.filterMap fun p => match p.party with
    | .context c => if arrivedIn p r then some (homeOf s c) else none
    | .core _ => none).eraseDups
/-- The children that arrived in the released round have it to leave (R267, R274). -/
def staleWire (l : Line) : Line :=
  if l.round.getLsbD 0 then { l with staleOdd := l.staleOdd ||| l.childOdd, childOdd := 0 }
  else { l with staleEven := l.staleEven ||| l.childEven, childEven := 0 }
/-- Tells a core that its round is released (R268). -/
def tellCore (n : Nat) (s : State) (p : Participant) : State :=
  match p.party with
  | .core k => emit s (.pealRelease n k)
  | .context _ => s
/-- A synchronisation record that shows nothing pending (R275, R281). -/
def clearSync (y : SyncRec) : SyncRec := { enrolled := y.enrolled }
/-- A context's ARRIVE under its program counter retires while the context is not RUNNING or WAITING: the program counter moves past it (R271). -/
def passArrive (s : State) (c : Nat) : State := modCtx s c fun x => { x with pc := x.pc + 16, sync := clearSync x.sync }
/-- A release on a system line that crossed a taken-back arrival: the release was decided first, so the ARRIVE retires (R271; log 126). -/
def passWithdrawn (n : Nat) (r : BitVec 32) (s : State) (p : Participant) : State :=
  match p.party with
  | .context c =>
    let x := getCtx s c
    if x.regs.state = .paused ∧ x.sync.op = 3 ∧ x.sync.index = n ∧ x.sync.round = r then passArrive s c else s
  | .core _ => s
/-- The inputs of this chip on a released round's wire have all fallen: a chip with a parent tells it (R274). -/
def tellLeft (s : State) (n : Nat) (r : BitVec 32) : State :=
  let l := getLine s n
  let clear := (l.parties.all fun p => !arrivedIn p r) && decide (staleChildren l r = 0)
  if l.system && decide (l.parent ≠ 0x1F) && clear then pealOut s l.parent n (r.getLsbD 0) (.leave true) else s
/-- Releases the open round on this chip: `ROUND` increments, the release goes to the cells and cores that arrived, and
down the tree; a chip where nobody has anything to leave says so at once (R266, R268, R274). -/
def releaseRound (s : State) (n : Nat) : State :=
  let l := getLine s n
  let r := l.round
  let back := l.parties.filter fun p => p.withdrawn && decide (p.next = r)
  let s := each (if l.system then childLinks l else []) (fun s k => pealOut s k n (r.getLsbD 0) .release) s
  let s := each (l.parties.filter fun p => arrivedIn p r) (tellCore n) s
  let s := countHalf (countHalf s false 0x44 1 none none) true 0x44 1 none none
  let s := modLine s n fun l => { staleWire l with
    round := r + 1, firstArrival := l.nextArrival, nextArrival := none, sentUp := false, deliver := (l.deliver ++ arrivedCells s l r).eraseDups
    parties := l.parties.map fun p => if p.withdrawn ∧ p.next = r then { p with next := r + 1, withdrawn := false } else p }
  tellLeft (each back (passWithdrawn n r) s) n r
/-- Finds whether the open round is complete: the root and a line of one chip release it, another chip's state goes up to its parent, an
arrival that was taken back as well (R266, R271, R274, R340). -/
def settleOnce (s : State) (n : Nat) : State :=
  let l := getLine s n
  let done := roundComplete l
  if l.state ≠ .on then s
  else if l.system ∧ l.parent ≠ 0x1F then
    if done = l.sentUp then s
    else modLine (pealOut s l.parent n (l.round.getLsbD 0) (.arrival done)) n fun l => { l with sentUp := done }
  else if done then releaseRound s n else s
/-- The open round and the next, which may be complete as soon as it opens (R267). -/
def settleRound (s : State) (n : Nat) : State := settleOnce (settleOnce s n) n

/-! Entering and leaving (R266, R267). -/

/-- A held entry is counted by the Belfry of the participant's half, under its context if it is one (R401, R404; log 142). -/
def countHeld (s : State) (p : Party) : State :=
  match p with
  | .context c => countHalf s (ctxEast c) 0x45 1 (some c) (some (domOf s c))
  | .core k => countHalf s (cellEast (cellOfCore k)) 0x45 1 none none
/-- A participant enters its next round, or is held (R266, R267). -/
def enterRound (s : State) (n : Nat) (p : Participant) : State :=
  let l := getLine s n
  if entryHeld l p.next then
    let s := countHeld s p.party
    modLine (modParty s n p.party fun x => { x with held := true }) n fun l =>
      { l with stalls := (l.stalls + 1) % 2 ^ 48, stallsOvf := l.stallsOvf || decide (l.stalls + 1 = 2 ^ 48) }
  else settleRound (modLine (modParty s n p.party fun x => raiseWire x p.next) n (noteArrival s.time.ref p.next)) n
/-- Held entries go on once the round two before has been left (R267). -/
def settleHeld (s : State) (n : Nat) : State :=
  each ((getLine s n).parties.filter Participant.held) (fun s p =>
    if entryHeld (getLine s n) p.next then s
    else settleRound (modLine (modParty s n p.party fun x => raiseWire x p.next) n (noteArrival s.time.ref p.next)) n) s
/-- A participant leaves a released round: its input falls (R266). -/
def leaveRound (s : State) (n : Nat) (party : Party) (r : BitVec 32) : State :=
  settleHeld (tellLeft (modParty s n party fun p => lowerWire p r) n r) n
/-- Enrols a participant: its first round is the open one, or the next where this chip has sent its arrival in the open one up the tree and
the release may be decided (R270; log 126). -/
def enrol (s : State) (n : Nat) (p : Party) : State :=
  let s := modLine s n fun l =>
    let first := if l.system ∧ l.sentUp then l.round + 1 else l.round
    if (partyOf l p).isSome then l else { l with parties := l.parties ++ [{ party := p, firstRound := first, next := first }] }
  match p with
  | .context c => modCtx s c fun x => { x with sync := { x.sync with enrolled := x.sync.enrolled ||| (1#16 <<< n) } }
  | .core _ => s
/-- Clears a context's enrolment bit. -/
def clearEnrolled (s : State) (c n : Nat) : State :=
  modCtx s c fun x => { x with sync := { x.sync with enrolled := x.sync.enrolled &&& ~~~(1#16 <<< n) } }
/-- The released rounds that a participant has not left. -/
def unleft (l : Line) (p : Participant) : List (BitVec 32) := [p.next - 2, p.next - 1].filter fun r => arrivedIn p r && isReleased l r
/-- Takes a participant off a line at once; the round may be complete without it, and held entries go on (R270). -/
def resign (s : State) (n : Nat) (p : Party) : State :=
  let s := match p with | .context c => clearEnrolled s c n | .core _ => s
  match partyOf (getLine s n) p with
  | none => s
  | some q =>
    let rest := settleRound (modLine s n fun l => { l with parties := l.parties.filter fun x => x.party ≠ p }) n
    settleHeld (each (unleft (getLine s n) q) (fun s r => tellLeft s n r) rest) n
/-- Takes a context off every line (R158, R273). -/
def resignAll (s : State) (c : Nat) : State := each (List.range lineCount) (fun s n => resign s n (.context c)) s
/-- Takes a context's arrival back from the line it waits on: its input falls and the same round is entered again later; a chip that had
sent its own arrival up the tree takes that back too. If the release was decided first, the ARRIVE retires and the input falls as at any
release (R271). A line that has failed or stops clears all its enrolments itself (R272, R273). -/
def withdrawArrive (s : State) (c : Nat) : State :=
  let x := getCtx s c
  let n := x.sync.index
  let r := x.sync.round
  if x.wait ≠ .peal then s
  else if isReleased (getLine s n) r then leaveRound (passArrive s c) n (.context c) r
  else if (getLine s n).state ≠ .on then s
  else
    let up := (getLine s n).sentUp
    let back (p : Participant) : Participant :=
      if arrivedIn p r then { lowerWire p r with next := r, held := false, withdrawn := up } else { p with held := false }
    settleRound (modParty s n (.context c) back) n

/-! The fault latch (R189, R379). -/

/-- A fault to be raised in a context: its code and kind, whether an instruction raised it, the faulting address and
what the log records (R378, R379). -/
structure Raise where
  code : Code
  kind : FaultKind
  byInsn : Bool := true
  pc : Word := 0
  addr : Word := 0
  ch : Option Nat := none
  cell : Option Nat := none
deriving DecidableEq, Repr

/-- The context stops waiting and enters PAUSED: what it waited for is left under its program counter (R271, R385). An
ABANDON and a SUB, whose effect has been made, retire when their answers come (R211, R233; log 37). The poll of a WAIT GE is no longer
waited for; that of a TAKE still is (R264, R385). -/
def enterPaused (s : State) (c : Nat) : State :=
  let s := withdrawArrive s c
  modCtx s c fun x =>
    { x with
      wait := (match x.wait with | .abandonReports _ | .subResult => x.wait | _ => .none), tollHold := false, lendSince := none
      sync := if x.sync.op = 1 then { x.sync with outstanding := none } else x.sync
      regs := { x.regs with state := .paused } }
/-- Raises a fault in a context: latched, or only logged (R379, R398). FRAME_OVERRUN is logged by R45 alone. -/
def raise (s : State) (c : Nat) (r : Raise) : State :=
  let x := getCtx s c
  let dom := cfgDomain x.regs.config
  let s := if r.code = FRAME_OVERRUN then s else
    logEvent s false { kind := 1, addr := r.addr, pc := r.pc, cell := r.cell, ctx := some c, code := r.code, ch := r.ch, dom := some dom }
  if x.regs.state = .free ∨ x.regs.state = .stopping ∨ x.regs.fault ≠ 0 then s
  else
    let s := modRegs s c fun g => { g with
      fault := r.code, faultKind := r.kind, faultByInsn := r.byInsn,
      faultPc := (r.pc &&& ~~~(0xF : Word)) ||| (g.faultPc &&& 1) }
    if x.regs.state = .running ∨ x.regs.state = .waiting then enterPaused s c else s

end Sys2Proof.Machine
end

