-- ==== Sys2Proof/Machine/Program.lean ====
section
/-!
DEFINITION. A context's program: the queue, the list, retiring an instruction, the end of a list, and the conditions that
DRAIN and FENCE wait for (R163-R166, R189, R200, R201, R210, R237, R293, R379).
-/

namespace Sys2Proof.Machine

/-- The address just past the current list (R200, R201). -/
def listEnd (x : Ctx) : Word := x.listBase + BitVec.ofNat 64 (16 * x.listCount)
/-- The current list has ended: the program counter is past it (R201). -/
def listEnded (x : Ctx) : Bool := x.pc == listEnd x
/-- The entries of a ring (R151). -/
def ringSize (x : Ctx) : Nat := 2 ^ field x.regs.queue 0 5
/-- The ring's base address (R151). -/
def ringBase (x : Ctx) : Word := x.regs.queue &&& ~~~(0x1F : Word)
/-- The entries pending (R165). -/
def pendingEntries (x : Ctx) : Nat := (x.regs.tail + ringSize x - x.regs.head) % ringSize x
/-- The context's instruction at its program counter: the word, when its burst is there (R167). -/
def burstOf (x : Ctx) : Option Burst := x.bursts.find? fun b => b.addr == (x.pc &&& ~~~(0x3FF : Word))
/-- The word at the program counter. -/
def currentWord (x : Ctx) : Option Insn :=
  (burstOf x).bind fun b => b.words[((x.pc - b.addr).toNat / 16)]?
/-- The word's address names an instruction of the current list: the list has not ended. -/
def inList (x : Ctx) : Bool := decide ((x.pc - x.listBase).toNat < 16 * x.listCount)
/-- A fault of the instruction at the program counter: of kind Issue, or Sync for a wait that fails (R189, R379). -/
def raiseHere (s : State) (c : Nat) (code : Code) (kind : FaultKind) (addr : Word) (ch : Option Nat) : State :=
  raise s c { code := code, kind := kind, pc := (getCtx s c).pc, addr := addr, ch := ch }
/-- Forgets the bursts of a list that is over, and those still to come (R167). -/
def dropBursts (x : Ctx) : Ctx := { x with bursts := [], fetches := x.fetches.map fun f => { f with stale := true } }
/-- Past the end of a list: the call depth must be 0, the context goes on with the next entry, or waits for the doorbell
(R157, R201). `last` is the last instruction executed, on which a fault leaves the program counter. -/
def atListEnd (s : State) (c : Nat) (last : Word) : State :=
  let x := getCtx s c
  if !listEnded x then s
  else if !x.calls.isEmpty then raise (modCtx s c fun x => { x with pc := last }) c { code := ILLEGAL_INSTR, kind := .issue, pc := last }
  else
    let s := modCtx s c fun x => { dropBursts x with listBase := x.pc, listCount := 0 }
    if pendingEntries x = 0 ∧ (x.regs.state = .running ∨ x.regs.state = .waiting) then
      modCtx s c fun x => { x with wait := .doorbell, regs := { x.regs with state := .waiting } }
    else s
/-- A context whose program counter is not in a list goes on as at the end of one; the last instruction stands just before it (R201). -/
def settleList (s : State) (c : Nat) : State := if inList (getCtx s c) then s else atListEnd s c ((getCtx s c).pc - 16)
/-- The context goes on at an address (R200, R201). -/
def goTo (s : State) (c : Nat) (pc : Word) : State :=
  let last := (getCtx s c).pc
  atListEnd (modCtx s c fun x => { x with pc := pc }) c last
/-- The instruction at the program counter retires, and the next one follows. -/
def retire (s : State) (c : Nat) : State := goTo s c ((getCtx s c).pc + 16)
/-- The context's wait is over and it is RUNNING (R157). -/
def endWait (s : State) (c : Nat) : State :=
  modCtx s c fun x =>
    { x with wait := .none, lendSince := none,
             regs := { x.regs with state := if x.regs.state = .waiting then .running else x.regs.state } }
/-- The instruction a context waits in retires (R157). -/
def retireWait (s : State) (c : Nat) : State := retire (endWait s c) c
/-- The context becomes WAITING on a condition (R157). -/
def startWait (s : State) (c : Nat) (w : Wait) : State :=
  modCtx s c fun x => { x with wait := w, regs := { x.regs with state := .waiting } }

/-! What DRAIN, SAVE and FENCE ask (R152, R210, R237, R293). -/

/-- An instruction counts for a DRAIN or FENCE: PREFETCH-marked ones only with `ALL` (R210, R237). -/
def countsFor (all : Bool) (f : Flight) : Bool := all || !prefetchOf f.job.word
/-- Every earlier instruction of the context has completed and every chime write of theirs has left its cell (R210). -/
def drained (s : State) (c : Nat) (all : Bool) : Bool :=
  ((openFlights s c).all fun f => !countsFor all f) &&
  s.chimes.all fun u => !(u.origin.isNone && u.ctx == c && (all || !u.prefetch))
/-- The scope of a FENCE contains the memory an address names, for an anchor cell (R292). -/
def inScope (s : State) (scope home : Nat) (a : Nat) : Bool :=
  let w : Word := BitVec.ofNat 64 a
  if scope = 3 then true
  else if addrChip w ≠ s.regs.chipId ∨ addrSpace w = .host ∨ addrSpace w = .regs then false
  else match scope with
    | 0 => decide (roleOf home = .c) && decide (addrSpace w = .core) && servingCell s home 0 a == home
    | 1 => cellEast (servingCell s home 0 a) == cellEast home
    | _ => true
/-- Writes of a context that a cell has granted and not seen performed, within a scope; those into register space have the owner's answer for
their evidence (R283, R284, R292, R468). -/
def unperformed (s : State) (c cell scope home : Nat) (all : Bool) : Bool :=
  (s.accesses.any fun a => a.isWrite && (all || !a.prefetch) && a.ctx == c && a.cell == cell &&
    a.sectors.any fun d => inScope s scope home (32 * d)) ||
  (s.orders.any fun o => o.ctx == c && (match o.failed with
    | some x => x.cell == cell && x.ws.any fun w => inScope s scope home (32 * w.sector)
    | none => false)) ||
  (decide (scope = 3) && s.regAccesses.any fun a => a.isWrite && a.cell == cell && (match getFlight s a.insn with
    | some f => f.origin.isNone && f.job.ctx == c && countsFor all f
    | none => false)) ||
  (decide (scope = 3) && s.hostWrites.any fun h => h.ctx == c && h.cell == cell && (all || !h.prefetch))
/-- Performed reports of other chips that a FENCE of SYSTEM scope still waits for at an L-cell (R284). -/
def remoteUnperformed (s : State) (c cell : Nat) (all : Bool) : Bool :=
  s.flights.any fun f => f.origin.isNone && f.job.ctx == c && countsFor all f &&
    f.remotes.any fun r => r.performed && ownerCell s r.chip == cell
/-- Updates of a context on their way to another chip, of which an L-cell has no report yet (R283, R284). -/
def distantDue (s : State) (c cell : Nat) (all : Bool) : Bool :=
  s.distant.any fun d => d.ctx == c && (all || !d.prefetch) && ownerCell s d.chip == cell
/-- The cells that hold effects a FENCE covers (R293): destinations of its instructions, cells with writes or chime
updates of the context outstanding, and the owner cells of remote destinations. -/
def fenceCells (s : State) (c : Nat) (all : Bool) : List Nat :=
  let fs := s.flights.filter fun f => f.origin.isNone && f.job.ctx == c && countsFor all f
  (fs.flatMap (fun f => (if f.complete then [] else f.parts.map Part.cell) ++ f.remotes.map fun r => ownerCell s r.chip) ++
    (s.accesses.filter fun a => a.isWrite && a.ctx == c).map Access.cell ++
    ((s.orders.filter fun o => o.ctx == c).filterMap fun o => o.failed.map FailedWrite.cell) ++
    (s.hostWrites.filter fun h => h.ctx == c).map HostWrite.cell ++
    ((s.distant.filter fun d => d.ctx == c && (all || !d.prefetch)).map fun d => ownerCell s d.chip) ++
    ((s.regAccesses.filter fun a => a.isWrite && (match getFlight s a.insn with | some f => f.origin.isNone && f.job.ctx == c && countsFor all f | none => false)).map RegAccess.cell) ++
    (s.chimes.filter fun u => u.origin.isNone && u.ctx == c).map ChimePend.cell).eraseDups
/-- The instructions a FENCE covers have completed at a cell, and those whose stream it owns on the chips they went to (R237, R293, R297). -/
def coveredDone (s : State) (c cell : Nat) (all : Bool) : Bool :=
  (openFlights s c).all fun f => !countsFor all f ||
    ((f.parts.all fun p => p.cell ≠ cell || p.done) && f.remotes.all fun r => !r.completion || ownerCell s r.chip != cell)
/-- A cell's evidence for a FENCE is in hand: its covered effects have completed, and those inside the scope have been
performed (R284, R293). -/
def fenceEvidence (s : State) (c cell scope : Nat) (all : Bool) : Bool :=
  let home := homeOf s c
  coveredDone s c cell all &&
  (s.chimes.all fun u => !(u.origin.isNone && u.ctx == c && u.cell == cell && (all || !u.prefetch))) &&
  !unperformed s c cell scope home all && !distantDue s c cell all &&
  !(decide (scope = 3) && remoteUnperformed s c cell all)

end Sys2Proof.Machine
end

