-- ==== Sys2Proof/Machine/Crc.lean ====
section
/-!
DEFINITION. CRC-32C as R232 gives it.
-/

namespace Sys2Proof.Machine

/-- One bit of the reflected CRC. -/
def crcBit (c : BitVec 32) : BitVec 32 := if c.getLsbD 0 then (c >>> 1) ^^^ 0x82F63B78#32 else c >>> 1

/-- Takes one byte, least significant bit first. -/
def crcByte (c : BitVec 32) (b : Byte) : BitVec 32 :=
  let c := c ^^^ b.setWidth 32
  crcBit (crcBit (crcBit (crcBit (crcBit (crcBit (crcBit (crcBit c)))))))

/-- Takes bytes in order. -/
def crcBytes (c : BitVec 32) (bs : List Byte) : BitVec 32 := bs.foldl crcByte c

/-- The value before the first byte (R232). -/
def crcStart : BitVec 32 := 0xFFFFFFFF#32

/-- The final exclusive-or (R232). -/
def crcFinish (c : BitVec 32) : BitVec 32 := c ^^^ 0xFFFFFFFF#32

/-- CRC-32C of bytes (R232). -/
def crc32c (bs : List Byte) : BitVec 32 := crcFinish (crcBytes crcStart bs)

end Sys2Proof.Machine
end

