-- ==== Sys2Proof/Machine/Streams.lean ====
section
/-!
DEFINITION. What an issued instruction moves: its stream, which cell reads and which cell writes each part of it, the
slugs it is cut into, and the order of a destination's writes (R13, R66, R97-R112, R117-R119, R135, R218).
-/

namespace Sys2Proof.Machine

/-- The opcode of an issued instruction. -/
def opF (f : Flight) : Nat := opOf f.job.word
/-- The source forme of a rank. -/
def srcF (f : Flight) (r : Nat) : Forme := f.job.srcs.getD r {}
/-- The destination forme of a branch. -/
def dstF (f : Flight) (b : Nat) : Forme := f.job.dsts.getD b {}
/-- g and N of a GATHER or SCATTER (R107, R108). -/
def gathered (f : Flight) : Option (Nat × Nat) :=
  if opF f = 0x21 ∨ opF f = 0x22 then f.job.aux.map fun x => (gOf f.job.word, countOf x 0) else none
/-- The logical lengths of a source, with N for L_g (R109). -/
def srcLens (f : Flight) (r : Nat) : List Nat := gatherLens (srcF f r) (if opF f = 0x21 then gathered f else none)
/-- The counts of a destination, with N for count_g (R110). -/
def dstCounts (f : Flight) (b : Nat) : List Nat := scatterCounts (dstF f b) (if opF f = 0x22 then gathered f else none)
/-- The walk of an instruction; those that carry none take the identity (R96, R215). -/
def walkF (f : Flight) : List Nat :=
  if [0x20, 0x21, 0x22, 0x24, 0x25, 0x34].contains (opF f) then insnWalk f.job.word else List.range 8
/-- The number of sources. -/
def ranksF (f : Flight) : Nat := max 1 f.job.srcs.length
/-- The type of a rank's elements; FILL and STSCALE have the destination's. -/
def inTy (f : Flight) (r : Nat) : Ty := if f.job.srcs.isEmpty then (dstF f 0).ty else (srcF f r).ty
/-- The type of a branch's elements; CHECK and LDSCALE have the source's. -/
def outTy (f : Flight) (b : Nat) : Ty := if f.job.dsts.isEmpty then inTy f 0 else (dstF f b).ty
/-- The stream type of a rank (R117). -/
def streamF (f : Flight) (r : Nat) : Ty := streamTy (inTy f r) (outTy f 0)
/-- The stream length in elements (R218). -/
def totalF (f : Flight) : Nat := if f.job.srcs.isEmpty then prodOf (dstCounts f 0) else prodOf (srcLens f 0)
/-- A MOVE that quantises (Group scales). -/
def quantising (f : Flight) : Bool :=
  decide (opF f = 0x20) && decide (profG f.job.profile ≠ 0) && tyWide (inTy f 0) && tyQuantised (outTy f 0)
/-- A MOVE that dequantises (Group scales). -/
def dequantising (f : Flight) : Bool :=
  decide (opF f = 0x20) && decide (profG f.job.profile ≠ 0) && tyQuantised (inTy f 0) && tyWide (outTy f 0)
/-- The forme that holds the quantised type. -/
def dataForme (f : Flight) : Forme := if quantising f then dstF f 0 else srcF f 0
/-- The walk that gives the data forme's stream order; none for a source (R135). -/
def dataWalk (f : Flight) : Option (List Nat) := if quantising f then some (walkF f) else none
/-- The group of a stream position (R92). -/
def groupF (f : Flight) (n : Nat) : Nat := groupAt (dataForme f) (dataWalk f) (profG f.job.profile) n
/-- The start of the window that holds a stream position (R135). -/
def windowStartF (f : Flight) (n : Nat) : Nat := windowStart (dataForme f) (streamOrder (dataWalk f)) (profG f.job.profile) n
/-- The end of the window that holds a stream position (R135). -/
def windowEndF (f : Flight) (n : Nat) : Nat := windowEnd (dataForme f) (streamOrder (dataWalk f)) (profG f.job.profile) n
/-- The groups of a window, each once, in stream order. -/
def windowGroups (f : Flight) (n : Nat) : List Nat :=
  ((List.range (windowEndF f n - windowStartF f n)).map fun k => groupF f (windowStartF f n + k)).eraseDups
/-- A quantising MOVE that reads each window twice (R138). -/
def twoPass (f : Flight) : Bool :=
  quantising f && decide (bandGroups (dataForme f) (streamOrder (dataWalk f)) ≠ 1)
/-- The scale forme of a MOVE under a profile with groups. -/
def scaleForme (f : Flight) : Option Forme := if quantising f || dequantising f then f.job.aux else none
/-- The slugs of a MOVE end at window ends (R135, R137). -/
def windowed (f : Flight) : Bool := quantising f || (dequantising f && f.job.aux.isSome)

/-! The source side. -/

/-- The elements of one source unit. -/
def srcPer (f : Flight) (r : Nat) : Nat := tyPerSector (inTy f r)
/-- The logical indices of a rank's stream position in its source, the index values applied (R66, R109). -/
def srcIndices (f : Flight) (r n : Nat) : List Nat :=
  let js := digits n (srcLens f r)
  if opF f = 0x21 then mapIndex js (gOf f.job.word) (f.index.getD []) else js
/-- The sectors of a rank's unit; nothing for a bleed unit, or where the source is no memory (R89, R103). -/
def srcUnit (f : Flight) (r u : Nat) : Option (List Nat) :=
  if f.job.srcs.isEmpty then none
  else (memIndices (srcF f r) (srcIndices f r (u * srcPer f r))).map (unitSectors (srcF f r))
/-- The cell at which a forme's data enters or leaves: that of the address, or for another chip the owner cell, which
for an instruction from another chip is the cell `gate` (R13, R321, R323). -/
def cellAt (s : State) (f : Flight) (gate : Nat) (fm : Forme) (a : Nat) : Nat :=
  if addrChip fm.base ≠ s.regs.chipId ∧ f.origin.isSome then gate
  else servingCell s f.job.home f.job.hostCell a
/-- The cell that reads a rank's unit; a bleed unit enters at the cell of the forme's base, STSCALE's registers at the
cell it names (R103, R196). The source of a quantising MOVE is all read at its first cell, which chooses the scales (R138; log 34). -/
def srcCellOf (s : State) (f : Flight) (r u : Nat) : Nat :=
  if f.job.srcs.isEmpty then scaleCellOf f.job.word
  else if quantising f then f.srcCells.headD 0
  else cellAt s f (f.srcCells.headD 0) (srcF f r)
    (match srcUnit f r u with | some (x :: _) => 32 * x | _ => (srcF f r).base.toNat)
/-- The code of a bleed or FILL element: the value as stored, sign-extended for I64 (R61, R225). -/
def fillCode (t : Ty) (v : BitVec 32) : Nat := if t = .i64 then (v.signExtend 64).toNat else v.toNat % 2 ^ tyWidth t
/-- The codes of a rank's unit from the sectors read, after the source swap and bleed insertion (R103, R119). -/
def unitCodes (f : Flight) (r : Nat) (data : Option (List Sector)) : List Nat :=
  match data with
  | some ss => unpackUnit (inTy f r) (ss.map (swapSector (srcF f r).swap))
  | none => List.replicate (srcPer f r) (fillCode (inTy f r) (srcF f r).furniture)

/-! The destination side. -/

/-- The destination indices of a stream position in a branch; nothing in a skipped slab (R97, R110). -/
def dstIndices (f : Flight) (b n : Nat) : Option (List Nat) :=
  let js := walkIndices (walkF f) (dstCounts f b) n
  if opF f = 0x22 then
    let g := gOf f.job.word
    let x := (f.index.getD []).getD (js.getD g 0) 0
    let ones := match f.job.aux with | some i => 2 ^ tyWidth i.ty - 1 | none => 0
    if x = ones then none else some (js.set g x)
  else some js
/-- The logical index that draws an element's random bits: of the element in a branch's destination forme (R127);
for a SCATTER in the view of R110 (log 31). -/
def drawIndex (f : Flight) (b n : Nat) : Nat :=
  if f.job.dsts.isEmpty then n else undigits (walkIndices (walkF f) (dstCounts f b) n) (dstCounts f b)
/-- The cells at which a branch has a part. -/
def branchCells (f : Flight) (b : Nat) : List Nat := (f.parts.filter fun p => p.branch == b).map Part.cell
/-- The cell that writes a stream position of a branch: CHECK's own, LDSCALE's named one, that of the address; a
skipped slab goes to the branch's first cell (R13, R110, R196, R231; log 32). -/
def dstCellOf (s : State) (f : Flight) (b n : Nat) : Nat :=
  if f.job.dsts.isEmpty then (branchCells f b).headD 0
  else match dstIndices f b n with
    | none => (branchCells f b).headD 0
    | some is => cellAt s f ((branchCells f b).headD 0) (dstF f b) (byteAddr (dstF f b) is 0)
/-- The destination cells, each once. -/
def partCells (f : Flight) : List Nat := (f.parts.map Part.cell).eraseDups
/-- The branches with a part at a cell. -/
def branchesAt (f : Flight) (cell : Nat) : List Nat := (f.parts.filter fun p => p.cell == cell).map Part.branch
/-- A cell needs the element of a stream position. -/
def neededAt (s : State) (f : Flight) (cell n : Nat) : Bool := (branchesAt f cell).any fun b => dstCellOf s f b n == cell
/-- An instruction that another chip issued and whose sources this chip reads: its only parts are at the L-cell of the stream
back. -/
def servesRead (f : Flight) : Bool := f.origin.isSome && f.parts.all fun p => decide (roleOf p.cell = .l)
/-- A branch's destination lies on another chip, so that its L-cell passes items on (R321). -/
def remoteBranch (s : State) (f : Flight) (b : Nat) : Bool := !f.job.dsts.isEmpty && isRemote s.regs.chipId (dstF f b)

/-! Slugs. -/

/-- The elements in one slug: whole source units, at most 512 stream bytes (R177; log 19). -/
def slugElems (f : Flight) (r : Nat) : Nat := srcPer f r * max 1 (4096 / (srcPer f r * tyWidth (streamF f r)))
/-- Where the slug that begins at a stream position ends. -/
def pieceEnd (f : Flight) (r e : Nat) : Nat :=
  min (min (totalF f) ((e / slugElems f r + 1) * slugElems f r)) (if windowed f then windowEndF f e else totalF f)
/-- Where the slug that holds a stream position begins. -/
def pieceStart (f : Flight) (r n : Nat) : Nat :=
  max (min n f.from_) (max (n / slugElems f r * slugElems f r) (if windowed f then windowStartF f n else 0))
/-- The starts of the slugs that hold elements of a unit, as far as they are still to be sent. -/
def unitPieces (f : Flight) (r u : Nat) : List Nat :=
  (((List.range (srcPer f r)).filter fun k => decide (f.from_ ≤ u * srcPer f r + k)).map fun k => pieceStart f r (u * srcPer f r + k)).eraseDups
/-- The positions of a slug that one cell reads and another needs. -/
def piecePositions (s : State) (f : Flight) (src dst r a b : Nat) : List Nat :=
  ((List.range (b - a)).map fun k => a + k).filter fun n =>
    srcCellOf s f r (n / srcPer f r) == src && neededAt s f dst n

/-! The order of writes (R99-R102). -/

/-- A branch as its walk sees it, for the stream of rank `r`. -/
def shapeF (f : Flight) (b r : Nat) : Shape :=
  if f.job.dsts.isEmpty then
    { walk := List.range 8, counts := [totalF f], stream := streamF f r, rowLen := totalF f, unit := srcPer f 0 }
  else
    { walk := walkF f, counts := dstCounts f b, stream := streamF f r,
      rowLen := if f.job.srcs.isEmpty then totalF f else (srcLens f r).headD 1, unit := perUnit (dstF f b) }
/-- The instruction corner-turns a branch; items for another chip leave in stream order (R98). -/
def turnsF (s : State) (f : Flight) (b : Nat) : Bool :=
  !f.job.dsts.isEmpty && !remoteBranch s f b && cornerTurn (walkF f) (dstCounts f b)
/-- A REDUCE keeps a lane for each rank: an unordered one, and one whose ranks an L-cell passes on to another chip, where
they are folded (R228, R321). -/
def rankLanes (f : Flight) : Bool :=
  decide (opF f = 0x25) && (!orderedOf f.job.word || decide (roleOf ((f.parts.map Part.cell).headD 0) = .l))
/-- A lane's branch and rank: an MCAST has a lane for each branch (R226). -/
def laneOf (f : Flight) (l : Nat) : Nat × Nat := if rankLanes f then (0, l) else (l, 0)
/-- The lanes of a destination cell. -/
def lanesAt (f : Flight) (cell : Nat) : List Nat :=
  if rankLanes f then List.range (ranksF f) else branchesAt f cell
/-- The tile of a write position. -/
def tileOf (p : WritePos) : Tile := { o := p.o, b := p.b, q := p.q }
/-- The first stream position not below which a lane has still to write (R102). -/
def laneStart (s : State) (f : Flight) (l : Nat) (p : WritePos) : Nat :=
  let (b, r) := laneOf f l
  if turnsF s f b then min (totalF f) (tileStart (shapeF f b r) (tileOf p)) else p.n
/-- The stream positions of a lane's unit at a write position. -/
def lanePositions (s : State) (f : Flight) (l : Nat) (p : WritePos) : List Nat :=
  let (b, r) := laneOf f l
  if turnsF s f b then tileUnitPositions (shapeF f b r) (tileOf p) p.w else straightPositions (shapeF f b r) p.n
/-- The write position after a lane's unit. -/
def laneNext (s : State) (f : Flight) (l : Nat) (p : WritePos) : WritePos :=
  let (b, r) := laneOf f l
  if turnsF s f b then
    if p.w + 1 < tileUnits (shapeF f b r) (tileOf p) then { p with w := p.w + 1 }
    else
      let t := nextTile (shapeF f b r) (tileOf p)
      { o := t.o, b := t.b, q := t.q }
  else { p with n := p.n + (shapeF f b r).unit }
/-- A write position is past a lane's last unit. -/
def laneDone (s : State) (f : Flight) (l : Nat) (p : WritePos) : Bool := decide (totalF f ≤ laneStart s f l p)
/-- The boundary of R102 at or below a stream position: a unit, a sealed block's grain, or the first tile with a
position not below it. -/
def laneFloor (s : State) (f : Flight) (l n : Nat) : WritePos :=
  let (b, r) := laneOf f l
  let sh := shapeF f b r
  if turnsF s f b then
    let k := walkK sh.walk sh.counts
    let c := sh.counts.headD 1
    if totalF f ≤ n then { o := totalF f / (k * c) }
    else
      let j := n / k % c
      let band := j / tileRows sh
      let t : Tile := { o := n / (k * c), b := band, q := 0 }
      if band * tileRows sh + bandRows sh t = j + 1 then tileWith sh (n % k) k t else { o := t.o, b := band }
  else
    let grain := if (dstF f b).sealed && !f.job.dsts.isEmpty then sealGrain (dstF f b) else sh.unit
    { n := if totalF f ≤ n then totalF f else n - n % grain }
where
  /-- The tile of a band whose column range holds column `q`. -/
  tileWith (sh : Shape) (q : Nat) : Nat → Tile → WritePos
    | 0, t => { o := t.o, b := t.b, q := t.q }
    | fuel + 1, t => if q < tileEnd sh t then { o := t.o, b := t.b, q := t.q } else tileWith sh q fuel { t with q := tileEnd sh t }
  /-- The elements in the fewest whole sealed blocks that hold whole elements (R359). -/
  sealGrain (d : Forme) : Nat :=
    if !tyPlanar d.ty then 4096 / tyBytes d.ty
    else if d.planes < 2 ∨ d.planeStride % 4096 = 0 then 32768 else formeElems d
/-- The end of the stream that a lane needs before it can reach a boundary. -/
def laneNeed (s : State) (f : Flight) (l : Nat) (p : WritePos) : Nat :=
  let (b, r) := laneOf f l
  let sh := shapeF f b r
  if turnsF s f b then
    if p.q = 0 then laneStart s f l p
    else
      let t := tileOf p
      (p.o * sh.counts.headD 1 + p.b * tileRows sh + bandRows sh t - 1) * walkK sh.walk sh.counts + p.q
  else p.n
/-- The boundary a lane comes to next: where it stands, or the tile after the one it has begun (R102). -/
def laneBoundary (s : State) (f : Flight) (l : Nat) (p : WritePos) : WritePos :=
  let (b, r) := laneOf f l
  if turnsF s f b then
    if p.w = 0 then p else let t := nextTile (shapeF f b r) (tileOf p); { o := t.o, b := t.b, q := t.q }
  else laneFloor s f l (p.n + (laneFloorGrain s f l p - 1))
where
  /-- What a straight lane's boundary is rounded up to. -/
  laneFloorGrain (s : State) (f : Flight) (l : Nat) (p : WritePos) : Nat :=
    let x := (laneFloor s f l p.n).n
    if x = p.n then 1 else if (dstF f (laneOf f l).1).sealed then laneFloor.sealGrain (dstF f (laneOf f l).1) else 1
/-- A lane has come to a boundary or passed it. -/
def laneReached (s : State) (f : Flight) (l : Nat) (p goal : WritePos) : Bool :=
  let (b, _) := laneOf f l
  if turnsF s f b then
    decide (goal.o < p.o ∨ (goal.o = p.o ∧ (goal.b < p.b ∨ (goal.b = p.b ∧ goal.q ≤ p.q))))
  else decide (goal.n ≤ p.n)

/-- A lane has passed a stream position: it has been written here, or is not this lane's to write (R177). -/
def lanePassed (s : State) (f : Flight) (l : Nat) (p : WritePos) (n : Nat) : Bool :=
  let (b, r) := laneOf f l
  if turnsF s f b then
    let sh := shapeF f b r
    let k := walkK sh.walk sh.counts
    let c := sh.counts.headD 1
    let o := n / (k * c)
    let band := n / k % c / tileRows sh
    decide (totalF f ≤ laneStart s f l p ∨ o < p.o ∨ (o = p.o ∧ (band < p.b ∨ (band = p.b ∧ n % k < p.q))))
  else decide (n < p.n)
/-- A lane has passed every position of a run of them: of each row of the walk's inner dimensions, its last (R100). -/
def lanePassedAll (s : State) (f : Flight) (l : Nat) (p : WritePos) (first last : Nat) : Bool :=
  let (b, r) := laneOf f l
  if turnsF s f b then
    let k := max 1 (walkK (shapeF f b r).walk (shapeF f b r).counts)
    (List.range (last / k + 1 - first / k)).all fun i => lanePassed s f l p (min last ((first / k + i + 1) * k - 1))
  else lanePassed s f l p last

/-! Conversions in the impose unit (R95, R118). -/

/-- A rank's planes are joined at the cell that reads them (R118). -/
def joinsF (f : Flight) (r : Nat) : Bool := !f.job.srcs.isEmpty && tyPlanar (inTy f r)
/-- A branch's elements are split into planes at the cell that writes them; a corner turn of planes is one pass of its own (R95, R118). -/
def splitsF (s : State) (f : Flight) (b : Nat) : Bool :=
  !f.job.dsts.isEmpty && !remoteBranch s f b && tyPlanar (outTy f b) && !turnsF s f b
/-- The bits of the side of a plane join or split that has no planes, for one element: of the type with none, else of the stream (R95). -/
def flatWidth (f : Flight) (b r : Nat) : Nat :=
  if !tyPlanar (outTy f b) then tyWidth (outTy f b) else if !tyPlanar (inTy f r) then tyWidth (inTy f r) else tyWidth (streamF f r)
/-- The engine cycles that joining or splitting some elements takes: 512 bytes of that side in each (R95). -/
def planeCycles (f : Flight) (b r n : Nat) : Nat := max 1 (ceilDiv (n * flatWidth f b r) 4096)

/-- The record of a CRC (R232). -/
def crcRecord (t : Ty) (codes : List Nat) : Sector :=
  let bytes := streamBytes t codes
  bytesSector (toBytes 4 (crc32c bytes).toNat ++ toBytes 4 0 ++ toBytes 8 bytes.length ++ List.replicate 16 0)

end Sys2Proof.Machine
end

