-- ==== Sys2Proof/Machine/Sources.lean ====
section
/-!
DEFINITION. An order as a source: the credits it holds, what it reads next, the casts of the source cell, and the slugs
it makes (R103, R117-R119, R130-R141, R176-R181, R228, R334, R360).
-/

namespace Sys2Proof.Machine

/-- The stream position at which reading and sending end: a stop's limit, or the end (R102, R381). -/
def limitF (f : Flight) : Nat := match f.stop with | some t => min t.limit (totalF f) | none => totalF f
/-- An instruction's orders move nothing: parked, ended, or dropped (R211, R381, R382). -/
def stillF (f : Flight) : Bool :=
  f.dropped || f.ended.isSome || f.skipped || (match f.stop with | some t => t.parked | none => false)

/-! Reading. -/

/-- A rank's data comes from another chip in items (R321). -/
def fedRank (s : State) (f : Flight) (r : Nat) : Bool := !f.job.srcs.isEmpty && isRemote s.regs.chipId (srcF f r)

/-- The planes a rank's units are read in. -/
def planesF (f : Flight) (r : Nat) : Nat := max 1 (srcF f r).planes
/-- The key of a unit's sector: unit, plane, rank. -/
def readKey (r u k : Nat) : Nat := (u * 8 + k) * 16 + r
/-- The unit and plane of a read step: sixteen units at a time, plane by plane. -/
def stepUnit (p st : Nat) : Nat × Nat := (16 * (st / (16 * p)) + st % 16, st / 16 % p)
/-- The end of the stream that may be read now: the limit, and in the first pass of R138 the window's end. -/
def readLimit (f : Flight) (o : Order) : Nat :=
  if twoPass f then min (limitF f) (windowEndF f o.window) else limitF f
/-- Where the reading of a source goes on from a stream position: a sealed source is read again from the start of the block, for a block is
verified whole (R360). -/
def sealFloor (f : Flight) (n : Nat) : Nat :=
  if (srcF f 0).sealed then n / srcPer f 0 / 128 * 128 * srcPer f 0 else n
/-- The start of what is to be read: where the transfer resumed, and the window in progress of a double read. -/
def readFloor (f : Flight) (o : Order) : Nat := if twoPass f then o.window else sealFloor f f.from_
/-- The first read step from `st` on that reads memory at this order's cell. -/
def nextRead (s : State) (f : Flight) (o : Order) (r : Nat) : Nat → Nat → Option Nat
  | 0, _ => none
  | fuel + 1, st =>
    let per := srcPer f r
    let (u, k) := stepUnit (planesF f r) st
    if readLimit f o ≤ 16 * (st / (16 * planesF f r)) * per then none
    else if u * per < readLimit f o ∧ readFloor f o < (u + 1) * per ∧ k < planesF f r ∧ (srcUnit f r u).isSome ∧
        srcCellOf s f r u = o.cell ∧ (o.reread = [] ∨ !o.reread.contains (readKey r u k)) then some st
    else nextRead s f o r fuel (st + 1)
/-- The read steps of a rank, all groups of units whole. -/
def readSteps (f : Flight) (r : Nat) : Nat := 16 * planesF f r * ceilDiv (totalF f) (16 * srcPer f r)
/-- The sector of a read step. -/
def stepSector (f : Flight) (r st : Nat) : Nat :=
  let (u, k) := stepUnit (planesF f r) st
  ((srcUnit f r u).getD []).getD k 0
/-! Credits (R177-R181). -/

/-- The context whose pools an instruction uses; the remote pool is granted to a chip and domain (R330). -/
def poolOwner (f : Flight) : Nat :=
  match f.origin with
  | some (chip, _) => 2 ^ 26 + chip * 256 + f.job.domain
  | none => f.job.ctx
/-- The queues whose credits an instruction may take: those of R180 and R178, both halves for IN_PLACE (R181), the
remote pool for an instruction from another chip (R330). -/
def creditQueues (f : Flight) : List Nat :=
  if f.origin.isSome then [4] else if inPlaceOf f.job.word && !f.job.lead then [0, 1] else [queueOf f.job]
/-- A free credit of an instruction at a destination cell. -/
def freeCredit (s : State) (f : Flight) (o : Order) (cell : Nat) : Option Pool :=
  s.pools.find? fun p => p.cell == cell && p.ctx == poolOwner f && p.ch == o.ch && (creditQueues f).contains p.queue && decide (0 < p.free)
/-- The credits of an instruction's pools at a cell. -/
def creditTotal (s : State) (f : Flight) (o : Order) (cell : Nat) : Nat :=
  ((s.pools.filter fun p => p.cell == cell && p.ctx == poolOwner f && p.ch == o.ch && (creditQueues f).contains p.queue).map Pool.size).sum
/-- The credits that one rank of an instruction holds at a cell: those opened, those staged, those on the mesh and those
of slugs that have arrived and are not yet written. -/
def heldByRank (s : State) (insn rank cell : Nat) : Nat :=
  let ofOrder (o : Order) : Nat :=
    (o.opened.filter fun c => c.rank == rank && c.cell == cell && c.pool.isSome).length +
    (o.out.filter fun e => e.data.rank == rank && e.cell == cell && e.pool.isSome).length +
    (if o.cell = cell then (o.arrived.filter fun e => e.1.rank == rank).length + (o.taken.filter fun e => e.rank == rank).length else 0)
  ((s.orders.filter fun o => o.insn == insn).map ofOrder).sum +
    (s.slugs.filter fun g => g.insn == insn && g.data.rank == rank && g.dst == cell).length
/-- The credits a rank may still take at a cell: what is left of its share of an ordered REDUCE (R228), or every free one. -/
def creditsLeft (s : State) (f : Flight) (o : Order) (rank cell : Nat) : Nat :=
  let free := ((s.pools.filter fun p => p.cell == cell && p.ctx == poolOwner f && p.ch == o.ch && (creditQueues f).contains p.queue).map Pool.free).sum
  if opF f = 0x25 ∧ orderedOf f.job.word then min free (creditTotal s f o cell / ranksF f - heldByRank s f.id rank cell) else free
/-- Another instruction keeps this one from its slices at a cell: an earlier IN_PLACE MOVE that has not completed, or,
for an IN_PLACE MOVE that has not begun, any slice in use (R181). -/
def sliceBlocked (s : State) (f : Flight) (o : Order) (cell : Nat) : Bool :=
  let work := f.origin.isNone && !prefetchOf f.job.word
  let earlier := s.orders.any fun x => x.cell == cell && x.ctx == o.ctx && x.ch == o.ch && x.isDst && !x.finished &&
    decide (x.insn < o.insn) && (match getFlight s x.insn with | some y => inPlaceOf y.job.word && !y.dropped | none => false)
  let inUse := s.pools.any fun p => p.cell == cell && p.ctx == o.ctx && p.ch == o.ch && decide (p.queue ≤ 2) && decide (p.free ≠ p.size)
  work && (earlier || (inPlaceOf f.job.word && decide (o.opened = []) && decide (o.rd = []) && decide (o.emit = []) && inUse))
/-- A slug position of an order is open. -/
def isOpen (o : Order) (rank start : Nat) : Bool := o.opened.any fun c => c.rank == rank && c.start == start
/-- The first stream position for which another order of an instruction has still to take a credit of a cell. -/
def nextNeed (s : State) (f : Flight) (x : Order) (r cell : Nat) : Nat :=
  let a := max f.from_ (tabGet 0 x.emit r)
  let byRead := if fedRank s f r || decide (opF f = 0x24) then none
    else (nextRead s f x r (readSteps f r - tabGet 0 x.rd r) (tabGet 0 x.rd r)).map fun st => (stepUnit (planesF f r) st).1 * srcPer f r
  let byEmit := if limitF f ≤ a ∨ isOpen x r a ∨ (piecePositions s f x.cell cell r a (pieceEnd f r a)).isEmpty then none else some a
  let byOut := (x.out.find? fun e => e.cell == cell && e.pool.isNone).bind fun e => e.data.elems.head?.map Prod.fst
  if x.place = .sent ∨ x.place = .held then f.from_
  else [byRead, byEmit, byOut].foldl (fun m y => match y with | some n => min m n | none => m) (totalF f)
/-- The band of tiles of a corner turn that a stream position lies in, numbered through the stream (R100). -/
def bandOf (s : State) (f : Flight) (l n : Nat) : Nat :=
  let (b, r) := laneOf f l
  if turnsF s f b then
    let sh := shapeF f b r
    let c := sh.counts.headD 1
    let k := walkK sh.walk sh.counts
    n / (k * c) * (c / tileRows sh + 1) + n / k % c / tileRows sh
  else 0
/-- Where several source cells feed one destination, each leaves the last free credit to the one whose data comes first in the stream, and a
corner turn's credits go to one band of tiles after another, so that the destination can always write (log 125). -/
def turnOk (s : State) (f : Flight) (o : Order) (rank cell a : Nat) : Bool :=
  let rest := s.orders.filter fun x => x.insn == f.id && x.isSrc && x.cell != o.cell
  rest.isEmpty ||
    (let first := (rest.map fun x => nextNeed s f x rank cell).foldl min (totalF f)
     decide (a ≤ first) ||
       (decide (1 < creditsLeft s f o rank cell) && (lanesAt f cell).all fun l => decide (bandOf s f l a ≤ bandOf s f l first)))
/-- Takes a credit at a cell for the slug of a rank that begins at a stream position (R177, R228). -/
def takeCredit (s : State) (f : Flight) (o : Order) (rank cell a : Nat) : Option (State × Nat) :=
  if decide (0 < creditsLeft s f o rank cell) && !sliceBlocked s f o cell && turnOk s f o rank cell a then
    (freeCredit s f o cell).map fun p => (modPool s p.id fun q => { q with free := q.free - 1 }, p.id)
  else none
/-- A fork that already retains two slugs for an output takes no more (R334). -/
def retentionOk (o : Order) : Bool := o.out.all fun e => decide ((o.out.filter fun x => x.cell == e.cell).length < 2)
/-- The scales in one slug of scales (R428). -/
def scalesPerSlug (f : Flight) : Nat := if profSfmt f.job.profile = 2 then 256 else 512
/-- The rank under which the credits of a window's scale slugs are opened: no source has it. -/
abbrev scaleRank : Nat := 64
/-- The cells that the scale slugs sent with a slug go to, each as often as it gets one: ahead of the first slug of a dequantising window,
behind the last of a quantising one (R137). -/
def scaleCells (f : Flight) (a b : Nat) : List Nat :=
  let n := ceilDiv (windowGroups f a).length (scalesPerSlug f)
  if f.job.aux.isNone then []
  else if dequantising f && decide (a = max f.from_ (windowStartF f a)) then (partCells f).flatMap fun m => List.replicate n m
  else if quantising f && decide (b = windowEndF f a) then ((partCells f).take 1).flatMap fun m => List.replicate n m
  else []
/-- Takes the credits of a slug position at every cell that needs some of it, and of the scale slugs that go with it; none are held for an
MCAST, whose slugs take theirs when they are sent (R334), or where no cell needs anything. -/
def openPiece (s : State) (f : Flight) (o : Order) (rank a : Nat) : Option (State × Order) :=
  let b := pieceEnd f rank a
  if opF f = 0x24 then
    if retentionOk o then some (s, { o with opened := o.opened ++ [{ rank := rank, start := a }] }) else none
  else
    let cells := (partCells f).filter fun m => !(piecePositions s f o.cell m rank a b).isEmpty
    let all := (cells.map fun m => (rank, m)) ++ (scaleCells f a b).map fun m => (scaleRank, m)
    let o := if cells.isEmpty then { o with opened := o.opened ++ [{ rank := rank, start := a }] } else o
    all.foldl (fun acc (r, m) => acc.bind fun (t, x) =>
      (takeCredit t f x rank m a).map fun (t, id) =>
        (t, { x with opened := x.opened ++ [{ rank := r, start := a, cell := m, pool := some id }] })) (some (s, o))
/-- Opens the slug positions that are not open yet. -/
def openPieces (s : State) (f : Flight) (o : Order) (rank : Nat) (as : List Nat) : Option (State × Order) :=
  as.foldl (fun acc a => acc.bind fun (t, x) => if isOpen x rank a then some (t, x) else openPiece t f x rank a) (some (s, o))

/-! Accesses. -/

/-- The read steps that follow the first in one access: at most sixteen sectors of one 512-byte block (R416), for
units whose slug positions `ok` allows (log 8). -/
def readRun (s : State) (f : Flight) (o : Order) (r blockOf : Nat) (ok : Nat → Bool) : Nat → Nat → List Nat
  | 0, _ => []
  | fuel + 1, st =>
    match nextRead s f o r (readSteps f r - st) st with
    | none => []
    | some x =>
      if stepSector f r x / 16 = blockOf ∧ ok (stepUnit (planesF f r) x).1 then
        x :: readRun s f o r blockOf ok fuel (x + 1)
      else []
/-- An attachment read that an order can make: its rank, the steps it covers and the step that follows. -/
structure ReadPlan where
  rank : Nat
  steps : List Nat
  next : Nat
deriving DecidableEq, Repr
/-- The next read of one rank, with the credits it takes; nothing when there is none to make or no credit for it
(R177). The flag tells a read held for want of a credit. -/
def planRank (s : State) (f : Flight) (o : Order) (r : Nat) : Option (State × Order × ReadPlan) × Bool :=
  let st := tabGet 0 o.rd r
  match nextRead s f o r (readSteps f r - st) st with
  | none => (none, false)
  | some x =>
    let first := (stepUnit (planesF f r) x).1
    let free := twoPass f && decide (o.pass = 0)
    let as := unitPieces f r first
    match (if free then some (s, o) else openPieces s f o r as) with
    | none => (none, true)
    | some (t, o') =>
      let steps := readRun s f o' r (stepSector f r x / 16) (fun u => free || (unitPieces f r u).all (isOpen o' r)) 16 x
      (some (t, o', { rank := r, steps := steps, next := steps.foldl max x + 1 }), false)
/-- The ranks that still read, those whose next unit comes first in the stream first. -/
def rankOrder (s : State) (f : Flight) (o : Order) : List Nat :=
  let key (r : Nat) : Option Nat :=
    (nextRead s f o r (readSteps f r - tabGet 0 o.rd r) (tabGet 0 o.rd r)).map fun x => (stepUnit (planesF f r) x).1 * srcPer f r
  let rs := ((List.range (ranksF f)).filter fun r => !fedRank s f r).filterMap fun r => (key r).map fun k => (k, r)
  (rs.mergeSort fun a b => decide (a.1 < b.1 ∨ (a.1 = b.1 ∧ a.2 ≤ b.2))).map Prod.snd
/-- The units of a failed read's keys, which RESUME reads again first (R382). -/
def againUnits (g : ReadAgain) : List (Nat × Nat) :=
  match g.kind with
  | .source _ keys => (keys.map fun k => (k % 16, k / 128)).eraseDups
  | _ => []
/-- The failed read an order repeats first, with the credits it takes (R177, R382). -/
def planReread (s : State) (f : Flight) (o : Order) (g : ReadAgain) : Option (State × Order) :=
  (againUnits g).foldl (fun acc (r, u) => acc.bind fun (t, x) => openPieces t f x r (unitPieces f r u)) (some (s, o))
/-- The next read an order makes, over its ranks. -/
def planRead (s : State) (f : Flight) (o : Order) : Option (State × Order × ReadPlan) :=
  if stillF f || o.stopped || f.job.srcs.isEmpty then none
  else (rankOrder s f o).findSome? fun r => (planRank s f o r).1
/-- Some read of an order is held for want of a credit (event 0x0D). -/
def readHeld (s : State) (f : Flight) (o : Order) : Bool :=
  !(stillF f || f.job.srcs.isEmpty) && (planRead s f o).isNone && (rankOrder s f o).any fun r => (planRank s f o r).2
/-- The keys of a read's steps. -/
def planKeys (f : Flight) (p : ReadPlan) : List Nat :=
  p.steps.map fun st => let (u, k) := stepUnit (planesF f p.rank) st; readKey p.rank u k
/-- The sectors of a read's steps. -/
def planSectors (f : Flight) (p : ReadPlan) : List Nat := p.steps.map (stepSector f p.rank)

/-! Scale sectors (R92-R94, R137). -/

/-- The sector and the place in it of a group's scale in the scale forme (R92). -/
def scalePlace (f : Flight) (x : Forme) (g : Nat) : Nat × Nat :=
  let js := digits g (scaleShape (dataForme f) (profG f.job.profile))
  let a := byteAddr x js 0
  (a / 32, a % 32 / tyBytes x.ty)
/-- The sectors that hold the scales of a window, each once. -/
def windowScaleSectors (f : Flight) (x : Forme) (n : Nat) : List Nat :=
  ((windowGroups f n).map fun g => (scalePlace f x g).1).eraseDups
/-- The scale element at a place of a sector. -/
def scaleElem (x : Forme) (d : Sector) (i : Nat) : Nat := (unpackUnit x.ty [swapSector x.swap d]).getD i 0
/-- The scales of a window from the sectors that hold them. -/
def scalesOfSectors (f : Flight) (x : Forme) (n : Nat) (t : Tab Sector) : List (Nat × Nat) :=
  (windowGroups f n).map fun g => let p := scalePlace f x g; (g, scaleElem x (tabGet 0 t p.1) p.2)

/-! Making slugs. -/

/-- A sealed block of a source forme has been verified (R360). -/
def blockOk (o : Order) (sector : Nat) : Bool := o.auxDone.contains (sector / 128)
/-- The data of a rank's unit as read, when all of it is there; a sealed forme's sectors once their blocks are verified
(R360). -/
def unitData (f : Flight) (o : Order) (r u : Nat) : Option (Option (List Sector)) :=
  match srcUnit f r u with
  | none => some none
  | some secs =>
    if (srcF f r).sealed then
      if secs.all (blockOk o) then some (some (secs.map fun x => tabGet 0 o.sealedData x)) else none
    else
      let ds := (List.range secs.length).filterMap fun k => tabFind o.sectors (readKey r u k)
      if ds.length = secs.length then some (some ds) else none
/-- The scale registers of a channel as an order of a domain finds them: zero after another domain's use (R362). -/
def claimedScales (c : Chan) (dom : Nat) : Tab (BitVec 16) := if c.scaleDomain = some dom then c.scales else []
/-- The channel whose scale registers an instruction uses at a cell (R136). -/
def scaleCh (f : Flight) : Nat := chOf f.job.word
/-- The channel's scale registers after an order of a domain wrote some of them (R136, R362). -/
def storeScales (s : State) (cell ch dom : Nat) (xs : List (Nat × BitVec 16)) : State :=
  modChan s cell ch fun c =>
    { c with scales := xs.foldl (fun t x => tabSet t x.1 x.2) (claimedScales c dom), scaleDomain := some dom }
/-- STSCALE's codes of a unit: the channel's registers from the first named (R195). -/
def registerCodes (s : State) (f : Flight) (o : Order) (u : Nat) : List Nat :=
  let c := getChan s o.cell (scaleCh f)
  (List.range (srcPer f 0)).map fun k =>
    (tabGet 0 (claimedScales c f.job.domain) (scaleFirstOf f.job.word + u * srcPer f 0 + k)).toNat % 2 ^ tyWidth (inTy f 0)
/-- The codes of a unit an order may send, in the source type (R103, R119). -/
def sendCodes (s : State) (f : Flight) (o : Order) (r u : Nat) : Option (List Nat) :=
  if opF f = 0x04 then some (registerCodes s f o u) else (unitData f o r u).map (unitCodes f r)
/-- The source code of a stream position, once its unit is there. -/
def sourceCode (s : State) (f : Flight) (o : Order) (r n : Nat) : Option Nat :=
  (sendCodes s f o r (n / srcPer f r)).map fun cs => cs.getD (n % srcPer f r) 0
/-- The positions of a group within the window of position `n`. -/
def groupPositions (f : Flight) (n g : Nat) : List Nat :=
  ((List.range (windowEndF f n - windowStartF f n)).map fun k => windowStartF f n + k).filter fun p => groupF f p == g
/-- The scale of a group, once all its elements are there (R130-R132). -/
def groupScale (s : State) (f : Flight) (o : Order) (n g : Nat) : Option (BitVec 16) :=
  let cs := (groupPositions f n g).map (sourceCode s f o 0)
  if cs.all Option.isSome then
    some (BitVec.ofNat 16 (scaleOf (profSfmt f.job.profile) (outTy f 0) (amaxOf (inTy f 0) (cs.map fun c => c.getD 0))))
  else none
/-- The groups of a slug. -/
def pieceGroups (f : Flight) (a b : Nat) : List Nat := ((List.range (b - a)).map fun k => groupF f (a + k)).eraseDups
/-- The scales a slug needs that are not chosen yet, when all can be chosen. -/
def pieceScales (s : State) (f : Flight) (o : Order) (a b : Nat) : Option (List (Nat × BitVec 16)) :=
  ((pieceGroups f a b).filter fun g => (tabFind o.scales g).isNone).foldl (fun acc g => acc.bind fun l =>
    (groupScale s f o a g).map fun v => l ++ [(g, v)]) (some [])
/-- The units of a slug that this order's cell reads. -/
def pieceUnits (s : State) (f : Flight) (o : Order) (r a b : Nat) : List Nat :=
  (((List.range (b - a)).map fun k => (a + k) / srcPer f r).eraseDups).filter fun u => srcCellOf s f r u == o.cell
/-- An order can make the slug of a rank that begins at `a`: its data is there, its scales can be chosen or have been
read, its registers are the channel's, and its planes have been joined (R118, R137, R138, R141). -/
def pieceReady (s : State) (f : Flight) (o : Order) (r a b : Nat) : Bool :=
  (pieceUnits s f o r a b).all (fun u => (sendCodes s f o r u).isSome) &&
  (!quantising f || (if twoPass f then decide (o.pass = 1) else (pieceScales s f o a b).isSome)) &&
  (!(quantising f && f.job.aux.isNone) || decide (o.place = .active)) &&
  (opF f ≠ 0x04 || decide (o.place = .active)) &&
  (!(dequantising f && f.job.aux.isSome) || decide (b ≤ o.scaleAt)) &&
  (!joinsF f r || decide (b ≤ tabGet 0 o.joined r))
/-- The first slug of a rank that has not been made, if its credits are held or can be: its start and end. -/
def nextPiece (s : State) (f : Flight) (o : Order) (r : Nat) : Option (Nat × Nat) :=
  let a := max f.from_ (tabGet 0 o.emit r)
  let b := min (pieceEnd f r a) (limitF f)
  if a < b ∧ (isOpen o r a ∨ (f.dropped = false ∧ (openPiece s f o r a).isSome)) ∧ (opF f ≠ 0x24 ∨ retentionOk o) then some (a, b) else none
/-- The next slug an order can make: its rank, start and end. A dropped instruction still sends what it has read (R211). -/
def planPiece (s : State) (f : Flight) (o : Order) : Option (Nat × Nat × Nat) :=
  let cands := ((List.range (ranksF f)).filter fun r => !fedRank s f r).filterMap fun r =>
    (nextPiece s f o r).bind fun (a, b) => if pieceReady s f o r a b then some (a, r, b) else none
  let best := cands.foldl (fun (m : Option (Nat × Nat × Nat)) c =>
    match m with | none => some c | some x => if c.1 < x.1 then some c else m) none
  if ((stillF f || o.stopped) && !f.dropped) || decide (opF f = 0x23) then none else best.map fun c => (c.2.1, c.1, c.2.2)
/-- The next slug of a rank whose planes can be joined: all of it that this cell reads is there (R118). -/
def joinReady (s : State) (f : Flight) (o : Order) (r : Nat) : Option (Nat × Nat) :=
  if stillF f || o.stopped || !joinsF f r || fedRank s f r then none
  else (nextPiece s f o r).bind fun (a, b) =>
    if tabGet 0 o.joined r < b ∧ (pieceUnits s f o r a b).all fun u => (sendCodes s f o r u).isSome then some (a, b) else none
/-- The datapath beats of a slug at its source: 512 bytes of the wider side (R148), twice that for stochastic rounding
into FP4. -/
def pieceBeats (f : Flight) (r a b : Nat) : Nat :=
  let w := max (tyWidth (inTy f r)) (tyWidth (streamF f r))
  let slow := castAtSource (inTy f r) (outTy f 0) && decide (outTy f 0 = .e2m1) && decide (inTy f r ≠ .e2m1) &&
    decide (profRound f.job.profile = 2)
  max 1 (ceilDiv ((b - a) * w) (if slow then 2048 else 4096))
/-- The cast of one element at the source cell (R117, R133). -/
def sourceCast (f : Flight) (o : Order) (r n code : Nat) : Cast :=
  let i := drawIndex f 0 n
  if quantising f then
    quantise (inTy f 0) (outTy f 0) f.job.profile f.job.seed (tabGet 0 o.scales (groupF f n)).toNat i code
  else if castAtSource (inTy f r) (outTy f 0) then castCode (inTy f r) (outTy f 0) f.job.profile f.job.seed i code
  else { code := code }
/-- Scale slugs: at most 512 bytes each, with the credits opened for them (R177, R428). -/
def scaleSlugs (f : Flight) (o : Order) (a : Nat) (cells : List Nat) (xs : List (Nat × Nat)) : List Staged :=
  let per := scalesPerSlug f
  cells.flatMap fun m =>
    let held := (o.opened.filter fun c => c.rank == scaleRank && c.start == a && c.cell == m).map Credit.pool
    (List.range (ceilDiv xs.length per)).map fun k =>
      { cell := m, data := { scales := (xs.drop (k * per)).take per }, pool := (held[k]?).join }
/-- Drops what a source no longer needs of the units below a stream position; the window of a quantising MOVE is kept
until it ends. -/
def clearBelow (f : Flight) (o : Order) (n : Nat) : Order :=
  let keep := if quantising f then windowStartF f (n - 1) else n
  { o with sectors := o.sectors.filter fun e => decide (keep < (e.1 / 128 + 1) * srcPer f (e.1 % 16)) }
/-- Counts the NaN, saturation and non-finite group events of a cast at a cell (R125). -/
def countCasts (s : State) (f : Flight) (cell : Nat) (cs : List Cast) : State :=
  let s := countCell s cell 0x10 (cs.filter Cast.nan).length (some f.job.ctx) (some f.job.domain)
  countCell s cell 0x11 (cs.filter Cast.sat).length (some f.job.ctx) (some f.job.domain)
/-- The stochastic draws that some casts take: one for each (R127, R366). -/
def drawCount (f : Flight) (n : Nat) : Nat := if profRound f.job.profile = 2 then n else 0
/-- A group is non-finite: its scale is the NaN code (R130). -/
def nanScale (f : Flight) (v : BitVec 16) : Bool := v.toNat == if profSfmt f.job.profile = 2 then 0x7FC0 else 0xFF
/-- Makes the slug of a rank that runs from `a` to `b`: the scales are chosen, the elements cast, and one slug staged for
each cell that needs some, the window's scales ahead of a dequantising window or behind a quantising one (R137). -/
def makePiece (s : State) (f : Flight) (o : Order) (r a b : Nat) : State :=
  let (s, o) := if isOpen o r a then (s, o) else (openPiece s f o r a).getD (s, o)
  let fresh := if quantising f && !twoPass f then (pieceScales s f o a b).getD [] else []
  let o := { o with scales := fresh.foldl (fun t x => tabSet t x.1 x.2) o.scales }
  let s := if quantising f && f.job.aux.isNone then storeScales s o.cell (scaleCh f) f.job.domain fresh else s
  let s := countCell s o.cell 0x12 (fresh.filter fun x => nanScale f x.2).length (some f.job.ctx) (some f.job.domain)
  let s := if opF f = 0x04 then storeScales s o.cell (scaleCh f) f.job.domain [] else s
  let one (m : Nat) : Option Staged :=
    let es := (piecePositions s f o.cell m r a b).map fun n => (n, (sourceCast f o r n ((sourceCode s f o r n).getD 0)).code)
    if es.isEmpty then none
    else
      let credit := o.opened.find? fun c => c.rank == r && c.start == a && c.cell == m
      some { cell := m, data := { rank := r, elems := es }, pool := credit.bind Credit.pool }
  let casts := if castAtSource (inTy f r) (outTy f 0) && decide (inTy f r ≠ outTy f 0) then
      (((List.range (b - a)).map fun k => a + k).filter fun n => srcCellOf s f r (n / srcPer f r) == o.cell).map fun n =>
        sourceCast f o r n ((sourceCode s f o r n).getD 0)
    else []
  let s := countCasts s f o.cell casts
  let chosen := if quantising f && !twoPass f then casts.length else 0
  let s := work s o.cell f.job.phase .caster (casts.length + chosen + drawCount f casts.length) 0x07 (some f.job.ctx) (some f.job.domain)
  let ahead := if dequantising f && decide (a = max f.from_ (windowStartF f a)) then
      match f.job.aux with
      | some x => scaleSlugs f o a (partCells f) (scalesOfSectors f x a o.scaleSectors)
      | none => []
    else []
  let behind := if quantising f && f.job.aux.isSome && decide (b = windowEndF f a) then
      scaleSlugs f o a ((partCells f).take 1) ((windowGroups f a).map fun g => (g, (tabGet 0 o.scales g).toNat))
    else []
  let o := { o with
    out := o.out ++ ahead ++ (partCells f).filterMap one ++ behind
    opened := o.opened.filter fun c => !((c.rank == r || c.rank == scaleRank) && c.start == a)
    emit := tabSet o.emit r b
    srcBeats := 0 }
  let o := clearBelow f o b
  let o := if twoPass f && decide (b = windowEndF f a) then
      { o with window := b, pass := 0, rd := [(0, 16 * planesF f 0 * (b / srcPer f 0 / 16))], sectors := [], reread := [] }
    else o
  modOrder s o.insn o.cell fun _ => o
/-- The first pass over a window is over: every unit of it is there, and the registers that take its scales are the order's (R138, R141). -/
def firstPassDone (s : State) (f : Flight) (o : Order) : Bool :=
  twoPass f && decide (o.pass = 0) && decide (o.window < limitF f) && (f.job.aux.isSome || decide (o.place = .active)) &&
  ((windowGroups f o.window).all fun g => (groupPositions f o.window g).all fun n => (sourceCode s f o 0 n).isSome)
/-- Ends the first pass: the scales of the window are chosen and its units are read again (R138). -/
def endFirstPass (s : State) (f : Flight) (o : Order) : State :=
  let xs := (windowGroups f o.window).map fun g => (g, (groupScale s f o o.window g).getD 0)
  let s := if f.job.aux.isNone then storeScales s o.cell (scaleCh f) f.job.domain xs else s
  let s := countCell s o.cell 0x12 (xs.filter fun x => nanScale f x.2).length (some f.job.ctx) (some f.job.domain)
  let s := work s o.cell f.job.phase .caster (windowEndF f o.window - o.window) 0x07 (some f.job.ctx) (some f.job.domain)
  let o := { o with
    pass := 1, scales := xs.foldl (fun t x => tabSet t x.1 x.2) o.scales, sectors := []
    rd := [(0, 16 * planesF f 0 * (o.window / srcPer f 0 / 16))], reread := [] }
  modOrder s o.insn o.cell fun _ => o
/-- The scale sectors a dequantising MOVE has to read next, before the window they belong to (R137). -/
def planScales (f : Flight) (o : Order) : List Nat :=
  if stillF f || !dequantising f || decide (limitF f ≤ o.scaleAt) || o.scalesSent then []
  else match f.job.aux with
    | some x =>
      let need := (windowScaleSectors f x o.scaleAt).filter fun d => (tabFind o.scaleSectors d).isNone
      match need with
      | [] => []
      | d :: _ => (need.filter fun e => e / 16 == d / 16).take 16
    | none => []
/-- A sector lies in a forme's hull. -/
def inHull (x : Forme) (sector : Nat) : Bool := let h := hullGlobal x; decide (h.1 ≤ 32 * sector) && decide (32 * sector ≤ h.2)
/-- The tag records a sealed source has to read next (R360). -/
def planTags (f : Flight) (o : Order) : List Nat :=
  if stillF f || !(srcF f 0).sealed then []
  else ((o.sealedData.map fun e => e.1 / 128).eraseDups).filter fun b => inHull (srcF f 0) (128 * b) && (tabFind o.tags b).isNone && !o.auxDone.contains b
/-- A source has sent everything it has to; a rank that comes in items is the business of the cell it comes in at. -/
def sourceDone (s : State) (f : Flight) (o : Order) : Bool :=
  (List.range (ranksF f)).all (fun r =>
    (fedRank s f r && srcCellOf s f r 0 ≠ o.cell) || decide (limitF f ≤ max f.from_ (tabGet 0 o.emit r))) && o.out.isEmpty

end Sys2Proof.Machine
end

