-- ==== Sys2Proof/Machine/Sinks.lean ====
section
/-!
DEFINITION. An order as a destination: taking slugs and holding their galley slots, the elements of its units, read-modify-writes
and the sectors they keep to themselves, the next write, scale, record, fetch and sealed-block writes, and when nothing is left to
write (R80, R102, R112, R137, R144-R147, R173, R177, R181, R182, R228-R232, R285, R290, R359, R416).
-/

namespace Sys2Proof.Machine

/-- The key of an arrived element. -/
def elemKey (n r : Nat) : Nat := n * 16 + r
/-- A sector of a scale forme with its scales: the groups of its elements, positions beyond S_0 none (R94). -/
def scaleSectorGroups (f : Flight) (x : Forme) (g : Nat) : List (Option Nat) :=
  let shape := scaleShape (dataForme f) (profG f.job.profile)
  let js := digits g shape
  let per := 32 / tyBytes x.ty
  let base := js.headD 0 - js.headD 0 % per
  (List.range per).map fun i => if base + i < shape.headD 1 then some (undigits (js.set 0 (base + i)) shape) else none
/-- The sectors of a row of scales that lie wholly beyond S_0, which are written as zero (R94). -/
def scaleZeros (f : Flight) (x : Forme) (g : Nat) : List Nat :=
  let shape := scaleShape (dataForme f) (profG f.job.profile)
  let js := digits g shape
  let per := 32 / tyBytes x.ty
  let from_ := ceilDiv (shape.headD 1) per
  (List.range (countOf x 0 / per - from_)).map fun k => byteAddr x (js.set 0 (per * (from_ + k))) 0 / 32
/-- The scale sectors that newly arrived groups complete, and with the last of a row those beyond its scales (R94, R137). -/
def completeScales (f : Flight) (x : Forme) (t : Tab (BitVec 16)) (done : List Nat) (gs : List Nat) : List AuxWrite :=
  let shape := scaleShape (dataForme f) (profG f.job.profile)
  let one (acc : List AuxWrite) (g : Nat) : List AuxWrite :=
    let d := (scalePlace f x g).1
    let es := scaleSectorGroups f x g
    if done.contains d || acc.any (fun w => w.sector == d) then acc
    else if es.all (fun e => match e with | some k => (tabFind t k).isSome | none => true) then
      let codes := es.map fun e => match e with | some k => (tabGet 0 t k).toNat | none => 0
      let zeros := if es.contains (some (undigits ((digits g shape).set 0 (shape.headD 1 - 1)) shape)) then scaleZeros f x g else []
      let w : AuxWrite := { sector := d, data := swapSector x.swap ((packUnit x.ty codes).headD 0) }
      acc ++ [w] ++ zeros.map fun z => { sector := z, data := 0 }
    else acc
  gs.foldl one []

/-! Galley slots at a destination (R177, R325, R334). -/

/-- The slugs that hold the stream positions from `a` to the one before `b`. -/
def pieceCount (f : Flight) (r b : Nat) : Nat → Nat → Nat
  | 0, _ => 0
  | fuel + 1, a => if b ≤ a then 0 else 1 + pieceCount f r b fuel (pieceEnd f r a)
/-- The stream positions that must be here together before a lane can write the element of position `n`: those of its unit, of its band
of tiles, or of an IN_PLACE MOVE all of them (R100, R116). -/
def spanOf (s : State) (f : Flight) (l n : Nat) : Nat × Nat :=
  let (b, r) := laneOf f l
  let sh := shapeF f b r
  if inPlaceOf f.job.word then (0, totalF f)
  else if turnsF s f b then
    let k := walkK sh.walk sh.counts
    let c := sh.counts.headD 1
    let o := n / (k * c)
    let j := n / k % c / tileRows sh * tileRows sh
    ((o * c + j) * k, min (totalF f) ((o * c + min c (j + tileRows sh)) * k))
  else (n / sh.unit * sh.unit, min (totalF f) ((n / sh.unit + 1) * sh.unit))
/-- The slugs that a lane needs here together take more credits than there are, or than work for another chip may count on: such a
slug's credit goes back when the datapath has taken it, and its data waits in the order's staging (log 51). -/
def crowded (s : State) (f : Flight) (o : Order) (r n : Nat) : Bool :=
  (lanesAt f o.cell).any fun l =>
    let (a, b) := spanOf s f l n
    let p := pieceCount f r b (b - a) (pieceStart f r a)
    let earlier := s.orders.any fun x => x.cell == o.cell && x.ctx == o.ctx && x.isDst && decide (x.insn < o.insn) && !x.finished
    if f.origin.isSome then decide (1 < p) || earlier
    else decide (creditTotal s f o o.cell < o.indexHeld.length + p * max 1 f.srcCells.length * ranksF f)
/-- The first and last stream position of a slug. -/
def slugSpan (d : SlugData) : Nat × Nat :=
  let ns := d.elems.map Prod.fst
  (ns.foldl min (ns.headD 0), ns.foldl max 0)
/-- A lane takes the elements of a rank. -/
def laneTakes (f : Flight) (l r : Nat) : Bool := !rankLanes f || l == r
/-- A fork at an L-cell holds fewer than two slugs that one of its outputs has still to take, for each of them (R334). -/
def forkRoom (s : State) (f : Flight) (o : Order) : Bool :=
  decide (opF f ≠ 0x24) || decide (roleOf o.cell ≠ .l) ||
    (lanesAt f o.cell).all fun l => decide ((o.taken.filter fun t => !lanePassedAll s f l (tabGet {} o.lanes l) t.first t.last).length < 2)
/-- Takes the first arrived slug: its elements and scales go to the order's staging; its galley slot is held until every element has been
written or passed on, and that of scales, which go to registers, given back (R137, R177, R334). -/
def takeSlug (s : State) (f : Flight) (o : Order) : State :=
  match o.arrived with
  | [] => s
  | (d, pool) :: rest =>
    let (a, b) := slugSpan d
    let hold := !d.elems.isEmpty && !crowded s f o d.rank a
    let slot : Taken := { rank := d.rank, first := a, last := b, pool := pool }
    let o := { o with
      arrived := rest, dstBeats := 0
      taken := if hold then o.taken ++ [slot] else o.taken
      elems := d.elems.foldl (fun t (e : Nat × Nat) => tabSet t (elemKey e.1 d.rank) e.2) o.elems
      scales := d.scales.foldl (fun t (e : Nat × Nat) => tabSet t e.1 (BitVec.ofNat 16 e.2)) o.scales }
    let aux := match f.job.aux with
      | some x => if quantising f then completeScales f x o.scales o.auxDone (d.scales.map Prod.fst) else []
      | none => []
    let o := { o with aux := o.aux ++ aux, auxDone := o.auxDone ++ aux.map AuxWrite.sector }
    let s := modOrder s o.insn o.cell fun _ => o
    if hold then s else returnCredit s (some pool)
/-- A slug whose every element has been written here, or passed on (R177, R325). -/
def slotSpent (s : State) (f : Flight) (o : Order) (t : Taken) : Bool :=
  ((lanesAt f o.cell).filter fun l => laneTakes f l t.rank).all fun l => lanePassedAll s f l (tabGet {} o.lanes l) t.first t.last
/-- Gives back the credits of the slugs that have been written (R177). -/
def freeSlots (s : State) (f : Flight) (o : Order) : State :=
  let spent := o.taken.filter (slotSpent s f o)
  if spent.isEmpty then s
  else each (spent.map fun t => some t.pool) returnCredit
    (modOrder s o.insn o.cell fun x => { x with taken := x.taken.filter fun t => !spent.contains t })
/-- The datapath beats of a slug at its destination: 512 bytes of the wider side (R148). -/
def slugBeats (f : Flight) (d : SlugData) : Nat :=
  max 1 (ceilDiv (d.elems.length * max (tyWidth (streamF f d.rank)) (tyWidth (outTy f 0)) + 16 * d.scales.length) 4096)

/-! Elements and units. -/

/-- An order needs no arriving data: FILL makes its own, on the chip that issues it (R225). -/
def selfMade (f : Flight) : Bool := opF f == 0x23 && f.origin.isNone
/-- The element of a stream position is there for a lane: every rank's for a fold (R228). -/
def elemThere (f : Flight) (o : Order) (l n : Nat) : Bool :=
  selfMade f ||
  (if decide (opF f = 0x25) && !rankLanes f then (List.range (ranksF f)).all fun r => (tabFind o.elems (elemKey n r)).isSome
   else (tabFind o.elems (elemKey n (laneOf f l).2)).isSome)
/-- The dequantising scale of a position: of its group, from what came with the data or from the channel's registers
(R136, R137). -/
def dstScale (s : State) (f : Flight) (o : Order) (n : Nat) : Nat :=
  if auxFlagOf f.job.word then (tabGet 0 o.scales (groupF f n)).toNat
  else (tabGet 0 (claimedScales (getChan s o.cell (scaleCh f)) f.job.domain) (groupF f n)).toNat
/-- The cast of an arrived element into a branch's type; the element's place in the first branch draws its random bits (R117, R127, R133). -/
def dstCast (s : State) (f : Flight) (o : Order) (b r n : Nat) : Cast :=
  if selfMade f then { code := fillCode (outTy f 0) (lowImm f.job.word) }
  else
    let c := tabGet 0 o.elems (elemKey n r)
    if dequantising f then dequantise (inTy f 0) (outTy f 0) f.job.profile f.job.seed (dstScale s f o n) (drawIndex f 0 n) c
    else if castAtSource (inTy f r) (outTy f b) then { code := c }
    else castCode (inTy f r) (outTy f b) f.job.profile f.job.seed (drawIndex f 0 n) c
/-- A lane's update reads the old value: unordered ranks, a fold without INIT, AMOADD (R228-R230). -/
def readsOld (f : Flight) : Bool := decide (opF f = 0x34) || (decide (opF f = 0x25) && !(orderedOf f.job.word && initOf f.job.word))
/-- The value a destination element takes: the cast element, the fold of the ranks, or the old value combined
(R144-R147, R228). -/
def newCode (s : State) (f : Flight) (o : Order) (l n old : Nat) : Nat :=
  let (b, r) := laneOf f l
  let op := ropOf f.job.word
  let v (k : Nat) : Nat := (dstCast s f o b k n).code
  if opF f = 0x34 then combine (outTy f 0) op old (v 0)
  else if opF f = 0x25 then
    if rankLanes f then combine (outTy f 0) op old (v r)
    else
      let rest := (List.range (ranksF f)).drop 1
      rest.foldl (fun acc k => combine (outTy f 0) op acc (v k)) (if initOf f.job.word then v 0 else combine (outTy f 0) op old (v 0))
  else v r
/-- The sectors of a lane's unit at a branch. -/
def unitSectorsAt (f : Flight) (b : Nat) (ns : List Nat) : List Nat :=
  match dstIndices f b (ns.headD 0) with
  | some is => unitSectors (dstF f b) is
  | none => []
/-- The codes of a unit's old sectors (R142). -/
def oldCodes (f : Flight) (b : Nat) (old : List Sector) : List Nat :=
  unpackUnit (outTy f b) (old.map (swapSector (dstF f b).swap))
/-- The sectors of a unit's new codes, the destination swap applied (R119, R143). -/
def unitOf_ (f : Flight) (b : Nat) (codes : List Nat) : List Sector := (packUnit (outTy f b) codes).map (swapSector (dstF f b).swap)

/-! The next write. -/

/-- What an order does next at its destination: an auxiliary write, a read of a read-modify-write, a data write, data
staged for a sealed block, LDSCALE's register writes, an item for another chip, a lane passing over what is not
written here, or a failed write again. -/
inductive WritePlan where
  | aux (ws : List AuxWrite)
  | old (rmw : Rmw) (sectors : List Nat)
  | data (lane : Nat) (next : WritePos) (ws : List AuxWrite) (fetch : List AuxWrite)
  | seal (lane : Nat) (next : WritePos) (ws : List AuxWrite)
  | regs (lane : Nat) (next : WritePos) (xs : List (Nat × BitVec 16))
  | item (lane : Nat) (next : WritePos) (elems : List (Nat × Nat))
  | pass (lane : Nat) (next : WritePos)
  | again (x : FailedWrite)
deriving DecidableEq, Repr

/-- The write position of a lane. -/
def lanePos (o : Order) (l : Nat) : WritePos := tabGet {} o.lanes l
/-- Where a lane stands once its outstanding write is answered. -/
def laneGranted (o : Order) (l : Nat) : WritePos :=
  match o.writing with
  | some w => if w.lane = some l then w.next else lanePos o l
  | none => lanePos o l
/-- A lane may write its unit: below a stop's boundary and the stream's end (R102, R381). -/
def laneOpen (s : State) (f : Flight) (l : Nat) (p : WritePos) : Bool :=
  !laneDone s f l p &&
  (match f.stop with | some t => !laneReached s f l p (laneFloor s f l t.limit) || decide (p.w ≠ 0) | none => true)
/-- A unit of a lane is this cell's to write; CHECK writes none, and neither does an item that was refused (R328). -/
def laneOwns (s : State) (f : Flight) (o : Order) (l : Nat) (ns : List Nat) : Bool :=
  let b := (laneOf f l).1
  decide (opF f ≠ 0x26) && dstCellOf s f b (ns.headD 0) == o.cell && (f.job.dsts.isEmpty || (dstIndices f b (ns.headD 0)).isSome) &&
    !ns.any f.refusedAt.contains
/-- Every element of a unit is there. -/
def unitThere (f : Flight) (o : Order) (l : Nat) (ns : List Nat) : Bool := ns.all (elemThere f o l)
/-- Every element that some cells need of an IN_PLACE MOVE is there. -/
def allStaged (s : State) (f : Flight) (o : Order) : Bool :=
  (List.range (totalF f)).all fun n => !neededAt s f o.cell n || (tabFind o.elems (elemKey n 0)).isSome
/-- An IN_PLACE MOVE has read everything, for every cell that writes some of it (R116). -/
def inPlaceReady (s : State) (f : Flight) (o : Order) : Bool :=
  !inPlaceOf f.job.word || o.begun ||
    (partCells f).all fun m => match getOrder s f.id m with | some x => x.begun || allStaged s f x | none => true
/-- The tile a lane stands in has been through the impose unit. -/
def tileTurned (s : State) (f : Flight) (o : Order) (l : Nat) (p : WritePos) : Bool :=
  !turnsF s f (laneOf f l).1 || tabFind o.turned l == some { p with w := 0 }
/-- The units of a tile. -/
def tilePositions (s : State) (f : Flight) (l : Nat) (p : WritePos) : List (List Nat) :=
  let (b, r) := laneOf f l
  (List.range (tileUnits (shapeF f b r) (tileOf p))).map fun w => lanePositions s f l { p with w := w }
/-- A lane's tile can go through the impose unit: all of it that is this cell's is there. After a halt it goes through once more (R102). -/
def tileReady (s : State) (f : Flight) (o : Order) (l : Nat) : Bool :=
  let p := lanePos o l
  turnsF s f (laneOf f l).1 && laneOpen s f l p && !tileTurned s f o l p && inPlaceReady s f o &&
    (tilePositions s f l p).all fun ns => !laneOwns s f o l ns || unitThere f o l ns
/-- A tile of a lane has nothing for this cell. -/
def tileEmpty (s : State) (f : Flight) (o : Order) (l : Nat) (p : WritePos) : Bool :=
  turnsF s f (laneOf f l).1 && decide (p.w = 0) && (tilePositions s f l p).all fun ns => !laneOwns s f o l ns
/-- The slab that a stream position of a SCATTER lies in, its scattered dimension being outermost in the walk (R110, R112). -/
def slabOf (f : Flight) (n : Nat) : Nat :=
  match (if opF f = 0x22 then gathered f else none) with
  | some (_, k) => n / max 1 (totalF f / max 1 k)
  | none => 0
/-- A unit may join the run of one access: its first plane lies in the run's 512-byte block, it shares no sector with the run, and a SCATTER
is still in the same slab (R112, R285, R416). -/
def joinsRun (f : Flight) (b : Nat) (acc : List (List Nat)) (ns : List Nat) : Bool :=
  let secs (x : List Nat) : List Nat := unitSectorsAt f b x
  let single := f.job.dsts.isEmpty || decide (addrSpace (dstF f b).base = .regs)
  acc.isEmpty || (!single && decide (acc.length < 16) && (secs ns).headD 0 / 16 == (secs (acc.headD [])).headD 0 / 16 &&
    slabOf f (ns.headD 0) == slabOf f ((acc.headD []).headD 0) && !acc.any fun x => (secs x).any (secs ns).contains)
/-- A unit's elements have been split into planes (R95, R118). -/
def unitSplit (s : State) (f : Flight) (o : Order) (l : Nat) (ns : List Nat) : Bool :=
  !splitsF s f (laneOf f l).1 || selfMade f || ns.all fun n => decide (n < tabGet 0 o.splitAt l)
/-- The run of units a lane writes together, from a write position, the sectors of their first planes in one 512-byte block
(R416); and where the lane goes on. Units that are not this cell's are passed over. -/
def laneRun (s : State) (f : Flight) (o : Order) (l : Nat) (acc : List (List Nat)) : Nat → WritePos → List (List Nat) × WritePos
  | 0, p => (acc, p)
  | fuel + 1, p =>
    if !laneOpen s f l p then (acc, p)
    else
      let b := (laneOf f l).1
      let ns := lanePositions s f l p
      if !laneOwns s f o l ns then
        if decide (opF f = 0x26) && !unitThere f o l ns then (acc, p)
        else laneRun s f o l acc fuel (laneNext s f l p)
      else
        if unitThere f o l ns && tileTurned s f o l p && unitSplit s f o l ns && joinsRun f b acc ns then
          laneRun s f o l (acc ++ [ns]) fuel (laneNext s f l p)
        else (acc, p)
/-- The next elements of a lane to be split into planes, from its place on: those of the units that are there, at most a slug of them. -/
def splitReady (s : State) (f : Flight) (o : Order) (l : Nat) : Option (Nat × Nat) :=
  let (b, r) := laneOf f l
  let a := max (lanePos o l).n (tabGet 0 o.splitAt l)
  let unit := (shapeF f b r).unit
  let ok (k : Nat) : Bool :=
    let ns := straightPositions (shapeF f b r) (a + k * unit)
    decide (a + k * unit < totalF f) && laneOwns s f o l ns && unitThere f o l ns
  let m := ((List.range (max 1 (slugElems f r / unit))).takeWhile ok).length
  if !splitsF s f b || selfMade f || !laneOpen s f l { n := a } || !inPlaceReady s f o then none
  else if m = 0 then none
  else some (a, a + m * unit)
/-- The items a lane passes on: the stream positions from its own on that are there, at most one slug of them (R321). -/
def itemRun (s : State) (f : Flight) (o : Order) (l : Nat) : List (Nat × Nat) :=
  let p := lanePos o l
  let (b, r) := laneOf f l
  let stop := min (limitF f) (p.n + slugElems f r)
  let ns := ((List.range (stop - p.n)).map fun k => p.n + k).takeWhile fun n =>
    elemThere f o l n || !(dstCellOf s f b n == o.cell)
  (ns.filter fun n => dstCellOf s f b n == o.cell).map fun n =>
    (n, if selfMade f then (dstCast s f o b r n).code else tabGet 0 o.elems (elemKey n r))
/-- Sectors paired with data. -/
def auxOf_ (secs : List Nat) (ds : List Sector) : List AuxWrite := (secs.zip ds).map fun p => { sector := p.1, data := p.2 }
/-- The fetch writes of a unit of AMOADD: the old values at the same indices (R230). -/
def fetchOf (f : Flight) (ns : List Nat) (old : List Nat) : List AuxWrite :=
  match (if opF f = 0x34 then f.job.aux else none), dstIndices f 0 (ns.headD 0) with
  | some x, some is => auxOf_ (unitSectors x is) ((packUnit x.ty old).map (swapSector x.swap))
  | _, _ => []
/-- The data write of a run of units, given the old sectors of each; units of a plain write are numbered where they may share bytes
(R80; log 11). -/
def runWrite (s : State) (f : Flight) (o : Order) (l : Nat) (next : WritePos) (runs : List (List Nat)) (old : List Sector) : WritePlan :=
  let b := (laneOf f l).1
  let p := max 1 (dstF f b).planes
  let per (k : Nat) : List Nat := if old.isEmpty then [] else oldCodes f b ((old.drop (k * p)).take p)
  let one (k : Nat) (ns : List Nat) : List AuxWrite × List AuxWrite :=
    let was := per k
    let codes := (List.range ns.length).map fun i => newCode s f o l (ns.getD i 0) (was.getD i 0)
    let named : Option Nat := if old.isEmpty && !apart (dstF f b) then some (16 * ns.headD 0 + b) else none
    ((auxOf_ (unitSectorsAt f b ns) (unitOf_ f b codes)).map fun w => { w with unit := named }, if old.isEmpty then [] else fetchOf f ns was)
  let all := (List.range runs.length).map fun k => one k (runs.getD k [])
  let ws := all.flatMap Prod.fst
  if (dstF f b).sealed then .seal l next ws
  else .data l next ws (all.flatMap Prod.snd)
/-- What a sector holds after a write of a unit: where another unit of the order wrote it before, it is the one's or the other's, as a free
bit chooses; the later of two slabs of a SCATTER holds (R80, R112, R285; log 11). -/
def sharedSector (s : State) (f : Flight) (o : Order) (d : Nat) (unit : Option Nat) (old new : Sector) : Sector :=
  match unit, tabFind o.wrote d with
  | some u, some v =>
    if u = v ∨ slabOf f (v / 16) < slabOf f (u / 16) then new else if (Config.freeWord s.fresh).getLsbD 0 then old else new
  | _, _ => new
/-- Notes the unit that wrote a sector. -/
def noteUnit (d : Nat) (unit : Option Nat) (o : Order) : Order :=
  match unit with
  | some u => { o with wrote := tabSet o.wrote d u }
  | none => o
/-- The chip a branch's items go to. -/
def itemChip (f : Flight) (b : Nat) : Nat := addrChip (dstF f b).base
/-- A branch whose items another branch at this cell already sends to its chip (R333). -/
def itemTwin (f : Flight) (o : Order) (b : Nat) : Bool :=
  (branchesAt f o.cell).any fun k => decide (k < b) && itemChip f k == itemChip f b
/-- The owner holds no more items of an instruction than its slices at the cell have room for (R325). -/
def itemRoom (s : State) (f : Flight) (o : Order) (b : Nat) : Bool :=
  decide (itemsOf s (itemChip f b) f.id < (if f.origin.isSome then 64 * remoteSlicesOf s o.cell else max 1 (creditTotal s f o o.cell)))
/-- Things with sectors, grouped by the 512-byte block: what one access each can take (R416). -/
def blockGroups (ws : List α) (sector : α → Nat) : List (List α) :=
  ((ws.map fun w => sector w / 16).eraseDups).map fun b => ws.filter fun w => sector w / 16 == b
/-- What a lane does next. -/
def planLane (s : State) (f : Flight) (o : Order) (l : Nat) : Option WritePlan :=
  let p := lanePos o l
  if roleOf o.cell = .l ∧ opF f ≠ 0x26 ∧ !f.job.dsts.isEmpty then
    let es := itemRun s f o l
    let (b, r) := laneOf f l
    let stop := min (limitF f) (p.n + slugElems f r)
    let upto := p.n + (((List.range (stop - p.n)).map fun k => p.n + k).takeWhile fun n =>
      elemThere f o l n || !(dstCellOf s f b n == o.cell)).length
    if itemTwin f o b then (if laneDone s f l p then none else some (.pass l { n := totalF f }))
    else if upto = p.n ∨ !itemRoom s f o b then none
    else if es.isEmpty then some (.pass l { n := upto }) else some (.item l { n := upto } es)
  else if tileEmpty s f o l p && laneOpen s f l p then
    let t := nextTile (shapeF f (laneOf f l).1 (laneOf f l).2) (tileOf p)
    some (.pass l { o := t.o, b := t.b, q := t.q })
  else
    let (runs, next) := laneRun s f o l [] (totalF f + 1) p
    if runs.isEmpty then (if next = p then none else some (.pass l next))
    else if opF f = 0x03 then
      some (.regs l next (runs.flatMap fun ns => ns.map fun n =>
        (scaleFirstOf f.job.word + n, BitVec.ofNat 16 (tabGet 0 o.elems (elemKey n 0)))))
    else if readsOld f then
      let m : Rmw := { lane := l, next := next, positions := runs.flatten, sectors := runs.flatMap (unitSectorsAt f (laneOf f l).1) }
      some (.old { m with asked := 1 } ((blockGroups m.sectors id).headD []))
    else some (runWrite s f o l next runs [])
/-- The units of a flat list of positions. -/
def chunk (n : Nat) : Nat → List Nat → List (List Nat)
  | 0, _ => []
  | _, [] => []
  | fuel + 1, xs => xs.take n :: chunk n fuel (xs.drop n)
/-- The number of the sector a chime word lies in. -/
abbrev wordSector (a : Word) : Nat := a.toNat / 32
/-- Earlier effects of the context at this cell that R182 and R290 put first: an earlier unfinished order that may still
write one of the sectors, or at an H-cell any earlier unfinished order; an earlier instruction's chime update to one of the sectors. -/
def writesFirst (s : State) (f : Flight) (o : Order) (sectors : List Nat) : Bool :=
  let covers (x : Forme) (d : Nat) : Bool := let h := hullGlobal x; decide (h.1 ≤ 32 * d + 31) && decide (32 * d ≤ h.2)
  let before (x : Order) : Bool :=
    x.cell == o.cell && x.ctx == o.ctx && x.isDst && decide (x.insn < o.insn) && !x.finished &&
    (match getFlight s x.insn with
     | some y => !y.dropped && !y.skipped && y.ended.isNone &&
        (decide (roleOf o.cell = .h) || (y.job.dsts ++ y.job.aux.toList).any fun fm => sectors.any (covers fm))
     | none => false)
  s.orders.any before || s.chimes.any fun u => u.ctx == o.ctx && decide (u.before < f.id) && sectors.contains (wordSector u.addr)
/-- The sectors that a read-modify-write of an order keeps to itself: those it has read or will read, until its last write is
granted, or is repeated after a failure (R229, R285). -/
def ownSectors (s : State) (o : Order) : List Nat :=
  (match o.rmw with | some m => m.sectors | none => []) ++ (match o.rest with | some p => p.ws.map AuxWrite.sector | none => []) ++
    (match o.failed, getFlight s o.insn with
     | some x, some f => if readsOld f then x.ws.map AuxWrite.sector else []
     | _, _ => [])
/-- The sectors of the chime updates and polls that have been granted and not yet been carried out (R260, R285). -/
def serviceSectors (s : State) : List Nat :=
  (s.chimes.filter fun u => s.granted.contains u.id).map (fun u => wordSector u.addr) ++
    s.ctl.filterMap fun m => match m.body with
      | .poll id _ _ a _ _ => if s.granted.contains id then some (wordSector a) else none
      | _ => none
/-- Some of these sectors are another's at the moment: of a read-modify-write, or of an update of a chime word there (R229, R285). -/
def sectorHeld (s : State) (insn cell : Nat) (sectors : List Nat) : Bool :=
  !sectors.isEmpty &&
    ((s.orders.any fun x => x.cell == cell && x.insn != insn && (ownSectors s x).any sectors.contains) ||
     (serviceSectors s).any sectors.contains)
/-- The sectors a plan touches. -/
def planTouches : WritePlan → List Nat
  | .aux ws | .data _ _ ws _ => ws.map AuxWrite.sector
  | .old m _ => m.sectors
  | _ => []
/-- A failed write is repeated once its halt is resolved (R382). -/
def planAgain (f : Flight) (o : Order) : Option WritePlan :=
  match o.failed with
  | some x => if f.stop.isSome then none else some (.again x)
  | none => none
/-- What a read-modify-write does next: the read that failed once more, its next read, or the write of its new values when every old
sector and every element is there (R229, R382). -/
def planRmw (s : State) (f : Flight) (o : Order) (m : Rmw) : Option WritePlan :=
  let b := (laneOf f m.lane).1
  let groups := blockGroups m.sectors id
  match o.readAgain with
  | some g => some (.old m g.sectors)
  | none =>
    if (groups.take m.asked).any fun g => g.any fun d => (tabFind m.got d).isNone then none
    else match groups.drop m.asked with
    | g :: _ => some (.old { m with asked := m.asked + 1 } g)
    | [] =>
      if unitThere f o m.lane m.positions then
        some (runWrite s f o m.lane m.next (chunk (perUnit (dstF f b)) m.positions.length m.positions) (m.sectors.map (tabGet 0 m.got)))
      else none
/-- What an order does next as a destination. Only the active set writes (R173); one write at a time (log 33). -/
def planWrite (s : State) (f : Flight) (o : Order) : Option WritePlan :=
  if o.failed.isSome then planAgain f o
  else if stillF f || o.stopped || o.writing.isSome || decide (o.place ≠ .active) || !o.isDst || !inPlaceReady s f o then none
  else
    let plan : Option WritePlan :=
      match o.rest, o.aux, o.rmw with
      | some p, _, _ => some (.data p.lane p.next p.ws p.fetch)
      | none, w :: ws, _ => some (.aux (w :: (ws.takeWhile fun x => x.sector / 16 == w.sector / 16).take 15))
      | none, [], some m => planRmw s f o m
      | none, [], none => (lanesAt f o.cell).findSome? (planLane s f o)
    match plan with
    | some q => if writesFirst s f o (planTouches q) || sectorHeld s o.insn o.cell (planTouches q) then none else some q
    | none => none

/-! Closing work. -/

/-- Every lane of an order has been granted its last write. -/
def lanesGranted (s : State) (f : Flight) (o : Order) : Bool := (lanesAt f o.cell).all fun l => laneDone s f l (laneGranted o l)
/-- The stream codes of an order's whole stream (R223, R231). -/
def streamCodes (f : Flight) (o : Order) : List Nat := (List.range (totalF f)).map fun n => tabGet 0 o.elems (elemKey n 0)
/-- The CRC record an order owes when its lanes are done: at the destination cell of a MOVE on this chip, at a CHECK's
cell, and for a remote MOVE at its owner cell (R223, R231, R331). -/
def recordOf (f : Flight) (o : Order) : Option AuxWrite :=
  match f.job.aux with
  | some x =>
    if crcOf f.job.word ∨ opF f = 0x26 then
      some { sector := x.base.toNat / 32, data := swapSector x.swap (crcRecord (streamF f 0) (streamCodes f o)) }
    else none
  | none => none
/-- A CHECK whose stream has another CRC than its word expects (R231). -/
def checkFails (f : Flight) (o : Order) : Bool :=
  decide (opF f = 0x26) && f.job.aux.isNone &&
    decide (crc32c (streamBytes (streamF f 0) (streamCodes f o)) ≠ lowImm f.job.word)
/-- The IV of a sealed block (R359). -/
def sealIv (chip b gen : Nat) : BitVec 96 := BitVec.ofNat 96 (place 2 92 + place (chip % 2 ^ 14) 78 + place (b % 2 ^ 30) 48 + gen % 2 ^ 48)
/-- The number of a sealed block in its domain's window (R359). -/
def sealBlock (d : Domain) (base : Word) (sector : Nat) : Nat :=
  ((32 * sector - (field base 48 16) * 2 ^ 48) - d.sealBase.toNat) / 4096
/-- The sector of a sealed block's tag record (R359). -/
def tagSector (d : Domain) (base : Word) (sector : Nat) : Nat :=
  ((field base 48 16) * 2 ^ 48 + d.tagBase.toNat) / 32 + sealBlock d base sector
/-- The tag record of a block sealed with a generation (R359). -/
def tagRecord (key : BitVec 256) (chip b gen : Nat) (cipher : List Byte) : Sector :=
  let aad := toBytes 6 gen ++ toBytes 2 chip ++ toBytes 8 0
  bytesSector (toBytes 16 (Config.gcmTag key (sealIv chip b gen) (aad ++ cipher)).toNat ++ aad)
/-- The sealed blocks of the destination that have all their sectors and are not written yet. -/
def readyBlocks (f : Flight) (o : Order) : List Nat :=
  ((o.sealedData.map fun e => e.1 / 128).eraseDups).filter fun b =>
    !f.job.dsts.isEmpty && inHull (dstF f 0) (128 * b) && !o.auxDone.contains b && (List.range 128).all fun i => (tabFind o.sealedData (128 * b + i)).isSome
/-- Seals a block: its sectors and then its tag record become writes, the domain's generation advances (R359, R360);
nothing when the domain holds no key or its generations are used up. -/
def sealOne (s : State) (f : Flight) (o : Order) (b : Nat) : Option State :=
  let d := getDom s f.job.domain
  match d.key with
  | none => none
  | some key =>
    if 2 ^ 47 ≤ d.sealGen then none
    else
      let n := sealBlock d (dstF f 0).base (128 * b)
      let plain := (List.range 128).flatMap fun i => sectorBytes (tabGet 0 o.sealedData (128 * b + i))
      let cipher := Config.gcmEncrypt key (sealIv s.regs.chipId n d.sealGen) plain
      let ws : List AuxWrite := (List.range 128).map fun i =>
        { sector := 128 * b + i, data := bytesSector ((cipher.drop (32 * i)).take 32) }
      let tag : AuxWrite := { sector := tagSector d (dstF f 0).base (128 * b), data := tagRecord key s.regs.chipId n d.sealGen cipher }
      let s := modDom s f.job.domain fun d => { d with sealGen := d.sealGen + 1 }
      some (modOrder s o.insn o.cell fun o => { o with aux := o.aux ++ ws ++ [tag], auxDone := o.auxDone ++ [b] })
/-- An order owes its closing writes now: its lanes are done and they have not been made. -/
def closingDue (s : State) (f : Flight) (o : Order) : Bool :=
  o.isDst && !o.auxMade && !stillF f && f.stop.isNone && o.rmw.isNone && o.rest.isNone && o.failed.isNone && o.arrived.isEmpty && lanesGranted s f o &&
    (decide (roleOf o.cell ≠ .l) || !crcOf f.job.word || f.remotes.all fun r => !r.completion) &&
    (!quantising f || f.job.aux.isNone || decide (o.cell ≠ (partCells f).headD 0) ||
      (List.range (groupCount (dataForme f) (profG f.job.profile))).all fun g => (tabFind o.scales g).isSome)
/-- Makes the closing writes (R221, R223, R231); the record of a MOVE to another chip is due when the completion report has
arrived, and it is made on the chip that issued the MOVE (R331). -/
def makeClosing (s : State) (f : Flight) (o : Order) : State :=
  let w := if f.origin.isSome then [] else (recordOf f o).toList
  modOrder s o.insn o.cell fun o => { o with auxMade := true, aux := o.aux ++ w }
/-- An order writes engine register space (R468). -/
def toRegs (s : State) (f : Flight) : Bool :=
  f.job.dsts.any fun x => !isRemote s.regs.chipId x && decide (addrSpace x.base = .regs)
/-- A record that an L-cell has sent is still on its way or unanswered (R232). -/
def recordDue (s : State) (f : Flight) : Bool :=
  (s.slugs.any fun g => g.insn == f.id && !g.record.isEmpty) || s.errands.any fun x => x.insn == f.id
/-- The last write of an order has left its cell (R19, R221); those into register space, and the record of a MOVE to another chip, have been
answered (R232, R468). -/
def writesLeft (s : State) (f : Flight) (o : Order) : Bool :=
  o.isDst && o.auxMade && o.aux.isEmpty && o.rmw.isNone && o.rest.isNone && o.failed.isNone &&
    !((toRegs s f || (crcOf f.job.word && decide (roleOf o.cell = .l))) && (o.writing.isSome || recordDue s f)) &&
    lanesGranted s f o && (readyBlocks f o).isEmpty

end Sys2Proof.Machine
end

