-- ==== Sys2Proof/Machine/Transfers.lean ====
section
/-!
DEFINITION. The life of issued instructions: releasing an order, stopping and parking at a progress point, going on,
skipping, completing with strikes and chime updates, dropping and ending, and the waits that these end (R19, R102,
R140, R173, R211, R219-R221, R287, R381-R388).
-/

namespace Sys2Proof.Machine

/-! Releasing orders. -/

/-- Changes a read that nobody wants any more into a discard. -/
def discardReads (insn cell : Nat) (a : Access) : Access :=
  let wanted : Bool := match a.kind with
    | .source i _ | .tag i _ | .modify i | .index i | .scale i _ => i == insn
    | _ => false
  if wanted ∧ a.cell = cell then { a with kind := .discard } else a
/-- Gives back the credits of what an order has staged (R211, R381). -/
def returnStaged (s : State) (o : Order) : State :=
  let s := each (o.opened.map Credit.pool) returnCredit s
  let s := each (o.out.map Staged.pool) returnCredit s
  let s := each (o.arrived.map Prod.snd) (fun s id => returnCredit s (some id)) s
  each (o.taken.map Taken.pool) (fun s id => returnCredit s (some id)) s
/-- Gives back every credit an order holds, those of its index values too (R111, R211). -/
def returnCredits (s : State) (o : Order) : State :=
  each o.indexHeld (fun s id => returnCredit s (some id)) (returnStaged s o)
/-- Removes an order from its cell: its credits go back, its reads in flight are discarded when they arrive. -/
def removeOrder (s : State) (o : Order) : State :=
  let s := returnCredits s o
  { s with
    orders := s.orders.filter fun x => !(x.insn == o.insn && x.cell == o.cell)
    accesses := s.accesses.map (discardReads o.insn o.cell)
    regAccesses := s.regAccesses.filter fun a => !(a.insn == o.insn && a.cell == o.cell && !a.isWrite) }
/-- The orders of an instruction. -/
def ordersOf (s : State) (insn : Nat) : List Order := s.orders.filter fun o => o.insn == insn
/-- Removes an instruction with all its orders. -/
def removeFlight (s : State) (insn : Nat) : State :=
  let s := each (ordersOf s insn) removeOrder s
  { s with flights := s.flights.filter fun f => f.id != insn, errands := s.errands.filter fun x => x.insn != insn }

/-- The source reads of an order that are in flight. -/
def readsOut (s : State) (o : Order) : Bool :=
  s.accesses.any fun a => a.cell == o.cell && (match a.kind with | .source i _ => i == o.insn | _ => false)
/-- An order of a dropped instruction writes nothing and reads nothing more; what it has asked for still arrives, and its slugs go to be discarded at
the destination (R211). -/
def dropOrder (s : State) (o : Order) : State :=
  if o.isSrc && (readsOut s o || !o.out.isEmpty) then
    let s := returnCredits s { o with opened := [], out := [] }
    modOrder s o.insn o.cell fun x => { x with
      isDst := false, arrived := [], taken := [], indexHeld := [], elems := [], rmw := none, rest := none, aux := [], failed := none, readAgain := none }
  else removeOrder s o
/-- A dropped instruction is over once nothing of it is in flight. -/
def endGhost (s : State) (f : Flight) : State :=
  let idle (o : Order) : Bool := !readsOut s o && (planPiece s f o).isNone && !o.out.any fun e => e.pool.isSome
  let s := each ((ordersOf s f.id).filter idle) removeOrder s
  if (ordersOf s f.id).isEmpty then { s with flights := s.flights.filter fun x => x.id != f.id } else s
/-- Ends the dropped instructions of which nothing is in flight. -/
def sweepGhosts (s : State) : State := each (s.flights.filter Flight.dropped) endGhost s

/-! Chime updates (R219, R220, R287). -/

/-- The global address of chime word `c` of a core (R219). -/
def chimeWord (chip core c : Nat) : Word := BitVec.ofNat 64 (place chip 50 + place core 24 + 0xBFFF00 + 4 * c)
/-- The chime word an instruction's completion at a branch updates (R219): of the immediate's chip and core, or of the
destination forme's base, CHECK's source's, LDSCALE's and STSCALE's scale forme's. -/
def chimeAddr (f : Flight) (b : Nat) : Word :=
  let w := f.job.word
  let base := (if f.job.dsts.isEmpty then srcF f 0 else dstF f b).base
  if cselOf w ∨ opF f = 0x03 ∨ opF f = 0x04 then chimeWord (addrChip base) (unitOf .core (addrOff base)) (chimeOf w)
  else chimeWord (chimeChipOf w) (chimeCoreOf w) (chimeOf w)
/-- Starts a chime update at a cell (R220, R287). -/
def startChime (s : State) (c : ChimePend) : State :=
  { s with chimes := s.chimes ++ [{ c with id := s.seq, guard := s.seq }], seq := s.seq + 1 }
/-- The cores that receive a strike: the enabled cores of a C-cell's cluster (R5, R22). -/
def strikeCores (s : State) (cell : Nat) : List Nat :=
  if roleOf cell = .c then (coresOfCell cell).filter (coreGood s) else []
/-- Raises a strike (R221). -/
def strike (s : State) (cell ctx : Nat) (dom : Nat) : State :=
  countCell (emit s (.strike cell (strikeCores s cell) ctx)) cell 0x24 1 (some ctx) (some dom)

/-! Impressions (R408-R410). -/

/-- The instants at which an instruction completed at its destination cells, those on other chips as their reports say (R38). -/
def instants (s : State) (f : Flight) : List Word :=
  ((f.parts.filter fun p => !remoteBranch s f p.branch).map Part.at_) ++ f.remotes.map RemoteDue.at_
/-- The instant an instruction completed at its last destination (R38). -/
def endInstant (s : State) (f : Flight) : Word :=
  match instants s f with
  | t :: ts => ts.foldl (fun t u => if later u t then u else t) t
  | [] => s.time.ref
/-- A completion instant is late: after the guard of the instruction's frame (R38, R48). -/
def lateAt (s : State) (f : Flight) (t : Word) : Bool :=
  f.job.deadlineBound && s.time.running && later t (guardOf s f.job.frame)
/-- A late instruction's requests at a cell carry deadline 0 once the Toll after its frame has passed (R43). -/
def lateNow (s : State) (cell : Nat) (f : Flight) : Bool :=
  s.time.running && f.job.deadlineBound && decide ((f.job.frame : Int) < frameInt s (timeAt s cell))
/-- An instruction leaves the cells' guard records. -/
def forgetLate (s : State) (insn : Nat) : State :=
  { s with cells := s.cells.map fun p => (p.1, { p.2 with guardList := p.2.guardList.filter fun l => l.insn ≠ insn }) }
/-- An instruction that has completed everywhere, and was late nowhere, leaves the cells' guard records (R38, R45). -/
def clearLate (s : State) (f : Flight) : State :=
  if f.parts.all Part.done && f.remotes.all (fun r => !r.completion) && (instants s f).all fun t => !lateAt s f t then forgetLate s f.id else s
/-- A late record of an instruction. -/
def lateOf (f : Flight) : Late := { insn := f.id, ctx := f.job.ctx, pc := f.job.pc, ch := chOf f.job.word }
/-- A cell holds an instruction in flight: as a source or destination, or as the owner of a stream whose chip has not reported its
completion (R45). -/
def holdsAt (s : State) (cell : Nat) (f : Flight) : Bool :=
  (match getOrder s f.id cell with
   | some o => (o.isSrc && !sourceDone s f o) || (o.isDst && !o.finished)
   | none => false) || f.remotes.any fun r => r.completion && ownerCell s r.chip == cell
/-- The deadline-bound instructions of a frame that a cell holds in flight; those of other chips are their own chips' to report (R45; log 130). -/
def inFlight (s : State) (cell frame : Nat) : List Late :=
  (s.flights.filter fun f => f.origin.isNone && f.job.deadlineBound && f.job.frame == frame && !f.complete && holdsAt s cell f).map lateOf
/-- The late instructions a cell reports at the Toll that has fallen: recorded at the guard instant, or still in flight (R45). -/
def lateHere (s : State) (cell : Nat) : List Late :=
  let old := (getCell s cell).guardList
  if s.time.next < 2 then old else old ++ (inFlight s cell (s.time.next - 2)).filter fun l => !old.any fun k => k.insn == l.insn
/-- A report of overruns on its way. -/
def isOverrun (m : Msg) : Bool := match m.body with | .overrun _ => true | _ => false
/-- A context owns an instruction that was late at the Toll that has fallen, and the Belfry has not latched it yet: it issues nothing (R45,
R46). -/
def overrunPending (s : State) (c : Nat) : Bool :=
  (s.time.lates.any fun l => l.ctx == c) ||
  (s.ctl.any fun m => match m.body with | .overrun ls => ls.any fun l => l.ctx == c | _ => false) ||
  (!s.time.pulses.isEmpty && s.cells.any fun p => s.time.pulses.contains p.1 && p.2.guardList.any fun l => l.ctx == c) ||
  (!s.time.pulses.isEmpty && s.flights.any fun f => f.origin.isNone && f.job.ctx == c && f.job.deadlineBound && decide (f.job.frame + 2 = s.time.next) && !f.complete &&
    s.time.pulses.any fun n => holdsAt s n f)
/-- The four words of an impression (R410). -/
def impression (s : State) (f : Flight) (ended : Bool) : List Word :=
  let hide := (getDom s f.job.domain).lock
  let src := if f.job.srcs.isEmpty then (0 : Word) else elementAddr (srcF f 0) (srcIndices f 0 0)
  let dst := if f.job.dsts.isEmpty then (0 : Word) else nextAddr f
  let rs := !f.job.srcs.isEmpty && isRemote s.regs.chipId (srcF f 0)
  let rd := !f.job.dsts.isEmpty && isRemote s.regs.chipId (dstF f 0)
  let far := if rd then addrChip (dstF f 0).base else if rs then addrChip (srcF f 0).base else s.regs.chipId
  let t := if ended then s.time.ref else endInstant s f
  let bytes := ceilDiv (totalF f * tyWidth (streamF f 0)) 4096
  [BitVec.ofNat 64 ((if hide then 0 else field f.job.pc 4 46) + place f.job.ctx 46 + place (opF f % 64) 56 +
      place (flag f.preempted) 62 + place (flag f.job.mark.isSome) 63),
    BitVec.ofNat 64 ((if hide then 0 else match f.job.mark with | some m => m.toNat | none => field src 5 45) + place far 45 +
      place (flag rs) 59 + place (flag rd) 60 + place (flag (lateAt s f t)) 61 + place (flag f.skipped) 62 + place (flag ended) 63),
    BitVec.ofNat 64 ((if hide then 0 else field dst 5 45) + place (saturate 19 bytes) 45),
    BitVec.ofNat 64 (field f.job.issued 0 32 + place (saturate 20 (t - f.job.issued).toNat) 32 + place (saturate 12 ((f.waits.map Prod.snd).foldl max 0)) 52)]
where
  /-- The address of the first destination element (R410). -/
  nextAddr (f : Flight) : Word :=
    match dstIndices f 0 0 with
    | some is => BitVec.ofNat 64 (byteAddr (dstF f 0) is 0)
    | none => (dstF f 0).base
/-- Writes a record to a cell's impression ring, or counts it lost (R407, R409). -/
def writeImpression (frozen : Bool) (x : Impressions) (r : List Word) (issued : Word) : Impressions :=
  if x.full || frozen then { x with lost := saturate 32 (x.lost + 1) }
  else
    { x with
      ring := tabSet x.ring (x.count.toNat % 1024) r, count := x.count + 1, time := issued
      full := x.stopMode && decide ((x.count.toNat + 1) % 1024 = 0) }
/-- An instruction finishes: its home cell records an impression if it is marked or its turn of the sampling has come
(R408). -/
def finishImpression (s : State) (f : Flight) (ended : Bool) : State :=
  let x := (getCell s f.job.home).imp
  let due := decide (x.interval ≠ 0) && decide (x.interval ≤ x.since + 1)
  let r := impression s f ended
  let next : Impressions :=
    if f.job.mark.isSome then writeImpression s.instr.frozen x r f.job.issued
    else if due then { writeImpression s.instr.frozen x r f.job.issued with since := 0 }
    else { x with since := x.since + 1 }
  if f.origin.isSome then s else modCell s f.job.home fun c => { c with imp := next }

/-! Completion. -/

/-- What the home Compositor knows of an instruction is complete: every destination, every report of another chip
(R19, R221). -/
def allKnown (f : Flight) : Bool := f.parts.all Part.known && f.remotes.all fun r => !r.completion
/-- A write of an instruction has not been answered, or waits to be repeated (R284, R381). -/
def writesDue (s : State) (insn : Nat) : Bool := s.orders.any fun o => o.insn == insn && (o.writing.isSome || o.failed.isSome)
/-- A complete instruction of this chip that owes nothing more is no longer listed. -/
def settleComplete (s : State) (insn : Nat) : State :=
  match getFlight s insn with
  | some f =>
    if f.origin.isNone ∧ f.complete ∧ !f.remotes.any RemoteDue.performed ∧ !writesDue s insn ∧ f.stop.isNone then
      { s with flights := s.flights.filter fun f => f.id != insn }
    else s
  | none => s
/-- Marks an instruction complete once everything is known; it stays listed while another chip owes a performed report or
a write is unanswered (R293, R381). -/
def checkComplete (s : State) (insn : Nat) : State :=
  match getFlight s insn with
  | some f =>
    if allKnown f && !f.complete then
      let s := finishImpression s f false
      settleComplete (modFlight s insn fun f => { f with complete := true }) insn
    else s
  | none => s
/-- The home Compositor learns that an instruction has completed or been skipped at a cell (R19). -/
def learnPart (s : State) (insn cell : Nat) : State :=
  checkComplete (modFlight s insn fun f =>
    { f with parts := f.parts.map fun p => if p.cell = cell ∧ p.done then { p with known := true } else p }) insn
/-- The writes of an instruction that have not been answered (R284). -/
def writesOut (s : State) (insn : Nat) : Bool :=
  s.accesses.any fun a => a.isWrite && (match a.kind with | .put i => i == insn | _ => false)
/-- Chime updates of an instruction that have not been made, or that another chip has not reported (R283, R284). -/
def updatesOut (s : State) (insn : Nat) : Bool := (s.chimes.any fun u => u.before == insn) || s.distant.any fun d => d.insn == insn
/-- A chip that serves another chip's instruction reports when all it had to do is complete, and again when its writes and chime updates are
performed (R19, R283, R284, R329); an instruction whose sources it read is over when everything has been sent. -/
def settleOrigin (s : State) (insn : Nat) : State :=
  match getFlight s insn with
  | some f =>
    match f.origin with
    | some (chip, k) =>
      if f.complete ∧ !writesOut s insn ∧ !updatesOut s insn then
        let s := queueReport s chip f.job.domain f.job.ctx f.job.epoch (.performed k)
        { s with flights := s.flights.filter fun x => x.id != insn }
      else s
    | none => s
  | none => s
/-- Reports to the chip that issued an instruction once every destination here has completed or been skipped (R19, R328). -/
def tellOrigin (s : State) (insn : Nat) (skipped : Bool) : State :=
  match getFlight s insn with
  | some f =>
    match f.origin with
    | some (chip, k) =>
      if !(f.parts.all Part.done) ∨ f.complete then s
      else if servesRead f then { s with flights := s.flights.filter fun x => x.id != insn }
      else
        let s := queueReport s chip f.job.domain f.job.ctx f.job.epoch (.completion k skipped (endInstant s f))
        settleOrigin (modFlight s insn fun f => { f with complete := true }) insn
    | none => s
  | none => s
/-- Tells the home Compositor, by a flit where it is another cell (R19, R383). -/
def tellHome (s : State) (f : Flight) (cell : Nat) (skipped : Bool) : State :=
  if f.origin.isSome then tellOrigin s f.id skipped
  else if cell = f.job.home then learnPart s f.id cell
  else send s 1 cell f.job.home (.completion f.id skipped)
/-- Some things in an order that is not told, as free values choose it. -/
def shuffle (n : Nat) : Nat → List α → List α
  | 0, xs => xs
  | _, [] => []
  | fuel + 1, xs =>
    let i := (Config.freeWord n).toNat % xs.length
    (xs.drop i).take 1 ++ shuffle (n + 1) fuel (xs.eraseIdx i)
/-- After a MOVE with a scale forme, the registers it used at a cell hold the last window's scales, in an order that is not told (R137; log 18). -/
def spendScales (s : State) (f : Flight) (o : Order) : State :=
  let vs := (windowGroups f (totalF f - 1)).map (tabGet 0 o.scales)
  let vs := (shuffle s.fresh vs.length vs).take 512
  let s := { s with fresh := s.fresh + vs.length }
  storeScales s o.cell (scaleCh f) f.job.domain ((List.range vs.length).zip vs)
/-- A dequantising MOVE with a scale forme has completed at a cell (R137). -/
def spendAtDst (s : State) (f : Flight) (o : Order) : State :=
  if dequantising f && f.job.aux.isSome then spendScales s f o else s
/-- A quantising MOVE with a scale forme has completed: the registers of the cell that chose the scales (R137). -/
def spendAtSrc (s : State) (f : Flight) : State :=
  match getOrder s f.id (f.srcCells.headD 0) with
  | some o => if quantising f && f.job.aux.isSome then spendScales s f o else s
  | none => s
/-- The parts of an instruction at a cell have completed: one strike and one chime update for each branch (R220, R221);
a CHECK that fails makes no update (R231), nor an
instruction some of whose items were refused (R328). -/
def completeAt (s : State) (f : Flight) (o : Order) : State :=
  let bs := branchesAt f o.cell
  let chip : Nat → Bool := fun b => remoteBranch s f b
  let s := each (bs.filter fun b => !chip b) (fun s _ => strike s o.cell f.job.ctx f.job.domain) s
  let chimes := if chimeOf f.job.word = 63 || checkFails f o || !f.refusedAt.isEmpty then [] else bs.filter fun b => !chip b
  let op : ChimeOp := if ckindOf f.job.word && isMovement (opF f) then .give else .add
  let s := each chimes (fun s b =>
    startChime s { id := 0, addr := chimeAddr f b, op := op, amount := 1, ctx := o.ctx, epoch := f.job.epoch, tag := f.job.phase, cell := o.cell, guard := 0, before := f.id,
                   prefetch := prefetchOf f.job.word, origin := f.origin.map Prod.fst, pc := f.job.pc }) s
  let s := countCell (spendAtDst s f o) o.cell 0x09 1 (some f.job.ctx) (some f.job.domain)
  modFlight s f.id fun f => { f with parts := f.parts.map fun p => if p.cell = o.cell then { p with done := true, at_ := timeAt s o.cell } else p }
/-- An order leaves its channel; while its last write is unanswered it stays listed, for a failure of that write halts the
channel (R381; log 53). -/
def leaveChannel (s : State) (o : Order) : State :=
  let s := removeOrder s o
  if o.writing.isSome ∨ o.failed.isSome then
    let left : Order :=
      { insn := o.insn, cell := o.cell, ch := o.ch, ctx := o.ctx, isDst := true, finished := true, place := .left, accepted := o.accepted
        deadline := o.deadline, accWrite := o.accWrite, lanes := o.lanes, writing := o.writing, failed := o.failed, wrote := o.wrote, auxMade := true, begun := true }
    { s with orders := s.orders ++ [left] }
  else s
/-- An order leaves its channel once it has sent everything, its own writes are complete and so are those of the cells that it
feeds: until then a halt may make it read again (R173, R381; log 41). -/
def leaveIfDone (s : State) (insn cell : Nat) : State :=
  match getOrder s insn cell, getFlight s insn with
  | some o, some f => 
    if (!o.isSrc || (sourceDone s f o && f.parts.all Part.done)) && (!o.isDst || o.finished) && f.stop.isNone && decide (o.place ≠ .left) then
      if f.origin.isSome then removeOrder s o else leaveChannel s o
    else s
  | _, _ => s

/-- The stop of an instruction that holds a channel at a cell. -/
def stopAt (f : Flight) : Option ParkReason := f.stop.map Stop.reason
/-- A channel's halt is resolved: its flags clear, what the halt recorded stays (R382). -/
def clearHalt (c : Chan) : Chan := { c with halted := false, fault := 0, dir := false, ctx := 0, haltedInsn := none }
/-- Clears the halts of an instruction at every cell. -/
def clearHalts (s : State) (insn : Nat) : State :=
  let one (q : Nat × Chan) : Nat × Chan := if q.2.haltedInsn = some insn then (q.1, clearHalt q.2) else q
  { s with cells := s.cells.map fun p => (p.1, { p.2 with chans := p.2.chans.map one }) }
/-! Halts (R381, R382). -/

/-- The address of the element at a stream position in the source, as R381 records it. -/
def nextSrc (f : Flight) (p : Nat) : Word :=
  if totalF f ≤ p ∨ f.job.srcs.isEmpty then 0 else elementAddr (srcF f 0) (srcIndices f 0 p)
/-- The address of the element at a stream position in the destination, as R381 records it. -/
def nextDst (f : Flight) (p : Nat) : Word :=
  if totalF f ≤ p ∨ f.job.dsts.isEmpty then 0
  else match dstIndices f 0 p with
    | some is => BitVec.ofNat 64 (byteAddr (dstF f 0) is 0)
    | none => 0
/-- A cell's channel shows the halt of an instruction: HALTED and the progress registers (R381). -/
def showHalt (f : Flight) (p : Nat) (c : Chan) : Chan :=
  if c.haltedInsn = some f.id then { c with halted := true, progress := BitVec.ofNat 64 p, nextSrc := nextSrc f p, nextDst := nextDst f p } else c
/-- Every cell of an instruction's order (R381). -/
def flightCells (f : Flight) : List Nat := (f.srcCells ++ partCells f).eraseDups
/-- A cell other than the halting one learns of a halt (R381); a channel shows one halt at a time (log 123). -/
def learnHalt (s : State) (f : Flight) (cell : Nat) : State :=
  let ch := chOf f.job.word
  if (getChan s cell ch).haltedInsn.isSome then s
  else
    let s := modChan s cell ch fun c => { c with haltedInsn := some f.id }
    match f.stop with
    | some t => if t.parked then modChan s cell ch (showHalt f t.progress) else s
    | none => s
/-- The halting cell latches a halt, and sends halt flits to the home Compositor and to every other cell of the order (R381). -/
def latchHalt (s : State) (f : Flight) (cell : Nat) (code : Code) (isWrite : Bool) (addr : Word) : State :=
  let ch := chOf f.job.word
  let s := modChan s cell ch fun c => { c with
    fault := code, dir := isWrite, ctx := f.job.ctx, faultAddr := addr, faultPc := f.job.pc, haltedInsn := some f.id }
  let note : Body := .haltNotice { insn := f.id, ctx := f.job.ctx, pc := f.job.pc, ch := ch } cell code addr
  let others := (flightCells f).filter fun n => n ≠ cell
  let s := each others (fun s m => send s 1 cell m note) s
  if cell = f.job.home then
    raise s f.job.ctx { code := code, kind := .halt, pc := f.job.pc, addr := addr, ch := some ch, cell := some cell }
  else if others.contains f.job.home then s
  else send s 1 cell f.job.home note
/-- The halt of an instruction takes the channels that were not free for it: the halting cell's first, then those of the cells whose
halt flits have arrived (log 123). -/
def takeHalt (s : State) (f : Flight) : State :=
  let ch := chOf f.job.word
  let free (s : State) (n : Nat) : Bool := (getChan s n ch).haltedInsn.isNone
  let noted (m : Msg) (n : Nat) : Bool := match m.body with | .haltNotice l _ _ _ => l.insn == f.id && m.dst == n | _ => false
  match f.stop with
  | some t =>
    (match t.reason with
     | .halt cell =>
       if free s cell then
         let s := latchHalt s f cell t.code t.dir t.addr
         if t.parked then modChan s cell ch (showHalt f t.progress) else s
       else if (getChan s cell ch).haltedInsn = some f.id then
         each ((flightCells f).filter fun n => free s n && !s.ctl.any fun m => noted m n) (fun s n => learnHalt s f n) s
       else s
     | _ => s)
  | none => s
/-- Halts that have waited for a channel take it (log 123). -/
def takeHalts (s : State) : State := each (s.flights.filter fun f => f.origin.isNone && f.stop.isSome) takeHalt s

/-! Ending and skipping. -/

/-- Tells the other chips of an instruction that it is over there too (R383, R384). -/
def tellOver (s : State) (f : Flight) : State :=
  let far := (((f.job.srcs ++ f.job.dsts).map fun x => addrChip x.base).eraseDups).filter fun k => k ≠ s.regs.chipId
  if f.origin.isSome then s
  else each far (fun s k => if (tabFind s.streams k).isSome then queueItem s k f.job.domain f.job.ctx f.job.epoch (.abandon [f.id]) none else s) s
/-- Drops an instruction: it writes nothing and strikes nothing, and other chips that worked on it are told; only what it has asked for still comes
(R211). -/
def giveUp (s : State) (f : Flight) : State :=
  let s := clearHalts (each (ordersOf s f.id) dropOrder s) f.id
  let s := { s with errands := s.errands.filter fun x => x.insn != f.id }
  let s := modFlight s f.id fun f => { f with dropped := true, complete := true, stop := none, remotes := [], parts := f.parts.map fun p => { p with done := true } }
  sweepGhosts (tellOver s f)
/-- Ends an instruction without completing it, its fault latched as an End fault (R378). -/
def endFlight (s : State) (f : Flight) (code : Code) (cell : Option Nat) (addr : Word) : State :=
  let s := clearHalts (removeFlight (finishImpression (forgetLate s f.id) f true) f.id) f.id
  if f.origin.isSome then s
  else raise s f.job.ctx { code := code, kind := .ending, pc := f.job.pc, addr := addr, ch := some (chOf f.job.word), cell := cell }
/-- Skips an instruction: it ends at every cell where it has not completed, without strike or chime update, and the home
Compositor and the other chips that work on it are told (R383). -/
def skipFlight (s : State) (f : Flight) : State :=
  let left := (f.parts.filter fun p => !p.done).map Part.cell
  let s := each (ordersOf s f.id) removeOrder s
  let s := modFlight s f.id fun f => { f with
    skipped := true, stop := none
    remotes := f.remotes.map fun r => { r with completion := false, performed := false }
    parts := f.parts.map fun p => if p.done then p else { p with done := true, skipped := true, at_ := s.time.ref } }
  let s := clearHalts s f.id
  let s := each left.eraseDups (fun s cell => tellHome s f cell true) s
  settleComplete (checkComplete (if f.complete then s else tellOver s f) f.id) f.id

/-! Stopping at a progress point (R102, R140, R381, R382, R385). -/

/-- The lanes of an instruction with their orders. -/
def lanesOf (s : State) (f : Flight) : List (Order × Nat) :=
  ((ordersOf s f.id).filter fun o => o.isDst && !o.finished).flatMap fun o => (lanesAt f o.cell).map fun l => (o, l)
/-- The stream an instruction still needs to reach, at every lane, the boundary at or below a position, or the one the
lane stands at if that is further. -/
def needFor (s : State) (f : Flight) (n : Nat) : Nat :=
  ((lanesOf s f).map fun (o, l) =>
    let goal := laneFloor s f l n
    if laneReached s f l (lanePos o l) goal then 0 else laneNeed s f l goal).foldl max 0
/-- The position at which a PAUSE stops an instruction: the furthest of the boundaries its lanes come to next; an
IN_PLACE MOVE that has begun writing goes on from what it staged. -/
def pausePoint (s : State) (f : Flight) : Nat :=
  ((lanesOf s f).map fun (o, l) => laneNeed s f l (laneBoundary s f l (laneGranted o l))).foldl max 0
/-- The reason that stays when another comes: a failure, before a halt, before the newer one. -/
def strongerStop (old new : ParkReason) : ParkReason :=
  match old, new with
  | .fail c, _ => .fail c
  | _, .fail c => .fail c
  | .halt c, _ => .halt c
  | _, r => r
/-- Stops an instruction at a stream position for a reason; the lower position holds. -/
def stopFlight (s : State) (f : Flight) (reason : ParkReason) (n : Nat) : State :=
  let limit := match f.stop with | some t => min t.limit n | none => n
  let reason := match f.stop with | some t => strongerStop t.reason reason | none => reason
  let under := match f.stop with
    | some t => t.under || decide (t.reason = .context)
    | none => false
  modFlight s f.id fun f => { f with stop := some { reason := reason, limit := limit, progress := 0, under := under } }
/-- An instruction that is to stop has come to rest: every lane at its boundary, no write outstanding, no slug on the
mesh (R381). -/
def parkReady (s : State) (f : Flight) : Bool :=
  match f.stop with
  | some t =>
    !t.parked && (s.slugs.all fun g => g.insn != f.id) &&
    (ordersOf s f.id).all fun o => o.writing.isNone &&
      (o.failed.isSome || (o.rest.isNone && o.aux.isEmpty && (o.rmw.isNone || o.readAgain.isSome))) &&
      (!o.isDst || o.finished || o.failed.isSome || o.readAgain.isSome || (lanesAt f o.cell).all fun l => laneReached s f l (lanePos o l) (laneFloor s f l t.limit))
  | none => false
/-- The progress point: the first position some lane has still to write or write again; for a quantising MOVE the start of its window
(R102, R140). -/
def progressOf (s : State) (f : Flight) : Nat :=
  let starts := ((lanesOf s f).map fun (o, l) => laneStart s f l (lanePos o l)) ++ (ordersOf s f.id).filterMap fun o => o.failed.map FailedWrite.pos
  let p := starts.foldl min (totalF f)
  if quantising f ∧ p < totalF f then windowStartF f p else p
/-- The read step of the unit that holds a stream position. -/
def stepFor (f : Flight) (r n : Nat) : Nat := 16 * planesF f r * (n / srcPer f r / 16)
/-- The scales of the groups that lie below a stream position of a quantising MOVE: those of the windows it has finished (R140). -/
def keptScales (f : Flight) (p : Nat) (t : Tab (BitVec 16)) : Tab (BitVec 16) :=
  let gs := ((List.range p).map (groupF f)).eraseDups
  t.filter fun e => gs.contains e.1
/-- An order starts over from the progress point: what it staged beyond it is discarded, and a read or write that failed waits to be repeated
(R381, R382). -/
def restOrder (s : State) (f : Flight) (p : Nat) (o : Order) : Order :=
  { o with
    rd := (List.range (ranksF f)).map fun r => (r, stepFor f r (sealFloor f p))
    emit := [], opened := [], pass := 0, out := [], srcBeats := 0, dstBeats := 0, arrived := [], taken := [], sectors := [], words := []
    reread := [], joined := [], splitAt := []
    window := if quantising f then p else 0
    scaleAt := if dequantising f ∧ p < totalF f then windowStartF f p else 0
    scaleSectors := [], scalesSent := false
    scales := if quantising f then keptScales f p o.scales else o.scales
    auxDone := if quantising f ∨ (srcF f 0).sealed then [] else o.auxDone
    sealedData := if (srcF f 0).sealed then [] else o.sealedData
    tags := []
    elems := o.elems.filter fun e => decide (e.1 / 16 < p)
    lanes := if quantising f && o.failed.isNone then (lanesAt f o.cell).map fun l => (l, laneFloor s f l p) else o.lanes
    turned := [] }
/-- An IN_PLACE MOVE that has begun writing at some cell goes on from what it has staged (R116). -/
def keepsStaged (s : State) (f : Flight) : Bool := inPlaceOf f.job.word && (ordersOf s f.id).any fun o => o.isDst && o.begun
/-- A channel PAUSE is carried out at a cell: every order the channel holds there is parked (R382). -/
def channelParked (s : State) (cell ch : Nat) : Bool :=
  s.orders.all fun o => o.cell ≠ cell || o.ch ≠ ch || decide (o.place = .sent ∨ o.place = .left) ||
    (match getFlight s o.insn with
     | some f => (match f.stop with | some t => t.parked | none => false)
     | none => true)
/-- Sets PAUSED of a channel whose orders have all parked for its PAUSE (R382). -/
def settleChannel (s : State) (cell ch : Nat) : State :=
  if (getChan s cell ch).pausing && channelParked s cell ch then modChan s cell ch fun c => { c with pausing := false, paused := true } else s
/-- A context's PAUSE ends once every order of it has parked or completed (R385). -/
def settlePause (s : State) (c : Nat) : State :=
  if (getCtx s c).regs.cmd = .pause ∧ (openFlights s c).all fun f => match f.stop with | some t => t.parked | none => false
  then modRegs s c fun g => { g with cmd := .none, cmdResult := 0 } else s
/-- Parks an instruction at its progress point, at every cell (R381, R382, R385). -/
def parkFlight (s : State) (f : Flight) : State :=
  let p := progressOf s f
  let keep := keepsStaged s f || f.parts.all Part.done
  let s := if keep then s else each (ordersOf s f.id) returnStaged s
  let s := { s with
    orders := s.orders.map fun o => if o.insn = f.id ∧ !keep then restOrder s f p o else o
    accesses := s.accesses.map fun a => (ordersOf s f.id).foldl (fun a o => discardReads f.id o.cell a) a
    regAccesses := s.regAccesses.filter fun a => a.insn != f.id }
  let s := modFlight s f.id fun f => { f with
    from_ := p
    stop := f.stop.map fun t => { t with parked := true, progress := p } }
  let s := match f.stop.map Stop.reason with
    | some (.halt _) => { s with cells := s.cells.map fun e => (e.1, { e.2 with chans := e.2.chans.map fun q => (q.1, showHalt f p q.2) }) }
    | _ => s
  settlePause (each ((ordersOf s f.id).map Order.cell) (fun s n => settleChannel s n (chOf f.job.word)) s) f.job.ctx
/-- Parks an instruction if it has come to rest. -/
def parkIfReady (s : State) (insn : Nat) : State :=
  match getFlight s insn with
  | some f => if parkReady s f then parkFlight s f else s
  | none => s
/-- Parks every instruction that has come to rest. -/
def parkAll (s : State) : State := each (s.flights.map Flight.id) parkIfReady s
/-- A channel PAUSE still keeps an instruction parked: the cell (R382). -/
def pausedAt (s : State) (f : Flight) : Option Nat :=
  ((ordersOf s f.id).find? fun o =>
    decide (o.place ≠ .sent ∧ o.place ≠ .left) && ((getChan s o.cell o.ch).paused || (getChan s o.cell o.ch).pausing)).map Order.cell
/-- What parks an instruction is lifted: it goes on from its progress point, unless another PAUSE parks it too (R382,
R386). -/
def unpark (s : State) (insn : Nat) : State :=
  match getFlight s insn with
  | some f =>
    let stop : Option Stop := f.stop.bind fun t =>
      if t.under then some { t with reason := .context, under := false }
      else (pausedAt s f).map fun n => { t with reason := .channel n }
    clearHalts (modFlight s insn fun f => { f with stop := stop }) insn
  | none => s
/-- Stops an instruction for a PAUSE at the next boundary; one that is stopped already stays as it is (R382, R385). -/
def pauseFlight (s : State) (reason : ParkReason) (f : Flight) : State :=
  match f.stop with
  | some t =>
    if reason ≠ .context then s
    else modFlight s f.id fun f => { f with stop := some (match t.reason with
      | .halt _ => { t with under := true }
      | .fail _ => t
      | _ => { t with reason := .context }) }
  | none => parkIfReady (stopFlight s f reason (pausePoint s f)) f.id
/-- Halts a channel for an error on an access of its own order (R381): the stop at the failing position `n`, and the registers of
the halting cell with the halt flits, unless another instruction halts the channel there already (log 123). -/
def haltFlight (s : State) (f : Flight) (cell : Nat) (code : Code) (isWrite : Bool) (addr : Word) (n : Nat) : State :=
  let s' := stopFlight s f (.halt cell) n
  match stopAt f with
  | some (.halt _) | some (.fail _) => parkIfReady s' f.id
  | _ =>
    let note (t : Stop) : Stop := { t with code := code, dir := isWrite, addr := addr }
    let s' := modFlight s' f.id fun f => { f with stop := f.stop.map note }
    parkIfReady (if (getChan s cell (chOf f.job.word)).haltedInsn.isSome then s' else latchHalt s' f cell code isWrite addr) f.id

/-! Waits that completions end. -/

/-- A DRAIN whose condition has come about retires (R210). -/
def wakeDrain (s : State) (c : Nat) : State :=
  match (getCtx s c).wait with
  | .drain all => if drained s c all then retireWait s c else s
  | _ => s
/-- Re-evaluates the DRAINs of all contexts. -/
def wakeDrains (s : State) : State := each (ctxNumbers s) wakeDrain s

end Sys2Proof.Machine
end

