-- ==== Sys2Proof/Machine/Issue.lean ====
section
/-!
DEFINITION. Decoding and issuing: the decode grant, the checks of R188 and R216 in their order, and sending an
instruction's orders (R36-R42, R78, R79, R93, R96, R107-R116, R128, R129, R135, R137, R170-R176, R196, R214-R232,
R322, R358, R359, R393).
-/

namespace Sys2Proof.Machine

/-! Decoding (R167-R169, R188, R380). -/

/-- The home Compositor gives a context its turn to decode; the poll of an interrupted WAIT TAKE must have returned (R385), and one whose late instruction the Belfry has still to latch issues nothing (R46, R169;
log 16). -/
def hasTurn (s : State) (c : Nat) : Bool :=
  decide (stateOf s c = .running) && decide ((getCtx s c).wait = .none) && !(getCtx s c).tollHold && inList (getCtx s c) &&
  (getCtx s c).sync.outstanding.isNone &&
  decide ((getCell s (homeOf s c)).decode = some c) && !overrunPending s c
/-- The turn has been used. -/
def useTurn (s : State) (c : Nat) : State :=
  modCell s (homeOf s c) fun x => { x with decode := none, lastServed := c }
/-- Decodes the instruction of a context that has its turn and whose word `p` accepts. An instruction of a failed burst
faults as its fetch did (R380). -/
def decodeRow (s : State) (c : Nat) (p : Insn → Bool) (k : State → Insn → State) : Res :=
  need (decide (c < ctxCount)) .badOperand <|
  need (hasTurn s c) .outOfTurn <|
  needSome (burstOf (getCtx s c)) .noSubject fun b =>
  match b.bad with
  | some code => .next (raiseHere (useTurn s c) c code .issue (getCtx s c).pc none)
  | none =>
    needSome (currentWord (getCtx s c)) .noSubject fun w =>
    need (p w) .outOfTurn <| .next (k (useTurn s c) w)
/-- The instruction at the program counter faults at issue. -/
def refuse (s : State) (c : Nat) (code : Code) (addr : Word) : State := raiseHere s c code .issue addr none
/-- Steps 1 to 4 of R188, then the instruction's own work. -/
def decodeChecked (s : State) (c : Nat) (p : Insn → Bool) (k : State → Insn → State) : Res :=
  decodeRow s c p fun s w =>
    if !wordOk w then refuse s c ILLEGAL_INSTR 0
    else if namesChannel w && !cfgChannel (configOf s c) (chOf w) then refuse s c CLASS_PRIV 0
    else k s w

/-! Slots (R75, R78, R79). -/

/-- A context's slot. -/
def slotOf (s : State) (c k : Nat) : Slot := tabGet {} (getCtx s c).slots k
/-- The slots of an instruction's sources, destinations and auxiliary forme (R214, R226, R228). -/
def slotsOf (w : Insn) : List Nat × List Nat × Option Nat :=
  let aux := if auxFlagOf w then some (auxOf w) else none
  match opOf w with
  | 0x23 => ([], [dstOf w], none)
  | 0x24 => ([srcOf w], (List.range (nOf w + 1)).map fun k => auxOf w + k, none)
  | 0x25 => ((List.range (nOf w + 1)).map fun k => srcOf w + k, [dstOf w], none)
  | 0x26 => ([srcOf w], [], aux)
  | 0x03 => ([srcOf w], [], none)
  | 0x04 => ([], [dstOf w], none)
  | _ => ([srcOf w], [dstOf w], aux)
/-- What a slot is used as (R79). -/
inductive SlotUse where
  | read | write | update | plain
deriving DecidableEq, Repr
/-- The checks of R79 on one slot. -/
def slotFault (x : Slot) (u : SlotUse) : Option Code :=
  let f := x.forme
  if x.state = .empty then some BAD_FORME
  else if x.state = .stale then some RANGE
  else match u with
    | .plain => none
    | .read => if f.rd then none else some RANGE
    | .write | .update =>
      if !f.wr || (decide (u = .update) && !f.rd) then some RANGE
      else if hasBleed f then some BAD_FORME
      else if zeroStrideWrite f then some ZERO_STRIDE_WRITE
      else none
/-- The checks of R79 over the named slots: each order of the table over every slot before the next (R79). -/
def slotFaults (xs : List (Slot × SlotUse)) : Option Code :=
  let rank (c : Code) (x : Slot) : Nat :=
    if x.state = .empty then 1 else if x.state = .stale then 2 else if c = RANGE then 3 else if c = BAD_FORME then 4 else 5
  (xs.filterMap fun p => (slotFault p.1 p.2).map fun c => (rank c p.1, c)).foldl
    (fun m p => match m with | some q => if p.1 < q.1 then some p else m | none => some p) (none : Option (Nat × Code)) |>.map Prod.snd

/-! The parts of R216. -/

/-- An instruction as its slots stand: the formes it would capture (R78). -/
def draftJob (s : State) (c : Nat) (w : Insn) : Job :=
  let x := getCtx s c
  let cfg := x.regs.config
  let (ss, ds, a) := slotsOf w
  let fm (k : Nat) : Forme := (slotOf s c k).forme
  { ctx := c, epoch := x.epoch, pc := x.pc, word := w, domain := cfgDomain cfg, locked := (getDom s (cfgDomain cfg)).lock
    home := cfgHome cfg, srcs := ss.map fm, dsts := ds.map fm, aux := a.map fm
    profile := tabGet 0 x.profiles (profOf w), seed := x.seed, phase := x.phase
    rate := (tabGet {} x.rates (chOf w)).rate, half := x.halves.getLsbD (chOf w), lead := cfgLead cfg
    hostCell := cfgHostCell cfg }
/-- The role of the auxiliary slot for R79 (R93, R232). -/
def auxUse (f : Flight) : SlotUse :=
  if opF f = 0x21 ∨ opF f = 0x22 then .read
  else if crcOf f.job.word ∨ opF f = 0x26 ∨ opF f = 0x34 ∨ quantising f then .write
  else if dequantising f then .read
  else .plain
/-- The slots of an instruction with their roles (step 4 of R216). -/
def slotRoles (s : State) (c : Nat) (f : Flight) : List (Slot × SlotUse) :=
  let (ss, ds, a) := slotsOf f.job.word
  let dst : SlotUse := if opF f = 0x25 ∨ opF f = 0x34 then .update else .write
  (ss.map fun k => (slotOf s c k, .read)) ++ (ds.map fun k => (slotOf s c k, dst)) ++
    (a.map fun k => (slotOf s c k, auxUse f)).toList
/-- The walk of R96 against every destination slot, not judged while one is EMPTY. -/
def walkJudged (s : State) (c : Nat) (w : Insn) : Bool :=
  let ds := (slotsOf w).2.1.map (slotOf s c)
  !([0x20, 0x21, 0x22, 0x24, 0x25, 0x34].contains (opOf w)) || ds.any (fun x => decide (x.state = .empty)) ||
    ds.all fun x => walkOk (insnWalk w) x.forme.rank
/-- The SCATTER walk rule of R110, for a destination slot that is not EMPTY. -/
def scatterJudged (s : State) (c : Nat) (w : Insn) : Bool :=
  let x := slotOf s c (dstOf w)
  decide (opOf w ≠ 0x22) || decide (x.state = .empty) || scatterWalkOk (insnWalk w) x.forme.counts (gOf w)
/-- FILL's value fits the destination's type (R61, R225), for a slot that is not EMPTY. -/
def fillJudged (s : State) (c : Nat) (w : Insn) : Bool :=
  let x := slotOf s c (dstOf w)
  decide (opOf w ≠ 0x23) || decide (x.state = .empty) || decide ((lowImm w).toNat < 2 ^ padBits x.forme.ty)
/-- Step 1 of R216 beyond the word itself. -/
def step1Ok (s : State) (c : Nat) (w : Insn) : Bool :=
  walkJudged s c w && scatterJudged s c w && fillJudged s c w &&
  !(crcOf w && decide (profGroup (tabGet 0 (getCtx s c).profiles (profOf w)) ≠ 0))
/-- The class rules of R217 (step 3). -/
def step3Ok (s : State) (c : Nat) (w : Insn) : Bool :=
  !(crcOf w || decide (opOf w = 0x26)) || decide (cfgClass (configOf s c) ≠ 0)
/-- The cells that serve a forme for a context. -/
def cellsOf (s : State) (j : Job) (f : Forme) : List Nat := formeCells s j.home j.hostCell f
/-- A CRC record forme's shape (R232). -/
def recordOk (chip : Nat) (x : Forme) : Bool :=
  !isRemote chip x && decide (x.ty = .u32) && decide (x.rank = 1) && decide (countOf x 0 = 8) && decide (x.layout = .dense) &&
    !hasBleed x && x.wr
/-- Step 5 of R216: G against RANK, the index, scale, record and fetch formes, the spaces of R217, CHECK's single cell,
sealed formes' use (R107, R108, R93, R137, R232, R230, R231, R358). -/
def step5Ok (s : State) (f : Flight) : Bool :=
  let j := f.job
  let chip := s.regs.chipId
  let w := j.word
  let op := opF f
  let far (x : Forme) : Bool := isRemote chip x
  let cells := cellsOf s j
  let gOk := if op = 0x21 then decide (gOf w < (srcF f 0).rank) else if op = 0x22 then decide (gOf w < (dstF f 0).rank) else true
  let indexOk := match (if op = 0x21 ∨ op = 0x22 then j.aux else none) with
    | some x => !far x && decide (x.ty = .u16 ∨ x.ty = .u32) && decide (x.rank = 1) && decide (x.layout = .dense) && !hasBleed x &&
        decide (countOf x 0 ≤ 8192)
    | none => true
  let scaleOk := match scaleForme f with
    | some x => !far x && scaleFormeOk (dataForme f) x (profG j.profile) (decide (profSfmt j.profile = 2)) &&
        decide (cells x = cells (dataForme f)) && decide ((cells x).length = 1)
    | none => true
  let recOk := match (if crcOf w ∨ op = 0x26 then j.aux else none) with
    | some x => recordOk chip x &&
        (if op = 0x26 then decide (cells x = cells (srcF f 0))
         else if far (dstF f 0) then decide (addrSpace x.base = .core ∨ addrSpace x.base = .hbm)
         else decide (cells x = cells (dstF f 0)))
    | none => true
  let fetchOk := match (if op = 0x34 then j.aux else none) with
    | some x => !far x && decide (cells x = cells (dstF f 0)) && decide (x.ty = (dstF f 0).ty) && decide (x.rank = (dstF f 0).rank) &&
        decide (x.counts = (dstF f 0).counts) && decide (x.layout = .dense) && !hasBleed x
    | none => true
  let remoteSrcOk := (j.srcs.all fun x => !far x) || [0x20, 0x24, 0x25, 0x34, 0x21].contains op
  let remoteDstOk := (j.dsts.all fun x => !far x) || [0x20, 0x22, 0x23, 0x25, 0x34, 0x24].contains op
  let memoryDst := !(decide (op = 0x25) || decide (op = 0x34)) || decide (addrSpace (dstF f 0).base = .core ∨ addrSpace (dstF f 0).base = .hbm)
  let checkCell := decide (op ≠ 0x26) || decide ((cells (srcF f 0)).length = 1)
  let sealedUse := ((j.srcs ++ j.dsts ++ j.aux.toList).all fun x => !x.sealed) ||
    (decide (op = 0x20) && j.aux.all (fun x => !x.sealed) && !cornerTurn (walkF f) (dstCounts f 0))
  gOk && indexOk && scaleOk && recOk && fetchOk && remoteSrcOk && remoteDstOk && memoryDst && checkCell && sealedUse
/-- Shape matching (R218, step 6). -/
def step6Ok (f : Flight) : Bool :=
  (List.range f.job.srcs.length).all fun r => (List.range f.job.dsts.length).all fun b =>
    decide (prodOf (srcLens f r) = prodOf (dstCounts f b))
/-- Cast legality and MCAST's branch types (R129, R144, R226, step 7). -/
def step7Ok (f : Flight) : Bool :=
  let group := profGroup f.job.profile ≠ 0
  let op := opF f
  let carries := [0x20, 0x21, 0x22, 0x24, 0x25, 0x34].contains op
  let scaled := op = 0x20 && auxFlagOf f.job.word && !crcOf f.job.word
  !carries ||
  ((!group || (decide (op = 0x20) && (quantising f || dequantising f))) && (group || !scaled) &&
   (!(op = 0x25 || op = 0x34) || tyReducible (outTy f 0)) &&
   (op ≠ 0x24 || f.job.dsts.all fun x => decide (x.ty = (dstF f 0).ty)))
/-- The scale window (R135, step 8). -/
def step8Ok (f : Flight) : Bool :=
  !(quantising f || dequantising f) ||
    (decide (bandGroups (dataForme f) (streamOrder (dataWalk f)) ≤ 512) &&
     (f.job.aux.isSome || decide (groupCount (dataForme f) (profG f.job.profile) ≤ 512)))
/-- The formes an instruction reads beside its sources, and writes beside its destinations (R113). -/
def auxSides (f : Flight) : List Forme × List Forme :=
  match f.job.aux, auxUse f with
  | some x, .read => ([x], [])
  | some x, .write => ([], [x])
  | _, _ => ([], [])
/-- The `WORK` slices of a context's grant. -/
def workSlices (s : State) (c cell ch : Nat) : Nat := ((grantAt s c cell ch).map Grant.work).getD 0
/-- Overlap (R113-R115, step 9; log 135). An unordered or atomic update is not compared with its own read. -/
def step9Ok (s : State) (f : Flight) : Bool :=
  let (ra, wa) := auxSides f
  let reads := f.job.srcs ++ ra
  let writes := f.job.dsts ++ wa
  let inPlace := inPlaceOf f.job.word
  let cell := (cellsOf s f.job (dstF f 0)).headD 0
  let exempt := inPlace && decide (formeBytes (dstF f 0) ≤ workSlices s f.job.ctx cell (chOf f.job.word) * 32768)
  if inPlace then
    exempt && (ra.all fun a => writes.all fun b => !hullsOverlap a b) && (reads.all fun a => wa.all fun b => !hullsOverlap a b)
  else reads.all fun a => writes.all fun b => !hullsOverlap a b
/-- The cells that read and those that write, by branch (R13, R176). A quantising MOVE reads through one cell (log 34). -/
def sourceCells (s : State) (f : Flight) : List Nat :=
  let cs := (f.job.srcs.flatMap (cellsOf s f.job)).eraseDups
  if opF f = 0x04 then [scaleCellOf f.job.word] else if quantising f then cs.take 1 else cs
/-- The destination parts of an instruction (R221). -/
def destParts (s : State) (f : Flight) : List Part :=
  if opF f = 0x03 then [{ cell := scaleCellOf f.job.word }]
  else if opF f = 0x26 then ((cellsOf s f.job (srcF f 0)).take 1).map fun n => { cell := n }
  else (List.range f.job.dsts.length).flatMap fun b => (cellsOf s f.job (dstF f b)).map fun n => { cell := n, branch := b }
/-- Galley grants at every cell that stages data (R176, step 10). -/
def step10Ok (s : State) (f : Flight) : Bool :=
  ((sourceCells s f ++ (destParts s f).map Part.cell).eraseDups).all fun n =>
    match grantAt s f.job.ctx n (chOf f.job.word) with
    | some g => !prefetchOf f.job.word || decide (0 < g.prefetch)
    | none => false
/-- The rules of R219 for a chime word, needing read and write permission as given (log 138). -/
def chimeWordOk (s : State) (c : Nat) (addr : Word) (core : Nat) (rd wr : Bool) : Bool :=
  let cfg := configOf s c
  let local_ := decide (addrChip addr = s.regs.chipId)
  let cell := servingCell s (cfgHome cfg) (cfgHostCell cfg) addr.toNat
  decide (core < coreCount) && (!local_ || coreGood s core) &&
  rangeGrants (getDom s (cfgDomain cfg)).current addr.toNat (addr.toNat + 3) rd wr &&
  (!cfgDeadline cfg || cfgReach cfg (cellEast cell)) && (local_ || bit (getRoute s (addrChip addr)).bits 16)
/-- The chime address (R219, step 11). -/
def step11Ok (s : State) (f : Flight) : Bool :=
  let w := f.job.word
  let byBase := cselOf w || decide (opF f = 0x03) || decide (opF f = 0x04)
  let bs := if f.job.dsts.isEmpty then [0] else List.range f.job.dsts.length
  decide (chimeOf w = 63) || bs.all fun b =>
    let base := (if f.job.dsts.isEmpty then srcF f 0 else dstF f b).base
    let core := if byBase then unitOf .core (addrOff base) else chimeCoreOf w
    (!byBase || decide (addrSpace base = .core)) && chimeWordOk s f.job.ctx (chimeAddr f b) core false true
/-- The other chips an instruction's formes and chimes lie on (R322). -/
def farChips (s : State) (f : Flight) : List Nat :=
  let chimes := if chimeOf f.job.word = 63 then [] else
    (if f.job.dsts.isEmpty then [0] else List.range f.job.dsts.length).map fun b => addrChip (chimeAddr f b)
  ((f.job.srcs ++ f.job.dsts).map (fun x => addrChip x.base) ++ chimes).eraseDups.filter fun c => c ≠ s.regs.chipId
/-- A chime word of the instruction is served by a cell of a failed half (R18). -/
def chimesLost (s : State) (f : Flight) : Bool :=
  decide (chimeOf f.job.word ≠ 63) && (if f.job.dsts.isEmpty then [0] else List.range f.job.dsts.length).any fun b =>
    decide (addrChip (chimeAddr f b) = s.regs.chipId) && eastLost s (servingCell s f.job.home f.job.hostCell (chimeAddr f b).toNat)
/-- A cell of the instruction is STOPPING or OFF (R393), or lost with its half (R18). -/
def cellsDown (s : State) (f : Flight) : Bool :=
  !((f.job.home :: sourceCells s f ++ (destParts s f).map Part.cell).all (cellOn s)) || chimesLost s f
/-- A sealing MOVE whose domain has no generations left or no key (R351, R359). -/
def sealSpent (s : State) (f : Flight) : Bool :=
  (f.job.dsts.any Forme.sealed && decide (2 ^ 47 ≤ (getDom s f.job.domain).sealGen)) ||
  ((f.job.srcs ++ f.job.dsts).any Forme.sealed && (getDom s f.job.domain).key.isNone)
/-- The checks of R216 from step 1's slot rules to step 11 and those that follow (R322, R356, R359, R393): the fault. -/
def issueFault (s : State) (c : Nat) (f : Flight) : Option Code :=
  let w := f.job.word
  if !step1Ok s c w then some ILLEGAL_INSTR
  else if !cfgChannel (configOf s c) (chOf w) then some CLASS_PRIV
  else if !step3Ok s c w then some CLASS_PRIV
  else match slotFaults (slotRoles s c f) with
  | some code => some code
  | none =>
    if !step5Ok s f then some BAD_FORME
    else if !step6Ok f then some BAD_FORME
    else if !step7Ok f then some CAST_ILLEGAL
    else if !step8Ok f then some SCALE_WINDOW
    else if !step9Ok s f then some OVERLAP
    else if !step10Ok s f then some RANGE
    else if !step11Ok s f then some RANGE
    else if (farChips s f).any (peerLost s) then some LINK_LOST
    else if !(farChips s f).isEmpty ∧ (getDom s f.job.domain).key.isNone then some KEY_ABSENT
    else if sealSpent s f then some KEY_ABSENT
    else if cellsDown s f then some INTERNAL
    else none
/-- LDSCALE's and STSCALE's checks after R188's first four steps (R195, R196). -/
def scaleFault (s : State) (c : Nat) (f : Flight) : Option Code :=
  let cell := scaleCellOf f.job.word
  let x := if f.job.srcs.isEmpty then dstF f 0 else srcF f 0
  let n := totalF f
  match slotFaults (slotRoles s c f) with
  | some code => some code
  | none =>
    if !(cellOn s cell && !cellRetired s cell && cellMapped s cell && (grantAt s c cell (chOf f.job.word)).isSome &&
        (!cfgDeadline (configOf s c) || cfgReach (configOf s c) (cellEast cell))) then some RANGE
    else if isRemote s.regs.chipId x || x.sealed || !(decide (x.ty = .u8 ∨ x.ty = .bf16) && decide (x.layout = .dense) && !hasBleed x) then some BAD_FORME
    else if scaleFirstOf f.job.word + n > 512 then some SCALE_WINDOW
    else if !step10Ok s f then some RANGE
    else if !step11Ok s f then some RANGE
    else if cellsDown s f then some INTERNAL
    else none

/-! Issuing. -/

/-- The deadline stamped at issue: the frame's guard, or the budget beyond the later of now and the channel's last
stamp of the frame (R42). -/
def stampDeadline (s : State) (x : Ctx) (ch frame off : Nat) : Nat :=
  let guard := periodNs s - 1000
  let budget := (tabGet {} x.rates ch).budget
  let prev := if x.prevFrame = frame then tabGet 0 x.prevDeadline ch else 0
  if budget = 0 then guard else min (max off prev + budget) guard
/-- An order as it is sent. -/
def newOrder (f : Flight) (cell : Nat) (src dst : Bool) : Order :=
  { insn := f.id, cell := cell, ch := chOf f.job.word, ctx := f.job.ctx, isSrc := src, isDst := dst, deadline := f.job.deadline }
/-- Sends an instruction's orders to its cells (R21, R170). A FILL on this chip has no source (R225). -/
def sendOrders (s : State) (f : Flight) : State :=
  let ds := partCells f
  let cells := (f.srcCells ++ ds).eraseDups
  { s with
    flights := s.flights ++ [f]
    orders := s.orders ++ cells.map fun n => newOrder f n (f.srcCells.contains n) (ds.contains n) }
/-- Issues an instruction that passed its checks: everything it carries is captured, its orders leave, and the next
instruction follows (R36, R42, R78, R172, R199, R209, R238). -/
def issueFlight (s : State) (c : Nat) (f : Flight) : State :=
  let x := getCtx s c
  let cfg := x.regs.config
  let ch := chOf f.job.word
  let now := timeAt s (cfgHome cfg)
  let bound := cfgDeadline cfg
  let d := if bound then stampDeadline s x ch (frameAt s now) (offsetAt s now) else 0xFFFFF
  let marked := isMovement (opF f)
  let job := { f.job with
    deadline := d, frame := frameAt s now, deadlineBound := bound, issued := now
    mark := if marked then x.mark else none }
  let far := ((f.job.dsts.map fun y => addrChip y.base).eraseDups).filter fun k => k ≠ s.regs.chipId
  let f := { f with
    id := s.seq, job := job, srcCells := sourceCells s f, parts := destParts s f
    remotes := far.map fun k => { chip := k } }
  let s := modCtx { s with seq := s.seq + 1 } c fun x => { x with
    prevDeadline := if bound then tabSet (if x.prevFrame = job.frame then x.prevDeadline else []) ch d else x.prevDeadline
    prevFrame := if bound then job.frame else x.prevFrame
    mark := if marked then none else x.mark }
  retire (sendOrders s f) c
/-- A deadline-bound context's movement instruction in a guard is held until the next Toll (R37). -/
def heldByGuard (s : State) (c : Nat) : Bool := cfgDeadline (configOf s c) && inGuard s (timeAt s (homeOf s c))
/-- Issues an instruction that sends orders, holds it in the guard, or faults it. -/
def issueOrHold (s : State) (c : Nat) (w : Insn) (check : Flight → Option Code) : State :=
  if heldByGuard s c then modCtx s c fun x => { x with wait := .guarded }
  else
    let f : Flight := { id := 0, job := draftJob s c w }
    match check f with
    | some code => raiseHere s c code .issue 0 (some (chOf w))
    | none => issueFlight s c f
/-- A movement, reduction or CHECK instruction of the given opcode (R216). -/
def movementRow (s : State) (c op : Nat) : Res :=
  decodeRow s c (fun w => opOf w == op) fun s w =>
    if !wordOk w then refuse s c ILLEGAL_INSTR 0 else issueOrHold s c w (issueFault s c)

end Sys2Proof.Machine
end

