-- ==== Sys2Proof/Machine/Control.lean ====
section
/-!
DEFINITION. The setup and control instructions of Edlum (R184-R213), the return of a forme image and the opcodes that
R185 does not list.
-/

namespace Sys2Proof.Machine

/-- The fault a port status stands for (R418). -/
def statusCode : AttStatus → Option Code
  | .ok => none | .err => some BUS_ERROR | .uncorr => some ECC_UNCORR | .timeout => some HOST_TIMEOUT
/-- The opcode of a word. -/
def isOp (op : Nat) (w : Insn) : Bool := opOf w == op
/-- Writes a slot of a context. -/
def setSlot (s : State) (c k : Nat) (x : Slot) : State := modCtx s c fun y => { y with slots := tabSet y.slots k x }
/-- One range-table entry of the context's domain grants read permission over a hull (R73). -/
def mayRead (s : State) (c : Nat) (lo hi : Nat) : Bool := rangeGrants (getDom s (domOf s c)).current lo hi true false
/-- FORME's image lies in core local memory or HBM of this chip, within one readable entry and the context's reach
(R191). -/
def imageReachable (s : State) (c : Nat) (a : Word) : Bool :=
  let sp := addrSpace a
  let u := unitOf sp (addrOff a)
  decide (addrChip a = s.regs.chipId) && decide (sp = .core ∨ sp = .hbm) && mayRead s c a.toNat (a.toNat + 127) &&
  unitExists s sp u && decide (addrOff a % 2 ^ unitLog sp + 128 ≤ populatedLimit sp) &&
  (!cfgDeadline (configOf s c) || cfgReach (configOf s c) (cellEast (servingUnit s sp u)))

/-- The accesses that the read of a 128-byte image takes: one, or two where it crosses a 512-byte block (R416; log 8). -/
def imageAccesses (a : Word) : Nat := if a.toNat % 512 ≤ 384 then 1 else 2
/-- A FORME fails: its slot is EMPTY, whatever it held (R75). -/
def failForme (s : State) (c k : Nat) (code : Code) (addr : Word) : State := refuse (setSlot s c k {}) c code addr
/-- FORME (R75, R191): the image's address is checked and the image asked for; the instruction retires when it returns. -/
def execForme (c : Nat) (s : State) : Res :=
  decodeChecked s c (isOp opForme) fun s w =>
    let a := immOf w
    if a.toNat % 32 ≠ 0 then failForme s c (dstOf w) ALIGN a
    else if !imageReachable s c a then failForme s c (dstOf w) RANGE a
    else modCtx (bump s) c fun x => { x with wait := .formeImage (dstOf w) a s.seq (imageAccesses a) }

/-- FORME_IMAGE_RETURN (R69, R75, R191): validation runs and the slot becomes VALID, or EMPTY with the fault. An image for
a context that was stopped meanwhile is discarded (R385). Its accesses have had their slots of the port (R168). -/
def execFormeImageReturn (c : Nat) (status : AttStatus) (image : List Word) (s : State) : Res :=
  need (decide (c < ctxCount)) .badOperand <|
  match (getCtx s c).wait with
  | .formeImage k a _ left =>
    need (decide (left = 0)) .outOfTurn <|
    let s := modCtx s c fun x => { x with wait := .none }
    match statusCode status with
    | some code => .next (failForme s c k code a)
    | none =>
      match parseForme image with
      | none => .next (failForme s c k BAD_FORME a)
      | some f =>
        match checkForme s c f with
        | some code => .next (failForme s c k code f.base)
        | none => .next (retire (setSlot s c k { state := .valid, forme := f }) c)
  | _ => .next s

/-- UNFORME (R193). -/
def execUnforme (c : Nat) (s : State) : Res :=
  decodeChecked s c (isOp 0x02) fun s w =>
    let named (p : Nat × Slot) : Bool := (immOf w).getLsbD p.1
    retire (modCtx s c fun x => { x with slots := x.slots.filter fun p => !named p }) c

/-- LDSCALE (R195, R196). -/
def execLdscale (c : Nat) (s : State) : Res :=
  decodeChecked s c (isOp 0x03) fun s w => issueOrHold s c w (scaleFault s c)

/-- STSCALE (R195, R196). -/
def execStscale (c : Nat) (s : State) : Res :=
  decodeChecked s c (isOp 0x04) fun s w => issueOrHold s c w (scaleFault s c)

/-- SETCAST (R197). -/
def execSetcast (c : Nat) (s : State) : Res :=
  decodeChecked s c (isOp 0x05) fun s w =>
    retire (modCtx s c fun x => { x with profiles := tabSet x.profiles (profOf w) (immOf w) }) c

/-- SETRATE (R198). -/
def execSetrate (c : Nat) (s : State) : Res :=
  decodeChecked s c (isOp 0x06) fun s w =>
    retire (modCtx s c fun x => { x with rates := tabSet x.rates (chOf w) { rate := rateOf w, budget := budgetOf w } }) c

/-- PHASE (R199). -/
def execPhase (c : Nat) (s : State) : Res :=
  decodeChecked s c (isOp 0x07) fun s w => retire (modCtx s c fun x => { x with phase := lowImm w }) c

/-- ADVANCE (R81, R194). -/
def execAdvance (c : Nat) (s : State) : Res :=
  decodeChecked s c (isOp 0x08) fun s w =>
    let x := slotOf s c (dstOf w)
    if x.state = .empty then refuse s c BAD_FORME x.forme.base
    else if x.state = .stale then refuse s c RANGE x.forme.base
    else match advancedBase x.forme (advDimOf w) (advMulOf w) with
    | none => refuse s c BAD_FORME x.forme.base
    | some b =>
      if b < 0 ∨ b / 2 ^ 48 ≠ ((x.forme.base.toNat / 2 ^ 48 : Nat) : Int) then refuse s c RANGE x.forme.base
      else
        let f := { x.forme with base := BitVec.ofInt 64 b }
        match checkForme s c f with
        | some code => refuse s c code f.base
        | none => retire (setSlot s c (dstOf w) { state := .valid, forme := f }) c

/-- A loop register. -/
def loopReg (s : State) (c k : Nat) : BitVec 32 := tabGet 0 (getCtx s c).loops k
/-- Writes a loop register. -/
def setLoop (s : State) (c k : Nat) (v : BitVec 32) : State := modCtx s c fun x => { x with loops := tabSet x.loops k v }
/-- The target of a control transfer (R200). -/
def targetOf (x : Ctx) (w : Insn) : Word := x.pc + BitVec.ofInt 64 (16 * dispOf w)
/-- A target lies inside the current list (R200). -/
def targetOk (x : Ctx) (w : Insn) : Bool := decide ((targetOf x w - x.listBase).toNat < 16 * x.listCount)
/-- A control transfer: its target is checked whether or not it is taken (R200). -/
def transfer (s : State) (c : Nat) (w : Insn) (k : State → Word → State) : State :=
  let x := getCtx s c
  if targetOk x w then k s (targetOf x w) else refuse s c ILLEGAL_INSTR (targetOf x w)

/-- LOOP (R202). -/
def execLoop (c : Nat) (s : State) : Res :=
  decodeChecked s c (isOp 0x10) fun s w => transfer s c w fun s t =>
    if lowImm w = 0 then goTo s c t else retire (setLoop s c (lregOf w) (lowImm w)) c

/-- ENDLOOP (R203). -/
def execEndloop (c : Nat) (s : State) : Res :=
  decodeChecked s c (isOp 0x11) fun s w => transfer s c w fun s t =>
    let v := loopReg s c (lregOf w) - 1
    let s := setLoop s c (lregOf w) v
    if v = 0 then retire s c else goTo s c t

/-- BRANCH (R204). -/
def execBranch (c : Nat) (s : State) : Res :=
  decodeChecked s c (isOp 0x12) fun s w => transfer s c w fun s t =>
    let v := loopReg s c (lregOf w)
    let taken := decide (condOf w = 0) || (decide (condOf w = 1) && decide (v = lowImm w)) || (decide (condOf w = 2) && decide (v ≠ lowImm w))
    if !taken then retire s c
    else if endlistOf w then goTo s c (listEnd (getCtx s c))
    else goTo s c t

/-- CALL (R205). -/
def execCall (c : Nat) (s : State) : Res :=
  decodeChecked s c (isOp 0x13) fun s w =>
    if 8 ≤ (getCtx s c).calls.length then refuse s c ILLEGAL_INSTR 0
    else transfer s c w fun s t =>
      goTo (modCtx s c fun x => { x with calls := x.calls ++ [x.pc + 16] }) c t

/-- RET (R205). -/
def execRet (c : Nat) (s : State) : Res :=
  decodeChecked s c (isOp 0x14) fun s _ =>
    match (getCtx s c).calls.getLast? with
    | none => refuse s c ILLEGAL_INSTR 0
    | some a => goTo (modCtx s c fun x => { x with calls := x.calls.dropLast }) c a

/-- The low 16 bits of the home cell's Toll count (R32, R207). -/
def homeToll (s : State) (c : Nat) : Nat := (getCell s (homeOf s c)).tollCount
/-- TOLL (R207): retires at once when the target is reached or the Toll is stopped. One issued again after a pause takes its count anew (log 136). -/
def execToll (c : Nat) (s : State) : Res :=
  decodeChecked s c (isOp 0x15) fun s w =>
    let now := homeToll s c
    let t : BitVec 16 := if flag0Of w then BitVec.ofNat 16 (now + field w 0 16) else BitVec.ofNat 16 (field w 0 16)
    if !s.time.running || tollReached now t then retire s c else startWait s c (.toll t)

/-- HALT (R208). -/
def execHalt (c : Nat) (s : State) : Res :=
  decodeChecked s c (isOp 0x16) fun s _ =>
    modCtx s c fun x => { dropBursts x with pc := x.pc + 16, wait := .none, regs := { x.regs with state := .halted } }

/-- NOP (R206): every bit but the opcode is ignored. -/
def execNop (c : Nat) (s : State) : Res := decodeRow s c (isOp 0x17) fun s _ => retire s c

/-- The cells that hold orders of a context's instructions issued and not complete (R211). -/
def affectedCells (s : State) (c : Nat) : List Nat :=
  (((openFlights s c).flatMap fun f => f.srcCells ++ partCells f)).eraseDups
/-- Sends the abandon flits of R211, the epoch having been incremented; `LAST_DROPPED` starts at 0 (log 137). -/
def startAbandon (s : State) (c : Nat) : State :=
  let cells := affectedCells s c
  let s := modCtx s c fun x => { x with epoch := x.epoch + 1, regs := { x.regs with lastDropped := 0 } }
  each cells (fun s n => send s 0 (homeOf s c) n (.abandon c (getCtx s c).epoch)) s

/-- ABANDON (R211). The context shows RUNNING until its last report (log 91). -/
def execAbandon (c : Nat) (s : State) : Res :=
  decodeChecked s c (isOp 0x18) fun s _ =>
    let cells := affectedCells s c
    let s := startAbandon s c
    if cells.isEmpty then retire s c else modCtx s c fun x => { x with wait := .abandonReports cells }

/-- SWAP (R209). -/
def execSwap (c : Nat) (s : State) : Res :=
  decodeChecked s c (isOp 0x19) fun s w =>
    let mask : BitVec 16 := if flag0Of w then BitVec.ofNat 16 (field (configOf s c) 25 16) else BitVec.ofNat 16 (2 ^ chOf w)
    retire (if isLead s c then s else modCtx s c fun x => { x with halves := x.halves ^^^ mask }) c

/-- DRAIN (R210). -/
def execDrain (c : Nat) (s : State) : Res :=
  decodeChecked s c (isOp 0x1A) fun s w =>
    if drained s c (flag0Of w) then retire s c else startWait s c (.drain (flag0Of w))

/-- ILLEGAL_OPCODE (R185, R215): an opcode that R185 does not list, or a reserved sub-operation. -/
def execIllegalOpcode (c : Nat) (s : State) : Res :=
  decodeRow s c (fun w => !opListed (opOf w) || (decide (opOf w = 0x30) && decide (subopOf w = 3)) ||
    (decide (opOf w = 0x31) && decide (2 ≤ subopOf w)) || (decide (opOf w = 0x32) && decide (subopOf w = 3)))
    fun s _ => refuse s c ILLEGAL_INSTR 0

end Sys2Proof.Machine
end

