-- ==== Sys2Proof/Machine/Peals.lean ====
section
/-!
DEFINITION. Proof dumps and the records they capture, and Peal lines that stop or fail (R272-R274, R277-R282).
-/

namespace Sys2Proof.Machine

/-! Proof dumps (R277-R282). -/

/-- The synchronisation state's operation code (R275). -/
def pendingOp (x : Ctx) : Nat := x.sync.op
/-- A context record (R281). -/
def contextRecord (s : State) (c : Nat) : List Byte :=
  let x := getCtx s c
  let y := x.sync
  let peal := y.op == 3
  toBytes 2 c ++ toBytes 1 (stateCode x.regs.state) ++ toBytes 1 (waitReason x) ++ toBytes 1 x.regs.fault.toNat ++
  toBytes 1 (pendingOp x) ++ toBytes 2 (homeOf s c) ++ toBytes 8 x.pc.toNat ++ toBytes 4 x.epoch.toNat ++
  toBytes 4 y.target.toNat ++ toBytes 8 y.addr.toNat ++ toBytes 4 y.last.toNat ++ toBytes 4 (saturate 32 y.polls) ++
  toBytes 8 y.since.toNat ++ toBytes 8 y.lastPoll.toNat ++ toBytes 2 y.enrolled.toNat ++ toBytes 2 (parityMask s c) ++
  toBytes 1 (if peal then y.index else 0xFF) ++ toBytes 3 0 ++ toBytes 4 (if peal then y.round.toNat else 0) ++ toBytes 60 0
/-- A participant's number as R282 lists it. -/
def partyCode : Party → Nat
  | .context n => n
  | .core n => 0x8000 + n
/-- The participants missing from the open round, contexts before cores, lowest first (R282). -/
def missingParties (l : Line) : List Nat :=
  ((l.parties.filter fun p => enrolledIn p l.round && !arrivedIn p l.round).map fun p => partyCode p.party).mergeSort
/-- A line record (R282). `STALLS` is the count alone, without the register's overflow flag, and a round in which nobody has arrived has
the time 0 (log 127). -/
def lineRecord (s : State) (n : Nat) : List Byte :=
  let l := getLine s n
  let gone := missingParties l
  toBytes 1 n ++ toBytes 1 (lineCode l.state) ++ toBytes 1 (flag l.system) ++ toBytes 1 l.domain ++ toBytes 4 l.round.toNat ++
  toBytes 2 l.parties.length ++ toBytes 2 (arrivedCount l l.round) ++ toBytes 2 (arrivedCount l (l.round + 1)) ++
  toBytes 2 (l.parties.filter Participant.held).length ++ toBytes 8 (l.firstArrival.getD 0).toNat ++ toBytes 8 l.stalls ++
  ((List.range 8).flatMap fun k => toBytes 2 (gone.getD k 0xFFFF)) ++ toBytes 1 l.depth ++ toBytes 1 l.parent ++
  toBytes 2 (if l.system then (missingChildren l).toNat else 0) ++ toBytes 12 0
/-- The trigger mask's bit of a trigger (R280). -/
def triggerBit : Trigger → Nat
  | .command => 1 | .overrun _ => 2 | .waitTimeout _ => 4 | .pealTimeout _ => 8
/-- The fault code of a trigger; 0 for a command (R280). -/
def triggerCode : Trigger → Nat
  | .command => 0 | .overrun _ => 0x18 | .waitTimeout _ => 0x19 | .pealTimeout _ => 0x1D
/-- A dump's header for a domain (R280). -/
def dumpHeader (s : State) (d seq : Nat) (ts : List Trigger) (ctxs lines : Nat) : List Byte :=
  let first := ts.headD .command
  let ctx := match first with
    | .overrun c | .waitTimeout c => if domOf s c = d then c else 0xFFFF
    | _ => 0xFFFF
  let line := match first with | .pealTimeout n => if (getLine s n).domain = d then n else 0xFF | _ => 0xFF
  toBytes 4 0 ++ toBytes 4 1 ++ toBytes 8 seq ++ toBytes 8 s.time.ref.toNat ++ toBytes 8 (s.time.count % 2 ^ 48) ++
  toBytes 4 (ts.foldl (fun m t => m ||| triggerBit t) 0) ++ toBytes 2 s.regs.chipId ++ toBytes 1 d ++ toBytes 1 0 ++
  toBytes 2 ctxs ++ toBytes 2 lines ++ toBytes 2 ctx ++ toBytes 1 line ++ toBytes 1 (triggerCode first) ++ toBytes 208 0
/-- The contexts of a domain that are not FREE. -/
def domainContexts (s : State) (d : Nat) : List Nat :=
  (ctxNumbers s).filter fun c => domOf s c == d && decide (stateOf s c ≠ .free)
/-- The lines a domain owns. -/
def domainLines (s : State) (d : Nat) : List Nat := (List.range lineCount).filter fun n => (getLine s n).domain == d
/-- The domains with a dump buffer. -/
def dumpDomains (s : State) : List Nat := (s.domains.filter fun p => p.2.dumpAddr != 0).map Prod.fst
/-- A domain's whole buffer lies in memory and in one entry that grants write permission (R54, R278). -/
def dumpAllowed (s : State) (d : Nat) : Bool :=
  let a := (getDom s d).dumpAddr.toNat
  rangeGrants (getDom s d).current a (a + 132352 - 1) false true && bytesExist s a (a + 132352 - 1)
/-- What a dump captures for a domain: the records and the header. -/
def dumpPart (s : State) (seq : Nat) (ts : List Trigger) (d : Nat) : Nat × List Byte × List Byte :=
  let cs := domainContexts s d
  let ls := domainLines s d
  (d, cs.flatMap (contextRecord s) ++ ls.flatMap (lineRecord s), dumpHeader s d seq ts cs.length ls.length)
/-- Starts a dump for its triggers at this instant (R277-R279). -/
def beginDump (s : State) (ts : List Trigger) : State :=
  let seq := s.instr.dumpSeq + 1
  let ds := dumpDomains s
  let ok := ds.filter (dumpAllowed s)
  let bad := ds.length - ok.length
  let s := countHalf (countHalf s false 0x42 1 none none) false 0x43 bad none none
  { s with
    instr := { s.instr with
      dump := some { seq := seq, triggers := ts, parts := ok.map (dumpPart s seq ts) }
      dumpSeq := seq, merged := [], dropped := saturate 16 (s.instr.dropped + bad) } }
/-- A trigger: a dump starts, or is merged into the one that follows (R277). -/
def triggerDump (s : State) (t : Trigger) : State :=
  if s.instr.dump.isSome then { s with instr := { s.instr with merged := s.instr.merged ++ [t] } } else beginDump s [t]

/-! Stopping and failing (R272-R274). -/

/-- The contexts that wait in ARRIVE on a line. -/
def pealWaiters (s : State) (n : Nat) : List Nat :=
  (ctxNumbers s).filter fun c => decide ((getCtx s c).wait = .peal) && (getCtx s c).sync.index == n
/-- Clears every enrolment of a line. -/
def clearParties (s : State) (n : Nat) : State :=
  let s := each ((getLine s n).parties.filterMap fun p => match p.party with | .context c => some c | .core _ => none)
    (fun s c => clearEnrolled s c n) s
  modLine s n fun l => { l with parties := [], firstArrival := none, nextArrival := none, deliver := [], sentUp := false, childEven := 0, childOdd := 0, staleEven := 0, staleOdd := 0 }
/-- The WAIT or ARRIVE under the program counter retires; its record shows nothing pending (R275). -/
def finishWait (s : State) (c : Nat) : State := retireWait (modCtx s c fun x => { x with sync := clearSync x.sync }) c
/-- An ARRIVE whose round has been released retires, and its input falls (R266). -/
def finishArrive (n : Nat) (s : State) (c : Nat) : State :=
  leaveRound (finishWait s c) n (.context c) (getCtx s c).sync.round
/-- The contexts that wait in ARRIVE for a round that has been released. -/
def releasedWaiters (s : State) (n : Nat) : List Nat := (pealWaiters s n).filter fun c => isReleased (getLine s n) (getCtx s c).sync.round
/-- Ends every ARRIVE that waits on a line with a fault; one whose round was released before retires (R271-R273). -/
def faultWaiters (s : State) (n : Nat) (code : Code) : State :=
  let s := each (releasedWaiters s n) (finishArrive n) s
  each (pealWaiters s n) (fun s c => raiseHere s c code .sync 0 none) s
/-- A core waits on a line: it has arrived in a round that is not released, or its entry is held (R267, R272). -/
def coreWaits (l : Line) (p : Participant) : Bool :=
  p.held || [p.even, p.odd].any fun w => match w with | some r => !isReleased l r | none => false
/-- A line fails on this chip: nobody is released, waiters fault, waiting cores are told, one dump starts, and enrolments clear. The dump
shows who had arrived (R272, R282; log 127). -/
def failHere (s : State) (n : Nat) : State :=
  let l := getLine s n
  let waiting := l.parties.filterMap fun p => match p.party with
    | .core k => if coreWaits l p then some k else none
    | .context _ => none
  let told := each waiting (fun s k => emit s (.pealFailed n k)) (modLine s n fun l => { l with state := .failed })
  clearParties (triggerDump (faultWaiters told n PEAL_TIMEOUT) (.pealTimeout n)) n
/-- The tree neighbours of a line. -/
def treeLinks (l : Line) : List Nat := (if l.parent = 0x1F then [] else [l.parent]) ++ childLinks l
/-- A line fails, and on a system line every chip is told over the tree (R272, R274). -/
def failLine (s : State) (n : Nat) : State :=
  let l := getLine s n
  failHere (each (if l.system then treeLinks l else []) (fun s k => pealOut s k n (l.round.getLsbD 0) .failure) s) n

end Sys2Proof.Machine
end

