-- ==== Sys2Proof/Machine/Sync.lean ====
section
/-!
DEFINITION. SIGNAL, WAIT, PEAL, FENCE and MARK, and the events that serve them: polls and their results, timeouts,
arrivals, leaving, release and failure of Peal lines, performed reports (R219, R233-R238, R258-R276, R293).
-/

namespace Sys2Proof.Machine

/-- The chime word a SIGNAL or WAIT names (R219). -/
def signalAddr (w : Insn) : Word := chimeWord (chimeChipOf w) (chimeCoreOf w) (chimeOf w)
/-- The cell a chime operation goes to (R13, R233). -/
def signalCell (s : State) (c : Nat) (w : Insn) : Nat := servingCell s (homeOf s c) (cfgHostCell (configOf s c)) (signalAddr w).toNat
/-- The fault of a SIGNAL or WAIT at issue: the chime address with the permissions it needs, a lost peer, an empty key
slot, a stopped cell (R219, R322, R356, R393). -/
def signalFault (s : State) (c : Nat) (w : Insn) (rd wr : Bool) : Option Code :=
  if !chimeWordOk s c (signalAddr w) (chimeCoreOf w) rd wr then some RANGE
  else if addrChip (signalAddr w) ≠ s.regs.chipId ∧ peerLost s (addrChip (signalAddr w)) then some LINK_LOST
  else if addrChip (signalAddr w) ≠ s.regs.chipId ∧ (getDom s (domOf s c)).key.isNone then some KEY_ABSENT
  else if !(cellOn s (signalCell s c w) && cellOn s (homeOf s c)) then some INTERNAL
  else none
/-- The word is a given opcode with a given sub-operation. -/
def isSub (op sub : Nat) (w : Insn) : Bool := opOf w == op && subopOf w == sub
/-- Sends a SIGNAL's update to the cell that serves the word (R233). -/
def sendSignal (s : State) (c : Nat) (w : Insn) (op : ChimeOp) : State :=
  startChime s { id := 0, addr := signalAddr w, op := op, amount := lowImm w, ctx := c, epoch := (getCtx s c).epoch, tag := (getCtx s c).phase,
                 cell := signalCell s c w, pc := (getCtx s c).pc, guard := 0, before := s.seq, wantsResult := decide (op = .sub) }

/-- SIGNAL ADD: retires at issue (R233). -/
def execSignalAdd (c : Nat) (s : State) : Res :=
  decodeChecked s c (isSub 0x30 0) fun s w =>
    match signalFault s c w false true with
    | some code => refuse s c code (signalAddr w)
    | none => retire (sendSignal s c w .add) c

/-- SIGNAL GIVE: retires at issue (R233). -/
def execSignalGive (c : Nat) (s : State) : Res :=
  decodeChecked s c (isSub 0x30 1) fun s w =>
    match signalFault s c w false true with
    | some code => refuse s c code (signalAddr w)
    | none => retire (sendSignal s c w .give) c

/-- SIGNAL SUB: retires when its result returns (R233). -/
def execSignalSub (c : Nat) (s : State) : Res :=
  decodeChecked s c (isSub 0x30 2) fun s w =>
    match signalFault s c w false true with
    | some code => refuse s c code (signalAddr w)
    | none => modCtx (sendSignal s c w .sub) c fun x => { x with wait := .subResult }

/-- The target or amount of a WAIT (R234). -/
def waitTarget (s : State) (c : Nat) (w : Insn) : BitVec 32 := lowImm w - BitVec.ofNat 32 (stepOf w) * loopReg s c (lregOf w)
/-- Sends a poll of a context's pending WAIT, through the stream where the word lies on another chip; towards a lost peer the
poll ends at once (R234, R265). -/
def sendPoll (s : State) (c : Nat) : State :=
  let y := (getCtx s c).sync
  let home := homeOf s c
  let cell := servingCell s home (cfgHostCell (configOf s c)) y.addr.toNat
  let take := if y.op = 2 then some y.target else none
  let chip := addrChip y.addr
  let id := s.seq
  let s := bump s
  let s :=
    if chip = s.regs.chipId then send s 0 home cell (.poll id id c y.addr take (getCtx s c).epoch)
    else if peerLost s chip then send s 1 cell home (.pollResult id c 0 false LINK_LOST)
    else queueItem s chip (domOf s c) c (getCtx s c).epoch (.poll id y.addr take) none
  modCtx s c fun x => { x with sync := { x.sync with
    polls := x.sync.polls + 1, lastPoll := timeAt s home, outstanding := some id } }
/-- Starts a WAIT: its record and its first poll (R234, R264, R275). -/
def startWaitChime (s : State) (c : Nat) (w : Insn) (op : Nat) (t : BitVec 32) : State :=
  let now := timeAt s (homeOf s c)
  let s := modCtx s c fun x => { x with sync := { x.sync with
    op := op, index := chimeOf w, addr := signalAddr w, target := t, last := 0, since := now, polls := 0 } }
  sendPoll (modCtx (startWait s c .chime) c fun x => { x with lendSince := some now }) c

/-- WAIT GE (R234, R262). -/
def execWaitGe (c : Nat) (s : State) : Res :=
  decodeChecked s c (isSub 0x31 0) fun s w =>
    match signalFault s c w true false with
    | some code => refuse s c code (signalAddr w)
    | none => startWaitChime s c w 1 (waitTarget s c w)

/-- WAIT TAKE (R234, R235): an amount above 0x7FFF_FFFF faults after the address and before a lost peer (R322; log 128). -/
def execWaitTake (c : Nat) (s : State) : Res :=
  decodeChecked s c (isSub 0x31 1) fun s w =>
    let a := waitTarget s c w
    if !chimeWordOk s c (signalAddr w) (chimeCoreOf w) true true then refuse s c RANGE (signalAddr w)
    else if 0x7FFFFFFF < a.toNat then refuse s c ILLEGAL_INSTR (signalAddr w)
    else match signalFault s c w true true with
    | some code => refuse s c code (signalAddr w)
    | none => startWaitChime s c w 2 a

/-- The line rules of R269 for a PEAL. -/
def pealFault (s : State) (c n : Nat) (needsOn needsEnrolled : Bool) : Option Code :=
  let l := getLine s n
  if l.domain ≠ domOf s c then some CLASS_PRIV
  else if (needsOn && decide (l.state ≠ .on)) || (needsEnrolled && (partyOf l (.context c)).isNone) then some PEAL_NOT_ENROLLED
  else none

/-- PEAL ARRIVE: enters the context's next round and waits for its release (R236, R266). -/
def execPealArrive (c : Nat) (s : State) : Res :=
  decodeChecked s c (isSub 0x32 0) fun s w =>
    let n := lineOf w
    match pealFault s c n true true, partyOf (getLine s n) (.context c) with
    | some code, _ => refuse s c code 0
    | none, none => refuse s c PEAL_NOT_ENROLLED 0
    | none, some p =>
      let s := modCtx (startWait s c .peal) c fun x => { x with
        lendSince := some (timeAt s (homeOf s c))
        sync := { x.sync with
          op := 3, index := n, addr := 0, target := 0, last := 0, since := timeAt s (homeOf s c), round := p.next
          polls := 0, lastPoll := 0, outstanding := none } }
      enterRound s n p

/-- PEAL ENROL (R269, R270): acknowledged in the same step (log 15). -/
def execPealEnrol (c : Nat) (s : State) : Res :=
  decodeChecked s c (isSub 0x32 1) fun s w =>
    match pealFault s c (lineOf w) true false with
    | some code => refuse s c code 0
    | none => retire (if (partyOf (getLine s (lineOf w)) (.context c)).isSome then s else enrol s (lineOf w) (.context c)) c

/-- PEAL RESIGN (R269, R270): acknowledged in the same step (log 15). -/
def execPealResign (c : Nat) (s : State) : Res :=
  decodeChecked s c (isSub 0x32 2) fun s w =>
    match pealFault s c (lineOf w) false true with
    | some code => refuse s c code 0
    | none => retire (resign s (lineOf w) (.context c)) c

/-- FENCE (R237, R293): waits for the report of every cell that holds effects it covers. -/
def execFence (c : Nat) (s : State) : Res :=
  decodeChecked s c (isOp 0x33) fun s w =>
    let cells := fenceCells s c (fenceAllOf w)
    if cells.isEmpty then retire s c else startWait s c (.fence (scopeOf w) (fenceAllOf w) cells)

/-- MARK (R238). -/
def execMark (c : Nat) (s : State) : Res :=
  decodeChecked s c (isOp 0x3F) fun s w => retire (modCtx s c fun x => { x with mark := some (lowImm w) }) c

/-! Polls (R234, R235, R262-R265). -/

/-- The poll interval of the WAIT under the program counter (R215). -/
def pollNs (x : Ctx) : Nat := match currentWord x with | some w => 64 * (pollOf w + 1) | none => 64
/-- POLL_TIMER: the interval has passed and the next poll is sent (R234). -/
def execPollTimer (c : Nat) (s : State) : Res :=
  need (decide (c < ctxCount)) .badOperand <|
  let x := getCtx s c
  need (decide (x.wait = .chime) && x.sync.outstanding.isNone) .outOfTurn <|
  need (decide (pollNs x ≤ (timeAt s (homeOf s c) - x.sync.lastPoll).toNat)) .notDue <|
  .next (sendPoll s c)

/-- A poll order waiting at the cell that serves its word. -/
def isPoll (c : Nat) (m : Msg) : Bool := match m.body with | .poll _ _ k _ _ _ => k == c | _ => false
/-- The context and domain that a service access counts for; a number from 1,024 up names another chip's (R401; log 17). -/
def ctxDom (s : State) (c : Nat) : Option Nat × Option Nat :=
  if c < ctxCount then (some c, some (domOf s c)) else (none, some (foreignParts c).2.1)
/-- The context whose phase tag and counters a poll counts under; another chip's count under tag 0 (R367). -/
def pollTag (s : State) (c : Nat) : BitVec 32 := if c < ctxCount then (getCtx s c).phase else 0
/-- Raises the change strobe of the core that owns a chime word (R261). -/
def changeStrobe (s : State) (a : Word) : State :=
  emit s (.chg (unitOf .core (addrOff a)) ((addrOff a % 2 ^ 24 - 0xBFFF00) / 4))
/-- Sends a poll's result back: to the home Compositor, or to another chip, where an error is logged and
the result carries it (R234, R384; log 36). -/
def answerPoll (s : State) (m : Msg) (ask c : Nat) (epoch : BitVec 32) (value : BitVec 32) (took : Bool) (fault : Code) : State :=
  if c < ctxCount then send s 1 m.dst m.src (.pollResult ask c value took fault)
  else
    let (chip, dom, _) := foreignParts c
    let s := if fault = 0 then s else logEvent s false { kind := 5, cell := some m.dst, pc := BitVec.ofNat 64 chip, code := fault, dom := some dom }
    queueReport s chip dom c epoch (.pollResult ask value took fault)
/-- The domain an update was made in. -/
def chimeDom (s : State) (u : ChimePend) : Nat := if u.ctx < ctxCount then domOf s u.ctx else (foreignParts u.ctx).2.1
/-- The result of a SUB, or the fault of an update, goes back to whoever waits for it; an update that another chip sent is reported performed, or
refused (R233, R284, R384). -/
def answerChime (s : State) (cell : Nat) (u : ChimePend) (code : Code) (bus : Bool) : State :=
  let (chip, dom, _) := foreignParts u.ctx
  if u.ctx < ctxCount then
    if u.wantsResult then send s 1 cell (homeOf s u.ctx) (.subResult u.ctx code)
    else if code = 0 then s
    else raise s u.ctx { code := code, kind := .ending, pc := u.pc, addr := u.addr, cell := some cell }
  else
    let s := if bus then logEvent s (cellEast cell) { kind := 5, addr := u.addr, cell := some cell, pc := BitVec.ofNat 64 chip, code := code, dom := some dom } else s
    if u.wantsResult then queueReport s chip dom u.ctx u.epoch (.subResult code)
    else if code = 0 then (match u.farId with | some k => queueReport s chip dom u.ctx u.epoch (.performed k) | none => s)
    else queueReport s chip dom u.ctx u.epoch (.refusal u.farId code false u.pc)
/-- POLL_REQUEST (R234, R235, R263, R265, R302): in the slot that the serving cell's port has given the poll, the cell reads the word
`value`; a TAKE that finds enough subtracts in the same update; the result goes back. A context from 1,024 up is another chip's (State). -/
def execPollRequest (c : Nat) (status : AttStatus) (value : BitVec 32) (s : State) : Res :=
  needSome (findMsg s (isPoll c)) .noSubject fun m =>
  match m.body with
  | .poll id ask _ a take epoch =>
    need (decide (addrChip a = s.regs.chipId) && s.granted.contains id) .outOfTurn <|
    let s := { dropMsg s m with granted := s.granted.filter fun k => k ≠ id }
    let (ctx, dom) := ctxDom s c
    let s := countCell s m.dst 0x15 1 ctx dom
    match statusCode status with
    | some code => .next (answerPoll s m ask c epoch 0 false code)
    | none =>
      match take with
      | none => .next (answerPoll s m ask c epoch value false 0)
      | some t =>
        if t.toNat ≤ value.toNat then
          let s := writeWord32 s a (value - t)
          let s := if t = 0 then s else changeStrobe s a
          .next (answerPoll s m ask c epoch value true 0)
        else .next (answerPoll (countCell s m.dst 0x16 1 ctx dom) m ask c epoch value false 0)
  | _ => .fault .noSubject

/-- The result of a poll on its way to its context. -/
def isPollResult (c : Nat) (m : Msg) : Bool := match m.body with | .pollResult _ k _ _ _ => k == c | _ => false
/-- What the result of poll `id` does to its WAIT; one that nobody waits for any more changes nothing (R234, R235, R262, R264, R265, R385). -/
def takePollResult (s : State) (c id : Nat) (value : BitVec 32) (took : Bool) (fault : Code) : State :=
  let x := getCtx s c
  if x.sync.outstanding ≠ some id then s
  else
    let s := modCtx s c fun x => { x with sync := { x.sync with outstanding := none, last := value } }
    if x.wait ≠ .chime then (if took then finishWait s c else s)
    else if fault ≠ 0 then raiseHere s c fault .sync x.sync.addr none
    else if x.sync.op = 2 then (if took then finishWait s c else s)
    else if chimeReached value x.sync.target then finishWait s c
    else if chimeFar value x.sync.target then raiseHere s c CHIME_FAR .sync x.sync.addr none
    else s
/-- POLL_RESULT (R234). -/
def execPollResult (c : Nat) (s : State) : Res :=
  need (decide (c < ctxCount)) .badOperand <|
  needSome (findMsg s (isPollResult c)) .noSubject fun m =>
  match m.body with
  | .pollResult id _ v took fault => .next (takePollResult (dropMsg s m) c id v took fault)
  | _ => .fault .noSubject

/-- The result of a SUB on its way to its context. -/
def isSubResult (c : Nat) (m : Msg) : Bool := match m.body with | .subResult k _ => k == c | _ => false
/-- A SUB ends: it retires, with CHIME_UNDERFLOW its fault is latched under it, and an error of the access, whose effect R384 gives, is
latched as an End fault of an instruction that has retired (R233, R378, R384). -/
def endSub (s : State) (c : Nat) (fault : Code) : State :=
  if fault = 0 then retire s c
  else if fault = BUS_ERROR ∨ fault = ECC_UNCORR then
    let pc := (getCtx s c).pc
    raise (retire s c) c { code := fault, kind := .ending, pc := pc }
  else raiseHere s c fault .sync 0 none
/-- SUB_RESULT (R233): the SUB retires, or its fault is latched. -/
def execSubResult (c : Nat) (s : State) : Res :=
  need (decide (c < ctxCount)) .badOperand <|
  needSome (findMsg s (isSubResult c)) .noSubject fun m =>
  match m.body with
  | .subResult _ fault =>
    let s := dropMsg s m
    if (getCtx s c).wait ≠ .subResult then .next s
    else
      let s := modCtx s c fun x => { x with wait := .none }
      .next (endSub s c fault)
  | _ => .fault .noSubject

/-- WAIT_TIMEOUT (R264): the WAIT ends with its fault and a proof dump starts. -/
def execWaitTimeout (c : Nat) (s : State) : Res :=
  need (decide (c < ctxCount)) .badOperand <|
  let x := getCtx s c
  need (decide (x.wait = .chime) && decide (s.regs.waitUs ≠ 0) && !(x.sync.outstanding.isSome && decide (x.sync.op = 2))) .outOfTurn <|
  need (decide (s.regs.waitUs * 1000 ≤ (timeAt s (homeOf s c) - x.sync.since).toNat)) .notDue <|
  .next (triggerDump (raiseHere s c WAIT_TIMEOUT .sync x.sync.addr none) (.waitTimeout c))

/-! Peal events. -/

/-- CORE_PEAL_ARRIVE (R266): a core raises its input for its next round; its first arrival on a line joins it, and
on a line that is not ON it enters nothing (log 14). -/
def execCorePealArrive (core line : Nat) (s : State) : Res :=
  need (decide (line < lineCount) && coreGood s core) .badOperand <|
  if (getLine s line).state ≠ .on then .next s
  else
  let s := enrol s line (.core core)
  needSome (partyOf (getLine s line) (.core core)) .noSubject fun p =>
  need (!p.held) .outOfTurn <| .next (enterRound s line p)

/-- The oldest round whose input a participant still holds (R266). -/
def oldestHeld (p : Participant) : Option (BitVec 32) :=
  match p.even, p.odd with
  | some a, some b => some (if (b - a).toNat < 2 ^ 31 then a else b)
  | some a, none => some a
  | none, o => o
/-- PEAL_LEAVE (R266): a participant's input falls for a round that has been released; a core leaves so when it
acknowledges. Where the line has no input of it, its enrolment having been cleared (R272, R273), nothing falls. -/
def execPealLeave (party : Party) (line : Nat) (s : State) : Res :=
  need (decide (line < lineCount)) .badOperand <|
  match (partyOf (getLine s line) party).bind oldestHeld with
  | none => .next s
  | some r => need (isReleased (getLine s line) r) .outOfTurn <| .next (leaveRound s line party r)

/-- The contexts of a cell whose awaited round of a line has been released. -/
def releasedHere (s : State) (cell n : Nat) : List Nat := (releasedWaiters s n).filter fun c => homeOf s c == cell
/-- PEAL_RELEASE (R266, R268): the release reaches a cell; its contexts' ARRIVEs retire and their inputs fall. -/
def execPealRelease (cell line : Nat) (s : State) : Res :=
  need (decide (line < lineCount) && decide (cell < cellCount)) .badOperand <|
  need ((getLine s line).deliver.contains cell) .noSubject <|
  let cs := releasedHere s cell line
  let s := modLine s line fun l => { l with deliver := l.deliver.filter fun n => n ≠ cell }
  .next (each cs (finishArrive line) s)

/-- PEAL_TIMEOUT (R272). -/
def execPealTimeout (line : Nat) (s : State) : Res :=
  need (decide (line < lineCount)) .badOperand <|
  let l := getLine s line
  need (decide (l.state = .on) && decide (s.regs.pealUs ≠ 0)) .outOfTurn <|
  needSome l.firstArrival .outOfTurn fun t =>
  need (elapsedUs s t s.regs.pealUs) .notDue <| .next (failLine s line)

/-- The bits of the children that have arrived on a wire, or of those that have not left a released round of it. -/
def childBits (l : Line) (odd stale : Bool) : BitVec 16 :=
  if stale then (if odd then l.staleOdd else l.staleEven) else if odd then l.childOdd else l.childEven
/-- A child's subtree has arrived on a wire, or its arrival is taken back; a repeated flit, and one of a round that the child has not left,
changes nothing (R271, R340). -/
def childArrives (now : Word) (l : Line) (odd up : Bool) (i : Nat) : Line :=
  let b : BitVec 16 := 1#16 <<< i
  let was := childBits l odd false
  let bits := if up then was ||| b else was &&& ~~~b
  if childBits l odd true &&& b ≠ 0 ∨ bits = was then l
  else
    let l := if odd then { l with childOdd := bits } else { l with childEven := bits }
    if up then noteArrival now (if odd == l.round.getLsbD 0 then l.round else l.round + 1) l else l
/-- A child has left a released round of a wire. -/
def childLeaves (l : Line) (odd : Bool) (i : Nat) : Line :=
  let b : BitVec 16 := ~~~(1#16 <<< i)
  if odd then { l with staleOdd := l.staleOdd &&& b } else { l with staleEven := l.staleEven &&& b }
/-- PEAL_FLIT (R274, R340): an arrival, or its taking back, or a leaving from a child, a release from the parent, or a failure, over a tree
link of a system line. A repeated flit changes nothing, nor does one for a line that is not ON or over a link that the line's tree does not name. -/
def execPealFlit (cell line : Nat) (odd : Bool) (kind : PealFlit) (s : State) : Res :=
  need (decide (8 ≤ line) && decide (line < lineCount) && decide (roleOf cell = .l)) .badOperand <|
  let l := getLine s line
  let i := cell - 336
  let child := l.children.getLsbD i
  let parent := decide (l.parent = i)
  let named := match kind with | .arrival _ | .leave _ => child | .release => parent | .failure => child || parent
  if !(l.system && decide (l.state = .on) && named) then .next s
  else
    match kind with
    | .arrival up => .next (settleRound (modLine s line fun l => childArrives s.time.ref l odd up i) line)
    | .leave _ =>
      let s := modLine s line fun l => childLeaves l odd i
      let r := if odd == l.round.getLsbD 0 then l.round else l.round - 1
      .next (settleHeld (tellLeft s line r) line)
    | .release => .next (if odd == l.round.getLsbD 0 then settleRound (releaseRound s line) line else s)
    | .failure =>
      .next (failHere (each ((treeLinks l).filter fun k => k ≠ i) (fun s k => pealOut s k line odd .failure) s) line)

/-! Performed reports (R293). -/

/-- PERFORMED_REPORT: a cell whose evidence is in hand reports to a FENCE's home; with the last report the FENCE
retires. -/
def execPerformedReport (c cell : Nat) (s : State) : Res :=
  need (decide (c < ctxCount) && decide (cell < cellCount)) .badOperand <|
  match (getCtx s c).wait with
  | .fence scope all cells =>
    need (cells.contains cell) .noSubject <|
    need (fenceEvidence s c cell scope all) .outOfTurn <|
    let rest := cells.filter fun n => n ≠ cell
    .next (if rest.isEmpty then retireWait s c else modCtx s c fun x => { x with wait := .fence scope all rest })
  | _ => .fault .noSubject

end Sys2Proof.Machine
end

