-- ==== Sys2Proof/Machine/Remote.lean ====
section
/-!
DEFINITION. The rows of remote operation: streams, windows, items handed on, reports, resends, re-routing and loss
(R320-R340, R351-R356, R384, R393, R446).
-/

namespace Sys2Proof.Machine

/-! Windows (R324, R326, R339). -/

/-- The L-cells of a half in ascending order. -/
def linkCells (east : Bool) : List Nat := (cellsOfHalf east).filter fun n => decide (roleOf n = .l)
/-- The windows a cell holds. -/
def windowsAt (s : State) (cell : Nat) : Nat := (s.windows.filter fun p => p.2.cell == cell).length
/-- The window cell for an OPEN that arrives on a link (R324). A cell that is not ON holds no window (R393). -/
def chooseWindow (s : State) (link : Nat) : Option Nat :=
  let here := 336 + link
  let e := cellEast here
  (here :: linkCells e ++ linkCells (!e)).find? fun n => cellOn s n && decide (windowsAt s n < 256)
/-- An item of data that this chip read for its peer (R321). -/
def servedData (h : Held) : Bool := isData h.item.payload && h.ctx.isNone
/-- Retires a chip's window: reads that serve it stop, and what of their data has not been sent is discarded (R339); what the window handed on
completes (log 139). -/
def retireWindow (s : State) (chip : Nat) : State :=
  let served := s.flights.filter fun f => servesRead f && (match f.origin with | some (c, _) => c == chip | none => false)
  let s := freeHeld s ((getStream s chip).waiting.filter servedData)
  let s := if (getStream s chip).waiting.any servedData then modStream s chip fun x => { x with waiting := x.waiting.filter fun h => !servedData h } else s
  each (served.map Flight.id) removeFlight { s with windows := tabErase s.windows chip }
/-- The sender's wrap count at a sequence, from what has been heard of that incarnation (R353). -/
def wrapsAt (s : State) (chip : Nat) (inc : BitVec 16) (seq : BitVec 32) : Nat :=
  let x := tabGet {} s.seqHeard chip
  if x.incarnation = inc then x.wraps + (if seq.toNat < x.next.toNat then 1 else 0) else 0
/-- STREAM_OPEN (R324, R339, R444): an OPEN with first sequence f. A repeated OPEN finds its window as it is. -/
def execStreamOpen (link chip : Nat) (incarnation : BitVec 16) (first : BitVec 32) (s : State) : Res :=
  need (decide (link < 16) && decide (chip < chipCount) && decide (chip ≠ s.regs.chipId)) .badOperand <|
  let s := heardFrom s chip
  let keep := match tabFind s.windows chip with
    | some w => decide (w.incarnation = incarnation) && decide (2 ^ 31 ≤ (first - 1 - w.h).toNat ∨ first - 1 = w.h)
    | none => false
  if keep then
    .next (match tabFind s.windows chip with
      | some w => sendControl s link chip 2 (BitVec.ofNat 32 (16 + (w.cell - 336)))
      | none => s)
  else
    let s := retireWindow s chip
    match chooseWindow s link with
    | none => .next (sendControl s link chip 2 0)
    | some cell =>
      let w : Window := { cell := cell, incarnation := incarnation, h := first - 1, lastAck := s.time.ref, wraps := wrapsAt s chip incarnation first }
      .next (sendControl { s with windows := tabSet s.windows chip w } link chip 2 (BitVec.ofNat 32 (16 + (cell - 336))))

/-! Ending what a stream carried (R338, R354, R446). -/

/-- The chime and SIGNAL updates of an instruction that have not been made are not made any more (R338, R354). -/
def dropUpdates (s : State) (insn : Nat) : State :=
  { s with
    chimes := s.chimes.filter fun u => !(decide (u.before = insn) && decide (u.id ≠ u.before) && u.origin.isNone && !s.granted.contains u.id) }
/-- Another chip owes no performed report of an instruction any more. -/
def clearDue (s : State) (chip insn : Nat) : State :=
  modFlight s insn fun f => if f.origin.isSome then f else
    { f with remotes := f.remotes.map fun r => if r.chip = chip then { r with performed := false } else r }
/-- A fault of an item of the stream to or from a chip ends the instruction of this chip that it belongs to; of an instruction that is
complete, or an update that has left, the context latches what met its performed report (R338, R354). -/
def endItems (s : State) (chip insn : Nat) (code : Code) : State :=
  match getFlight s insn with
  | some f =>
    if f.origin.isSome then s
    else if f.complete then
      if f.remotes.any fun r => r.chip == chip && r.performed then
        settleComplete (raise (clearDue (dropUpdates s insn) chip insn) f.job.ctx
          { code := code, kind := .ending, pc := f.job.pc, ch := some (chOf f.job.word) }) insn
      else s
    else tellOver (endFlight (dropUpdates s insn) f code none 0) f
  | none =>
    match s.distant.find? fun d => d.id == insn && d.chip == chip with
    | some d =>
      let s := { s with distant := s.distant.filter fun x => x.id != insn }
      if d.ctx < ctxCount then raise s d.ctx { code := code, kind := .ending, pc := d.pc } else settleOrigin s d.insn
    | none => s
/-- What becomes of an item that cannot be sent or will never be acknowledged: its instruction ends, its WAIT or SUB takes
the fault, or its context latches it (R265, R338, R353). -/
def failHeld (s : State) (chip : Nat) (code : Code) (h : Held) : State :=
  match h.insn, h.ctx with
  | some i, _ => endItems s chip i code
  | none, some c =>
    (match h.item.payload with
     | .poll id _ _ => takePollResult s c id 0 false code
     | .signal _ a .sub _ _ =>
        if (getCtx s c).wait = .subResult then raiseHere (modCtx s c fun x => { x with wait := .none }) c code .sync a none else s
     | .signal id _ _ _ _ | .chime id _ _ _ _ => endItems s chip id code
     | _ => s)
  | none, none => s
/-- The chips an instruction's other end lies on. -/
def reachesChip (f : Flight) (chip : Nat) : Bool :=
  f.origin.isNone && ((f.job.srcs.any fun x => addrChip x.base == chip) || f.remotes.any fun r => r.chip == chip && (r.completion || r.performed))
/-- FENCEs that wait for a performed report of a chip, those below SYSTEM scope for one of an update, fault with LINK_LOST (R293). -/
def faultFences (s : State) (chip : Nat) : State :=
  let waits (c : Nat) : Bool := match (getCtx s c).wait with
    | .fence scope all _ =>
      (decide (scope = 3) && s.flights.any fun f => f.origin.isNone && f.job.ctx == c && countsFor all f && f.remotes.any fun r => r.chip == chip && r.performed) ||
      s.distant.any fun d => d.chip == chip && d.ctx == c && (all || !d.prefetch)
    | _ => false
  each ((ctxNumbers s).filter waits) (fun s c => raiseHere s c LINK_LOST .sync 0 none) s
/-- A chip's outstanding polls and SUBs end with LINK_LOST (R265). -/
def faultPolls (s : State) (chip : Nat) : State :=
  let far (a : Word) : Bool := addrChip a == chip
  let one (s : State) (c : Nat) : State :=
    let x := getCtx s c
    match x.sync.outstanding, x.wait, currentWord x with
    | some id, _, _ => if far x.sync.addr then takePollResult s c id 0 false LINK_LOST else s
    | none, .subResult, some w =>
      if far (signalAddr w) then raiseHere (modCtx s c fun x => { x with wait := .none }) c LINK_LOST .sync (signalAddr w) none else s
    | _, _, _ => s
  each (ctxNumbers s) one s
/-- A peer's stream is over, by loss or by its GOODBYE: held items are released, every instruction and update with something still open
on it ends with LINK_LOST, and its WAITs and FENCEs fault (R338, R446). -/
def endStream (s : State) (chip : Nat) (peer : Peer) : State :=
  let x := getStream s chip
  let s := modRoute s chip fun r => { r with peer := peer, useAlt := false }
  let s := freeHeld (modStream s chip fun x => { x with held := [], waiting := [], opening := false, refused := false }) (x.held ++ x.waiting)
  let s := faultFences s chip
  let s := each (x.held ++ x.waiting) (fun s h => failHeld s chip LINK_LOST h) s
  let s := each ((s.flights.filter fun f => reachesChip f chip).map Flight.id) (fun s i => endItems s chip i LINK_LOST) s
  let s := each ((s.distant.filter fun d => d.chip == chip).map Distant.id) (fun s i => endItems s chip i LINK_LOST) s
  wakeDrains (faultPolls s chip)
/-- System Peal lines whose tree uses a link fail (R272, R340). -/
def failTrees (s : State) (link : Nat) : State :=
  each ((List.range lineCount).filter fun n => let l := getLine s n; l.system && decide (l.state = .on) && (treeLinks l).contains link)
    failLine s
/-- A stream is lost (R338). -/
def loseStream (s : State) (chip : Nat) : State := failTrees (endStream s chip .lost) (currentLink s chip)

/-! Handing items on (R328-R330, R384). -/

/-- A sector exists in core local memory or HBM (R54). -/
def sectorOk (s : State) (d : Nat) : Bool :=
  let w : Word := BitVec.ofNat 64 (32 * d)
  let sp := addrSpace w
  decide (sp = .core ∨ sp = .hbm) && unitExists s sp (unitOf sp (addrOff w)) && decide (addrOff w % 2 ^ unitLog sp < populatedLimit sp)
/-- A receiving chip's check of an item's bytes for a domain: every sector exists and one entry grants the range (R54, R73, R328). -/
def itemAllowed (s : State) (dom : Nat) (ds : List Nat) (lo hi : Nat) (rd wr : Bool) : Bool :=
  ds.all (sectorOk s) && rangeGrants (getDom s dom).current lo hi rd wr
/-- Refuses an item: an entry in the fault log names its chip and domain, and a report goes back (R328; log 36). -/
def refuseItem (s : State) (cell : Nat) (it : Item) (insn : Option Nat) (addr : Word) (code : Code) (ends : Bool) : State :=
  let s := countCell s cell 0x1D 1 none (some it.domain)
  let s := logEvent s (cellEast cell) { kind := 5, addr := addr, pc := BitVec.ofNat 64 it.chip, cell := some cell, code := code, dom := some it.domain }
  let k := foreignCtx it.chip it.domain it.ctx
  match it.payload with
  | .poll id _ _ => queueReport s it.chip it.domain k it.epoch (.pollResult id 0 false code)
  | .signal _ _ .sub _ _ => queueReport s it.chip it.domain k it.epoch (.subResult code)
  | _ => queueReport s it.chip it.domain k it.epoch (.refusal insn code ends (payloadPc it.payload))
/-- A forme as another chip's instruction sees it when the data comes from, or goes to, that chip's stream. -/
def rebase (chip : Nat) (x : Forme) : Forme := { x with base := BitVec.ofNat 64 (place chip 50 + x.base.toNat % 2 ^ 50) }
/-- The captured part of another chip's instruction as this chip works on it: its context under a number of its own, no
phase tag (R367), the auxiliary forme kept only for its index count. -/
def foreignJob (s : State) (it : Item) (cell : Nat) (j : Job) (reads : Bool) : Job :=
  let here (x : Forme) : Bool := addrChip x.base == s.regs.chipId
  { j with
    ctx := foreignCtx it.chip it.domain it.ctx, epoch := it.epoch, domain := it.domain, phase := 0, home := cell
    locked := (getDom s it.domain).lock
    srcs := if reads then j.srcs.filter here else j.srcs.map (rebase it.chip)
    dsts := if reads then j.dsts.map (rebase it.chip) else j.dsts
    aux := if opOf j.word = 0x21 ∨ opOf j.word = 0x22 then j.aux else none, mark := none }
/-- Starts this chip's part of another chip's instruction: reading its sources, or writing its destinations (R321, R333). A destination cell
that is not ON has no part, and the items for it are refused (R393; log 129). -/
def acceptOrder (s : State) (it : Item) (cell k : Nat) (j : Job) (index : List Nat) (reads : Bool) : State :=
  let here (x : Forme) : Bool := addrChip x.base == s.regs.chipId
  let job := foreignJob s it cell j reads
  let ranks := (List.range j.srcs.length).filter fun r => here (j.srcs.getD r {})
  let cells (x : Forme) : List Nat := formeCells s cell cell x
  let srcs := if reads then (job.srcs.flatMap cells).eraseDups else [cell]
  let parts : List Part :=
    if reads then [{ cell := ownerCell s it.chip }]
    else (List.range job.dsts.length).flatMap fun b => if here (dstOf_ job b) then ((cells (dstOf_ job b)).filter (cellOn s)).map fun n => { cell := n, branch := b } else []
  let all := (srcs ++ parts.map Part.cell).eraseDups
  let f : Flight :=
    { id := s.seq, job := job, origin := some (it.chip, k), ranks := ranks, srcCells := srcs, parts := parts
      index := if index.isEmpty then none else some index, indexCells := all }
  let one (n : Nat) : Order :=
    { insn := f.id, cell := n, ch := 16, ctx := job.ctx, isSrc := srcs.contains n, isDst := (parts.map Part.cell).contains n
      place := .active, accepted := s.seq, deadline := job.deadline }
  { s with flights := s.flights ++ [f], orders := s.orders ++ all.map one, seq := s.seq + 1 }
where
  /-- A destination forme of a job. -/
  dstOf_ (j : Job) (b : Nat) : Forme := j.dsts.getD b {}
/-- No cell of this chip that another chip's instruction writes at is ON: it is refused, and counts as complete here (R328; log 129). -/
def refuseOrder (s : State) (cell : Nat) (it : Item) (i : Nat) (j : Job) : State :=
  let k := foreignCtx it.chip it.domain it.ctx
  let s := refuseItem s cell it (some i) (j.dsts.headD {}).base INTERNAL false
  queueReport (queueReport s it.chip it.domain k it.epoch (.completion i true s.time.ref)) it.chip it.domain k it.epoch (.performed i)
/-- Some cell that writes another chip's instruction here is ON. -/
def targetsOn (s : State) (cell : Nat) (j : Job) : Bool :=
  (j.dsts.filter fun x => addrChip x.base == s.regs.chipId).any fun x => (formeCells s cell cell x).any (cellOn s)
/-- The sources of another chip's instruction that lie here may be read (R328). -/
def sourcesAllowed (s : State) (it : Item) (j : Job) : Bool :=
  (j.srcs.filter fun x => addrChip x.base == s.regs.chipId).all fun x =>
    let h := hullGlobal x
    (hullUnits x).all (unitExists s (addrSpace x.base)) && rangeGrants (getDom s it.domain).current h.1 h.2 true false
/-- The cells that read another chip's sources here are ON (R393; log 129). -/
def sourcesOn (s : State) (cell : Nat) (j : Job) : Bool :=
  (j.srcs.filter fun x => addrChip x.base == s.regs.chipId).all fun x => (formeCells s cell cell x).all (cellOn s)
/-- The sectors that elements write in each branch on this chip. -/
def itemSectors (s : State) (f : Flight) (es : List (Nat × Nat)) : List (List Nat) :=
  let bs := (List.range f.job.dsts.length).filter fun b => !remoteBranch s f b
  bs.map fun b => (es.flatMap fun e => match dstIndices f b e.1 with | some is => unitSectors (dstF f b) is | none => []).eraseDups
/-- What is wrong with the bytes that elements write here, if anything: the address and the code (R328; log 129). -/
def itemFault (s : State) (f : Flight) (dom : Nat) (es : List (Nat × Nat)) : Option (Nat × Code) :=
  (itemSectors s f es).findSome? fun ds =>
    let lo := 32 * ds.foldl min (ds.headD 0)
    if ds.isEmpty then none
    else if !itemAllowed s dom ds lo (32 * ds.foldl max 0 + 31) (readsOld f) true then some (lo, RANGE)
    else (ds.find? fun d => !cellOn s (servingCell s f.job.home f.job.hostCell (32 * d))).map fun d => (32 * d, INTERNAL)
/-- The current range table grants the range of what comes back to an instruction of this chip (R328). -/
def returnFault (s : State) (f : Flight) (es : List (Nat × Nat)) : Option Nat :=
  (itemSectors s f es).findSome? fun ds =>
    let lo := 32 * ds.foldl min (ds.headD 0)
    let mine := ds.all fun d => decide (addrSpace (BitVec.ofNat 64 (32 * d)) = .core ∨ addrSpace (BitVec.ofNat 64 (32 * d)) = .hbm)
    if ds.isEmpty ∨ !mine ∨ itemAllowed s f.job.domain ds lo (32 * ds.foldl max 0 + 31) (readsOld f) true then none else some lo
/-- Passes the data of an item on to the cells that need it: they are staged at the cell they came in at and go on against
credits of the destination's pools (R321, R330). -/
def feed (s : State) (f : Flight) (cell r : Nat) (es : List (Nat × Nat)) (scales : List (Nat × Nat)) (taken : Bool) : State :=
  let upto := es.foldl (fun m e => max m (e.1 + 1)) 0
  let one (m : Nat) : Option Staged :=
    let xs := es.filter fun e => neededAt s f m e.1
    if xs.isEmpty ∧ scales.isEmpty then none else some { cell := m, data := { rank := r, elems := xs, scales := scales } }
  let out := if taken then (partCells f).filterMap one else []
  modOrder s f.id cell fun o => { o with out := o.out ++ out, emit := tabSet o.emit r (max upto (tabGet 0 o.emit r)) }
/-- The instruction an item of another chip belongs to here. -/
def foreignFlight (s : State) (chip k : Nat) (reads : Bool) : Option Flight :=
  s.flights.find? fun f => f.origin == some (chip, k) && servesRead f == reads
/-- A data item goes to an instruction of this chip that reads from its sender. -/
def fedBy (s : State) (it : Item) (k r : Nat) : Option Flight :=
  (getFlight s k).filter fun x =>
    x.origin.isNone && x.job.ctx == it.ctx && x.job.epoch == it.epoch && fedRank s x r && addrChip (srcF x r).base == it.chip
/-- Stream positions of an instruction whose items were refused (R328). -/
def noteRefused (s : State) (insn : Nat) (es : List (Nat × Nat)) : State :=
  modFlight s insn fun f => { f with refusedAt := f.refusedAt ++ es.map Prod.fst }
/-- Hands a data item on: to an instruction of this chip that reads from its sender, or to a destination here, whose range is
checked; where the sender is not the issuing chip, a fault is latched here (R328). -/
def handData (s : State) (cell : Nat) (it : Item) (k r : Nat) (es scales : List (Nat × Nat)) : State :=
  match fedBy s it k r, foreignFlight s it.chip k false with
  | some x, _ =>
    let bad := returnFault s x es
    let s := feed s x (srcCellOf s x r 0) r es scales bad.isNone
    (match bad with
     | none => s
     | some lo =>
       let s := countCell (noteRefused s x.id es) cell 0x1D 1 none (some it.domain)
       let s := logEvent s (cellEast cell) { kind := 5, addr := BitVec.ofNat 64 lo, pc := BitVec.ofNat 64 it.chip, cell := some cell, code := RANGE, dom := some it.domain }
       raise s x.job.ctx { code := RANGE, kind := .ending, pc := x.job.pc, addr := BitVec.ofNat 64 lo, ch := some (chOf x.job.word) })
  | none, some f =>
    let bad := itemFault s f it.domain es
    let s := feed s f (f.srcCells.headD cell) r es scales bad.isNone
    (match bad with
     | none => s
     | some (lo, code) => refuseItem (noteRefused s f.id es) cell it (some k) (BitVec.ofNat 64 lo) code false)
  | none, none => s
/-- A performed report reaches the owner cell: the evidence of R284 for that chip's memory, or for an update there, is in hand. -/
def notePerformed (s : State) (chip k : Nat) : State :=
  match s.distant.find? fun d => d.id == k && d.chip == chip with
  | some d => settleOrigin { s with distant := s.distant.filter fun x => x.id != k } d.insn
  | none => settleComplete (clearDue s chip k) k
/-- Another chip's part of an instruction has completed, at an instant (R19, R38). -/
def remoteArrived (chip : Nat) (at_ : Word) (f : Flight) : Flight :=
  { f with remotes := f.remotes.map fun r => if r.chip = chip then { r with completion := false, at_ := at_ } else r }
/-- A completion report reaches the window cell; it goes on to the home Compositor, or for a MOVE with a CRC lets the owner
write the record first (R19, R38, R331). -/
def noteCompletion (s : State) (cell chip k : Nat) (at_ : Word) : State :=
  match getFlight s k with
  | some f =>
    if f.origin.isSome then s
    else if crcOf f.job.word then
      checkComplete (modFlight s k (remoteArrived chip at_)) k
    else send (clearLate s (remoteArrived chip at_ f)) 1 cell f.job.home (.remoteDone k chip at_)
  | none => s
/-- Hands an item on (R326, R328, R329). -/
def handOn (cell : Nat) (s : State) (it : Item) : State :=
  let s := countCell s cell 0x1B 1 none (some it.domain)
  let k := foreignCtx it.chip it.domain it.ctx
  let serving (a : Word) : Nat := servingCell s cell cell a.toNat
  let word (a : Word) (rd wr : Bool) : Bool :=
    decide (addrChip a = s.regs.chipId) && itemAllowed s it.domain [a.toNat / 32] a.toNat (a.toNat + 3) rd wr
  let current (c : Nat) : Bool := decide (c < ctxCount) && decide ((getCtx s c).epoch = it.epoch)
  let suspect (code : Code) (s : State) : State :=
    if code = AUTH_FAIL then modCell s (ownerCell s it.chip) fun x => { x with suspect := true } else s
  let update (id : Nat) (a : Word) (op : ChimeOp) (n : BitVec 32) (wants : Bool) (pc : Word) : State :=
    if !word a false true then refuseItem s cell it (some id) a RANGE false
    else if !cellOn s (serving a) then refuseItem s cell it (some id) a INTERNAL false
    else
      startChime s { id := 0, addr := a, op := op, amount := n, ctx := k, cell := serving a, guard := 0, before := s.seq, wantsResult := wants,
                     epoch := it.epoch, origin := some it.chip, farId := if wants then none else some id, pc := pc }
  match it.payload with
  | .order i j index reads =>
    if reads ∧ !sourcesAllowed s it j then refuseItem s cell it (some i) (j.srcs.headD {}).base RANGE true
    else if reads ∧ !sourcesOn s cell j then refuseItem s cell it (some i) (j.srcs.headD {}).base INTERNAL true
    else if !reads ∧ !targetsOn s cell j then refuseOrder s cell it i j
    else acceptOrder s it cell i j index reads
  | .data i r es scales _ => handData s cell it i r es scales
  | .chime id a op n pc => update id a op n false pc
  | .signal id a op n pc => update id a op n (decide (op = .sub)) pc
  | .poll id a take =>
    if !word a true take.isSome then refuseItem s cell it none a RANGE false
    else if !cellOn s (serving a) then refuseItem s cell it none a INTERNAL false
    else send (bump s) 0 cell (serving a) (.poll s.seq id k a take it.epoch)
  | .pollResult id v took fault =>
    let s := suspect fault s
    if current it.ctx then send s 1 cell (homeOf s it.ctx) (.pollResult id it.ctx v took fault) else s
  | .subResult fault =>
    let s := suspect fault s
    if current it.ctx then send s 1 cell (homeOf s it.ctx) (.subResult it.ctx fault) else s
  | .completion i _ t => noteCompletion s cell it.chip i t
  | .performed i => notePerformed s it.chip i
  | .refusal i code ends pc =>
    let s := suspect code s
    let s := if current it.ctx then send s 1 cell (homeOf s it.ctx) (.refusal it.ctx i code ends pc) else s
    let over_ (i : Nat) : State := if ((getFlight s i).map Flight.complete) = some true then clearDue s it.chip i else s
    let s := match (if ends then i else none) with | some i => over_ i | none => s
    { s with distant := s.distant.filter fun d => !(d.chip == it.chip && some d.id == i) }
  | .abandon is =>
    each ((s.flights.filter fun f => match f.origin with | some (c, i) => c == it.chip && is.contains i | none => false).map Flight.id) removeFlight s

/-! Seal groups (R351-R354). -/

/-- Sends the cumulative acknowledgement of a window (R327). -/
def sendAck (s : State) (chip : Nat) (w : Window) : State :=
  sendControl { s with windows := tabSet s.windows chip { w with handed := 0, arrived := false, lastAck := s.time.ref } } (currentLink s chip) chip 5 w.h
/-- The subject of a failed group on this chip or on the sender's: the fault is latched here, or a report goes back
(R354). -/
def failItem (s : State) (cell : Nat) (it : Item) (code : Code) : State :=
  let k := foreignCtx it.chip it.domain it.ctx
  let back (i : Option Nat) : State := queueReport s it.chip it.domain k it.epoch (.refusal i code true (payloadPc it.payload))
  match it.payload with
  | .pollResult id _ _ _ => send s 1 cell (homeOf s it.ctx) (.pollResult id it.ctx 0 false code)
  | .subResult _ => send s 1 cell (homeOf s it.ctx) (.subResult it.ctx code)
  | .completion i _ _ | .performed i | .refusal (some i) _ _ _ => endItems s it.chip i code
  | .refusal none _ _ _ | .abandon _ => s
  | .poll id _ _ => queueReport s it.chip it.domain k it.epoch (.pollResult id 0 false code)
  | .signal _ _ .sub _ _ => queueReport s it.chip it.domain k it.epoch (.subResult code)
  | .signal id _ _ _ _ | .chime id _ _ _ _ => back (some id)
  | .order i _ _ _ => back (some i)
  | .data i r _ _ _ => if (fedBy s it i r).isSome then endItems s it.chip i code else back (some i)
/-- A group that cannot be opened: its items are discarded, and the first of them says whose it was (R354). -/
def failGroup (s : State) (w : Window) (g : List Item) (code : Code) : State :=
  let dom := (g.map Item.domain).head?
  let s := countCell s w.cell 0x1E 1 none dom
  let s := modCell s w.cell fun x => { x with suspect := x.suspect || decide (code = AUTH_FAIL), authFails := saturate 16 (x.authFails + 1) }
  let s := logEvent s (cellEast w.cell) { kind := 6, cell := some w.cell, code := code, dom := dom }
  match g with
  | it :: _ => failItem s w.cell it code
  | [] => s
/-- A window has handed `n` items on, or passed over as many that it discarded: h and the sender's wrap count advance (R326, R353, R354). -/
def advance (s : State) (chip : Nat) (w : Window) (n : Nat) : State :=
  let next := w.h + 1 + BitVec.ofNat 32 n
  let wraps := if next.toNat < (w.h + 1).toNat then w.wraps + 1 else w.wraps
  { s with
    windows := tabSet s.windows chip { w with h := next - 1, handed := w.handed + n, wraps := wraps }
    seqHeard := tabSet s.seqHeard chip { incarnation := w.incarnation, next := next, wraps := wraps } }
/-- The items of the first complete group that has arrived. -/
def arrivedGroup (w : Window) : List Item := w.group.take ((w.group.takeWhile fun it => !it.last).length + 1)
/-- Opens a complete group (R351, R352, R354): the key is read now; what verifies is ready to be handed on, item by item, and h advances past
a group that fails. Only the key and IV it was encrypted under show what it carries (log 76). -/
def openGroup (s : State) (chip : Nat) (w : Window) : State :=
  let g := arrivedGroup w
  let w := { w with group := w.group.drop g.length }
  let ready : State := { s with windows := tabSet s.windows chip { w with ready := g } }
  let fail (code : Code) : State := failGroup (advance s chip w g.length) w g code
  match g.head? with
  | none => s
  | some it =>
    if !it.isSealed then (if g.all fun i => isFault i.payload then ready else fail AUTH_FAIL)
    else match (getDom s it.domain).key with
    | none => fail KEY_ABSENT
    | some key =>
      let iv := linkIv chip s.regs.chipId it.incarnation w.wraps it.seq
      let tag := Config.gcmGroupTag key iv (authed g)
      if (g.getLast?.map Item.tag) = some tag ∧ g.all fun i => decide (i.cipher = some (key, iv)) then ready else fail AUTH_FAIL
/-- The next item of a window can be handed on: the order it feeds holds fewer than two slugs for each cell that needs the item (R330,
R334). -/
def handRoom (s : State) (it : Item) : Bool :=
  match it.payload with
  | .data i r es _ _ =>
    let room (f : Flight) (cell : Nat) : Bool :=
      match getOrder s f.id cell with
      | some o => ((partCells f).filter fun m => es.any fun e => neededAt s f m e.1).all fun m =>
          decide ((o.out.filter fun e => e.cell == m && e.pool.isNone).length < 2)
      | none => true
    (match fedBy s it i r, foreignFlight s it.chip i false with
     | some f, _ => room f (srcCellOf s f r 0)
     | none, some f => room f (f.srcCells.headD 0)
     | none, none => true)
  | _ => true
/-- Sends the acknowledgement that is due after 64 items (R327). -/
def ackIfDue (s : State) (chip : Nat) : State :=
  match tabFind s.windows chip with
  | some w => if 64 ≤ w.handed then sendAck s chip w else s
  | none => s
/-- Hands on what can be handed on of a window, in sequence order, and opens groups that have come whole (R326, R330, R354). -/
def pump (chip : Nat) : Nat → State → State
  | 0, s => s
  | fuel + 1, s =>
    match tabFind s.windows chip with
    | none => s
    | some w =>
      match w.ready with
      | it :: rest =>
        if handRoom s it then pump chip fuel (ackIfDue (handOn w.cell (advance s chip { w with ready := rest } 1) it) chip)
        else s
      | [] => if w.group.any Item.last then pump chip fuel (ackIfDue (openGroup s chip w) chip) else s
/-- Hands on what a window holds. -/
def pumpWindow (s : State) (chip : Nat) : State :=
  match tabFind s.windows chip with
  | some w => pump chip (2 * (w.ready.length + w.group.length) + 1) s
  | none => s
/-- The items of a chip and domain that a cell's window holds, in its remote pool: not handed on, or waiting at it for a credit of the cell
they are bound for (R330). -/
def windowHolds (s : State) (cell : Nat) : List (Nat × Nat) :=
  ((s.windows.filter fun p => p.2.cell == cell).flatMap fun p => (p.2.group ++ p.2.ready).map fun it => (p.1, it.domain)) ++
    (s.orders.filter fun o => o.cell == cell).flatMap fun o =>
      match (getFlight s o.insn).bind Flight.origin with
      | some (chip, _) => (o.out.filter fun e => e.pool.isNone).map fun _ => (chip, ((getFlight s o.insn).map fun f => f.job.domain).getD 0)
      | none => []
/-- The slices of a cell's remote pool that are in use, granted to a chip and domain or holding what its windows have not handed on (R330). -/
def remoteUsed (s : State) (cell : Nat) (more : List (Nat × Nat)) : Nat :=
  let held := more ++ windowHolds s cell
  let granted := ((List.range (remoteSlicesOf s cell)).filter fun k => (getSlice (getCell s cell) (64 - remoteSlicesOf s cell + k)).remote.isSome).length
  granted + (held.eraseDups.map fun q => ceilDiv (held.filter fun x => x == q).length 64).sum
/-- ITEM_ARRIVAL (R326, R330, R352, R354, R426): an item of a stream reaches its window cell; in sequence it joins its seal group, which is opened
when it has come whole and everything before it has been handed on; a duplicate, stale or gap item, or one of another incarnation, is discarded.
While the cell's remote pool is full the link holds an item in sequence back. -/
def execItemArrival (link : Nat) (item : Item) (s : State) : Res :=
  need (decide (link < 16) && decide (item.chip < chipCount) && decide (item.chip ≠ s.regs.chipId) && decide (item.domain < domainCount) &&
    decide (item.ctx < ctxCount)) .badOperand <|
  let s := heardFrom s item.chip
  match tabFind s.windows item.chip with
  | none => .next s
  | some w =>
    if w.incarnation ≠ item.incarnation then .next s
    else
      let w := { w with arrived := true }
      let d := (item.seq - w.h).toNat
      let waiting := w.ready.length + w.group.length
      let count (e : Nat) : State := countCell { s with windows := tabSet s.windows item.chip w } w.cell e 1 none none
      if d = waiting + 1 then
        need (decide (remoteUsed s w.cell [(item.chip, item.domain)] ≤ remoteSlicesOf s w.cell)) .outOfTurn <|
        .next (pumpWindow { s with windows := tabSet s.windows item.chip { w with group := w.group ++ [item] } } item.chip)
      else if 2 ^ 31 ≤ d ∧ d ≤ 2 ^ 32 - 4096 then .next (count 0x19)
      else if d = 0 ∨ 2 ^ 31 ≤ d ∨ d ≤ waiting then .next (count 0x18)
      else .next (count 0x1A)

/-! Timers and replies of streams. -/

/-- ACK_TIMER (R327): at least once per µs while items arrive. -/
def execAckTimer (chip : Nat) (s : State) : Res :=
  needSome (tabFind s.windows chip) .noSubject fun w =>
  need w.arrived .outOfTurn <| need (elapsedUs s w.lastAck 1) .notDue <| .next (sendAck s chip w)
/-- REMOTE_ACK (R325, R327): a cumulative acknowledgement of h frees what it covers, and the galley slots it was held in; a repeated or stale one
changes nothing. -/
def execRemoteAck (chip : Nat) (h : BitVec 32) (s : State) : Res :=
  need (decide (chip < chipCount)) .badOperand <|
  let x := getStream s chip
  let s := heardFrom s chip
  let n := (h - x.acked).toNat
  if decide ((getRoute s chip).peer ≠ .opened) || decide (n = 0) || decide (x.held.length < n) then .next s
  else .next (freeHeld (modStream s chip fun x => { x with
    acked := h, held := x.held.drop n, resent := false, resendTimer := startTimer s s.regs.ackUs, lostTimer := startTimer s s.regs.lostUs }) (x.held.take n))
/-- Sends every unacknowledged item again, in sequence order, over the current route (R336, R337); only a resend of R336 lets the stream be
lost (R338). -/
def resend (s : State) (chip : Nat) (timer : Bool) : State :=
  let hs := (getStream s chip).held
  let s := each hs (fun s h => countCell s (getStream s chip).owner 0x1C 1 h.ctx (some h.item.domain)) s
  modStream (transmit s chip hs) chip fun x => { x with
    resent := x.resent || timer, resendTimer := startTimer s s.regs.ackUs, idleTimer := startTimer s s.regs.idleUs }
/-- RESEND_TIMER (R336). -/
def execResendTimer (chip : Nat) (s : State) : Res :=
  let x := getStream s chip
  need (decide ((getRoute s chip).peer = .opened) && !x.held.isEmpty) .noSubject <|
  need (timerDue s x.resendTimer) .notDue <| .next (resend s chip true)
/-- STREAM_LOST_TIMER (R338): items were resent and h has not advanced for LOST_US. -/
def execStreamLostTimer (chip : Nat) (s : State) : Res :=
  let x := getStream s chip
  need (decide ((getRoute s chip).peer = .opened) && !x.held.isEmpty && x.resent) .outOfTurn <|
  need (timerDue s x.lostTimer) .notDue <| .next (loseStream s chip)
/-- OPEN_REPLY (R324): a window, whose stream is then OPEN, or a refusal. A second reply, to an OPEN that was sent again over the alternate
link (R337), finds the stream OPEN and changes nothing. -/
def execOpenReply (chip : Nat) (window : Option Nat) (s : State) : Res :=
  need (decide (chip < chipCount)) .badOperand <|
  let s := heardFrom s chip
  if !(getStream s chip).opening then .next s
  else match window with
  | none =>
    let s := modStream s chip fun x => { x with refused := true }
    .next { s with regs := { s.regs with openRefused := saturate 16 (s.regs.openRefused + 1) } }
  | some n =>
    need (decide (n < 16)) .badOperand <|
    .next (modRoute (modStream s chip fun x => { x with
      opening := false, refused := false, window := n, acked := x.nextSeq - 1, resent := false, idleTimer := startTimer s s.regs.idleUs })
      chip fun r => { r with peer := .opened })
/-- OPEN_RETRY (R324): every ACK_US while the OPEN is refused. -/
def execOpenRetry (chip : Nat) (s : State) : Res :=
  let x := getStream s chip
  need (x.opening && x.refused) .outOfTurn <|
  need (timerDue s x.openTimer) .notDue <| .next (sendOpen s chip)
/-- STREAM_IDLE (R324): nothing unacknowledged and nothing sent for IDLE_US closes the stream. -/
def execStreamIdle (chip : Nat) (s : State) : Res :=
  let x := getStream s chip
  need (decide ((getRoute s chip).peer = .opened) && x.held.isEmpty && x.waiting.isEmpty) .outOfTurn <|
  need (timerDue s x.idleTimer) .notDue <|
  .next (modRoute (sendControl s (currentLink s chip) chip 3 0) chip fun r => { r with peer := .none, useAlt := false })
/-- A chip's window belongs to an incarnation. -/
def windowIs (s : State) (chip : Nat) (inc : BitVec 16) : Bool := match tabFind s.windows chip with | some w => w.incarnation == inc | none => false
/-- CLOSE (R324, R339). -/
def execClose (chip : Nat) (incarnation : BitVec 16) (s : State) : Res :=
  need (decide (chip < chipCount)) .badOperand <|
  .next (if windowIs s chip incarnation then retireWindow s chip else s)
/-- GOODBYE (R339, R446): the window retires, the peer is GONE, and instructions with something open towards it end. -/
def execGoodbye (chip : Nat) (incarnation : BitVec 16) (s : State) : Res :=
  need (decide (chip < chipCount)) .badOperand <|
  .next (endStream (if windowIs s chip incarnation then retireWindow s chip else s) chip .gone)
/-- PEER_SILENCE (R339): nothing has come from a chip for LOST_US while the stream to it is lost. -/
def execPeerSilence (chip : Nat) (s : State) : Res :=
  need (tabFind s.windows chip).isSome .noSubject <|
  need (decide ((getRoute s chip).peer = .lost)) .outOfTurn <|
  need (timerDue s (tabGet {} s.peerHeard chip)) .notDue <| .next (retireWindow s chip)

/-! Links (R337). -/

/-- A stream whose link is down goes over to its alternate link, or is lost (R337). -/
def reroute (s : State) (chip : Nat) : State :=
  let r := getRoute s chip
  let alt := field r.bits 8 4
  if bit r.bits 17 ∧ !r.useAlt ∧ (getCell s (336 + alt)).linkUp then
    let s := modRoute s chip fun r => { r with useAlt := true }
    if (getStream s chip).opening then sendOpen s chip else resend s chip false
  else loseStream s chip
/-- What a link's going down does: system Peal trees through it fail, and its streams move or are lost (R272, R337). -/
def linkFails (s : State) (cell : Nat) : State :=
  let link := cell - 336
  let s := failTrees (modCell s cell fun x => { x with linkUp := false }) link
  let uses (chip : Nat) : Bool := (decide ((getRoute s chip).peer = .opened) || (getStream s chip).opening) && currentLink s chip == link
  each ((s.streams.map Prod.fst).filter uses) reroute s
/-- LINK_DOWN (R272, R337). -/
def execLinkDown (cell : Nat) (s : State) : Res :=
  need (decide (roleOf cell = .l)) .badOperand <| .next (linkFails s cell)
/-- LINK_UP (R426). -/
def execLinkUp (cell : Nat) (s : State) : Res :=
  need (decide (roleOf cell = .l)) .badOperand <| .next (modCell s cell fun x => { x with linkUp := true })

/-! Refusals at the issuing chip (R328, R354, R384). -/

/-- A refusal on its way to its context. -/
def isRefusal (c : Nat) (m : Msg) : Bool := match m.body with | .refusal k _ _ _ _ => k == c | _ => false
/-- A report that an item was refused, or that an instruction cannot go on, reaches its context, which latches the fault as an End fault; after a
failed group or a refused source the instruction itself ends, and a complete one owes no report of that chip any more (R189, R328, R354). -/
def takeRefusal (s : State) (c : Nat) (i : Option Nat) (code : Code) (ends : Bool) (pc : Word) : State :=
  match i.bind (getFlight s) with
  | some f =>
    if f.origin.isNone ∧ ends ∧ !f.complete then wakeDrains (tellOver (endFlight (dropUpdates s f.id) f code none 0) f)
    else settleComplete (raise s c { code := code, kind := .ending, pc := f.job.pc, ch := some (chOf f.job.word) }) f.id
  | none => raise s c { code := code, kind := .ending, pc := pc }
/-- REFUSAL_REPORT (R189, R328, R354). -/
def execRefusalReport (c : Nat) (s : State) : Res :=
  need (decide (c < ctxCount)) .badOperand <|
  needSome (findMsg s (isRefusal c)) .noSubject fun m =>
  match m.body with
  | .refusal _ i code ends pc => .next (takeRefusal (dropMsg s m) c i code ends pc)
  | _ => .fault .noSubject

end Sys2Proof.Machine
end

