-- ==== Sys2Proof/Machine/Contexts.lean ====
section
/-!
DEFINITION. The life of a context: its configuration, its commands, its image, its queue, its bursts, and the two halves of an
abandon (R149-R167, R174-R176, R211, R212, R275, R276, R346, R348, R361, R385-R387, R391).
-/

namespace Sys2Proof.Machine

/-! Queue entries and bursts (R163-R168). -/

/-- The address and count of a queue entry (R163). -/
def entryList (e : Insn) : Word := e.setWidth 64
/-- The instructions an entry names (R163). -/
def entryCount (e : Insn) : Nat := field e 64 24
/-- The last byte of an entry's list (R164). -/
def entryLast (e : Insn) : Nat := (entryList e).toNat + 16 * entryCount e - 1
/-- The home cell serves an address of a context's program (R154, R164). -/
def servedByHome (s : State) (c : Nat) (a : Nat) : Bool :=
  servingCell s (homeOf s c) (cfgHostCell (configOf s c)) a == homeOf s c
/-- The checks of R164 on a taken entry, in their order. -/
def entryFault (s : State) (c : Nat) (e : Insn) : Option Code :=
  let a := (entryList e).toNat
  if field e 88 40 ≠ 0 then some ILLEGAL_INSTR
  else if a % 16 ≠ 0 then some ALIGN
  else if entryCount e ≠ 0 ∧ !mayRead s c a (entryLast e) then some RANGE
  else if cfgDeadline (configOf s c) ∧ !(servedByHome s c a && (decide (entryCount e = 0) || servedByHome s c (entryLast e))) then some RANGE
  else none
/-- The context has finished its list and can take an entry (R164). -/
def betweenLists (x : Ctx) : Bool := decide (x.listCount = 0) && x.pc == x.listBase
/-- QUEUE_ENTRY_TAKE (R164): the entry at HEAD is taken, then checked; an entry of no instructions is consumed. -/
def execQueueEntryTake (c : Nat) (entry : Insn) (s : State) : Res :=
  need (decide (c < ctxCount)) .badOperand <|
  let x := getCtx s c
  need (decide (x.regs.state = .running) && decide (x.wait = .none) && !x.tollHold && betweenLists x && decide (0 < pendingEntries x)) .outOfTurn <|
  let at_ := ringBase x + BitVec.ofNat 64 (16 * x.regs.head)
  let s := modRegs s c fun g => { g with head := (g.head + 1) % ringSize x }
  match entryFault s c entry with
  | some code =>
    .next (raise s c { code := code, kind := .issue, byInsn := false, pc := entryList entry, addr := at_ })
  | none =>
    if entryCount entry = 0 then .next (settleList s c)
    else .next (modCtx s c fun x => { dropBursts x with pc := entryList entry, listBase := entryList entry, listCount := entryCount entry })
/-- The bursts a context keeps: the one it decodes and two beyond (R167). -/
def keptBursts (x : Ctx) : List Burst :=
  let cur := x.pc &&& ~~~(0x3FF : Word)
  x.bursts.filter fun b => decide ((b.addr - cur).toNat < 3 * 1024)
/-- A burst of the current list: aligned, and within reach of the program counter (R167). -/
def burstWanted (x : Ctx) (addr : Word) : Bool :=
  let cur := x.pc &&& ~~~(0x3FF : Word)
  inList x && decide ((addr - cur).toNat < 3 * 1024) &&
    decide ((addr - x.listBase).toNat < 16 * x.listCount ∨ addr = (x.listBase &&& ~~~(0x3FF : Word)))
/-- FETCH_BURST_RETURN (R167, R168, R380): a burst whose two accesses the home cell's port has granted arrives; a failed one faults when decode
reaches it. No burst reaches past the end of the list; one fetched for a list that is over is dropped. -/
def execFetchBurstReturn (c : Nat) (addr : Word) (status : AttStatus) (words : List Insn) (s : State) : Res :=
  need (decide (c < ctxCount)) .badOperand <|
  needSome ((getCtx s c).fetches.find? fun f => decide (f.addr = addr) && decide (f.granted = 2)) .noSubject fun f =>
  let s := modCtx s c fun x => { x with fetches := x.fetches.filter fun k => k.id != f.id }
  let x := getCtx s c
  if f.stale ∨ !burstWanted x addr then .next s
  else
    let n := min 64 (((listEnd x) - addr).toNat / 16)
    need (decide (status ≠ .ok) || decide (words.length = n)) .outOfTurn <|
    let b : Burst := { addr := addr, bad := statusCode status, words := if status = .ok then words else [] }
    .next (modCtx s c fun x => { x with bursts := (keptBursts x).filter (fun k => k.addr ≠ addr) ++ [b] })

/-! Slices and grants (R174-R176, R361). -/

/-- A grant-list entry (R174). -/
def grantOf (w : Word) : Grant :=
  { first := field w 0 9, last := field w 9 9, channel := field w 18 4, work := field w 22 7, prefetch := field w 29 7 }
/-- An entry breaks no rule of R174. -/
def grantOk (lead : Bool) (w : Word) : Bool :=
  let g := grantOf w
  decide (g.first ≤ g.last) && decide (g.last < cellCount) && decide (field w 36 28 = 0) && decide (g.prefetch ≤ 64) &&
  (if lead then decide (4 ≤ g.work ∧ g.work ≤ 64) else decide (g.work = 2 ∨ g.work = 3))
/-- Two entries name the same channel at the same cell (R175). -/
def grantsClash (gs : List Grant) : Bool :=
  (List.range gs.length).any fun i => (List.range i).any fun j =>
    match gs[i]?, gs[j]? with
    | some a, some b => a.channel == b.channel && decide (a.first ≤ b.last) && decide (b.first ≤ a.last)
    | _, _ => false
/-- A cell takes part in grants: it is enabled (R175). -/
def cellUsable (s : State) (n : Nat) : Bool := cellOn s n && cellMapped s n && !cellRetired s n
/-- The slices a context's grants ask for at a cell. -/
def slicesWanted (gs : List Grant) (n : Nat) : Nat :=
  ((gs.filter fun g => decide (g.first ≤ n) && decide (n ≤ g.last)).map fun g => g.work + g.prefetch).sum
/-- A slice needs a scrub before a domain may hold it (R361). -/
def needsScrub (x : Cell) (dom k : Nat) : Bool := match (getSlice x k).lastDomain with | some d => d != dom | none => false
/-- The free slices of a cell in the order a domain takes them (R361). -/
def sliceOrder (s : State) (n dom : Nat) : List Nat :=
  let x := getCell s n
  let fs := freeSlices s n
  (fs.filter fun k => !needsScrub x dom k) ++ fs.filter (needsScrub x dom)
/-- Reserves slices of a cell for a context's channel; one that needs a scrub counts as the earlier domain's until it has had it (R175, R361). -/
def takeSlices (s : State) (n c ch dom : Nat) (pre : Bool) (ks : List Nat) : State :=
  modCell s n fun x => { x with slices := ks.foldl (fun t k =>
    tabSet t k { owner := some (c, ch), forPrefetch := pre, lastDomain := if needsScrub x dom k then (getSlice x k).lastDomain else some dom, scrubbing := needsScrub x dom k }) x.slices }
/-- The credit pools of a grant at a cell: the two halves of Pair mode, the queue of Lead mode, the prefetch queue
(R177-R180). -/
def grantPools (s : State) (n c : Nat) (lead : Bool) (g : Grant) : State :=
  let add (s : State) (queue size : Nat) : State :=
    { s with pools := s.pools ++ [{ id := s.seq, cell := n, ctx := c, ch := g.channel, queue := queue, size := size, free := size }], seq := s.seq + 1 }
  let s := if lead then add s 2 (64 * g.work) else add (add s 0 (32 * g.work)) 1 (32 * g.work)
  if g.prefetch = 0 then s else add s 3 (64 * g.prefetch)
/-- Reserves one grant at one cell. -/
def reserveAt (s : State) (c dom : Nat) (lead : Bool) (g : Grant) (n : Nat) : State :=
  let ks := sliceOrder s n dom
  let s := takeSlices s n c g.channel dom false (ks.take g.work)
  let s := takeSlices s n c g.channel dom true ((ks.drop g.work).take g.prefetch)
  grantPools s n c lead g
/-- The cells of a grant's range that take part in it. -/
def grantCells (s : State) (g : Grant) : List Nat :=
  ((List.range (g.last + 1 - g.first)).map fun k => g.first + k).filter (cellUsable s)
/-- Reserves every grant (R175). -/
def reserveAll (s : State) (c dom : Nat) (lead : Bool) (gs : List Grant) : State :=
  each gs (fun s g => each (grantCells s g) (fun s n => reserveAt s c dom lead g n) s) s
/-- Every cell has the slices that the grants ask for (R175). -/
def slicesFit (s : State) (gs : List Grant) : Bool :=
  ((gs.flatMap (grantCells s)).eraseDups).all fun n => decide (slicesWanted gs n ≤ (freeSlices s n).length)

/-! LOAD and RESTORE (R153-R162, R276, R346, R348, R361, R391). -/

/-- The results of context commands (R153). -/
abbrev resBadState : BitVec 8 := 0x02
/-- NO_HOME. -/
abbrev resNoHome : BitVec 8 := 0x03
/-- NO_GALLEY. -/
abbrev resNoGalley : BitVec 8 := 0x04
/-- BAD_CONFIG. -/
abbrev resBadConfig : BitVec 8 := 0x05
/-- RANGE. -/
abbrev resRange : BitVec 8 := 0x06
/-- IMAGE_CRC. -/
abbrev resImageCrc : BitVec 8 := 0x07
/-- IMAGE_MISMATCH. -/
abbrev resImageMismatch : BitVec 8 := 0x08
/-- NOT_IDLE. -/
abbrev resNotIdle : BitVec 8 := 0x09
/-- BAD_OP. -/
abbrev resBadOp : BitVec 8 := 0x0A
/-- A command ends with a result. -/
def endCmd (s : State) (c : Nat) (r : BitVec 8) : State := modRegs s c fun g => { g with cmd := .none, cmdResult := r }
/-- A command or CONFIG write is ignored (R150, R153). -/
def ignoreCmd (s : State) (c : Nat) : State := modRegs s c fun g => { g with cmdIgnored := true }
/-- The modes in which a class may be loaded (R348). -/
def classLoads (m : Mode) (cls : Nat) : Bool :=
  match m with
  | .run | .recovery => decide (cls = 0 ∨ cls = 1)
  | .test => decide (cls = 2)
  | .init => decide (cls = 3)
  | .detached => false
/-- The contexts that a cell homes (R14): every context that is not FREE or is being loaded. -/
def homedAt (s : State) (n : Nat) : List Nat :=
  (ctxNumbers s).filter fun c => homeOf s c == n && (decide (stateOf s c ≠ .free) || decide ((getCtx s c).regs.cmd = .load) || decide ((getCtx s c).regs.cmd = .restore))
/-- Steps 1 to 3 of R154. -/
def loadFault (s : State) (c : Nat) : Option (BitVec 8) :=
  let x := getCtx s c
  let cfg := x.regs.config
  let home := cfgHome cfg
  let k := field x.regs.queue 0 5
  let ring := (ringBase x).toNat
  let t := (getDom s (cfgDomain cfg)).current
  if cellCount ≤ home ∨ cfgHostport cfg = 3 ∨ 32 < cfgGrants cfg ∨ k = 0 ∨ 16 < k ∨ x.regs.galleyList.toNat % 32 ≠ 0 ∨
      (cfgDeadline cfg ∧ !cfgReach cfg (cellEast home)) ∨ !classLoads s.regs.mode (cfgClass cfg) then some resBadConfig
  else if !cellUsable s home ∨ cellEast home ≠ ctxEast c ∨ 32 ≤ (homedAt s home).length then some resNoHome
  else if !rangeGrants t ring (ring + 16 * 2 ^ k - 1) true false then some resRange
  else if cfgGrants cfg ≠ 0 ∧ !rangeGrants t x.regs.galleyList.toNat (x.regs.galleyList.toNat + 8 * cfgGrants cfg - 1) true false then some resRange
  else if cfgDeadline cfg ∧ !(servedByHome s c ring && servedByHome s c (ring + 16 * 2 ^ k - 1)) then some resRange
  else none
/-- Step 4 of R154: the fault of the grant list. -/
def grantFault (s : State) (c : Nat) (ws : List Word) : Option (BitVec 8) :=
  let gs := ws.map grantOf
  if !(ws.all (grantOk (isLead s c))) ∨ grantsClash gs then some resBadConfig
  else if !slicesFit s gs then some resNoGalley
  else none
/-- A context's resources after LOAD (R149), its registers and kept epoch aside (R155). -/
def freshCtx (x : Ctx) (gs : List Grant) : Ctx :=
  { regs := { x.regs with
      head := 0, tail := 0, fault := 0, faultKind := .issue, faultByInsn := true, rearm := false }
    epoch := x.epoch + 1, seed := x.regs.seed, grants := gs }
/-- The command ends with LOADED: at once, or when the last scrub is done (R157, R361). -/
def finishLoad (s : State) (c : Nat) : State :=
  let s := modRegs s c fun g => { g with state := .loaded, cmd := .none, cmdResult := 0 }
  countHalf s (ctxEast c) 0x48 1 (some c) (some (domOf s c))
/-- A context holds a slice that is being scrubbed. -/
def scrubPending (s : State) (c : Nat) : Bool :=
  s.cells.any fun p => p.2.slices.any fun q => q.2.scrubbing && (match q.2.owner with | some o => o.1 == c | none => false)
/-- Reserves the grants, sets the resources with `fill`, and waits for the scrubs if there are any. -/
def occupy (s : State) (c : Nat) (ws : List Word) (cmd : CtxCmd) (fill : State → State) : State :=
  let gs := ws.map grantOf
  let s := reserveAll s c (domOf s c) (isLead s c) gs
  let s := fill (modCtx s c fun x => freshCtx x gs)
  if scrubPending s c then modRegs s c fun g => { g with cmd := cmd } else finishLoad s c
/-- The domain of a context is locked against an agent (R346). -/
def lockedAgainst (s : State) (d : Nat) (a : Agent) : Bool := (getDom s d).lock && decide (a ≠ .key)
/-- A LOAD or RESTORE is accepted in a state: FREE with nothing executing, or asked for before and now due (R153, R391). -/
def loadDue (x : Ctx) (asked : CtxCmd) : Bool := decide (x.regs.state = .free) && (decide (x.regs.cmd = .none) || decide (x.regs.cmd = asked))
/-- A read of the grant list gives as many entries as CONFIG names. -/
def grantsRead (s : State) (c : Nat) (ws : List Word) : Bool := decide (ws.length = cfgGrants (configOf s c))

/-- LOAD (R154, R346, R348, R391): the operand `grants` is the grant list as read. Written while STOPPING it is kept for FREE. The domain's lock is
judged when the command is written. -/
def execLoad (c : Nat) (agent : Agent) (grants : List Word) (s : State) : Res :=
  need (decide (c < ctxCount)) .badOperand <|
  if windowDead s (ctxEast c) then .next s else
  let x := getCtx s c
  if x.regs.cmd ≠ .askedLoad agent ∧ lockedAgainst s (domOf s c) agent then .next (ignoreCmd s c)
  else if x.regs.state = .stopping ∧ !x.regs.rearm then .next (modRegs s c fun g => { g with rearm := true, cmd := .askedLoad agent })
  else if x.regs.cmd ≠ .askedLoad agent ∧ cmdBusy x then .next (ignoreCmd s c)
  else if x.regs.state ≠ .free then (if cmdBusy x ∧ x.regs.state = .stopping then .next (ignoreCmd s c) else .next (endCmd s c resBadState))
  else match loadFault s c with
  | some r => .next (endCmd (modRegs s c fun g => { g with rearm := false }) c r)
  | none =>
    need (grantsRead s c grants) .outOfTurn <|
    match grantFault s c grants with
    | some r => .next (endCmd (modRegs s c fun g => { g with rearm := false }) c r)
    | none => .next (occupy s c grants .load id)

/-! The context image (R159, R160, R162, R275-R276). -/

/-- The first 512 bytes of a context's image, its CRC taken as zero (R159, R275). -/
def imageHead (s : State) (c : Nat) : List Byte :=
  let x := getCtx s c
  let y := if x.sync.op = 0 then clearSync x.sync else x.sync
  let left := if x.listCount = 0 then 0 else (listEnd x - x.pc).toNat / 16
  let call (k : Nat) : Nat := (x.calls.getD k 0).toNat
  let rate (k : Nat) : Nat := let r := tabGet {} x.rates k; r.rate + place r.budget 9
  toBytes 8 x.regs.config.toNat ++ toBytes 8 x.pc.toNat ++ toBytes 8 x.regs.queue.toNat ++ toBytes 2 x.regs.head ++ toBytes 2 x.regs.tail ++
  toBytes 4 left ++ toBytes 8 x.seed.toNat ++ toBytes 4 x.epoch.toNat ++ toBytes 4 x.phase.toNat ++
  ((List.range 8).flatMap fun k => toBytes 4 (tabGet 0 x.loops k).toNat) ++ ((List.range 8).flatMap fun k => toBytes 8 (call k)) ++
  toBytes 1 x.calls.length ++ toBytes 1 2 ++ toBytes 14 0 ++ ((List.range 16).flatMap fun k => toBytes 8 (tabGet 0 x.profiles k).toNat) ++
  toBytes 2 y.enrolled.toNat ++ toBytes 2 (parityMask s c) ++ toBytes 1 y.op ++ toBytes 1 y.index ++ toBytes 2 0 ++ toBytes 8 y.addr.toNat ++
  toBytes 4 y.target.toNat ++ toBytes 4 y.last.toNat ++ toBytes 8 y.since.toNat ++ toBytes 32 0 ++
  ((List.range 16).flatMap fun k => toBytes 4 (rate k)) ++ toBytes 92 0 ++ toBytes 4 0
/-- A context's image (R159). -/
def contextImage (s : State) (c : Nat) : List Byte :=
  let slots := (List.range 64).flatMap fun k => slotRecord (tabGet {} (getCtx s c).slots k)
  let head := imageHead s c
  head.take 0x1FC ++ toBytes 4 (crc32c (head ++ slots)).toNat ++ slots
/-- A context's image lies in memory, and one range-table entry of its domain grants a permission over it (R54, R159, R162). -/
def imageAllowed (s : State) (c : Nat) (rd wr : Bool) : Bool :=
  let a := (getCtx s c).regs.imageAddr.toNat
  rangeGrants (getDom s (domOf s c)).current a (a + 8191) rd wr && bytesExist s a (a + 8191)
/-- SAVE (R159-R161): the image is written, the state stays. -/
def execSave (c : Nat) (s : State) : Res :=
  need (decide (c < ctxCount)) .badOperand <|
  if windowDead s (ctxEast c) then .next s else
  let x := getCtx s c
  if cmdBusy x then .next (ignoreCmd s c)
  else if x.regs.imageAddr.toNat % 32 ≠ 0 then .next (endCmd s c resBadConfig)
  else if !(decide (x.regs.state = .loaded) || decide (x.regs.state = .paused) || decide (x.regs.state = .halted)) then .next (endCmd s c resBadState)
  else if !imageAllowed s c false true then .next (endCmd s c resRange)
  else if !ctxIdle s c then .next (endCmd s c resNotIdle)
  else .next (endCmd { s with mem := memPutBytes s.mem x.regs.imageAddr.toNat (contextImage s c) } c 0)
/-- The checks of R162 on an image. -/
def imageFault (s : State) (c : Nat) (img : List Byte) : Option (BitVec 8) :=
  let cfg := configOf s c
  let old : Word := BitVec.ofNat 64 (bytesAt img 0 8)
  if (crc32c (img.take 0x1FC ++ toBytes 4 0 ++ img.drop 0x200)).toNat ≠ bytesAt img 0x1FC 4 then some resImageCrc
  else if bytesAt img 0x91 1 ≠ 2 ∨ cfgClass old ≠ cfgClass cfg ∨ cfgDomain old ≠ cfgDomain cfg ∨ cfgLead old ≠ cfgLead cfg then some resImageMismatch
  else none
/-- A slot of an image, a VALID one validated again (R77, R160). -/
def imageSlot (s : State) (c : Nat) (r : List Byte) : Slot :=
  let st := bytesAt r 0x13 1
  match (if st = 0 then none else parseForme (recordImage r)) with
  | none => if st = 0 then {} else { state := .stale }
  | some f => { state := if st = 1 ∧ (checkForme s c f).isNone then .valid else .stale, forme := f }
/-- A list of numbered entries as a table. -/
def tabOf (n : Nat) (f : Nat → α) : Tab α := (List.range n).map fun k => (k, f k)
/-- Sets a restored context from its image (R162); head and tail are taken as they stand there (log 86). Where the list in progress begins is not in the image: a free value (log
35). -/
def fillImage (img : List Byte) (c : Nat) (s : State) : State :=
  let pc : Word := BitVec.ofNat 64 (bytesAt img 8 8)
  let left := bytesAt img 0x1C 4
  let before := if left = 0 then 0 else (Config.freeWord s.fresh).toNat % (2 ^ 24 - left)
  let rate (k : Nat) : RateSet := { rate := bytesAt img (0x160 + 4 * k) 4 % 512, budget := bytesAt img (0x160 + 4 * k) 4 / 512 % 2 ^ 20 }
  let slots := (tabOf 64 fun k => imageSlot s c ((img.drop (0x200 + 120 * k)).take 120)).filter fun p => p.2 ≠ {}
  modCtx { s with fresh := s.fresh + 1 } c fun x => { x with
    pc := pc, listBase := pc - BitVec.ofNat 64 (16 * before), listCount := before + left
    seed := BitVec.ofNat 64 (bytesAt img 0x20 8), phase := BitVec.ofNat 32 (bytesAt img 0x2C 4)
    loops := tabOf 8 fun k => BitVec.ofNat 32 (bytesAt img (0x30 + 4 * k) 4)
    calls := (List.range (min 8 (bytesAt img 0x90 1))).map fun k => BitVec.ofNat 64 (bytesAt img (0x50 + 8 * k) 8)
    profiles := tabOf 16 fun k => BitVec.ofNat 64 (bytesAt img (0xA0 + 8 * k) 8)
    rates := tabOf 16 rate, slots := slots
    sync := { x.sync with
      op := bytesAt img 0x124 1, index := bytesAt img 0x125 1, addr := BitVec.ofNat 64 (bytesAt img 0x128 8)
      target := BitVec.ofNat 32 (bytesAt img 0x130 4), last := BitVec.ofNat 32 (bytesAt img 0x134 4), since := BitVec.ofNat 64 (bytesAt img 0x138 8) }
    regs := { x.regs with head := bytesAt img 0x18 2, tail := bytesAt img 0x1A 2 } }
/-- Enrols a restored context on the lines of its image that are ON and its domain's (R276). -/
def enrolImage (img : List Byte) (c : Nat) (s : State) : State :=
  let mask := bytesAt img 0x120 2
  let ok (n : Nat) : Bool := mask.testBit n && decide ((getLine s n).state = .on) && (getLine s n).domain == domOf s c
  each ((List.range lineCount).filter ok) (fun s n => enrol s n (.context c)) s
/-- RESTORE (R162, R276): the operands are the grant list and the image as read. The image is judged before the grant list (log 86). -/
def execRestore (c : Nat) (agent : Agent) (grants : List Word) (image : List Byte) (s : State) : Res :=
  need (decide (c < ctxCount)) .badOperand <|
  if windowDead s (ctxEast c) then .next s else
  let x := getCtx s c
  if x.regs.cmd ≠ .askedRestore agent ∧ lockedAgainst s (domOf s c) agent then .next (ignoreCmd s c)
  else if x.regs.cmd ≠ .askedRestore agent ∧ cmdBusy x then .next (ignoreCmd s c)
  else if x.regs.imageAddr.toNat % 32 ≠ 0 then .next (endCmd s c resBadConfig)
  else if x.regs.state ≠ .free then .next (endCmd s c resBadState)
  else match loadFault s c with
  | some r => .next (endCmd s c r)
  | none =>
    if !imageAllowed s c true false then .next (endCmd s c resRange)
    else
      need (grantsRead s c grants && decide (image.length = 8192)) .outOfTurn <|
      match imageFault s c image with
      | some r => .next (endCmd s c r)
      | none =>
        match grantFault s c grants with
        | some r => .next (endCmd s c r)
        | none => .next (occupy s c grants .restore fun s => enrolImage image c (fillImage image c s))

/-- GALLEY_SCRUB_DONE (R361): every slice of the context has been scrubbed, and its LOAD or RESTORE ends. -/
def execGalleyScrubDone (c : Nat) (s : State) : Res :=
  need (decide (c < ctxCount)) .badOperand <|
  need (decide ((getCtx s c).regs.cmd = .load) || decide ((getCtx s c).regs.cmd = .restore)) .outOfTurn <|
  let done (q : Nat × Slice) : Nat × Slice :=
    if (match q.2.owner with | some o => o.1 == c | none => false) then (q.1, { q.2 with scrubbing := false, lastDomain := some (domOf s c) }) else q
  .next (finishLoad { s with cells := s.cells.map fun p => (p.1, { p.2 with slices := p.2.slices.map done }) } c)

/-! Stopping (R158, R211, R212, R385-R387, R391). -/

/-- An instruction is late nowhere: neither recorded, nor reported, nor on its way to the Belfry (R211). -/
def neverLate (s : State) (insn : Nat) : State :=
  let other (l : Late) : Bool := decide (l.insn ≠ insn)
  let msg (m : Msg) : Msg := match m.body with | .overrun ls => { m with body := .overrun (ls.filter other) } | _ => m
  { forgetLate s insn with ctl := s.ctl.map msg, time := { s.time with lates := s.time.lates.filter other } }
/-- Drops an instruction, which is never late (R211). -/
def dropFlight (s : State) (f : Flight) : State :=
  let s := neverLate (giveUp s f) f.id
  countHalf (modRegs s f.job.ctx fun g => { g with lastDropped := g.lastDropped + 1 }) (ctxEast f.job.ctx) 0x49 1 (some f.job.ctx) (some f.job.domain)
/-- The instructions an abandon affects: issued under an older epoch and not complete (R211). -/
def affected (s : State) (c : Nat) : List Flight := (openFlights s c).filter fun f => f.job.epoch ≠ (getCtx s c).epoch && !f.skipped
/-- The outcome of an abandon once every report has arrived: begun instructions are kept and go on, the others are dropped
(R211). -/
def settleAbandon (s : State) (c : Nat) : State :=
  let fs := affected s c
  let keep (f : Flight) : Bool := f.kept || f.parts.any fun p => p.done && !p.skipped
  let s := each (fs.filter keep) (fun s f => modOrders s f.id fun o => { o with stopped := false }) s
  let s := each (fs.filter fun f => !keep f) dropFlight s
  let s := modCtx s c fun x => { x with wait := .none }
  wakeDrains (if stateOf s c = .stopping then s else retire s c)
/-- A context enters STOPPING: it leaves its Peal lines, its halted and parked orders are skipped, and the rest follows an
abandon (R158, R270, R387). -/
def enterStopping (s : State) (c : Nat) : State :=
  let s := resignAll (enterPaused s c) c
  let s := each ((heldFlights s c).filter fun f => f.stop.isSome) skipFlight s
  let s := modCtx s c fun x => { dropBursts x with
    tollHold := false, wait := .none, sync := {}, regs := { x.regs with state := .stopping, cmd := .none } }
  let cells := affectedCells s c
  let s := startAbandon s c
  if cells.isEmpty then s else modCtx s c fun x => { x with wait := .abandonReports cells }
/-- UNLOAD (R157, R158). -/
def execUnload (c : Nat) (s : State) : Res :=
  need (decide (c < ctxCount)) .badOperand <|
  if windowDead s (ctxEast c) then .next s else
  let x := getCtx s c
  if cmdBusy x then .next (ignoreCmd s c)
  else if x.regs.state = .loaded ∨ x.regs.state = .paused ∨ x.regs.state = .halted then .next (enterStopping s c)
  else .next (endCmd s c resBadState)
/-- Aborts a context from any state in which it works (R157, R387). -/
def abortCtx (s : State) (c : Nat) : State :=
  match stateOf s c with
  | .running | .waiting | .paused | .halted => enterStopping s c
  | _ => s
/-- ABORT (R157, R387). -/
def execAbort (c : Nat) (s : State) : Res :=
  need (decide (c < ctxCount)) .badOperand <|
  if windowDead s (ctxEast c) then .next s else
  let x := getCtx s c
  if cmdBusy x then .next (ignoreCmd s c)
  else match x.regs.state with
  | .running | .waiting | .paused | .halted => .next (enterStopping s c)
  | _ => .next (endCmd s c resBadState)
/-- Pauses a context (R385). -/
def pauseCtx (s : State) (c : Nat) : State :=
  let s := modRegs (enterPaused s c) c fun g => { g with cmd := .pause }
  settlePause (each (openFlights s c) (fun s f => pauseFlight s .context f) s) c
/-- PAUSE (R385). -/
def execPause (c : Nat) (s : State) : Res :=
  need (decide (c < ctxCount)) .badOperand <|
  if windowDead s (ctxEast c) then .next s else
  let x := getCtx s c
  if cmdBusy x then .next (ignoreCmd s c)
  else if x.regs.state = .running ∨ x.regs.state = .waiting then .next (pauseCtx s c)
  else .next (endCmd s c resBadState)
/-- Some channel holds a halted order of a context (R386). -/
def haltedOrders (s : State) (c : Nat) : Bool :=
  (heldFlights s c).any fun f => match f.stop.map Stop.reason with | some (.halt _) => true | _ => false
/-- RESUME (R386). -/
def execResume (c : Nat) (s : State) : Res :=
  need (decide (c < ctxCount)) .badOperand <|
  if windowDead s (ctxEast c) then .next s else
  let x := getCtx s c
  if cmdBusy x then .next (ignoreCmd s c)
  else if x.regs.state ≠ .paused ∨ haltedOrders s c then .next (endCmd s c resBadState)
  else
    let skips := x.regs.faultPc.getLsbD 0 && decide (x.regs.fault ≠ 0) && (decide (x.regs.faultKind = .issue) || decide (x.regs.faultKind = .sync)) && x.regs.faultByInsn
    let s := modCtx s c fun x => { x with
      bursts := x.bursts.filter fun b => b.bad.isNone
      regs := { x.regs with fault := 0, faultPc := x.regs.faultPc &&& ~~~(1 : Word), cmdResult := 0 } }
    let mine := (heldFlights s c).filter fun f => decide (f.stop.map Stop.reason = some .context)
    let s := each (mine.map Flight.id) unpark s
    let s := if skips then modCtx s c fun x => { x with pc := x.pc + 16, sync := clearSync x.sync } else s
    let s := settleList (modRegs s c fun g => { g with state := .running }) c
    if cfgDeadline (configOf s c) ∧ (getCtx s c).regs.state ≠ .paused then
      let y := getCtx s c
      .next (if y.wait = .none ∨ y.wait = .doorbell then modCtx (startWait s c .firstToll) c fun x => { x with tollHold := true }
        else modCtx s c fun x => { x with tollHold := true })
    else .next s
/-- BAD_OP (R153): a command number that R157 does not list. -/
def execBadOp (c : Nat) (op : Nat) (s : State) : Res :=
  need (decide (c < ctxCount) && !decide (1 ≤ op ∧ op ≤ 7)) .badOperand <|
  if windowDead s (ctxEast c) then .next s else
  .next (if cmdBusy (getCtx s c) then ignoreCmd s c else endCmd s c resBadOp)

/-- Everything a STOPPING context waits for has come about: reports, completions, reads, slugs, updates and credits
(R158). -/
def released (s : State) (c : Nat) : Bool :=
  decide ((getCtx s c).wait = .none) && (getCtx s c).fetches.isEmpty && (s.flights.all fun f => !(f.origin.isNone && f.job.ctx == c && !f.complete)) && (s.orders.all fun o => o.ctx != c) &&
  (s.accesses.all fun a => a.ctx != c) && (s.slugs.all fun g => g.ctx != c) && (s.chimes.all fun u => u.ctx != c) &&
  (s.ctl.all fun m => !(isPoll c m || isPollResult c m || isSubResult c m)) &&
  s.pools.all fun p => p.ctx != c || (decide (p.free = p.size) && decide (p.returning = 0))
/-- Gives back a context's slices and pools (R158, R175). -/
def freeHoldings (s : State) (c : Nat) : State :=
  let one (q : Nat × Slice) : Nat × Slice :=
    if (match q.2.owner with | some o => o.1 == c | none => false) then (q.1, { lastDomain := q.2.lastDomain }) else q
  { s with
    pools := s.pools.filter fun p => p.ctx != c
    flights := s.flights.filter fun f => !(f.origin.isNone && f.job.ctx == c)
    hostWrites := s.hostWrites.filter fun h => h.ctx != c
    distant := s.distant.filter fun d => d.ctx != c
    cells := s.cells.map fun p => (p.1, { p.2 with slices := p.2.slices.map one }) }
/-- What a FREE context keeps: its registers and its epoch (R155, R156). -/
def freedCtx (x : Ctx) : Ctx :=
  { regs := { x.regs with state := .free, cmd := x.regs.cmd, cmdResult := 0, fault := 0, faultKind := .issue, faultByInsn := true, head := 0, tail := 0 }
    epoch := x.epoch }
/-- CONTEXT_FREED (R158, R391): slices and home are given back and the context is FREE; a LOAD asked for meanwhile is due. -/
def execContextFreed (c : Nat) (s : State) : Res :=
  need (decide (c < ctxCount)) .badOperand <|
  need (decide (stateOf s c = .stopping) && released s c) .outOfTurn <|
  .next (modCtx (freeHoldings s c) c freedCtx)

/-! Doorbell and CONFIG (R150, R166, R346, R370, R441). -/

/-- A context leaves LOADED on its doorbell (R157, R370). -/
def startCtx (s : State) (c : Nat) : State :=
  let s := modRegs s c fun g => { g with state := .running }
  if cfgDeadline (configOf s c) then modCtx (startWait s c .firstToll) c fun x => { x with floorHold := true } else settleList s c
/-- DOORBELL (R157, R166, R441): it may also take back the entries that a context between two lists was to take next. -/
def execDoorbell (c : Nat) (value : Word) (s : State) : Res :=
  need (decide (c < ctxCount)) .badOperand <|
  if windowDead s (ctxEast c) then .next s else
  let x := getCtx s c
  let tail := field value 0 16
  if x.regs.state = .free ∨ x.regs.state = .stopping then .next s
  else if ringSize x ≤ tail then .next (modRegs s c fun g => { g with doorbellReject := true })
  else
    let s := modRegs s c fun g => { g with tail := tail }
    match x.regs.state with
    | .loaded => .next (if s.regs.mode = .recovery ∧ cfgClass (configOf s c) = 0 then s else startCtx s c)
    | .waiting => .next (if x.wait = .doorbell ∧ pendingEntries (getCtx s c) ≠ 0 then endWait s c else s)
    | .running => .next (if x.wait = .none ∧ betweenLists x ∧ pendingEntries (getCtx s c) = 0 then startWait s c .doorbell else s)
    | _ => .next s
/-- CTX_CONFIG_WRITE (R150, R346). -/
def execCtxConfigWrite (c : Nat) (agent : Agent) (value : Word) (s : State) : Res :=
  need (decide (c < ctxCount)) .badOperand <|
  if windowDead s (ctxEast c) then .next s else
  let x := getCtx s c
  if lockedAgainst s (domOf s c) agent ∨ lockedAgainst s (cfgDomain value) agent ∨ x.regs.state ≠ .free ∨ cmdBusy x then .next (ignoreCmd s c)
  else .next (modRegs s c fun g => { g with config := value &&& 0x7FFFFFFFFFFF })

/-! Abandon flits and reports (R211). -/

/-- An abandon flit for a context on its way to a cell. -/
def isAbandon (c cell : Nat) (m : Msg) : Bool := match m.body with | .abandon k _ => k == c && m.dst == cell | _ => false
/-- ABANDON_FLIT (R211): the cell stops every affected order that has not begun writing, and reports. -/
def execAbandonFlit (cell c : Nat) (s : State) : Res :=
  need (decide (c < ctxCount) && decide (cell < cellCount)) .badOperand <|
  needSome (findMsg s (isAbandon c cell)) .noSubject fun m =>
  let here := (affected s c).filter fun f => (getOrder s f.id cell).isSome
  need (here.all fun f => match getOrder s f.id cell with | some o => decide (o.place ≠ .sent) | none => true) .outOfTurn <|
  let begun := (here.filter fun f => match getOrder s f.id cell with | some o => o.begun | none => false).map Flight.id
  let s := each (here.filter fun f => !begun.contains f.id) (fun s f => modOrder s f.id cell fun o => { o with stopped := true }) (dropMsg s m)
  match m.body with
  | .abandon _ epoch => .next (send s 1 cell m.src (.abandonReport c epoch begun))
  | _ => .fault .noSubject
/-- A report of a cell on its way to a context's home. -/
def isAbandonReport (c cell : Nat) (m : Msg) : Bool := match m.body with | .abandonReport k _ _ => k == c && m.src == cell | _ => false
/-- ABANDON_REPORT (R211): with the last report the outcome is settled; the report of an
earlier abandon has no say. -/
def execAbandonReport (cell c : Nat) (s : State) : Res :=
  need (decide (c < ctxCount) && decide (cell < cellCount)) .badOperand <|
  needSome (findMsg s (isAbandonReport c cell)) .noSubject fun m =>
  match m.body, (getCtx s c).wait with
  | .abandonReport _ epoch begun, .abandonReports cells =>
    if epoch ≠ (getCtx s c).epoch then .next (dropMsg s m) else
    let s := each begun (fun s i => modFlight s i fun f => { f with kept := true }) (dropMsg s m)
    let rest := cells.filter fun n => n ≠ cell
    .next (if rest.isEmpty then settleAbandon s c else modCtx s c fun x => { x with wait := .abandonReports rest })
  | .abandonReport _ _ _, _ => .next (dropMsg s m)
  | _, _ => .fault .noSubject

end Sys2Proof.Machine
end

