-- ==== Sys2Proof/Machine/Channels.lean ====
section
/-!
DEFINITION. Resolving halts and pausing channels; the stoppable functions: channels, cells and Peal lines; retirement and the
health of cells (R272, R273, R382, R389-R397).
-/

namespace Sys2Proof.Machine

/-- The register block of a cell ignores writes: its cluster is disabled by fuse, it is a retired C-cell, or its Belfry has
failed (R397, R448, R454). -/
def blockDead (s : State) (n : Nat) : Bool := fusedOff s n || eastLost s n || (decide (roleOf n = .c) && cellRetired s n)
/-- A channel command is ignored (R382). -/
def ignoreChannel (s : State) (cell ch : Nat) : State := modChan s cell ch fun c => { c with cmdIgnored := true }
/-- A channel row on a cell and channel that exist; on a block that ignores writes it changes nothing. -/
def channelRow (cell ch : Nat) (s : State) (k : State) : Res :=
  need (decide (cell < cellCount) && decide (ch < channelCount)) .badOperand <| .next (if blockDead s cell then s else k)
/-- The orders a channel holds at a cell. -/
def heldOrders (s : State) (cell ch : Nat) : List Order :=
  s.orders.filter fun o => o.cell == cell && o.ch == ch && decide (o.place ≠ .sent ∧ o.place ≠ .left)
/-- The instructions that a channel PAUSE has parked here; another cell's channel may have been paused for them too (R382). -/
def channelPaused (s : State) (cell ch : Nat) : List Nat :=
  ((heldOrders s cell ch).filterMap fun o => getFlight s o.insn).filterMap fun f =>
    match f.stop.map Stop.reason with
    | some (.channel _) => some f.id
    | _ => none
/-- The instruction halted on a channel, where this is the halting cell (R381). -/
def haltedHere (s : State) (cell ch : Nat) : Option Nat :=
  (getChan s cell ch).haltedInsn.bind fun i => (getFlight s i).bind fun f =>
    if stopAt f = some (.halt cell) then some i else none
/-- RESUME and SKIP are allowed: `HALTED` at the halting cell, or `PAUSED` (R382). -/
def resolvable (s : State) (cell ch : Nat) : Bool :=
  let c := getChan s cell ch
  if c.halted then (haltedHere s cell ch).isSome else c.paused
/-- What RESUME and SKIP work on: the halted instruction first, then those parked by the PAUSE. -/
def resolved (s : State) (cell ch : Nat) : List Nat := (haltedHere s cell ch).toList ++ channelPaused s cell ch
/-- The channel is no longer paused (R382). -/
def endPause (s : State) (cell ch : Nat) : State := modChan s cell ch fun c => { c with paused := false, pausing := false }

/-- CHANNEL_PAUSE (R382): every order the channel holds parks at its progress point. -/
def execChannelPause (cell ch : Nat) (s : State) : Res :=
  let c := getChan s cell ch
  channelRow cell ch s <|
    if c.state ≠ .on ∨ c.halted then ignoreChannel s cell ch
    else
      let fs := (heldOrders s cell ch).filterMap fun o => getFlight s o.insn
      let s := modChan s cell ch fun c => { c with pausing := !c.paused }
      settleChannel (each fs (fun s f => pauseFlight s (.channel cell) f) s) cell ch
/-- CHANNEL_RESUME (R382): the halted order repeats its failing access and goes on; orders parked by the PAUSE go on. -/
def execChannelResume (cell ch : Nat) (s : State) : Res :=
  channelRow cell ch s <|
    if !resolvable s cell ch then ignoreChannel s cell ch
    else each (resolved s cell ch) unpark (endPause s cell ch)
/-- CHANNEL_SKIP (R382, R383). -/
def execChannelSkip (cell ch : Nat) (s : State) : Res :=
  channelRow cell ch s <|
    if !resolvable s cell ch then ignoreChannel s cell ch
    else
      let fs := (resolved s cell ch).filterMap (getFlight s)
      wakeDrains (each fs skipFlight (endPause s cell ch))
/-- CHANNEL_ABORT (R382, R387). -/
def execChannelAbort (cell ch : Nat) (s : State) : Res :=
  channelRow cell ch s <|
    match (if (getChan s cell ch).halted then haltedHere s cell ch else none).bind (getFlight s) with
    | some f => abortCtx s f.job.ctx
    | none => ignoreChannel s cell ch

/-! Stopping and starting channels (R390, R392). -/

/-- Ends an order's instruction because its channel has stopped (R392). -/
def endStopped (s : State) (cell ch insn : Nat) : State :=
  match getFlight s insn with
  | some f =>
    raise (skipFlight s f) f.job.ctx { code := INTERNAL, kind := .chip, pc := f.job.pc, ch := some ch, cell := some cell }
  | none => s
/-- A channel enters STOPPING: each order it holds ends as skipped, its context latching INTERNAL (R392). -/
def stopChannel (s : State) (cell ch : Nat) : State :=
  if (getChan s cell ch).state ≠ .on then s
  else
    let held := ((heldOrders s cell ch).map Order.insn ++ (haltedHere s cell ch).toList).eraseDups
    each held (fun s i => endStopped s cell ch i) (modChan s cell ch fun c => { c with state := .stopping, pausing := false })
/-- What is left of a channel at OFF: its priority, `ENABLE` and the rearm request (R392). -/
def offChan (c : Chan) : Chan :=
  { prio := c.prio, enable := c.enable, state := .off, rearm := c.rearm, cmdIgnored := c.cmdIgnored }
/-- A channel turns ON. -/
def startChan (c : Chan) : Chan := { c with state := .on, rearm := false }
/-- Whether setting `ENABLE` turns a function ON now (R390). -/
def startsNow (p : Power) (rearm : Bool) : Bool := decide (p = .off) && !rearm
/-- CHANNEL_ENABLE (R390): ON from OFF, where the cell is ON; kept during STOPPING. -/
def execChannelEnable (cell ch : Nat) (s : State) : Res :=
  let c := getChan s cell ch
  channelRow cell ch s <| modChan s cell ch fun c' =>
    let c' := { c' with enable := true }
    if c.state = .stopping then { c' with rearm := true }
    else if startsNow c.state c.rearm && cellOn s cell then startChan c' else c'
/-- CHANNEL_DISABLE (R390, R392). -/
def execChannelDisable (cell ch : Nat) (s : State) : Res :=
  let c := getChan s cell ch
  channelRow cell ch s <|
    let s := modChan s cell ch fun c => { c with enable := false, rearm := false }
    if c.state = .on then wakeDrains (stopChannel s cell ch) else s
/-- CHANNEL_STOPPED (R390, R392): OFF, cleared. -/
def execChannelStopped (cell ch : Nat) (s : State) : Res :=
  need (decide (cell < cellCount) && decide (ch < channelCount)) .badOperand <|
  need (decide ((getChan s cell ch).state = .stopping) && (heldOrders s cell ch).isEmpty) .outOfTurn <|
  .next (modChan s cell ch offChan)

/-! Stopping and starting cells (R390, R393). -/

/-- A LOAD or RESTORE that still waits for its scrub ends, its home being gone (R154, R393). -/
def endLoading (s : State) (c : Nat) : State :=
  let x := (getCtx s c).regs
  if x.cmd = .load ∨ x.cmd = .restore then endCmd (freeHoldings (resignAll s c) c) c resNoHome else s
/-- Aborts a context homed on a cell that stops (R393). -/
def abortHomed (s : State) (c : Nat) : State :=
  match stateOf s c with
  | .free => endLoading s c
  | .stopping => s
  | _ => enterStopping s c
/-- The work for other chips that a stopping cell takes part in ends, and they are told (R328, R393). -/
def endForeign (s : State) (cell : Nat) : State :=
  let fs := s.flights.filter fun f => (getOrder s f.id cell).isSome
  each fs (fun s f => match f.origin with
    | some (chip, k) => removeFlight (queueReport s chip f.job.domain f.job.ctx f.job.epoch (.refusal (some k) INTERNAL true f.job.pc)) f.id
    | none => s) s
/-- The chips whose windows a cell holds. -/
def windowsOf (s : State) (cell : Nat) : List Nat := (s.windows.filter fun p => p.2.cell == cell).map Prod.fst
/-- A cell enters STOPPING (R393). -/
def stopCell (s : State) (n : Nat) : State :=
  if (getCell s n).state ≠ .on then s
  else
    let s := modCell s n fun x => { x with state := .stopping }
    let s := each (List.range channelCount) (fun s ch => stopChannel s n ch) s
    let s := each (homedAt s n) abortHomed s
    let s := if roleOf n = .l then each (windowsOf s n) retireWindow (linkFails s n) else s
    wakeDrains (endForeign s n)
/-- A cell is cleared at OFF: its channels, its arbitration and what it had recorded of its work (R390). -/
def offCell (x : Cell) : Cell :=
  { x with
    state := .off, chans := (List.range channelCount).map fun k => (k, offChan (tabGet (chanReset k) x.chans k))
    arb := {}, decode := none, guardList := [] }
/-- A cell turns ON fresh, with every channel that is enabled. -/
def startCell (x : Cell) : Cell :=
  { x with
    state := .on, rearm := false
    chans := x.chans.map fun q => (q.1, if q.2.enable then startChan q.2 else q.2) }
/-- A cell row on a cell that exists. -/
def cellRow (n : Nat) (s : State) (k : State) : Res :=
  need (decide (n < cellCount)) .badOperand <| .next (if blockDead s n then s else k)
/-- CELL_ENABLE (R390, R396). -/
def execCellEnable (cell : Nat) (s : State) : Res :=
  let x := getCell s cell
  cellRow cell s <|
    if x.retired then s
    else modCell s cell fun y =>
      let y := { y with enable := true }
      if x.state = .stopping then { y with rearm := true }
      else if startsNow x.state x.rearm then startCell y else y
/-- CELL_DISABLE (R390, R393). -/
def execCellDisable (cell : Nat) (s : State) : Res :=
  cellRow cell s <| stopCell (modCell s cell fun x => { x with enable := false, rearm := false }) cell
/-- Nothing keeps a stopping cell from OFF: no order at it, no context homed on it that is still stopping. -/
def cellQuiet (s : State) (n : Nat) : Bool :=
  (s.orders.all fun o => o.cell ≠ n || decide (o.place = .sent ∨ o.place = .left)) && (homedAt s n).isEmpty
/-- CELL_STOPPED (R390). -/
def execCellStopped (cell : Nat) (s : State) : Res :=
  need (decide (cell < cellCount)) .badOperand <|
  need (decide ((getCell s cell).state = .stopping) && cellQuiet s cell) .outOfTurn <|
  .next (modCell s cell offCell)

/-! Retirement and health (R394-R398). -/

/-- A slot made STALE where a test holds. -/
def staleIf (p : Forme → Bool) (q : Nat × Slot) : Nat × Slot :=
  if q.2.state = .valid ∧ p q.2.forme then (q.1, { q.2 with state := .stale }) else q
/-- Every VALID slot that addresses what a cell serves becomes STALE (R76, R396). -/
def staleServed (s : State) (n : Nat) : State :=
  let one (x : Ctx) : Ctx :=
    let cfg := x.regs.config
    if x.regs.state = .free ∧ x.regs.cmd = .none then x
    else { x with slots := x.slots.map (staleIf fun f => (hullCells s (cfgHome cfg) (cfgHostCell cfg) f).contains n) }
  { s with ctxs := s.ctxs.map fun p => (p.1, one p.2) }
/-- The cores of a retired C-cell are disabled and leave every Peal line (R397). -/
def disableCores (s : State) (n : Nat) : State :=
  let cores := coresOfCell n
  let mask : BitVec 4608 := cores.foldl (fun m k => m ||| (1#4608 <<< k)) 0
  let s := { s with regs := { s.regs with good := s.regs.good &&& ~~~mask } }
  each cores (fun s k => each (List.range lineCount) (fun s l => resign s l (.core k)) s) s
/-- Retires a cell (R396, R397). -/
def retireCell (s : State) (n : Nat) : State :=
  let s := staleServed s n
  let s := modCell s n fun x => { x with enable := false, rearm := false, retired := true }
  let s := stopCell s n
  let s := if roleOf n = .c then disableCores s n else if roleOf n = .l then linkFails s n else s
  logEvent s (cellEast n) { kind := 9, cell := some n }
/-- RETIRE (R396): ignored outside RUN, RECOVERY and TEST. -/
def execRetire (cell : Nat) (s : State) : Res :=
  cellRow cell s <|
    if (s.regs.mode = .run ∨ s.regs.mode = .recovery ∨ s.regs.mode = .test) ∧ !cellRetired s cell then retireCell s cell else s
/-- DEGRADED_CLEAR (R395): a write-one-to-clear field, which a retired C-cell's block still takes (R397). -/
def execDegradedClear (cell : Nat) (s : State) : Res :=
  need (decide (cell < cellCount)) .badOperand <|
  .next (if fusedOff s cell || eastLost s cell then s else modCell s cell fun x => { x with degraded := false, events := [] })
/-- HEALTH_CONFIG_WRITE (R395): a field written 0 keeps its value; every cell's history clears. -/
def execHealthConfigWrite (value : Word) (s : State) : Res :=
  if windowDead s false then .next s else
  let w := field value 0 24
  let t := field value 24 5
  let s := { s with regs := { s.regs with
    window := if w = 0 then s.regs.window else w, threshold := if t = 0 then s.regs.threshold else t } }
  .next { s with cells := s.cells.map fun p => (p.1, { p.2 with events := [] }) }
/-- The Tolls that the health window counts at a cell: Tolls, or 50,000 ns intervals while the Toll is stopped (R395). -/
def recentEvents (s : State) (x : Cell) : List Nat := x.events.filter fun t => decide (x.healthTolls < t + s.regs.window)
/-- Marks a cell DEGRADED, with one entry in the fault log on entering (R395, R398). -/
def markDegraded (s : State) (n : Nat) : State :=
  if (getCell s n).degraded then s
  else logEvent (modCell s n fun x => { x with degraded := true }) (cellEast n) { kind := 8, cell := some n }
/-- A correctable event joins a cell's history, which may mark it DEGRADED (R394, R395). -/
def addEvent (s : State) (n : Nat) : State :=
  let s := modCell s n fun x => { x with events := (recentEvents s x ++ [x.healthTolls]) }
  if s.regs.threshold ≤ (getCell s n).events.length then markDegraded s n else s

/-! Peal lines (R272, R273, R390). -/

/-- A line turns ON with `ROUND` 0 (R272); an invalid `PARENT` makes that fail (BELFRY.PEALn.TREE). -/
def startLine (l : Line) : Line :=
  if 16 ≤ l.parent ∧ l.parent ≠ 0x1F then { l with rearm := false } else { l with state := .on, rearm := false, round := 0 }
/-- PEAL_ENABLE (R272, R273, R390). -/
def execPealEnable (line : Nat) (s : State) : Res :=
  need (decide (line < lineCount)) .badOperand <|
  if windowDead s false then .next s else
  let enable (l : Line) : Line :=
    let m := { l with enable := true }
    match l.state with
    | .off => if l.rearm then m else startLine m
    | .stopping => { m with rearm := true }
    | .on | .failed => m
  let s' := modLine s line enable
  .next (if (getLine s line).state = .off then settleRound s' line else s')
/-- A line enters STOPPING (R273). -/
def stopLine (s : State) (n : Nat) : State :=
  match (getLine s n).state with
  | .on | .failed => clearParties (faultWaiters (modLine s n fun l => { l with state := .stopping }) n PEAL_NOT_ENROLLED) n
  | _ => s
/-- PEAL_DISABLE (R273, R390). -/
def execPealDisable (line : Nat) (s : State) : Res :=
  need (decide (line < lineCount)) .badOperand <|
  if windowDead s false then .next s else
  .next (stopLine (modLine s line fun l => { l with enable := false, rearm := false }) line)
/-- PEAL_LINE_STOPPED (R273, R390): OFF, cleared. -/
def execPealLineStopped (line : Nat) (s : State) : Res :=
  need (decide (line < lineCount)) .badOperand <|
  need (decide ((getLine s line).state = .stopping)) .outOfTurn <|
  .next (modLine (clearParties s line) line fun l => { l with state := .off, round := 0 })

end Sys2Proof.Machine
end

