-- ==== Sys2Proof/Machine/Domains.lean ====
section
/-!
DEFINITION. Range tables, locks and key slots: committing, releasing, and the commands of the key port (R76, R341-R350, R357,
R433).
-/

namespace Sys2Proof.Machine

/-- The entry a table has at an index. -/
def rangeEntry (t : Tab Range) (e : Nat) : Range := tabGet {} t e
/-- The last byte an entry covers (R342). -/
def rangeEnd (r : Range) : Nat := r.last.toNat + 31
/-- A VALID entry that R343 refuses. -/
def rangeBad (r : Range) : Bool :=
  r.valid && (decide (r.last.toNat < r.base.toNat) || decide (field r.base 48 16 ≠ field r.last 48 16))
/-- Two VALID entries share a byte (R344). -/
def rangesMeet (a b : Range) : Bool :=
  a.valid && b.valid && decide (a.base.toNat ≤ rangeEnd b) && decide (b.base.toNat ≤ rangeEnd a)
/-- A staged table breaks the exclusion of R344 against another domain's current table. -/
def exclusionBroken (staged other : Tab Range) : Bool :=
  staged.any fun a => other.any fun b => rangesMeet a.2 b.2 && (a.2.excl || b.2.excl)
/-- An entry narrows access (R345). -/
def entryNarrows (old new : Range) : Bool :=
  old.valid && (!new.valid || decide (old.base.toNat < new.base.toNat) || decide (rangeEnd new < rangeEnd old) ||
    (old.rd && !new.rd) || (old.wr && !new.wr))
/-- An update narrows access (R345). -/
def tableNarrows (old new : Tab Range) : Bool := old.any fun e => entryNarrows e.2 (rangeEntry new e.1)
/-- A domain's register refuses, with its cause (R343-R350). -/
def rejectDom (s : State) (d cause : Nat) : State := modDom s d fun x => { x with reject := true, rejectCause := cause }
/-- Every VALID slot of every context of a domain becomes STALE (R76). -/
def staleDomain (s : State) (d : Nat) : State :=
  let one (x : Ctx) : Ctx := if cfgDomain x.regs.config = d then { x with slots := x.slots.map (staleIf fun _ => true) } else x
  { s with ctxs := s.ctxs.map fun p => (p.1, one p.2) }
/-- COMMIT (R343-R346): the staged table becomes current, or the commit is refused. -/
def execCommit (d : Nat) (agent : Agent) (s : State) : Res :=
  need (decide (d < domainCount)) .badOperand <|
  if windowDead s false then .next s else
  let x := getDom s d
  if lockedAgainst s d agent then .next (rejectDom s d 3)
  else if x.staged.any fun e => rangeBad e.2 then .next (rejectDom s d 1)
  else if s.domains.any fun p => p.1 ≠ d && exclusionBroken x.staged p.2.current then .next (rejectDom s d 2)
  else
    let s' := modDom (countHalf (countHalf s false 0x47 1 none none) true 0x47 1 none none) d fun x => { x with current := x.staged }
    .next (if tableNarrows x.current x.staged then staleDomain s' d else s')
/-- Every context of a domain is FREE (R350, R357). -/
def domainFree (s : State) (d : Nat) : Bool := (domainContexts s d).isEmpty
/-- What a release leaves of a domain (R350). -/
def releasedDom (x : Domain) : Domain := { keyGen := x.keyGen, reject := x.reject, rejectCause := x.rejectCause }
/-- RELEASE (R346, R350). -/
def execRelease (d : Nat) (agent : Agent) (s : State) : Res :=
  need (decide (d < domainCount)) .badOperand <|
  if windowDead s false then .next s else
  if lockedAgainst s d agent then .next (rejectDom s d 3)
  else if !domainFree s d then .next (rejectDom s d 4)
  else .next (modDom s d releasedDom)

/-! The key port (R433). -/

/-- A key-port command: a frame whose CRC or layout is wrong, or that names no domain, is refused with cause 1; a West Belfry that has failed
takes none (R433, R454). -/
def keyRow (d : Nat) (frameOk : Bool) (s : State) (k : State → Res) : Res :=
  if windowDead s false then .next s
  else if frameOk && decide (d < domainCount) then k s else .next (emit s (.keyAnswer true 1))
/-- The answer DONE. -/
def keyDone (s : State) : Res := .next (emit s (.keyAnswer false 0))
/-- Zeroises a domain's key slot (R350). -/
def zeroiseDom (s : State) (d : Nat) : State := modDom s d fun x => { x with key := none }
/-- Zeroises every key slot (R350). -/
def zeroiseKeys (s : State) : State := { s with domains := s.domains.map fun p => (p.1, { p.2 with key := none }) }
/-- LOAD_KEY (R349, R357). -/
def execLoadKey (d : Nat) (key : BitVec 256) (frameOk : Bool) (s : State) : Res :=
  keyRow d frameOk s fun s => keyDone (modDom s d fun x => { x with key := some key, keyGen := x.keyGen + 1, sealGen := 0 })
/-- ZEROISE (R350). -/
def execZeroise (d : Nat) (frameOk : Bool) (s : State) : Res := keyRow d frameOk s fun s => keyDone (zeroiseDom s d)
/-- LOCK (R346). -/
def execLock (d : Nat) (frameOk : Bool) (s : State) : Res :=
  keyRow d frameOk s fun s => keyDone (modDom s d fun x => { x with lock := true })
/-- UNLOCK (R346). -/
def execUnlock (d : Nat) (frameOk : Bool) (s : State) : Res :=
  keyRow d frameOk s fun s => keyDone (modDom s d fun x => { x with lock := false })
/-- RELEASE of the key port (R350): refused with cause 3, and `REJECT_CAUSE` 4, unless every context of the domain is FREE. -/
def execKeyRelease (d : Nat) (frameOk : Bool) (s : State) : Res :=
  keyRow d frameOk s fun s =>
    if !domainFree s d then .next (emit (rejectDom s d 4) (.keyAnswer true 3)) else keyDone (modDom s d releasedDom)
/-- ZEROISE_ALL (R433). -/
def execZeroiseAll (frameOk : Bool) (s : State) : Res := keyRow 0 frameOk s fun s => keyDone (zeroiseKeys s)
/-- TAMPER (R350, R433): locks and tables stay as they were. -/
def execTamper (s : State) : Res := .next (zeroiseKeys s)

end Sys2Proof.Machine
end

