-- ==== Sys2Proof/Machine/Registers.lean ====
section
/-!
DEFINITION. Reading the engine's registers by offset (R448-R467), the latches of R452.
-/

namespace Sys2Proof.Machine

/-- A counter's register word: COUNT and OVF. -/
def counterWord (count : Nat) (ovf : Bool) : Nat := count + place (flag ovf) 63

/-- The registers of an event counter: its selector, count or snapshot. -/
def counterRead (cs : Tab Counter) (bank k : Nat) : Nat :=
  let x := tabGet {} cs k
  match bank with
  | 0 => x.select.toNat
  | 1 => counterWord x.count x.ovf
  | _ => counterWord x.snap x.snapOvf

/-- BELFRY.DIST's 32-bit entry at an index (R25). -/
def distEntry (s : State) (i : Nat) : Nat :=
  let a := i / cellCount
  let b := i % cellCount
  if a < cellCount ∧ cellMapped s a ∧ cellMapped s b then
    hops a b + place (ctlHops a b) 8 + place (flag (crossesSeam a b)) 16 + place 1 31
  else 0

/-- A context block's registers (R150-R152, R213, R458). -/
def ctxRead (s : State) (c reg : Nat) : Nat :=
  let x := getCtx s c
  match reg with
  | 0x00 => x.regs.config.toNat
  | 0x08 => x.regs.queue.toNat
  | 0x10 => x.regs.galleyList.toNat
  | 0x18 => x.regs.imageAddr.toNat
  | 0x30 => ctxStatus s c
  | 0x40 => x.regs.lastDropped + place x.epoch.toNat 32
  | 0x48 => x.regs.faultPc.toNat
  | _ => 0

/-- A domain block's registers; RANGE reads the staged table (R341, R342, R357). -/
def domRead (s : State) (d reg : Nat) : Nat :=
  let x := getDom s d
  if reg < 0x400 then
    let e := tabGet {} x.staged (reg / 16)
    if reg % 16 = 0 then e.base.toNat
    else if reg % 16 = 8 then flag e.rd + place (flag e.wr) 1 + place (flag e.excl) 2 + place (flag e.valid) 3 + e.last.toNat
    else 0
  else match reg with
    | 0x400 => domCtrl x
    | 0x408 => x.dumpAddr.toNat
    | 0x410 => x.sealBase.toNat
    | 0x418 => x.sealBlocks
    | 0x420 => x.tagBase.toNat
    | 0x428 => x.sealGen
    | _ => 0

/-- The registers of a Belfry window's first 16 KiB (R457). -/
def belfryRead (s : State) (east : Bool) (off : Nat) : Nat :=
  let h := getHalf s east
  let r := s.regs
  if 0x100 ≤ off ∧ off < 0x1C0 ∧ off % 8 = 0 then counterRead h.counters ((off - 0x100) / 0x40) ((off - 0x100) % 0x40 / 8)
  else if 0x200 ≤ off ∧ off < 0x400 ∧ off % 8 = 0 then
    let n := (off - 0x200) / 0x20
    let l := getLine s n
    match (off - 0x200) % 0x20 with
    | 0x00 => pealConfig l
    | 0x08 => if 8 ≤ n then pealTree l else 0
    | 0x10 => pealStatus l
    | _ => pealStalls l
  else if 0x2000 ≤ off ∧ off < 0x4000 ∧ off % 8 = 0 then
    (((tabGet [] h.flog.ring ((off - 0x2000) / 0x20)).getD ((off - 0x2000) % 0x20 / 8) 0) : Word).toNat
  else match off with
    | 0x00 => modeWord r
    | 0x08 => r.chipId + place (flag r.master) 14 + place (flag r.standalone) 15 + place r.nextInc.toNat 16 + place r.attachMs 32 + place r.detachUs 48
    | 0x10 => flag r.fuseOk + place (flag r.mbistDone) 1 + place r.mbistFails 2 + place r.initUs.toNat 32
    | 0x18 => r.grade + place (goodCount r.good) 16 + place ((List.range 288).filter (cellMapped s)).length 32
    | 0x20 => s.time.pendingPeriod.getD s.time.periodUs
    | 0x28 => tollStatus s.time
    | 0x30 => if east then s.east.tollCount else s.time.count
    | 0x38 => s.time.base.toNat
    | 0x40 => (timeAt s (cellCount + flag east)).toNat
    | 0x48 => r.waitLimit + place (flag r.cueGate) 8
    | 0x50 => r.waitUs + place r.pealUs 32
    | 0x58 => r.lendUs + place (flag (deadlineActive s false)) 8 + place (flag (deadlineActive s true)) 9
    | 0x60 => r.window + place r.threshold 24
    | 0x68 => r.ackUs + place r.lostUs 16 + place r.idleUs 32 + place r.incarnation.toNat 48
    | 0x70 => flag r.routeReject + place r.openRefused 16 + place s.windows.length 32
    | 0x80 => flag s.instr.dump.isSome + place (flag (!s.instr.merged.isEmpty)) 1 + place s.instr.dropped 16 + place (s.instr.dumpSeq % 2 ^ 32) 32
    | 0x90 => s.instr.damperAt.toNat
    | 0x98 => s.instr.damperLast.toNat
    | 0xA0 => flag s.instr.frozen + place (flag s.instr.damper.isSome) 1
    | 0xA8 => h.daysMin + place h.usedMax 16 + place (flag h.alarm) 32 + place h.alarmCell 33
    | 0xB0 => h.flog.count.toNat
    | 0xB8 => flag h.seesWestFailed + place (flag h.seesEastFailed) 1
    | _ => 0

/-- A class C register of a window's first 16 KiB, whose mirror keeps its last value: every one but `MODE`, `REF_TIME` and
`TOLL_COUNT` (R453, R454, R457; log 145). -/
def isMirror (off : Nat) : Bool :=
  (decide (0x08 ≤ off ∧ off < 0xA8) && off ≠ 0x18 && off ≠ 0x30 && off ≠ 0x40) || decide (0x200 ≤ off ∧ off < 0x400)
/-- The class C mirrors as they stand (R454). -/
def mirrorNow (s : State) : Mirror :=
  { words := ((List.range 0x400).filter fun o => isMirror o && o % 8 == 0).map fun o => (o, BitVec.ofNat 64 (belfryRead s true o))
    routes := s.routes }
/-- The state that a route entry of a window is read from (R454). -/
def routesSeen (s : State) (east : Bool) : State :=
  match s.mirror with
  | some m => if east then { s with routes := m.routes } else s
  | none => s
/-- A register of a window's first 16 KiB: the East window's mirrors keep their last values once the West Belfry has failed
(R454). -/
def windowWord (s : State) (east : Bool) (off : Nat) : Nat :=
  match s.mirror with
  | some m => if east && isMirror off then (tabGet 0 m.words off).toNat else belfryRead s east off
  | none => belfryRead s east off

/-- A Belfry window's registers (R457, R458); a failed Belfry's window reads zero (R454). -/
def windowRead (s : State) (east : Bool) (off : Nat) : Nat :=
  if windowDead s east then 0
  else if off < 0x4000 then windowWord s east off
  else if 0x100000 ≤ off ∧ off < 0x110000 then ctxRead s ((off - 0x100000) / 0x80 + 512 * flag east) (off % 0x80)
  else if 0x200000 ≤ off ∧ off < 0x280000 then domRead s ((off - 0x200000) / 0x800) (off % 0x800)
  else if 0x300000 ≤ off ∧ off < 0x320000 ∧ off % 8 = 0 then
    let e := getRoute (routesSeen s east) ((off - 0x300000) / 8)
    e.bits.toNat + place (flag e.useAlt) 18 + place (peerCode e.peer) 19
  else if 0x400000 ≤ off ∧ off < 0x47A610 then
    distEntry s ((off - 0x400000) / 4) + place (if off + 4 < 0x47A610 then distEntry s ((off - 0x400000) / 4 + 1) else 0) 32
  else if 0x480000 ≤ off ∧ off < 0x480240 ∧ off % 8 = 0 then fieldOf s.regs.good.toNat (64 * ((off - 0x480000) / 8)) 64
  else 0

/-- A channel's registers (R381, R466, R467). -/
def chanRead (s : State) (n ch reg : Nat) : Nat :=
  let x := getChan s n ch
  match reg with
  | 0x00 => x.prio
  | 0x08 => chanStatus s n ch
  | 0x10 => chanCtrl x
  | 0x20 => x.faultAddr.toNat
  | 0x28 => x.faultPc.toNat
  | 0x30 => x.progress.toNat
  | 0x38 => x.nextSrc.toNat
  | 0x40 => x.nextDst.toNat
  | _ => 0

/-- The code of a role (R464). -/
def roleCode : Role → Nat
  | .c => 0 | .m => 1 | .l => 2 | .h => 3

/-- A cell block's registers (R463); the block of a cell that R4 keeps OFF reads zero (R448). -/
def cellRead (s : State) (n off : Nat) : Nat :=
  let x := getCell s n
  let role := roleOf n
  if fusedOff s n then 0
  else if 0x100 ≤ off ∧ off < 0x1C0 ∧ off % 8 = 0 then counterRead x.counters ((off - 0x100) / 0x40) ((off - 0x100) % 0x40 / 8)
  else if 0x1000 ≤ off ∧ off < 0x1800 then chanRead s n ((off - 0x1000) / 0x80) (off % 0x80)
  else if 0x8000 ≤ off ∧ off < 0x10000 ∧ off % 8 = 0 then
    (((tabGet [] x.imp.ring ((off - 0x8000) / 0x20)).getD ((off - 0x8000) % 0x20 / 8) 0) : Word).toNat
  else match off with
    | 0x00 => n + place (roleCode role) 9 + place (flag (cellEast n)) 11
    | 0x08 => cellCtrl x
    | 0x10 => x.corrGalley + place x.corrSideband 16 + place x.corrCtl 32 + place x.corrLink 48
    | 0x18 => attSplit x
    | 0x20 => remoteSlicesOf s n
    | 0x28 => galleyStatus s n
    | 0x30 => if role = .h then x.readTimeoutUs + place x.readRetries 16 + place (flag x.linkUp) 18 else 0
    | 0x38 => if role = .l ∨ role = .h then flag x.suspect + place x.authFails 16 else 0
    | 0x40 => s.time.refCyc.toNat
    | 0x48 => x.refSnap.toNat
    | 0x50 => x.imp.interval + place (flag x.imp.stopMode) 16 + place (flag x.imp.full) 17
    | 0x58 => x.imp.count.toNat + place x.imp.lost 32
    | 0x60 => x.imp.time.toNat
    | 0x68 => x.wear.used + place x.wear.daysNow 16 + place x.wear.daysRated 32 + place x.wear.limit 48
    | 0x70 => x.wear.drift.toNat
    | 0x78 => x.wear.em.toNat
    | 0x80 => x.wear.tt.toNat
    | _ => 0

/-- A 64-bit register read at an offset of engine register space (R448, R449). -/
def readReg (s : State) (off : Nat) : Word :=
  BitVec.ofNat 64 <|
    if off % 8 ≠ 0 then 0
    else if off < 0x800000 then windowRead s false off
    else if off < 0x1000000 then windowRead s true (off - 0x800000)
    else if off < 0x1000000 + cellCount * 0x10000 then cellRead s ((off - 0x1000000) / 0x10000) (off % 0x10000)
    else 0

/-- The registers whose lower-word read loads a latch (R452): an offset within a Belfry window or a cell block. -/
def latching (off : Nat) : Bool :=
  if off < 0x1000000 then
    let o := off % 0x800000
    o == 0x30 || o == 0x38 || o == 0x40 || (decide (0x140 ≤ o) && decide (o < 0x1C0) && o % 8 == 0)
  else
    let o := off % 0x10000
    decide (off < 0x1000000 + cellCount * 0x10000) &&
    (o == 0x40 || o == 0x48 || o == 0x60 || (decide (0x140 ≤ o) && decide (o < 0x1C0) && o % 8 == 0))

/-- A 32-bit read of the upper word: the latch of a latching register, else the live word (R452). -/
def readUpper (s : State) (off : Nat) : BitVec 32 :=
  if latching off then tabGet 0 s.latches off else (readReg s off >>> 32).setWidth 32

end Sys2Proof.Machine
end

