-- ==== Sys2Proof/Machine/Modes.lean ====
section
/-!
DEFINITION. The operating modes, power-good and self-test, attach and detach, the test port, and the loss of a Belfry (R18, R31,
R434-R446).
-/

namespace Sys2Proof.Machine

/-- Changes the chip-wide registers. -/
def modChip (s : State) (f : Regs → Regs) : State := { s with regs := f s.regs }
/-- A mode command that has no effect sets `CMD_IGNORED` (R437). -/
def ignoreMode (s : State) : State := modChip s fun r => { r with modeIgnored := true }
/-- A mode command is refused (R436). -/
def refuseMode (s : State) (e : ModeResult) : State := modChip s fun r => { r with result := e }
/-- A mode command is carried out (R436). -/
def enterMode (s : State) (m : Mode) : State := modChip s fun r => { r with mode := m, busy := false, result := .done }
/-- Every context of a class is FREE (R436). -/
def classFree (s : State) (cls : Nat) : Bool :=
  (ctxNumbers s).all fun c => decide (stateOf s c = .free) || cfgClass (configOf s c) != cls
/-- Every context is FREE. -/
def allFree (s : State) : Bool := (ctxNumbers s).all fun c => decide (stateOf s c = .free)
/-- The West Belfry has failed (R18). -/
def westFailed (s : State) : Bool := s.east.seesWestFailed
/-- A mode command: ignored while a transition runs, refused with BAD_MODE where the table does not list it (R436,
R437). -/
def modeRow (s : State) (listed : Bool) (k : State) : Res :=
  .next (if s.regs.busy then ignoreMode s else if listed then k else refuseMode s .badMode)

/-! Entering RUN (R31, R442). -/

/-- What every entry to RUN from INIT or DETACHED does (R442). -/
def newIncarnation (s : State) : State :=
  { modChip s (fun r => { r with incarnation := r.nextInc }) with
    streams := s.streams.map fun p => (p.1, { p.2 with nextSeq := 0, wraps := 0, acked := 0xFFFFFFFF }) }
/-- TOLL_BASE on entry to RUN: the time rounded up to a whole µs, plus 1 µs (R31). -/
def firstBase (now : Word) : Word := BitVec.ofNat 64 (ceilDiv now.toNat 1000 * 1000 + 1000)
/-- The Toll generator starts with a base, period and count (R31, R443). -/
def startToll (s : State) (base : Word) (periodUs k : Nat) : State :=
  { s with
    time := { s.time with running := true, base := base, periodUs := periodUs, count := k, next := k, pulses := [], pendingPeriod := none }
    east := { s.east with tollCount := k }
    cells := s.cells.map fun p => (p.1, { p.2 with tollCount := k % 65536 }) }
/-- Entry to RUN without ATTACH (R31, R442). -/
def enterRun (s : State) : State :=
  enterMode (startToll (newIncarnation s) (firstBase s.time.ref) s.time.periodUs 0) .run
/-- A TOLL that waits has reached its target, or the generator has stopped (R207). -/
def wakeToll (s : State) (c : Nat) : State :=
  match (getCtx s c).wait with
  | .toll t => if !s.time.running || tollReached (homeToll s c) t then retireWait s c else s
  | _ => s
/-- The Toll generator stops: waiting TOLLs are evaluated again (R31, R207). What becomes of an accepted period whose Toll has not
fallen is not told: it is dropped, and the period stays (log 131). -/
def stopToll (s : State) : State :=
  let s := { s with time := { s.time with running := false, pulses := [], lates := [], heldPulses := [], pendingPeriod := none } }
  each (ctxNumbers s) wakeToll { s with cells := s.cells.map fun p => (p.1, { p.2 with guardList := [] }) }

/-! Overruns (R45-R47). -/

/-- One late context: the latch names its first late instruction, one entry goes to the log (R45-R47). -/
def overrunCtx (s : State) (ls : List Late) (c : Nat) : State :=
  match ls.filter fun l => l.ctx == c with
  | [] => s
  | l :: rest =>
    let first := rest.foldl (fun m x => if x.insn < m.insn then x else m) l
    let s := raise s c { code := FRAME_OVERRUN, kind := .late, pc := first.pc, ch := some first.ch }
    logEvent s false { kind := 2, addr := BitVec.ofNat 64 s.time.count, pc := first.pc, ctx := some c, code := FRAME_OVERRUN, ch := some first.ch, dom := some (domOf s c) }
/-- FLOOR_OK is high in every half a context reaches (R370). -/
def floorsOk (s : State) (c : Nat) : Bool :=
  let cfg := configOf s c
  (!cfgReach cfg false || s.west.clock.floorOk) && (!cfgReach cfg true || s.east.clock.floorOk)
/-- What a pulse ends for a context homed on its cell: the wait before its first issue, the wait after RESUME, the hold of the
guard, a TOLL that has reached its count; a context that has not issued since its doorbell needs the floor (R32, R37, R207, R370, R386). -/
def pulseCtx (s : State) (c : Nat) : State :=
  let x := getCtx s c
  let s := modCtx s c fun x => { x with tollHold := false }
  match x.wait with
  | .toll _ => wakeToll s c
  | .guarded => modCtx s c fun x => { x with wait := .none }
  | .firstToll =>
    if !x.floorHold || floorsOk s c then
      let s := endWait (modCtx s c fun x => { x with floorHold := false }) c
      settleList s c
    else modCtx s c fun y => { y with tollHold := x.tollHold }
  | _ => s
/-- Once every cell has had the Toll and every report has arrived, the overruns of the Toll are dealt with together (R45); then the
pulse acts on the contexts it had found with a late instruction (R46). -/
def settleOverruns (s : State) : State :=
  if !s.time.pulses.isEmpty ∨ s.ctl.any isOverrun then s
  else
    let ls := s.time.lates
    let held := s.time.heldPulses
    let cs := ((ls.map Late.ctx).eraseDups).mergeSort
    let s := match cs with
      | [] => s
      | c :: _ =>
        let s := triggerDump (each cs (fun s c => overrunCtx s ls c) s) (.overrun c)
        { s with time := { s.time with lates := [], overruns := saturate 16 (s.time.overruns + 1) } }
    each held pulseCtx { s with time := { s.time with heldPulses := [] } }

/-- MODE_TEST (R436). -/
def execModeTest (s : State) : Res :=
  modeRow s (decide (s.regs.mode = .init)) (if classFree s 3 then enterMode s .test else refuseMode s .notFree)
/-- MODE_INIT (R436). -/
def execModeInit (s : State) : Res :=
  modeRow s (decide (s.regs.mode = .test ∨ s.regs.mode = .detached))
    (if s.regs.mode = .test ∧ !classFree s 2 then refuseMode s .notFree else enterMode s .init)
/-- A LOADED USER context whose tail is ahead starts on the return to RUN (R441). -/
def startAhead (s : State) (c : Nat) : State :=
  let x := getCtx s c
  if x.regs.state = .loaded ∧ cfgClass x.regs.config = 0 ∧ pendingEntries x ≠ 0 then startCtx s c else s
/-- MODE_RUN (R31, R436, R441, R442). -/
def execModeRun (s : State) : Res :=
  match s.regs.mode with
  | .init => modeRow s true (if classFree s 3 then enterRun s else refuseMode s .notFree)
  | .recovery =>
    modeRow s true (if westFailed s then refuseMode s .belfryFailed
      else let s := enterMode s .run; each (ctxNumbers s) startAhead s)
  | .detached =>
    modeRow s true (if !allFree s then refuseMode s .notFree
      else if s.regs.master || s.regs.standalone then enterRun s else refuseMode s .badMode)
  | _ => modeRow s false s
/-- Pauses a RUNNING or WAITING context as by PAUSE (R385). -/
def pauseWorking (s : State) (c : Nat) : State :=
  if (stateOf s c = .running ∨ stateOf s c = .waiting) ∧ (getCtx s c).regs.cmd = .none then pauseCtx s c else s
/-- MODE_RECOVERY (R436, R441): USER contexts at work are paused. -/
def execModeRecovery (s : State) : Res :=
  let users := (ctxNumbers s).filter fun c => cfgClass (configOf s c) = 0
  modeRow s (decide (s.regs.mode = .run)) (each users pauseWorking (enterMode s .recovery))

/-! ATTACH (R443). -/

/-- ATTACH (R436, R443). -/
def execAttach (s : State) : Res :=
  modeRow s (decide (s.regs.mode = .init ∨ s.regs.mode = .detached))
    (if !allFree s then refuseMode s .notFree
     else if s.regs.master || s.regs.standalone then refuseMode s .badMode
     else
      { modChip s (fun r => { r with busy := true }) with
        attach := some { fromMode := s.regs.mode, limit := s.time.ref + BitVec.ofNat 64 (s.regs.attachMs * 1000000) } })
/-- The first Toll of a grid at or after an instant (R443; log 140). -/
def firstToll (base : Word) (periodUs : Nat) (from_ : Word) : Nat :=
  if (base - from_).toNat < 2 ^ 40 then 0 else ceilDiv (from_ - base).toNat (periodUs * 1000)
/-- Every interval that the engine measures in reference time restarts from a stepped value (R443). -/
def restartTimers (s : State) (now : Word) : State :=
  let again (t : Timer) : Timer := { t with since := now }
  let stream (x : OutStream) : OutStream :=
    { x with
      resendTimer := again x.resendTimer, openTimer := again x.openTimer, idleTimer := again x.idleTimer, lostTimer := again x.lostTimer }
  let clock (c : Clock) : Clock := { c with stretchFell := c.stretchFell.map fun _ => now, measure := c.measure.map fun _ => (now, c.cycles), cycleAt := c.cycleAt.map fun _ => now }
  let half (h : HalfRegs) : HalfRegs := { h with lastBeat := now, clock := clock h.clock }
  { s with
    west := half s.west, east := half s.east
    cells := s.cells.map fun p => (p.1, { p.2 with events := [], reported := now.toNat / 50000, wear := { p.2.wear with history := [], last := p.2.wear.last.map fun _ => now } })
    lines := s.lines.map fun p => (p.1, { p.2 with firstArrival := p.2.firstArrival.map fun _ => now, nextArrival := p.2.nextArrival.map fun _ => now })
    streams := s.streams.map fun p => (p.1, stream p.2)
    windows := s.windows.map fun p => (p.1, { p.2 with lastAck := now })
    peerHeard := s.peerHeard.map fun p => (p.1, again p.2)
    accesses := s.accesses.map fun a => { a with issued := now }
    flushes := s.flushes.map fun h => { h with issued := now } }
/-- The one step of reference time that ATTACH makes (R28, R443). -/
def stepTime (s : State) (a : Attach) (master : Word) : State :=
  let s := restartTimers { s with time := { s.time with ref := master, offset := none } } master
  { s with attach := some { a with stepped := true, limit := master + BitVec.ofNat 64 (s.regs.attachMs * 1000000) } }
/-- Lock is reached: the chip's first Toll is the master's first one at least 1,000 ns later (R443). -/
def lockAttach (s : State) (a : Attach) (base : Word) (periodUs : Nat) : State :=
  let k := firstToll base periodUs (s.time.ref + 1000)
  { s with attach := some { a with period := periodUs, base := base, entry := some (k, base + BitVec.ofNat 64 (k * periodUs * 1000)) } }
/-- ATTACH_ENTER_RUN (R443). -/
def execAttachEnterRun (s : State) : Res :=
  needSome s.attach .outOfTurn fun a =>
  needSome a.entry .outOfTurn fun e =>
  need (notBefore s.time.ref e.2) .notDue <|
  .next { enterMode (startToll (newIncarnation s) a.base a.period (e.1 % 2 ^ 48)) .run with attach := none }
/-- ATTACH_TIMEOUT (R443): the chip goes back to the mode it came from. -/
def execAttachTimeout (s : State) : Res :=
  needSome s.attach .outOfTurn fun a =>
  need a.entry.isNone .outOfTurn <|
  need (notBefore s.time.ref a.limit) .notDue <|
  .next { modChip s (fun r => { r with mode := a.fromMode, busy := false, result := .syncFail }) with
    attach := none, time := { s.time with offset := none } }

/-! DETACH (R445, R446). -/

/-- DETACH (R436, R445): the contexts stop at the next Toll. -/
def execDetach (s : State) : Res :=
  modeRow s (decide (s.regs.mode = .run ∨ s.regs.mode = .recovery))
    (if westFailed s then refuseMode s .belfryFailed
     else { modChip s (fun r => { r with busy := true }) with detach := some {} })
/-- Step 1 of R445 at the first Toll: contexts stop issuing, what they have issued goes on. -/
def detachStop (s : State) : State :=
  match s.detach with
  | some d =>
    if d.stopped then s
    else
      let works (c : Nat) : Bool := match stateOf s c with
        | .loaded | .running | .waiting => true
        | _ => false
      let s := each ((ctxNumbers s).filter works) enterPaused s
      { s with detach := some { stopped := true, limit := s.time.ref + BitVec.ofNat 64 (s.regs.detachUs * 1000) } }
  | none => s
/-- Every effect of the chip's own orders has completed and been performed, and every stream acknowledged (steps 2 to 4 of
R445). -/
def detachQuiet (s : State) : Bool :=
  s.flights.all (fun f => f.origin.isSome) && s.chimes.all (fun u => u.origin.isSome) &&
  s.distant.all (fun d => decide (ctxCount ≤ d.ctx)) && s.accesses.all (fun a => !a.isWrite || decide (ctxCount ≤ a.ctx)) && s.hostWrites.all (fun h => decide (ctxCount ≤ h.ctx)) &&
  s.streams.all (fun p => peerLost s p.1 || (p.2.held.isEmpty && p.2.waiting.isEmpty))
/-- A GOODBYE on a stream, which is then closed (R445). -/
def goodbye (s : State) (chip : Nat) : State :=
  if (getRoute s chip).peer = .opened ∨ (getStream s chip).opening then
    let s := sendControl s (currentLink s chip) chip 4 0
    modRoute (modStream s chip fun x => { x with held := [], waiting := [], opening := false, refused := false })
      chip fun r => { r with peer := .none, useAlt := false }
  else s
/-- Steps 4 to 6 of R445. -/
def detachClose (s : State) : State :=
  let s := each (s.streams.map Prod.fst) goodbye s
  let s := each ((ctxNumbers s).filter fun c => stateOf s c ≠ .free) abortHomed s
  let s := each ((List.range lineCount).filter fun n => (getLine s n).system) (fun s n =>
    stopLine (modLine s n fun l => { l with enable := false, rearm := false }) n) s
  let s := each (s.windows.map Prod.fst) retireWindow s
  let s := zeroiseKeys (stopToll s)
  { enterMode { s with time := { s.time with syncLocked := false, offset := none } } .detached with detach := none }
/-- DETACH_DRAINED (R445). -/
def execDetachDrained (s : State) : Res :=
  needSome s.detach .outOfTurn fun d =>
  need (d.stopped && detachQuiet s) .outOfTurn <| .next (detachClose s)
/-- DETACH_TIMEOUT (R383, R445): what is still incomplete is skipped, and an entry names the chip where entries of refusals do (log 36). -/
def execDetachTimeout (s : State) : Res :=
  needSome s.detach .outOfTurn fun d =>
  need d.stopped .outOfTurn <|
  need (notBefore s.time.ref d.limit) .notDue <|
  let s := each (s.flights.filter fun f => f.origin.isNone && (!f.complete || f.stop.isSome)) skipFlight s
  let s := { s with flights := s.flights.filter fun f => f.origin.isSome }
  .next (detachClose (logEvent s false { kind := 1, pc := BitVec.ofNat 64 s.regs.chipId, code := INTERNAL }))

/-! Power-good and self-test (R438, R439). -/

/-- The cells that R4 keeps OFF. -/
def offByFuse (s : State) : State :=
  let off (s : State) (n : Nat) : State := modCell s n fun x => { x with enable := false, state := .off, rearm := false }
  each ((List.range cellCount).filter (fusedOff s)) off s
/-- POWER_GOOD (R29, R438): reference time starts, the fuses are read. A failed read keeps `BUSY` at 1. -/
def execPowerGood (fuses : Fuses) (s : State) : Res :=
  need (!s.regs.powered) .outOfTurn <|
  need (decide (fuses.grade < 3)) .badOperand <|
  let clock (h : HalfRegs) : HalfRegs := { h with clock := { h.clock with measure := some (0, 0) } }
  let s := { modChip s (fun r => { r with powered := true }) with time := { s.time with ref := 0 }, west := clock s.west, east := clock s.east }
  if fuses.readOk then
    .next (offByFuse (modChip s fun r => { r with
      fuseOk := true, grade := fuses.grade, good := fuses.good, fusedGood := fuses.good
      driftLimit := fuses.driftLimit, emBudget := fuses.emBudget }))
  else .next s
/-- MBIST_DONE (R438, R439): the failing cells are retired, and the chip is in INIT. -/
def execMbistDone (fails : List Nat) (s : State) : Res :=
  need (fails.all fun n => decide (n < cellCount) && !fusedOff s n) .badOperand <|
  need (s.regs.fuseOk && !s.regs.mbistDone) .outOfTurn <|
  let bad := fails.eraseDups
  let s := each bad retireCell s
  .next (enterMode (modChip s fun r => { r with
    mbistDone := true, mbistFails := bad.length, initUs := BitVec.ofNat 32 (s.time.ref.toNat / 1000) }) .init)

/-! The test port (R434). -/

/-- Zeroes what an order has staged in a cell's galley. -/
def zeroStaged (o : Order) : Order :=
  let data (d : SlugData) : SlugData := { d with elems := d.elems.map fun e => (e.1, 0), scales := d.scales.map fun e => (e.1, 0) }
  { o with
    sectors := o.sectors.map fun p => (p.1, 0), elems := o.elems.map fun p => (p.1, 0)
    arrived := o.arrived.map fun a => (data a.1, a.2), out := o.out.map fun e => { e with data := data e.data } }
/-- MBIST_RUN (R434): in INIT and TEST it tests and zeroes every slice of a cell; in other modes the instrument is not there. -/
def execMbistRun (cell : Nat) (s : State) : Res :=
  need (decide (cell < cellCount)) .badOperand <|
  if s.regs.mode ≠ .init ∧ s.regs.mode ≠ .test then .next s
  else
    let s := { s with orders := s.orders.map fun o => if o.cell = cell then zeroStaged o else o }
    .next (modCell s cell fun x => { x with slices := x.slices.map fun p => (p.1, { p.2 with lastDomain := none }) })
/-- A corrected error of a kind is counted, at the cell and in its history (R394). -/
def correctAt (s : State) (cell : Nat) (kind : CorrKind) : State :=
  let s := modCell s cell fun x => match kind with
    | .galley => { x with corrGalley := saturate 16 (x.corrGalley + 1) }
    | .sideband => { x with corrSideband := saturate 16 (x.corrSideband + 1) }
    | .ctlCrc => { x with corrCtl := saturate 16 (x.corrCtl + 1) }
    | .linkCrc => { x with corrLink := saturate 16 (x.corrLink + 1) }
  let code : Nat := match kind with
    | .galley => 0x20 | .sideband => 0x21 | .ctlCrc => 0x22 | .linkCrc => 0x23
  addEvent (countCell s cell code 1 none none) cell
/-- The place at which an order that loses staged data stops: the first position it has not written or sent. -/
def orderFrontier (s : State) (f : Flight) (o : Order) : Nat :=
  if o.isDst && !o.finished then ((lanesAt f o.cell).map fun l => laneStart s f l (lanePos o l)).foldl min (totalF f)
  else ((List.range (ranksF f)).map fun r => max f.from_ (tabGet 0 o.emit r)).foldl min (totalF f)
/-- An uncorrectable galley error in a slice that an order uses: its channel halts with ECC_UNCORR, and the cell is DEGRADED at
once (R381, R395). Work for another chip is reported as an error instead (R384). -/
def galleyLost (s : State) (cell : Nat) (insn : Option Nat) : State :=
  let s := markDegraded s cell
  match insn.bind (getFlight s), insn.bind (fun i => getOrder s i cell) with
  | some f, some o =>
    match f.origin with
    | some (chip, k) =>
      let s := logEvent s (cellEast cell) { kind := 5, cell := some cell, pc := BitVec.ofNat 64 chip, code := ECC_UNCORR, dom := some f.job.domain }
      removeFlight (queueReport s chip f.job.domain f.job.ctx f.job.epoch (.refusal (some k) ECC_UNCORR true f.job.pc)) f.id
    | none => haltFlight s f cell ECC_UNCORR o.isDst 0 (orderFrontier s f o)
  | _, _ => s
/-- FAULT_INJECT (R434): in TEST mode, handled exactly as the real fault; a double-bit error strikes the order longest at the
cell. -/
def execFaultInject (cell : Nat) (kind : Inject) (s : State) : Res :=
  need (decide (cell < cellCount)) .badOperand <|
  if s.regs.mode ≠ .test then .next s
  else match kind with
  | .galleySingle => .next (correctAt s cell .galley)
  | .sideband => .next (correctAt s cell .sideband)
  | .ctlCrc => .next (correctAt s cell .ctlCrc)
  | .galleyDouble => .next (galleyLost s cell ((s.orders.find? fun o => o.cell == cell && decide (o.place = .active)).map Order.insn))
  | .attErr | .attUncorr => .next (modCell s cell fun x => { x with injected := some kind })
/-- SCAN_ENTRY (R434): in INIT, every key slot being zeroised first. -/
def execScanEntry (s : State) : Res :=
  if s.regs.mode ≠ .init ∨ s.regs.busy then .next s else .next (modChip (zeroiseKeys s) fun r => { r with scan := true })

/-! The loss of a Belfry (R18). -/

/-- The East Belfry finds the West one failed: the Toll stops, work is paused, the chip is in RECOVERY for good (R18,
R446). -/
def loseWest (s : State) : State :=
  let s := stopToll { s with mirror := some (mirrorNow s), east := { s.east with seesWestFailed := true } }
  let moving := s.attach.isSome || s.detach.isSome
  let s := each (ctxNumbers s) pauseWorking s
  { modChip s (fun r => { r with mode := .recovery, busy := false, result := if moving then .belfryFailed else r.result }) with
    attach := none, detach := none }
/-- An East cell serves an address of this chip. -/
def servedEast (s : State) (home host : Nat) (a : Word) : Bool :=
  decide (addrChip a = s.regs.chipId) && cellEast (servingCell s home host a.toNat)
/-- An East cell serves a chime word that an instruction's completion is still to update. -/
def chimeEast (s : State) (f : Flight) : Bool :=
  decide (chimeOf f.job.word ≠ 63) && (f.parts.filter fun p => !p.done).any fun p =>
    servedEast s f.job.home f.job.hostCell (chimeAddr f p.branch)
/-- An instruction that is not complete has its source, destination or home in the East half, or its chime word served there (R18). -/
def touchesEast (s : State) (f : Flight) : Bool :=
  (ordersOf s f.id).any (fun o => cellEast o.cell) ||
    (!f.complete && (f.srcCells.any cellEast || (f.parts.any fun p => cellEast p.cell && !(if f.origin.isNone then p.known else p.done)) ||
      (f.origin.isNone && cellEast f.job.home) || chimeEast s f))
/-- An East context is lost: its instructions end as skipped, its slices and pools are given back, its entry is FREE
(R18). -/
def loseContext (s : State) (c : Nat) : State :=
  let s := resignAll s c
  let s := each (heldFlights s c) skipFlight s
  let s := freeHoldings s c
  let s := { s with chimes := s.chimes.filter fun u => !(u.origin.isNone && u.ctx == c) }
  modCtx s c freedCtx
/-- A West context's instruction that touches the East half ends with INTERNAL (R18). -/
def endLost (s : State) (f : Flight) : State :=
  match f.origin with
  | some (chip, k) => removeFlight (queueReport s chip f.job.domain f.job.ctx f.job.epoch (.refusal (some k) INTERNAL true f.job.pc)) f.id
  | none => if f.complete then (if f.stop.isSome then skipFlight s f else s) else tellOver (endFlight s f INTERNAL none 0) f
/-- A SUB whose result is lost ends with INTERNAL (R18). -/
def endLostSub (s : State) (c : Nat) : State :=
  if (getCtx s c).wait = .subResult then raiseHere (modCtx s c fun x => { x with wait := .none }) c INTERNAL .sync 0 none else s
/-- A chime update starts from the East half, or an East cell serves its word. -/
def updateEast (s : State) (u : ChimePend) : Bool := cellEast u.cell || servedEast s u.cell u.cell u.addr
/-- A chime update that an East cell would serve or send on ends with INTERNAL (R18). -/
def endLostChime (s : State) (u : ChimePend) : State :=
  let s := { s with chimes := s.chimes.filter fun x => x.id != u.id }
  let s :=
    if u.origin.isSome then answerChime s u.cell u INTERNAL true
    else if u.wantsResult then endLostSub s u.ctx
    else raise s u.ctx { code := INTERNAL, kind := .ending, pc := u.pc, addr := u.addr }
  settleOrigin s u.before
/-- A WAIT on a word that an East cell serves ends with INTERNAL, whether a poll is under way or not (R18). -/
def endLostPoll (s : State) (c : Nat) : State :=
  let y := (getCtx s c).sync
  if !servedEast s (homeOf s c) (cfgHostCell (configOf s c)) y.addr then s
  else match y.outstanding with
    | some id => takePollResult s c id 0 false INTERNAL
    | none => if (getCtx s c).wait = .chime then raiseHere s c INTERNAL .sync y.addr none else s
/-- A context of the West half waits for something of an East cell: a FENCE's report and a forme's image end with INTERNAL, an abandon goes on
without that cell (R18). -/
def endLostWait (s : State) (c : Nat) : State :=
  match (getCtx s c).wait with
  | .fence _ _ cells => if cells.any cellEast then raiseHere s c INTERNAL .sync 0 none else s
  | .formeImage k a _ _ =>
    if servedEast s (homeOf s c) (cfgHostCell (configOf s c)) a then failForme (modCtx s c fun x => { x with wait := .none }) c k INTERNAL a else s
  | .abandonReports cells =>
    let rest := cells.filter fun n => !cellEast n
    if rest = cells then s
    else if rest.isEmpty then settleAbandon s c
    else modCtx s c fun x => { x with wait := .abandonReports rest }
  | _ => s
/-- A message that an East cell sent or was to receive is lost; who waits for it learns that with INTERNAL (R18). -/
def endLostMsg (s : State) (m : Msg) : State :=
  match m.body with
  | .remoteDone i _ _ => (match getFlight s i with | some f => endLost s f | none => s)
  | .poll _ ask c _ _ epoch =>
    if c < ctxCount then s
    else let (chip, dom, _) := foreignParts c; queueReport s chip dom c epoch (.pollResult ask 0 false INTERNAL)
  | .pollResult id c _ _ _ => takePollResult s c id 0 false INTERNAL
  | .subResult c _ => endLostSub s c
  | .refusal c i _ ends pc => takeRefusal s c i INTERNAL ends pc
  | _ => s
/-- The West Belfry finds the East one failed (R18). -/
def loseEast (s : State) : State :=
  let s := each ((ctxNumbers s).filter fun c => ctxEast c && decide (stateOf s c ≠ .free)) loseContext s
  let lostMsgs := s.ctl.filter fun m => cellEast m.src || cellEast m.dst
  let s := { s with ctl := s.ctl.filter fun m => !(cellEast m.src || cellEast m.dst) }
  let s := each (s.flights.filter (touchesEast s)) endLost s
  let s := each (s.chimes.filter (updateEast s)) endLostChime s
  let s := each lostMsgs endLostMsg s
  let s := each (ctxNumbers s) (fun s c => endLostWait (endLostPoll s c) c) s
  let s := { s with
    west := { s.west with seesEastFailed := true }
    accesses := s.accesses.filter fun a => !cellEast a.cell
    regAccesses := s.regAccesses.filter fun a => !cellEast a.cell
    slugs := s.slugs.filter fun g => !(cellEast g.src || cellEast g.dst)
    hostWrites := s.hostWrites.filter fun h => !cellEast h.cell
    flushes := s.flushes.filter fun h => !cellEast h.cell
    errands := s.errands.filter fun x => !cellEast x.cell
    pools := s.pools.filter fun p => !cellEast p.cell
    time := { s.time with pulses := s.time.pulses.filter fun n => !cellEast n } }
  let s := each (s.orders.filter fun o => cellEast o.cell) removeOrder s
  let s := each (s.flights.map Flight.id) settleComplete s
  let s := each (linkCells true) (fun s n => each (windowsOf s n) retireWindow (linkFails s n)) s
  settleOverruns (wakeDrains (each (cellsOfHalf true) (fun s n => modCell s n offCell) s))
/-- HEARTBEAT (R18): a Belfry hears the other one. -/
def execHeartbeat (east : Bool) (s : State) : Res := .next (modHalf s east fun h => { h with lastBeat := s.time.ref })
/-- HEARTBEAT_LOSS (R18): four heartbeats in a row have been missed; the detecting Belfry records it in its own log. A Belfry
that has been found failed stays so. -/
def execHeartbeatLoss (east : Bool) (s : State) : Res :=
  need (elapsedUs s (getHalf s east).lastBeat 4) .notDue <|
  if (if east then westFailed s else s.west.seesEastFailed) then .next s
  else
    let s := logTo s east { kind := 3 }
    .next (if east then loseWest s else loseEast s)

end Sys2Proof.Machine
end

