-- ==== Sys2Proof/Machine/RegWrites.lean ====
section
/-!
DEFINITION. Register writes: those with a row of their own, and the write of any other register by the access codes of its fields
(R34, R35, R150-R153, R277-R279, R303, R305, R320, R332, R342-R346, R357, R399-R409, R414, R433, R435-R437, R448-R468).
-/

namespace Sys2Proof.Machine

/-! Writes with rows of their own. -/

/-- TOLL_PERIOD_WRITE (R34, R35, R454). -/
def execTollPeriodWrite (value : Word) (s : State) : Res :=
  if windowDead s false then .next s else
  let p := field value 0 11
  let busy := (ctxNumbers s).any fun c => cfgDeadline (configOf s c) &&
    (match stateOf s c with | .running | .waiting | .stopping => true | _ => false)
  let reject : State := { s with time := { s.time with periodReject := true } }
  .next (if p < 4 ∨ 1024 < p ∨ s.time.syncLocked then reject
    else match s.regs.mode with
      | .init | .test => { s with time := { s.time with periodUs := p } }
      | .run | .recovery => if busy then reject else { s with time := { s.time with pendingPeriod := some p } }
      | .detached => reject)
/-- ATT_SPLIT_WRITE (R303): `SPLIT_REJECT` acts first. -/
def execAttSplitWrite (cell : Nat) (value : Word) (s : State) : Res :=
  let r := field value 0 9
  let w := field value 9 9
  let m := field value 18 9
  let ok : Bool := decide (s.regs.mode = .init) && decide (16 ≤ r) && decide (16 ≤ w) && decide (16 ≤ m) && decide (r + w + m = 256)
  let one (x : Cell) : Cell :=
    let x := if bit value 27 then { x with splitReject := false } else x
    if blockDead s cell ∨ (r = x.shareRead ∧ w = x.shareWrite ∧ m = x.shareRemote) then x
    else if ok then { x with shareRead := r, shareWrite := w, shareRemote := m }
    else { x with splitReject := true }
  need (decide (cell < cellCount)) .badOperand <|
  .next (if fusedOff s cell || eastLost s cell then s else modCell s cell one)
/-- ARB_CONFIG_WRITE (R305): `WAIT_LIMIT` in INIT only and never 0; `CUE_GATE` always. -/
def execArbConfigWrite (value : Word) (s : State) : Res :=
  if windowDead s false then .next s else
  let w := field value 0 8
  .next (modChip s fun r => { r with
    waitLimit := if s.regs.mode = .init ∧ w ≠ 0 then w else r.waitLimit, cueGate := bit value 8 })
/-- A write of a route entry that R320 refuses. -/
def routeBad (s : State) (chip : Nat) (value : Word) : Bool :=
  decide ((getRoute s chip).peer = .opened) || (decide (chip = s.regs.chipId) && bit value 16) ||
  (bit value 16 && decide (field value 4 4 = 0)) || (bit value 17 && decide (field value 12 4 = 0))
/-- ROUTE_WRITE (R320, R444). -/
def execRouteWrite (chip : Nat) (value : Word) (s : State) : Res :=
  need (decide (chip < chipCount)) .badOperand <|
  if windowDead s false then .next s else
  .next (if routeBad s chip value then modChip s fun r => { r with routeReject := true }
    else modRoute s chip fun r => { bits := BitVec.ofNat 18 (field value 0 18), useAlt := r.useAlt,
                                    peer := if r.peer = .lost ∨ r.peer = .gone then .none else r.peer })

/-! Proof dumps (R277-R282). -/

/-- DUMP_TRIGGER (R277). -/
def execDumpTrigger (s : State) : Res := .next (if windowDead s false then s else triggerDump s .command)
/-- Writes one domain's dump, or drops it (R278, R279): `free` tells that the buffer may be written. -/
def writePart (consumed : List Nat) (s : State) (p : Nat × List Byte × List Byte) : State :=
  let (d, recs, header) := p
  let x := getDom s d
  if x.dumpAddr = 0 then s
  else if (consumed.contains d || !x.dumpWritten) && dumpAllowed s d then
    let a := x.dumpAddr.toNat
    modDom { s with mem := memPutBytes (memPutBytes s.mem (a + 0x100) recs) a header } d fun x => { x with dumpWritten := true }
  else
    countHalf { s with instr := { s.instr with dropped := saturate 16 (s.instr.dropped + 1) } } false 0x43 1 none none
/-- DUMP_DONE (R277-R279): the records and headers are written, and a merged dump starts. `consumed` lists the domains whose word
0x00 is non-zero. -/
def execDumpDone (consumed : List Nat) (s : State) : Res :=
  needSome s.instr.dump .noSubject fun d =>
  let s := each d.parts (writePart consumed) s
  .next (if s.instr.merged.isEmpty then { s with instr := { s.instr with dump := none } } else beginDump s s.instr.merged)

/-! DAMPER and the event counters (R399-R407). -/

/-- Copies a counter with its `OVF` bit (R407). -/
def snapCounter (k : Counter) : Counter := { k with snap := k.count, snapOvf := k.ovf }
/-- Changes every cell. -/
def allCells (s : State) (f : Cell → Cell) : State := each (List.range cellCount) (fun s n => modCell s n f) s
/-- An action takes effect in every cell and both Belfries (R406, R407). -/
def damperActs (s : State) (d : Damper) : State :=
  let snapRef (s : State) : State := allCells s fun x => { x with refSnap := s.time.refCyc }
  let counts (cs : Tab Counter) : Tab Counter := cs.map fun p => (p.1, snapCounter p.2)
  let s := { s with instr := { s.instr with damper := none, damperLast := d.instant } }
  match d.op with
  | 1 => if s.instr.frozen then s else snapRef { s with instr := { s.instr with frozen := true } }
  | 2 => { s with instr := { s.instr with frozen := false } }
  | _ =>
    let s := allCells (snapRef s) fun x => { x with counters := counts x.counters }
    { s with west := { s.west with counters := counts s.west.counters }, east := { s.east with counters := counts s.east.counters } }
/-- A command of DAMPER: pending until its instant, or acting at once (R405). -/
def damperCmd (s : State) (op : Nat) (now : Bool) : State :=
  let d : Damper := { op := op, instant := if now then s.time.ref else s.instr.damperAt }
  if notBefore s.time.ref d.instant then damperActs s d else { s with instr := { s.instr with damper := some d } }
/-- FREEZE (R405, R407). -/
def execFreeze (now : Bool) (s : State) : Res := .next (if windowDead s false then s else damperCmd s 1 now)
/-- THAW (R405, R407). -/
def execThaw (now : Bool) (s : State) : Res := .next (if windowDead s false then s else damperCmd s 2 now)
/-- SNAPSHOT (R405, R407). -/
def execSnapshot (now : Bool) (s : State) : Res := .next (if windowDead s false then s else damperCmd s 3 now)
/-- DAMPER_CANCEL (R405). -/
def execDamperCancel (s : State) : Res :=
  .next (if windowDead s false then s else { s with instr := { s.instr with damper := none } })
/-- DAMPER_ACTION (R406, R407). -/
def execDamperAction (s : State) : Res :=
  needSome s.instr.damper .outOfTurn fun d => need (notBefore s.time.ref d.instant) .notDue <| .next (damperActs s d)
/-- Changes an owner's counter. -/
def modCounter (s : State) (owner : CounterOwner) (k : Nat) (f : Counter → Counter) : State :=
  let put (t : Tab Counter) : Tab Counter := tabSet t k (f (tabGet {} t k))
  match owner with
  | .cell n => modCell s n fun x => { x with counters := put x.counters }
  | .belfry e => modHalf s e fun h => { h with counters := put h.counters }
/-- The owner of a counter exists. -/
def ownerOk : CounterOwner → Bool
  | .cell n => decide (n < cellCount)
  | .belfry _ => true
/-- The owner's block takes no writes. -/
def ownerDead (s : State) : CounterOwner → Bool
  | .cell n => blockDead s n
  | .belfry e => windowDead s e
/-- EVSEL_WRITE (R402). -/
def execEvselWrite (owner : CounterOwner) (k : Nat) (value : Word) (s : State) : Res :=
  need (ownerOk owner && decide (k < 8)) .badOperand <|
  .next (if ownerDead s owner then s else modCounter s owner k fun x => { x with select := BitVec.ofNat 32 (field value 0 28) })
/-- EVCNT_WRITE (R402, R450): the value is replaced, the units of the same cycle added; `OVF` clears where its bit is written
as 1. -/
def execEvcntWrite (owner : CounterOwner) (k : Nat) (value : Word) (units : Nat) (s : State) : Res :=
  need (ownerOk owner && decide (k < 8)) .badOperand <|
  let total := field value 0 48 + units
  .next (if ownerDead s owner then s else modCounter s owner k fun x => { x with
    count := total % 2 ^ 48, ovf := (x.ovf && !bit value 63) || decide (2 ^ 48 ≤ total) })
/-- IMP_CONFIG_WRITE (R408, R409). -/
def execImpConfigWrite (cell : Nat) (value : Word) (s : State) : Res :=
  need (decide (cell < cellCount)) .badOperand <|
  let clear (x : Impressions) : Impressions := if bit value 17 then { x with full := false } else x
  let set (x : Impressions) : Impressions :=
    if blockDead s cell then clear x else { clear x with interval := field value 0 16, stopMode := bit value 16, since := 0 }
  .next (if fusedOff s cell || eastLost s cell then s else modCell s cell fun c => { c with imp := set c.imp })

/-! The latches (R452). -/

/-- LOWER_WORD_READ (R449, R452): a 32-bit read of the lower word of a latching register. -/
def execLowerWordRead (offset : Nat) (s : State) : Res :=
  .next (if offset % 8 = 0 ∧ latching offset then { s with latches := tabSet s.latches offset ((readReg s offset >>> 32).setWidth 32) } else s)

/-! The write of any register (R450). -/

/-- A row's next state, or the state as it was. -/
def after (s : State) (r : Res) : State :=
  match r with
  | .next t => t
  | _ => s
/-- BELFRY.MODE. -/
def writeMode (s : State) (v : Word) : State :=
  let s := if bit v 16 then modChip s fun r => { r with modeIgnored := false } else s
  match field v 4 4 with
  | 0 => s
  | 1 => after s (execModeTest s)
  | 2 => after s (execModeInit s)
  | 3 => after s (execModeRun s)
  | 4 => after s (execModeRecovery s)
  | 5 => after s (execAttach s)
  | 6 => after s (execDetach s)
  | _ => ignoreMode s
/-- BELFRY.SYSTEM_CONFIG. -/
def writeSystem (s : State) (v : Word) : State :=
  if (s.regs.mode ≠ .init ∧ s.regs.mode ≠ .detached) ∨ (bit v 14 ∧ bit v 15) then ignoreMode s
  else modChip s fun r => { r with
    chipId := field v 0 14, master := bit v 14, standalone := bit v 15, nextInc := BitVec.ofNat 16 (field v 16 16)
    attachMs := if field v 32 16 = 0 then r.attachMs else field v 32 16
    detachUs := if field v 48 16 = 0 then r.detachUs else field v 48 16 }
/-- BELFRY.REMOTE_CONFIG. -/
def writeRemote (s : State) (v : Word) : State :=
  modChip s fun r => { r with
    ackUs := if field v 0 16 = 0 then r.ackUs else field v 0 16
    lostUs := if field v 16 16 = 0 then r.lostUs else field v 16 16, idleUs := field v 32 16 }
/-- BELFRY.DAMPER_CMD. -/
def writeDamper (s : State) (v : Word) : State :=
  if field v 0 2 = 0 then after s (execDamperCancel s) else damperCmd s (field v 0 2) (bit v 2)
/-- BELFRY.PEALn.CONFIG: `DOMAIN` and `SYSTEM` while OFF, then `ENABLE`. -/
def writePeal (s : State) (n : Nat) (v : Word) : State :=
  let s := if (getLine s n).state = .off ∧ !(getLine s n).rearm then
      modLine s n fun l => { l with domain := field v 0 8, system := decide (8 ≤ n) && bit v 8 }
    else s
  after s (if bit v 9 then execPealEnable n s else execPealDisable n s)
/-- BELFRY.PEALn.TREE. -/
def writeTree (s : State) (n : Nat) (v : Word) : State :=
  if (getLine s n).state = .off then
    modLine s n fun l => { l with parent := field v 0 5, children := BitVec.ofNat 16 (field v 5 16), depth := field v 21 4 }
  else s
/-- The registers of a Belfry of class C in the first 16 KiB. -/
def writeChipReg (s : State) (off : Nat) (v : Word) : State :=
  if 0x200 ≤ off ∧ off < 0x400 then
    let n := (off - 0x200) / 0x20
    match (off - 0x200) % 0x20 with
    | 0x00 => writePeal s n v
    | 0x08 => if 8 ≤ n then writeTree s n v else s
    | 0x18 => if bit v 63 then modLine s n fun l => { l with stallsOvf := false } else s
    | _ => s
  else match off with
    | 0x00 => writeMode s v
    | 0x08 => writeSystem s v
    | 0x20 => after s (execTollPeriodWrite v s)
    | 0x28 => { s with time := { s.time with
        periodReject := s.time.periodReject && !bit v 2, syncLost := s.time.syncLost && !bit v 4 } }
    | 0x48 => after s (execArbConfigWrite v s)
    | 0x50 => modChip s fun r => { r with waitUs := field v 0 24, pealUs := field v 32 24 }
    | 0x58 => modChip s fun r => { r with lendUs := field v 0 8 }
    | 0x60 => after s (execHealthConfigWrite v s)
    | 0x68 => writeRemote s v
    | 0x70 => if bit v 0 then modChip s fun r => { r with routeReject := false } else s
    | 0x78 => if bit v 0 then triggerDump s .command else s
    | 0x80 => { s with instr := { s.instr with dropped := field v 16 16 } }
    | 0x88 => writeDamper s v
    | 0x90 => { s with instr := { s.instr with damperAt := v } }
    | _ => s
/-- The registers of class H. -/
def writeHalfReg (s : State) (east : Bool) (off : Nat) (v : Word) : State :=
  if 0x100 ≤ off ∧ off < 0x140 then after s (execEvselWrite (.belfry east) ((off - 0x100) / 8) v s)
  else if 0x140 ≤ off ∧ off < 0x180 then after s (execEvcntWrite (.belfry east) ((off - 0x140) / 8) v 0 s)
  else if off = 0xA8 then
    modHalf s east fun h => { h with daysMin := field v 0 16, usedMax := field v 16 16, alarm := h.alarm && !bit v 32 }
  else s
/-- BELFRY.CTXn.CMD (R153, R462): a LOAD or RESTORE waits for its reads, which the LOAD and RESTORE rows deliver. -/
def writeCmd (s : State) (c : Nat) (agent : Agent) (v : Word) : State :=
  let x := getCtx s c
  let ready := decide (x.regs.state = .free) && !cmdBusy x && !lockedAgainst s (domOf s c) agent
  let op := field v 0 4
  match op with
  | 1 => if ready then modRegs s c fun g => { g with cmd := .askedLoad agent } else after s (execLoad c agent [] s)
  | 2 => after s (execUnload c s)
  | 3 => after s (execSave c s)
  | 4 => if ready then modRegs s c fun g => { g with cmd := .askedRestore agent } else after s (execRestore c agent [] [] s)
  | 5 => after s (execPause c s)
  | 6 => after s (execResume c s)
  | 7 => after s (execAbort c s)
  | _ => after s (execBadOp c op s)
/-- A context's registers (R150-R153, R166, R462). -/
def writeCtxReg (s : State) (c reg : Nat) (agent : Agent) (v : Word) : State :=
  let x := getCtx s c
  let idle (f : CtxRegs → CtxRegs) : State := if cmdBusy x then ignoreCmd s c else modRegs s c f
  match reg with
  | 0x00 => after s (execCtxConfigWrite c agent v s)
  | 0x08 => if !cmdBusy x ∧ x.regs.state ≠ .free then s else idle fun g => { g with queue := v }
  | 0x10 => idle fun g => { g with galleyList := v }
  | 0x18 => idle fun g => { g with imageAddr := v }
  | 0x20 => idle fun g => { g with seed := v }
  | 0x28 => after s (execDoorbell c v s)
  | 0x30 => modRegs s c fun g => { g with
      cmdIgnored := g.cmdIgnored && !bit v 7, doorbellReject := g.doorbellReject && !bit v 26 }
  | 0x38 => writeCmd s c agent v
  | 0x48 => modRegs s c fun g => { g with faultPc := (g.faultPc &&& ~~~(1 : Word)) ||| (v &&& 1) }
  | _ => s
/-- One half of an entry of a staged range table (R342). -/
def writeRange (s : State) (d reg : Nat) (v : Word) : State :=
  let base := v &&& ~~~(0x1F : Word)
  let put (r : Range) : Range :=
    if reg % 16 = 0 then { r with base := base }
    else { r with last := base, rd := bit v 0, wr := bit v 1, excl := bit v 2, valid := bit v 3 }
  if reg % 8 ≠ 0 then s else modDom s d fun x => { x with staged := tabSet x.staged (reg / 16) (put (tabGet {} x.staged (reg / 16))) }
/-- A register of the sealed window (R357): ignored with `REJECT` while some context of the domain is not FREE. -/
def writeSeal (s : State) (d : Nat) (aligned : Bool) (f : Domain → Domain) : State :=
  if !domainFree s d then rejectDom s d 4 else if aligned then modDom s d f else s
/-- A domain's registers (R342-R346, R350, R357). -/
def writeDomReg (s : State) (d reg : Nat) (agent : Agent) (v : Word) : State :=
  let a := field v 0 48
  let locked := lockedAgainst s d agent
  if reg < 0x400 then (if locked then rejectDom s d 3 else writeRange s d reg v)
  else match reg with
    | 0x400 =>
      let s := if bit v 4 then modDom s d fun x => { x with reject := false } else s
      let s := if bit v 0 then after s (execCommit d agent s) else s
      if bit v 1 then after s (execRelease d agent s) else s
    | 0x408 =>
      if locked then rejectDom s d 3
      else if v.toNat % 256 ≠ 0 then s else modDom s d fun x => { x with dumpAddr := v, dumpWritten := false }
    | 0x410 => if locked then rejectDom s d 3 else writeSeal s d (decide (a % 4096 = 0)) fun x => { x with sealBase := BitVec.ofNat 64 a }
    | 0x418 => if locked then rejectDom s d 3 else writeSeal s d true fun x => { x with sealBlocks := field v 0 30 }
    | 0x420 => if locked then rejectDom s d 3 else writeSeal s d (decide (a % 32 = 0)) fun x => { x with tagBase := BitVec.ofNat 64 a }
    | _ => s
/-- A write in a Belfry's window: class C in the West window only; nothing in a failed Belfry's window (R453, R454). -/
def writeWindow (s : State) (east : Bool) (off : Nat) (agent : Agent) (v : Word) : State :=
  if windowDead s east then s
  else if off < 0x4000 then
    (if (0x100 ≤ off ∧ off < 0x1C0) ∨ off = 0xA8 then writeHalfReg s east off v else if east then s else writeChipReg s off v)
  else if 0x100000 ≤ off ∧ off < 0x110000 then writeCtxReg s ((off - 0x100000) / 0x80 + 512 * flag east) (off % 0x80) agent v
  else if east then s
  else if 0x200000 ≤ off ∧ off < 0x280000 then writeDomReg s ((off - 0x200000) / 0x800) (off % 0x800) agent v
  else if 0x300000 ≤ off ∧ off < 0x320000 then after s (execRouteWrite ((off - 0x300000) / 8) v s)
  else s
/-- CELL.CHn.CMD (R382). -/
def writeChanCmd (s : State) (n ch : Nat) (v : Word) : State :=
  match field v 0 3 with
  | 1 => after s (execChannelPause n ch s)
  | 2 => after s (execChannelResume n ch s)
  | 3 => after s (execChannelSkip n ch s)
  | 4 => after s (execChannelAbort n ch s)
  | _ => if blockDead s n then s else ignoreChannel s n ch
/-- A channel's registers (R382, R390, R466): `CMD_IGNORED` clears first. -/
def writeChanReg (s : State) (n ch reg : Nat) (v : Word) : State :=
  match reg with
  | 0x00 => if s.regs.mode = .init ∧ !blockDead s n then modChan s n ch fun c => { c with prio := field v 0 2 } else s
  | 0x10 =>
    let s := if bit v 25 then modChan s n ch fun c => { c with cmdIgnored := false } else s
    after s (if bit v 0 then execChannelEnable n ch s else execChannelDisable n ch s)
  | 0x18 => writeChanCmd s n ch v
  | _ => s
/-- CELL.CTRL (R390, R395, R396): `DEGRADED`, then `ENABLE`, then `RETIRE`. -/
def writeCellCtrl (s : State) (n : Nat) (v : Word) : State :=
  let s := if bit v 6 then after s (execDegradedClear n s) else s
  let s := after s (if bit v 0 then execCellEnable n s else execCellDisable n s)
  if bit v 4 then after s (execRetire n s) else s
/-- A restored accumulator: the averaging of R412 starts again (R412, R414). -/
def restoreWear (s : State) (n : Nat) (f : Wear → Wear) : State :=
  modCell s n fun x => { x with wear := { f x.wear with history := [], last := some s.time.ref } }
/-- A cell's registers (R463). -/
def writeCellReg (s : State) (n off : Nat) (v : Word) : State :=
  let init := decide (s.regs.mode = .init) && !blockDead s n
  let role := roleOf n
  if fusedOff s n || eastLost s n then s
  else if 0x100 ≤ off ∧ off < 0x140 then after s (execEvselWrite (.cell n) ((off - 0x100) / 8) v s)
  else if 0x140 ≤ off ∧ off < 0x180 then
    (if blockDead s n then (if bit v 63 then modCounter s (.cell n) ((off - 0x140) / 8) fun k => { k with ovf := false } else s)
     else after s (execEvcntWrite (.cell n) ((off - 0x140) / 8) v 0 s))
  else if 0x1000 ≤ off ∧ off < 0x1800 then writeChanReg s n ((off - 0x1000) / 0x80) (off % 0x80) v
  else match off with
    | 0x08 => writeCellCtrl s n v
    | 0x18 => after s (execAttSplitWrite n v s)
    | 0x20 => if init ∧ field v 0 7 ≤ 32 then modCell s n fun x => { x with remoteSlices := some (field v 0 7) } else s
    | 0x30 =>
      if role = .h then modCell s n fun x => { x with
        readTimeoutUs := if field v 0 16 = 0 then x.readTimeoutUs else field v 0 16, readRetries := field v 16 2 }
      else s
    | 0x38 => if (role = .l ∨ role = .h) ∧ bit v 0 then modCell s n fun x => { x with suspect := false } else s
    | 0x50 => after s (execImpConfigWrite n v s)
    | 0x78 => if init then restoreWear s n fun w => { w with em := v } else s
    | 0x80 => if init then restoreWear s n fun w => { w with tt := v } else s
    | _ => s
/-- Writes a 64-bit register at an offset of engine register space (R448-R456). -/
def writeReg (s : State) (agent : Agent) (off : Nat) (v : Word) : State :=
  if off % 8 ≠ 0 then s
  else if off < 0x800000 then writeWindow s false off agent v
  else if off < 0x1000000 then writeWindow s true (off - 0x800000) agent v
  else if off < 0x1000000 + cellCount * 0x10000 then writeCellReg s ((off - 0x1000000) / 0x10000) (off % 0x10000) v
  else s
/-- REGISTER_WRITE (R448-R450): a write of another width than 64 bits is ignored whole. -/
def execRegisterWrite (agent : Agent) (offset width : Nat) (value : Word) (s : State) : Res :=
  .next (if width = 64 then writeReg s agent offset value else s)
/-- The offset a key-port WRITE names: a register address of this chip, or an offset. -/
def keyOffset (s : State) (addr : Word) : Option Nat :=
  if field addr 48 16 = 0 ∨ (addrSpace addr = .regs ∧ addrChip addr = s.regs.chipId) then some (addrOff addr) else none
/-- WRITE of the key port (R346, R433, R454). -/
def execWrite (addr value : Word) (frameOk : Bool) (s : State) : Res :=
  if windowDead s false then .next s else
  match (if frameOk then keyOffset s addr else none) with
  | some off => keyDone (writeReg s .key off value)
  | none => .next (emit s (.keyAnswer true 1))
/-- A later access of the same transfer end to the same block has to wait (R455). -/
def earlierAccess (s : State) (a : RegAccess) : Bool :=
  s.regAccesses.any fun b => decide (b.id < a.id) && b.insn == a.insn && b.cell == a.cell && regBlock (8 * b.word % 2 ^ 48) == regBlock (8 * a.word % 2 ^ 48)

end Sys2Proof.Machine
end

