-- ==== Sys2Proof/Machine/TimePower.lean ====
section
/-!
DEFINITION. Reference time, the Toll, the guard and overruns, activity reports, lend hints, the halves' clocks, cell health and
wear (R27-R51, R310, R365-R373, R394, R395, R411-R415).
-/

namespace Sys2Proof.Machine

/-! Reference time (R27, R28, R49, R50). -/

/-- A half's clock as reference time goes on: a measurement over 256 ns ends, a step held by the stretch begins (R309, R372,
R373). -/
def tickClock (now : Word) (c : Clock) : Clock :=
  let c := match c.measure with
    | some (t, k) => if 256 ≤ (now - t).toNat then { c with measure := none, per256 := c.cycles - k } else c
    | none => c
  let quiet := match c.stretchFell with | some t => decide (256 ≤ (now - t).toNat) | none => true
  if c.stepHeld && !c.stretch && quiet then { c with stepHeld := false, stepping := true } else c
/-- The chip disciplines its time to a master (R28, R49): it is joining one, or runs as a follower, and its West Belfry lives. -/
def follows (s : State) : Bool :=
  !s.regs.master && !s.regs.standalone && !s.east.seesWestFailed && (s.attach.isSome || decide (s.regs.mode = .run ∨ s.regs.mode = .recovery))
/-- The correction due on a reference cycle: towards the master, at most once in 10,000 cycles (R28; log 7). -/
def correction (s : State) : Int :=
  match (if follows s then s.time.offset else none) with
  | some d => if s.time.sinceCorrection < 9999 ∨ d = 0 then 0 else if d < 0 then 1 else -1
  | none => 0
/-- Changes a half's clock. -/
def modClock (s : State) (east : Bool) (f : Clock → Clock) : State := modHalf s east fun h => { h with clock := f h.clock }
/-- The level of FLOOR_OK; its fall while DEADLINE_ACTIVE is high is logged in the half's own ring (R371). -/
def setFloor (s : State) (east ok : Bool) : State :=
  let falls := (getHalf s east).clock.floorOk && !ok
  let s := modClock s east fun c => { c with floorOk := ok }
  if falls && deadlineActive s east then logTo s east { kind := 7 } else s
/-- A step towards a lower clock that the stretch held back has begun: FLOOR_OK falls with it (R370, R372). -/
def startHeldStep (east : Bool) (s : State) : State :=
  let c := (getHalf s east).clock
  if c.stepping && c.heldLower then setFloor (modClock s east fun c => { c with heldLower := false }) east false else s
/-- REF_TICK (R27, R28, R399). -/
def execRefTick (s : State) : Res :=
  need s.regs.powered .outOfTurn <|
  let d := correction s
  let now := s.time.ref + BitVec.ofInt 64 (1 + d)
  let half (h : HalfRegs) : HalfRegs := { h with clock := tickClock now h.clock }
  let time := { s.time with
    ref := now, refCyc := s.time.refCyc + 1, offset := s.time.offset.map (· + d)
    sinceCorrection := if d = 0 then min 10000 (s.time.sinceCorrection + 1) else 0 }
  .next (startHeldStep true (startHeldStep false { s with time := time, west := half s.west, east := half s.east }))
/-- A follower takes the master's period and base; its next Toll is the first one still ahead (R49). -/
def adoptToll (s : State) (base : Word) (periodUs : Nat) : State :=
  if s.time.running ∧ (s.time.base ≠ base ∨ s.time.periodUs ≠ periodUs) then
    { s with time := { s.time with base := base, periodUs := periodUs, pendingPeriod := none, next := firstToll base periodUs (s.time.ref + 1) } }
  else s
/-- Lock is gained within ±40 ns and lost beyond (R49, R50). -/
def judgeLock (s : State) (offset : Int) : State :=
  let near := decide (-40 ≤ offset ∧ offset ≤ 40)
  if near then { s with time := { s.time with syncLocked := true } }
  else if s.time.syncLocked then
    logEvent { s with time := { s.time with syncLocked := false, syncLost := true } } false { kind := 4 }
  else s
/-- SYNC_OFFSET (R28, R49, R50, R443): an L-cell's report of the offset of this chip's time from the master's; only a link that is up
brings one (R426). -/
def execSyncOffset (cell : Nat) (offset : Int) (masterTime masterBase : Word) (masterPeriod : Nat) (s : State) : Res :=
  need (decide (roleOf cell = .l) && decide (cell < cellCount) && decide (4 ≤ masterPeriod ∧ masterPeriod ≤ 1024)) .badOperand <|
  if !(getCell s cell).linkUp ∨ !follows s then .next s
  else match s.attach with
  | some a =>
    if !a.stepped then .next (stepTime s a masterTime)
    else
      let s := judgeLock { s with time := { s.time with offset := some offset } } offset
      .next (if s.time.syncLocked ∧ a.entry.isNone then lockAttach s a masterBase masterPeriod else s)
  | none =>
    let s := judgeLock { s with time := { s.time with offset := some offset } } offset
    .next (if s.time.syncLocked then adoptToll s masterBase masterPeriod else s)

/-! The Toll (R30-R34, R42, R43, R45-R47). -/

/-- The cells a Toll pulse goes to: those enabled and not OFF (R32). -/
def pulseCells (s : State) : List Nat :=
  (List.range cellCount).filter fun n => cellMapped s n && decide ((getCell s n).state ≠ .off) && !eastLost s n
/-- A pending period takes effect from the Toll that has just fallen (R34). -/
def takePeriod (t : Time) (at_ : Word) (k : Nat) : Time :=
  match t.pendingPeriod with
  | some p => { t with periodUs := p, pendingPeriod := none, base := at_ - BitVec.ofNat 64 (k * p * 1000) }
  | none => t
/-- TOLL_TICK (R30, R33, R34, R395, R404, R445). -/
def execTollTick (s : State) : Res :=
  let k := s.time.next
  let t := tollAt s k
  need (s.time.running && s.time.pulses.isEmpty) .outOfTurn <|
  need (notBefore s.time.ref t) .notDue <|
  let time := takePeriod { s.time with count := k % 2 ^ 48, next := k + 1, pulses := pulseCells s } t k
  let s := { s with
    time := time, east := { s.east with tollCount := k % 2 ^ 48 }
    cells := s.cells.map fun p => (p.1, { p.2 with healthTolls := p.2.healthTolls + 1 }) }
  .next (detachStop (countHalf (countHalf s false 0x40 1 none none) true 0x40 1 none none))

/-- GUARD_INSTANT (R37, R45). -/
def execGuardInstant (cell : Nat) (s : State) : Res :=
  need (decide (cell < cellCount)) .badOperand <|
  need s.time.running .outOfTurn <|
  let now := timeAt s cell
  need (inGuard s now) .notDue <|
  .next (modCell s cell fun x => { x with guardList := inFlight s cell (frameAt s now) })
/-- An order of a late instruction carries deadline 0 from the Toll after its frame on (R43). -/
def lateOrder (s : State) (cell : Nat) (o : Order) : Order :=
  match getFlight s o.insn with
  | some f => if o.cell = cell ∧ lateNow s cell f then { o with deadline := 0 } else o
  | none => o
/-- The activity report of an interval that has ended (R365, R366). -/
def reportActivity (s : State) (cell : Nat) (endTime : Word) : State :=
  modCell (emit s (.activity cell endTime (getCell s cell).activity)) cell fun x => { x with activity := [], reported := (timeAt s cell).toNat / 50000 }
/-- What the pulse does to a context: one that owns a late instruction is left to the Belfry first (R45, R46). -/
def pulseOrHold (s : State) (c : Nat) : State :=
  if overrunPending s c then { s with time := { s.time with heldPulses := s.time.heldPulses ++ [c] } } else pulseCtx s c
/-- TOLL_PULSE (R32, R37, R42, R43, R45, R207, R365, R370). -/
def execTollPulse (cell : Nat) (s : State) : Res :=
  need (s.time.pulses.contains cell) .noSubject <|
  let s := { s with time := { s.time with pulses := s.time.pulses.erase cell } }
  let late := lateHere s cell
  let s := modCell s cell fun x => { x with tollCount := s.time.count % 65536, guardList := [] }
  let s := if late.isEmpty then s else send s 2 cell (cellCount + flag (cellEast cell)) (.overrun late)
  let s := each ((ctxNumbers s).filter fun c => homeOf s c = cell && decide (stateOf s c ≠ .free)) pulseOrHold s
  let s := { s with orders := s.orders.map (lateOrder s cell) }
  .next (settleOverruns (reportActivity s cell (tollAt s (s.time.next - 1))))
/-- OVERRUN_REPORT (R45). -/
def execOverrunReport (cell : Nat) (s : State) : Res :=
  needSome (findMsg s fun m => isOverrun m && m.src == cell) .noSubject fun m =>
  match m.body with
  | .overrun ls =>
    let known (l : Late) : Bool := s.time.lates.any fun k => k.insn == l.insn
    let fresh := ls.filter fun l => !known l
    let s := each fresh (fun s l => countHalf s (cellEast cell) 0x41 1 (some l.ctx) (some (domOf s l.ctx))) (dropMsg s m)
    .next (settleOverruns { s with time := { s.time with lates := s.time.lates ++ fresh } })
  | _ => .fault .noSubject
/-- STOPPED_INTERVAL (R365, R395): while the Toll is stopped, at every multiple of 50,000 ns. -/
def execStoppedInterval (cell : Nat) (s : State) : Res :=
  need (decide (cell < cellCount)) .badOperand <|
  need (!s.time.running && (pulseCells s).contains cell) .outOfTurn <|
  let k := (timeAt s cell).toNat / 50000
  need (decide (k ≠ (getCell s cell).reported)) .notDue <|
  .next (modCell (reportActivity s cell (BitVec.ofNat 64 (k * 50000))) cell fun x => { x with healthTolls := x.healthTolls + 1 })

/-! Cues, lend hints and the halves' clocks (R310, R368-R373). -/

/-- CUE_WAKE (R310): a gated set wakes 8 ns before its cue. -/
def execCueWake (cell insn : Nat) (s : State) : Res :=
  needSome (getOrder s insn cell) .noSubject fun o =>
  needSome o.gated .outOfTurn fun t =>
  need (notBefore (timeAt s cell + 8) t) .notDue <| .next (modOrder s insn cell fun o => { o with gated := none })
/-- Some context homed on a cell has waited on a chime or a Peal for `LEND_US` (R368). -/
def lendsNow (s : State) (cell : Nat) : Bool :=
  decide (s.regs.lendUs ≠ 0) && (ctxNumbers s).any fun c => homeOf s c == cell && decide (stateOf s c = .waiting) &&
    (match (getCtx s c).lendSince with | some t => decide (s.regs.lendUs * 1000 ≤ (timeAt s cell - t).toNat) | none => false)
/-- LEND_THRESHOLD (R368); a hint that is up stays up. -/
def execLendThreshold (cell : Nat) (s : State) : Res :=
  need (decide (cell < cellCount)) .badOperand <|
  need (lendsNow s cell) .notDue <|
  .next (if (getCell s cell).lend then s else emit (modCell s cell fun x => { x with lend := true }) (.lend cell true))
/-- A cell's hint falls once no context keeps it up (R368). -/
def dropLend (s : State) (cell : Nat) : State :=
  if (getCell s cell).lend && !lendsNow s cell then emit (modCell s cell fun x => { x with lend := false }) (.lend cell false) else s
/-- FLOOR_LOST (R371); a FLOOR_OK that is low already does not fall. -/
def execFloorLost (east : Bool) (s : State) : Res := .next (setFloor s east false)
/-- The clock is measured anew (R373). -/
def remeasure (s : State) (c : Clock) : Clock := { c with measure := some (s.time.ref, c.cycles) }
/-- STEP_NOTICE (R370, R372, R373): a step begins, or waits for the stretch; or the step in progress ends. -/
def execStepNotice (east starts lower floorOk : Bool) (s : State) : Res :=
  let c := (getHalf s east).clock
  let quiet := match c.stretchFell with | some t => decide (256 ≤ (s.time.ref - t).toNat) | none => true
  let held := c.stretch || !quiet
  if starts then
    need (!c.stepping && !c.stepHeld) .outOfTurn <|
    .next (modClock (setFloor s east (floorOk && !(lower && !held))) east fun c =>
      if held then { c with stepHeld := true, heldLower := lower } else { c with stepping := true })
  else
    need c.stepping .outOfTurn <| .next (modClock (setFloor s east floorOk) east fun c => { remeasure s c with stepping := false })
/-- STRETCH_CHANGE (R372, R373); a level that the signal has already is no change. -/
def execStretchChange (east high : Bool) (s : State) : Res :=
  .next (if (getHalf s east).clock.stretch = high then s
    else modClock s east fun c => { remeasure s c with stretch := high, stretchFell := if high then none else some s.time.ref })

/-! Health (R394, R395). -/

/-- CORRECTABLE_ERROR (R394, R395, R403). -/
def execCorrectableError (cell : Nat) (kind : CorrKind) (s : State) : Res :=
  need (decide (cell < cellCount) && (decide (kind ≠ .linkCrc) || decide (roleOf cell = .l))) .badOperand <| .next (correctAt s cell kind)
/-- UNCORRECTABLE_GALLEY_ERROR (R381, R395): the cell is DEGRADED, and the order whose data it struck, if any, halts. -/
def execUncorrectableGalleyError (cell insn : Nat) (s : State) : Res :=
  need (decide (cell < cellCount)) .badOperand <| .next (galleyLost s cell (some insn))

/-! Wear (R411-R415). -/

/-- A used fraction: a measurement over its limit; a limit of 0 is never used (R411; log 113). -/
abbrev Used : Type := Nat × Nat
/-- A measurement over its limit. -/
def usedPart (x limit : Nat) : Used := if limit = 0 then (0, 1) else (x, limit)
/-- One used fraction is at least another. -/
def atLeast (a b : Used) : Bool := decide (b.1 * a.2 ≤ a.1 * b.2)
/-- The largest of the three gauge fractions and the gauge that set it, the first on a tie (R411, R412; log 113). -/
def largestGauge (a b c : Used) : Used × Nat :=
  if atLeast a b && atLeast a c then (a, 0) else if atLeast b c then (b, 1) else (c, 2)
/-- One day of reference time. -/
abbrev dayNs : Nat := 86400000000000
/-- `DAYS_RATED` (R412). -/
def daysRatedOf (u : Used) : Nat := saturate 16 ((u.2 - u.1) * 2190 / u.2)
/-- `DAYS_NOW` (R412), from the oldest sample kept: the life left over the rise since then per day. -/
def daysNowOf (u : Used) (now : Word) (history : List (Word × Used)) : Nat :=
  if u.2 ≤ u.1 then 0
  else match history with
  | [] => daysRatedOf u
  | (t, v) :: _ =>
    let dt := (now - t).toNat
    if dt < 3600000000000 ∨ atLeast v u then daysRatedOf u
    else saturate 16 ((u.2 - u.1) * v.2 * dt / ((u.1 * v.2 - v.1 * u.2) * dayNs))
/-- A cell's gauges after a measurement (R411, R412). -/
def measureWear (r : Regs) (now : Word) (drift : List Nat) (emStress ttSeconds : Nat) (w : Wear) : Wear :=
  let ds := (List.range 4).map fun k => saturate 16 (drift.getD k 0)
  let em := saturate 64 (w.em.toNat + emStress)
  let tt := saturate 64 (w.tt.toNat + ttSeconds)
  let (u, gauge) := largestGauge (usedPart (ds.foldl max 0) r.driftLimit) (usedPart em r.emBudget) (usedPart tt 189216000)
  let kept := w.history.filter fun h => decide ((now - h.1).toNat ≤ dayNs)
  { w with
    used := saturate 16 (u.1 * 65536 / u.2), limit := gauge, daysRated := daysRatedOf u, daysNow := daysNowOf u now kept
    drift := BitVec.ofNat 64 (fromBytes (ds.flatMap (toBytes 2))), em := BitVec.ofNat 64 em, tt := BitVec.ofNat 64 tt
    last := some now, history := kept ++ [(now, u)] }
/-- The alarm of a half, naming the first cell that crossed a threshold (R415). -/
def alarmOf (h : HalfRegs) (cell : Nat) (w : Wear) : HalfRegs :=
  if (h.daysMin ≠ 0 ∧ w.daysNow < h.daysMin) ∨ h.usedMax < w.used then
    { h with alarm := true, alarmCell := if h.alarm then h.alarmCell else cell }
  else h
/-- WEAR_MEASURE (R411-R415): every 60 s of reference time; the operands are what the gauges read. -/
def execWearMeasure (cell : Nat) (drift : List Nat) (emStress ttSeconds : Nat) (s : State) : Res :=
  need (decide (cell < cellCount)) .badOperand <|
  need (decide (60000000000 ≤ (s.time.ref - (getCell s cell).wear.last.getD 0).toNat)) .notDue <|
  let w := measureWear s.regs s.time.ref drift emStress ttSeconds (getCell s cell).wear
  .next (modHalf (modCell s cell fun x => { x with wear := w }) (cellEast cell) fun h => alarmOf h cell w)

end Sys2Proof.Machine
end

