-- ==== Sys2Proof/Machine/Arrivals.lean ====
section
/-!
DEFINITION. What reaches a cell over the two networks, and completion: orders, index values, halt flits, slugs, credits,
completion at a destination and its flit, chime updates (R19, R21, R109-R111, R173, R177, R182, R212, R219-R221, R231, R258-R261,
R287, R381, R392, R419, R429).
-/

namespace Sys2Proof.Machine

/-- Orders whose instruction is over leave their channels. -/
def sweepOrders (s : State) : State :=
  let ended (o : Order) : Bool := match getFlight s o.insn with
    | some f => f.origin.isNone && f.complete && !f.dropped && o.writing.isNone && o.failed.isNone && f.stop.isNone
    | none => true
  each (s.orders.filter ended) removeOrder s
/-- What the end of an instruction of a context may end in turn: DRAINs, and the context's PAUSE (R210, R385). -/
def afterEnd (s : State) (c : Nat) : State := wakeDrains (settlePause (sweepOrders s) c)
/-- Ends an instruction for a fault, here and on the chips that work on it (R189, R384). -/
def endWith (s : State) (f : Flight) (code : Code) (cell : Nat) (addr : Word) : State :=
  afterEnd (tellOver (endFlight s f code (some cell) addr) f) f.job.ctx
/-- Work for another chip ends with an error: the fault log names that chip, and a report carries the code (R384; log 36). -/
def failForeign (s : State) (cell : Nat) (f : Flight) (chip k : Nat) (code : Code) : State :=
  let s := logEvent s (cellEast cell) { kind := 5, cell := some cell, pc := BitVec.ofNat 64 chip, code := code, dom := some f.job.domain }
  removeFlight (queueReport s chip f.job.domain f.job.ctx f.job.epoch (.refusal (some k) code true f.job.pc)) f.id

/-! Orders (R21, R173, R321, R392). -/

/-- The other chips whose stream runs from a cell and on which some of these formes lie (R321). -/
def farAt (s : State) (cell : Nat) (xs : List Forme) : List Nat :=
  ((xs.filter fun x => isRemote s.regs.chipId x && ownerCell s (addrChip x.base) == cell).map fun x => addrChip x.base).eraseDups
/-- Passes an instruction of this chip on to the chips its formes lie on (R321). -/
def queueOrders (s : State) (f : Flight) (cell : Nat) : State :=
  let item (reads : Bool) (s : State) (chip : Nat) : State :=
    queueItem s chip f.job.domain f.job.ctx f.job.epoch (.order f.id f.job (f.index.getD []) reads) (some f.id)
  if f.origin.isSome ∨ roleOf cell ≠ .l then s
  else each (farAt s cell f.job.dsts) (item false) (each (farAt s cell f.job.srcs) (item true) s)
/-- A channel takes an order: into its shadow set, or behind the orders already held back (R21, R173). -/
def acceptPlace (s : State) (cell ch : Nat) : Place :=
  if s.orders.any fun o => o.cell == cell && o.ch == ch && decide (o.place = .shadow ∨ o.place = .held) then .held else .shadow
/-- Orders between two cells arrive in the order sent (R23, R430). -/
def firstSent (s : State) (o : Order) : Bool :=
  s.orders.all fun x => x.cell ≠ o.cell || decide (x.place ≠ .sent) || decide (o.insn ≤ x.insn) ||
    (match getFlight s x.insn, getFlight s o.insn with | some a, some b => a.job.home != b.job.home | _, _ => true)
/-- ORDER_ARRIVAL (R21, R173, R392): at a channel that is not ON the order ends as skipped and its context latches INTERNAL. -/
def execOrderArrival (cell insn : Nat) (s : State) : Res :=
  needSome (getOrder s insn cell) .noSubject fun o =>
  needSome (getFlight s insn) .noSubject fun f =>
  need (decide (o.place = .sent) && firstSent s o) .outOfTurn <|
  if !cellOn s cell ∨ (getChan s cell o.ch).state ≠ .on then .next (afterEnd (endStopped s cell o.ch insn) f.job.ctx)
  else
    let p := acceptPlace s cell o.ch
    let s := modOrder { s with seq := s.seq + 1 } insn cell fun x => { x with place := p, accepted := s.seq }
    .next (if (gathered f).isSome then s else queueOrders s f cell)

/-! Index values (R109-R111). -/

/-- The cells that generate addresses for the gathered operand (R111). -/
def indexNeed (f : Flight) : List Nat := if opF f = 0x21 then f.srcCells else if opF f = 0x22 then partCells f else []
/-- An index value is valid (R109, R110). -/
def indexOk (f : Flight) (x : Nat) : Bool :=
  let g := gOf f.job.word
  if opF f = 0x21 then decide (x < lenOf (srcF f 0) g)
  else decide (x < countOf (dstF f 0) g) || (match f.job.aux with | some i => decide (x = 2 ^ tyWidth i.ty - 1) | none => false)
/-- The index values of an instruction on their way to a cell. -/
def isIndex (cell insn : Nat) (m : Msg) : Bool := match m.body with | .index i => i == insn && m.dst == cell | _ => false
/-- The galley slots that an instruction's index values take at a cell (R111, R177). -/
def indexSlots (f : Flight) : Nat :=
  match f.job.aux with
  | some i => ceilDiv ((f.index.getD []).length * tyBytes i.ty) 512
  | none => 0
/-- No earlier order of a context's channel at a cell uses the same queue of slots. -/
def firstInQueue (s : State) (f : Flight) (o : Order) : Bool :=
  s.orders.all fun x => !(x.cell == o.cell && x.ctx == o.ctx && x.ch == o.ch && decide (x.accepted < o.accepted) && decide (x.place ≠ .sent ∧ x.place ≠ .left)) ||
    (match getFlight s x.insn with | some g => queueOf g.job != queueOf f.job | none => true)
/-- INDEX_DELIVERY (R111, R177): the values take slots of the instruction's queue, once its turn there has come, and the cell checks every one; a
failing one ends the instruction, its lowest position named. Two slots are left for the data (log 51). -/
def execIndexDelivery (cell insn : Nat) (s : State) : Res :=
  needSome (findMsg s (isIndex cell insn)) .noSubject fun m =>
  match getFlight s insn, getOrder s insn cell with
  | some f, some o =>
    need (decide (o.place ≠ .sent)) .outOfTurn <|
    let s := dropMsg s m
    match (f.index.getD []).findIdx? fun x => !indexOk f x with
    | some i => .next (endWith s f INDEX_RANGE cell (BitVec.ofNat 64 i))
    | none =>
      let done (s : State) : State := queueOrders (modFlight s insn fun f => { f with indexCells := f.indexCells ++ [cell] }) f cell
      (match findPool s cell f.job.ctx o.ch (queueOf f.job) with
       | none => .next (done s)
       | some p =>
         let k := min (indexSlots f) (p.size - 2)
         need (firstInQueue s f o && decide (k ≤ p.free)) .outOfTurn <|
         let s := modPool s p.id fun p => { p with free := p.free - k }
         let s := modOrder s insn cell fun o => { o with indexHeld := o.indexHeld ++ List.replicate k p.id }
         .next (done (countGalley s cell f.job (indexSlots f))))
  | _, _ => .next (dropMsg s m)

/-! Halt flits (R381). -/

/-- A halt notice of an instruction on its way to a cell. -/
def isHalt (cell insn : Nat) (m : Msg) : Bool := match m.body with | .haltNotice l _ _ _ => l.insn == insn && m.dst == cell | _ => false
/-- HALT_FLIT (R381): the home Compositor latches the code; another cell of the order learns of the halt and parks the order. -/
def execHaltFlit (cell insn : Nat) (s : State) : Res :=
  needSome (findMsg s (isHalt cell insn)) .noSubject fun m =>
  match m.body with
  | .haltNotice l halted code addr =>
    let s := dropMsg s m
    let s := if homeOf s l.ctx = cell then
        raise s l.ctx { code := code, kind := .halt, pc := l.pc, addr := addr, ch := some l.ch, cell := some halted }
      else s
    .next (match getFlight s insn with
      | some f => if (flightCells f).contains cell && decide (stopAt f = some (.halt halted)) && decide (cell ≠ halted) then learnHalt s f cell else s
      | none => s)
  | _ => .fault .noSubject

/-! Slugs and credits (R177, R212, R429). -/

/-- Removes a slug from the mesh. -/
def dropSlug (s : State) (id : Nat) : State := { s with slugs := s.slugs.filter fun g => g.id != id }
/-- A chime update that travelled as a slug has reached the cell that serves its word, or whose link leads to it (R220). -/
def landChime (s : State) (id : Nat) : State :=
  { s with chimes := s.chimes.map fun u => if u.id = id then { u with here := true } else u }
/-- SLUG_ARRIVAL (R177, R211, R212, R220, R232): an ejected slug is staged at its destination; one of a dropped or ended instruction is
discarded and its credit goes back. A chime update or a CRC record waits there for a slot of the port. -/
def execSlugArrival (cell id : Nat) (s : State) : Res :=
  needSome (s.slugs.find? fun g => g.id == id && g.dst == cell) .noSubject fun g =>
  need g.ejected .outOfTurn <|
  let s := dropSlug s id
  match g.chime with
  | some u => .next (landChime s u)
  | none =>
    if !g.record.isEmpty then
      .next (if (getFlight s g.insn).isSome then
        { s with errands := s.errands ++ [{ id := s.seq, insn := g.insn, cell := cell, ws := g.record }], seq := s.seq + 1 } else s)
    else match getFlight s g.insn, getOrder s g.insn cell with
    | some f, some o =>
      if stillF f || f.dropped || o.finished || !o.isDst then .next (returnCredit s (some g.pool))
      else
        let s := modOrder s g.insn cell fun o => { o with arrived := o.arrived ++ [(g.data, g.pool)] }
        .next (parkIfReady (countGalley s cell f.job 1) g.insn)
    | _, _ => .next (returnCredit s (some g.pool))
/-- CREDIT_RETURN (R177). -/
def execCreditReturn (id : Nat) (s : State) : Res :=
  needSome (s.pools.find? fun p => p.id == id) .noSubject fun p =>
  need (decide (0 < p.returning)) .outOfTurn <|
  .next (modPool s id fun p => { p with free := p.free + 1, returning := p.returning - 1 })
/-! Completion (R19, R38, R137, R220, R221, R231). -/

/-- What follows once every part of an instruction is complete: the guard records, the credits and reads of its sources, and the scale registers of a
quantising MOVE (R38, R137). -/
def allDone (s : State) (insn : Nat) : State :=
  match getFlight s insn with
  | some f => if f.parts.all Part.done then spendAtSrc (clearLate s f) f else s
  | none => s
/-- DESTINATION_COMPLETE (R19, R220, R221, R231): the last write of an order has left its cell. A CHECK whose CRC differs latches
CRC_MISMATCH and is complete all the same. -/
def execDestinationComplete (cell insn : Nat) (s : State) : Res :=
  needSome (getOrder s insn cell) .noSubject fun o =>
  needSome (getFlight s insn) .noSubject fun f =>
  need (decide (o.place = .active) && !o.finished && !stillF f && !o.stopped && writesLeft s f o) .outOfTurn <|
  let s := if checkFails f o ∧ f.origin.isNone then
      raise s f.job.ctx { code := CRC_MISMATCH, kind := .ending, pc := f.job.pc, ch := some o.ch, cell := some cell }
    else s
  let s := completeAt (modOrder s insn cell fun o => { o with finished := true }) f o
  let s := tellHome (allDone s insn) f cell false
  .next (settleChannel (afterEnd (leaveIfDone s insn cell) f.job.ctx) cell o.ch)
/-- A completion report of an instruction on its way from a cell. -/
def isCompletion (insn cell : Nat) (m : Msg) : Bool :=
  match m.body with
  | .completion i _ => i == insn && m.src == cell
  | .remoteDone i _ _ => i == insn && m.src == cell
  | _ => false
/-- COMPLETION_FLIT (R19, R329, R383): a completion, skip or remote completion report reaches the home Compositor. -/
def execCompletionFlit (insn cell : Nat) (s : State) : Res :=
  needSome (findMsg s (isCompletion insn cell)) .noSubject fun m =>
  let c := ((getFlight s insn).map fun f => f.job.ctx).getD ctxCount
  let s := dropMsg s m
  match m.body with
  | .completion _ _ => .next (afterEnd (learnPart s insn cell) c)
  | .remoteDone _ chip t =>
    let s := modFlight s insn (remoteArrived chip t)
    let s := match getFlight s insn with | some f => clearLate s f | none => s
    .next (afterEnd (checkComplete s insn) c)
  | _ => .fault .noSubject

/-! Chime updates (R182, R219, R220, R258-R261, R287, R384, R419). -/

/-- The number of the chime a word is. -/
def chimeNo (a : Word) : Nat := (addrOff a % 2 ^ 24 - 0xBFFF00) / 4
/-- The overflow-flag word of the core that owns a chime word (R259). -/
def flagAddr (a : Word) : Nat := a.toNat - a.toNat % 2 ^ 24 + 0xBFFFC0
/-- An update waits for a write: one granted before `upto`, or one of an earlier instruction or of its own (R182, R287). -/
def guards (u : ChimePend) (upto tag insn : Nat) : Bool := decide (tag < upto) || decide (insn ≤ u.before)
/-- No earlier order of the context has still to write at a cell (R182). -/
def ordersGone (s : State) (u : ChimePend) (cell : Nat) : Bool :=
  s.orders.all fun o => !(o.cell == cell && o.ctx == u.ctx && o.isDst && !o.finished && decide (o.insn < u.before)) ||
    (match getFlight s o.insn with | some f => f.dropped || f.skipped || f.ended.isSome | none => true)
/-- Every write at a cell that an update waits for has been answered, by a register's owner too, and none waits to be repeated (R287, R381,
R468). -/
def writesAnswered (s : State) (u : ChimePend) (cell upto : Nat) : Bool :=
  (s.accesses.all fun a => !(a.isWrite && a.cell == cell && a.ctx == u.ctx && (match a.kind with | .put i => guards u upto a.tag i | _ => decide (a.tag < upto)))) &&
  (s.regAccesses.all fun a => !(a.isWrite && a.cell == cell && (match getFlight s a.insn with
    | some f => f.job.ctx == u.ctx && guards u upto a.key a.insn
    | none => false))) &&
  (s.orders.all fun o => o.ctx != u.ctx || (match o.failed with | some x => x.cell != cell || !guards u upto x.tag o.insn | none => true))
/-- Every host write at a cell that an update waits for is covered by a flushing read (R287, R288). -/
def writesFlushed (s : State) (u : ChimePend) (cell upto : Nat) : Bool :=
  s.hostWrites.all fun h => !(h.cell == cell && h.ctx == u.ctx && guards u upto h.id h.insn)
/-- Nothing at a cell comes before an update: no order, no write without its evidence (R182, R287). -/
def chimeClear (s : State) (u : ChimePend) (cell upto : Nat) : Bool :=
  ordersGone s u cell && writesAnswered s u cell upto && writesFlushed s u cell upto
/-- An update can leave the cell it starts from: nothing is before it there (R182, R287). -/
def chimeLeaves (s : State) (u : ChimePend) : Bool := chimeClear s u u.cell u.guard
/-- An update is at a cell: that of its completion or SIGNAL, or the one to which its slug has come (R220). -/
def chimeAt (u : ChimePend) (cell : Nat) : Bool := u.here || u.cell == cell
/-- An update can be made, or passed on, at a cell: it is there, nothing is before it at the cell it starts from nor here, and no earlier update
of its context to the same sector is still to come. -/
def chimeReady (s : State) (u : ChimePend) (cell : Nat) : Bool :=
  chimeAt u cell && (u.here || chimeLeaves s u) && (decide (cell = u.cell) || decide (roleOf cell = .l) || chimeClear s u cell s.seq) &&
  s.chimes.all fun x => !(x.ctx == u.ctx && decide (x.id < u.id) && x.addr.toNat / 32 == u.addr.toNat / 32)
/-- What an update leaves: the new value, or its fault, and whether the overflow flag is set (R258). -/
def chimeResult (u : ChimePend) (v : BitVec 32) : BitVec 32 × Code × Bool :=
  match u.op with
  | .add => (v + u.amount, 0, false)
  | .give =>
    let sum := v.toNat + u.amount.toNat
    if 0x7FFFFFFF < sum then (0x7FFFFFFF, 0, true) else (BitVec.ofNat 32 sum, 0, false)
  | .sub => if u.amount.toNat ≤ v.toNat then (v - u.amount, 0, false) else (v, CHIME_UNDERFLOW, false)
/-- Counts one service write at a cell under the tag of its cause (R302, R367, R403). -/
def countService (s : State) (cell : Nat) (u : ChimePend) : State :=
  let ctx := if u.ctx < ctxCount then some u.ctx else none
  countCell (work s cell u.tag .writes 1 0x02 ctx (some (chimeDom s u))) cell 0x03 1 ctx (some (chimeDom s u))
/-- Sends an update towards another chip, which will report it performed, or a SUB's result (R219, R233, R284, R321); towards a lost peer
it takes the fault of R338. -/
def forwardChime (s : State) (u : ChimePend) : State :=
  let chip := addrChip u.addr
  let p : Payload := if u.before = u.id then .signal u.id u.addr u.op u.amount u.pc else .chime u.id u.addr u.op u.amount u.pc
  let s := if u.wantsResult then s else
    { s with distant := s.distant ++ [{ id := u.id, chip := chip, ctx := u.ctx, insn := u.before, prefetch := u.prefetch, pc := u.pc }] }
  if !peerLost s chip then queueItem s chip (chimeDom s u) u.ctx u.epoch p none
  else if u.wantsResult then failHeld s chip LINK_LOST { item := { payload := p }, ctx := if u.ctx < ctxCount then some u.ctx else none }
  else endItems s chip u.id LINK_LOST
/-- Applies an update to its word, which held `v`, and to the overflow flags, which held `flags`: these are one more access, for which the
cell's port has a slot to give (R258, R259, R261, R302). -/
def applyChime (s : State) (cell : Nat) (u : ChimePend) (v : BitVec 32) (flags : Word) : State :=
  let ctx := if u.ctx < ctxCount then some u.ctx else none
  let (new, code, spilt) := chimeResult u v
  let s := if code = 0 then countCell (writeWord32 s u.addr new) cell 0x13 1 ctx (some (chimeDom s u)) else s
  let s := if new = v then s else changeStrobe s u.addr
  let s := if spilt then
      let set := flags ||| (1#64 <<< chimeNo u.addr)
      let s := countCell (countService s cell u) cell 0x14 1 ctx (some (chimeDom s u))
      let s := modCell { s with mem := memPutBytes s.mem (flagAddr u.addr) (toBytes 8 set.toNat) } cell fun x => { x with owed := x.owed + 1 }
      if set = flags then s else changeStrobe s u.addr
    else s
  answerChime s cell u code false
/-- CHIME_UPDATE (R220, R258-R261, R287, R302, R384): in the slot that the port of the cell serving its word has given it, an update is applied to
the word, which holds `old` there, and `flags` are the core's overflow flags; or the L-cell passes it on to another chip. -/
def execChimeUpdate (cell id : Nat) (status : AttStatus) (old flags : Word) (s : State) : Res :=
  needSome (s.chimes.find? fun u => u.id == id) .noSubject fun u =>
  need (decide (servingCell s u.cell u.cell u.addr.toNat = cell) && decide (status ≠ .timeout)) .badOperand <|
  let far := decide (addrChip u.addr ≠ s.regs.chipId)
  need (if far then chimeReady s u cell else s.granted.contains id) .outOfTurn <|
  let s := { s with chimes := s.chimes.filter fun x => x.id != id, granted := s.granted.filter fun k => k ≠ id }
  let s :=
    if far then forwardChime s u
    else match statusCode status with
      | some code => answerChime s cell u code true
      | none => applyChime s cell u (old.setWidth 32) flags
  .next (wakeDrains (settleOrigin s u.before))
/-- SLUG_REPLAY_FAIL (R429): the slug is discarded and its order ends with INTERNAL; a chime update is not made, and its context latches
INTERNAL. -/
def execSlugReplayFail (id : Nat) (s : State) : Res :=
  needSome (s.slugs.find? fun g => g.id == id) .noSubject fun g =>
  need (!g.ejected) .outOfTurn <|
  let s := dropSlug s id
  match g.chime with
  | some k =>
    .next (match s.chimes.find? fun u => u.id == k with
      | some u => wakeDrains (settleOrigin (answerChime { s with chimes := s.chimes.filter fun x => x.id != k } g.dst u INTERNAL true) u.before)
      | none => s)
  | none =>
    let s := if g.record.isEmpty then returnCredit s (some g.pool) else s
    .next (match getFlight s g.insn with
      | some f =>
        if f.dropped then s
        else match f.origin with
         | some (chip, k) => failForeign s g.dst f chip k INTERNAL
         | none => endWith s f INTERNAL g.dst 0
      | none => s)

end Sys2Proof.Machine
end

