-- ==== Sys2Proof/Machine/Responses.lean ====
section
/-!
DEFINITION. What the attachment peers, the host and the register owners answer: reads, writes, flushing reads, host timeouts,
register accesses (R111, R229, R284, R288, R293, R359, R360, R381, R384, R416-R418, R423, R468).
-/

namespace Sys2Proof.Machine

/-! Sealed blocks as they are read (R359, R360). -/

/-- A block of a sealed source that is there with its tag record and not verified yet. -/
def openable (f : Flight) (o : Order) : List Nat :=
  ((o.tags.map Prod.fst).filter fun b => inHull (srcF f 0) (128 * b) && !o.auxDone.contains b &&
    (List.range 128).all fun i => (tabFind o.sealedData (128 * b + i)).isSome)
/-- Opens a block: its plain bytes, when the record's tag and zero bytes agree (R359, R360). -/
def openBlock (d : Domain) (key : BitVec 256) (base : Word) (o : Order) (b : Nat) : Option (List Byte) :=
  let rec_ := sectorBytes (tabGet 0 o.tags b)
  let iv := sealIv (bytesAt rec_ 0x16 2) (sealBlock d base (128 * b)) (bytesAt rec_ 0x10 6)
  let cipher := (List.range 128).flatMap fun i => sectorBytes (tabGet 0 o.sealedData (128 * b + i))
  let tag := BitVec.ofNat 128 (bytesAt rec_ 0 16)
  if bytesAt rec_ 0x18 8 = 0 ∧ Config.gcmTag key iv (rec_.drop 16 ++ cipher) = tag then some (Config.gcmDecrypt key iv cipher) else none
/-- A verified block's plain sectors take the place of what was read. -/
def keepPlain (o : Order) (b : Nat) (plain : List Byte) : Order :=
  { o with
    auxDone := o.auxDone ++ [b]
    sealedData := (List.range 128).foldl (fun t i => tabSet t (128 * b + i) (bytesSector ((plain.drop (32 * i)).take 32))) o.sealedData }
/-- The stream position at which a block of a sealed source begins. -/
def blockStart (f : Flight) (b : Nat) : Nat :=
  let inBlock (u : Nat) : Bool := match srcUnit f 0 u with | some secs => secs.any fun x => x / 128 == b | none => false
  match (List.range (ceilDiv (totalF f) (srcPer f 0))).find? inBlock with
  | some u => u * srcPer f 0
  | none => totalF f
/-- An instruction fails at a stream position: it ends with the code once everything before that has been written (R360). -/
def failAt (s : State) (f : Flight) (cell : Nat) (code : Code) (addr : Word) (n : Nat) : State :=
  let first : Bool := match f.stop with | some t => decide (n < t.limit) || (match t.reason with | .fail _ => false | _ => true) | none => true
  let note (t : Stop) : Stop := if first then { t with code := code, addr := addr } else t
  parkIfReady (modFlight (stopFlight s f (.fail cell) n) f.id fun f => { f with stop := f.stop.map note }) f.id
/-- An instruction that has failed and come to rest ends (R189, R360). -/
def endFailed (s : State) (f : Flight) : State :=
  match f.stop with
  | some t => (match t.reason with | .fail cell => if t.parked then endWith s f t.code cell t.addr else s | _ => s)
  | none => s
/-- Verifies a block of a sealed source; a failure, or an empty key slot, ends the MOVE there: the blocks before it stand written (R351, R360). -/
def verifyBlock (insn cell : Nat) (s : State) (b : Nat) : State :=
  match getFlight s insn, getOrder s insn cell with
  | some f, some o =>
    let d := getDom s f.job.domain
    let fail (s : State) (code : Code) : State := failAt (modOrder s insn cell fun o => { o with tags := tabErase o.tags b }) f cell code (BitVec.ofNat 64 (4096 * b)) (blockStart f b)
    match d.key with
    | none => fail s KEY_ABSENT
    | some key =>
      match openBlock d key (srcF f 0).base o b with
      | some plain => modOrder s insn cell fun o => keepPlain o b plain
      | none =>
        let s := countCell s cell 0x1E 1 (some f.job.ctx) (some f.job.domain)
        fail (modCell s cell fun x => { x with authFails := saturate 16 (x.authFails + 1) }) AUTH_FAIL
  | _, _ => s
/-- Verifies every block that can be. -/
def verifyBlocks (s : State) (insn cell : Nat) : State :=
  match getFlight s insn, getOrder s insn cell with
  | some f, some o => if (srcF f 0).sealed && !f.dropped then each (openable f o) (verifyBlock insn cell) s else s
  | _, _ => s

/-! Reads (R418). -/

/-- Sectors of read data. -/
def sectorsOf (n : Nat) (data : List Byte) : List Sector := (List.range n).map fun i => bytesSector ((data.drop (32 * i)).take 32)
/-- The index values of an instruction, once every sector of its index forme is there (R108). -/
def indexValues (f : Flight) (x : Forme) : Option (List Nat) :=
  let n := countOf x 0
  let per := tyPerSector x.ty
  let unit (u : Nat) : Option (List Nat) :=
    let ds := (unitSectors x (u * per :: List.replicate 7 0)).map (tabFind f.indexData)
    if ds.all Option.isSome then some (unpackUnit x.ty (ds.map fun d => swapSector x.swap (d.getD 0))) else none
  let us := (List.range (ceilDiv n per)).map unit
  if us.all Option.isSome then some ((us.flatMap fun u => u.getD []).take n) else none
/-- Index data arrives at the cell of the index forme; the values go to every cell that generates addresses (R111). -/
def takeIndex (s : State) (f : Flight) (a : Access) (data : List Sector) : State :=
  let f := { f with indexData := (a.sectors.zip data).foldl (fun t p => tabSet t p.1 p.2) f.indexData }
  let s := modFlight s f.id fun _ => f
  match f.job.aux.bind (indexValues f) with
  | some xs =>
    let s := modFlight s f.id fun f => { f with index := some xs }
    each (indexNeed f).eraseDups (fun s m => send s 0 a.cell m (.index f.id)) s
  | none => s
/-- A dequantising MOVE goes on to the next window while the scales of the present one are there (R137). -/
def advanceScales (f : Flight) (x : Forme) : Nat → Order → Order
  | 0, o => o
  | fuel + 1, o =>
    if o.scaleAt < totalF f ∧ (windowScaleSectors f x o.scaleAt).all fun d => (tabFind o.scaleSectors d).isSome then
      advanceScales f x fuel { o with scaleAt := windowEndF f o.scaleAt }
    else o
/-- Scale data arrives (R137). -/
def takeScales (f : Flight) (a : Access) (data : List Sector) (o : Order) : Order :=
  let o := { o with scaleSectors := (a.sectors.zip data).foldl (fun t p => tabSet t p.1 p.2) o.scaleSectors }
  match f.job.aux with
  | some x => advanceScales f x (totalF f) o
  | none => o
/-- Data of an attachment read arrives. -/
def takeRead (s : State) (a : Access) (data : List Sector) : State :=
  let fill (t : Tab Sector) (ks : List Nat) : Tab Sector := (ks.zip data).foldl (fun t p => tabSet t p.1 p.2) t
  match a.kind with
  | .source i keys =>
    (match getFlight s i with
     | some f =>
       let s := countGalley s a.cell f.job 1
       if (srcF f 0).sealed then
         verifyBlocks (modOrder s i a.cell fun o => { o with sealedData := fill o.sealedData a.sectors }) i a.cell
       else modOrder s i a.cell fun o => { o with sectors := fill o.sectors keys }
     | none => s)
  | .tag i block => verifyBlocks (modOrder s i a.cell fun o => { o with tags := tabSet o.tags block (data.headD 0) }) i a.cell
  | .modify i => modOrder s i a.cell fun o => { o with rmw := o.rmw.map fun m => { m with got := fill m.got a.sectors } }
  | .index i => (match getFlight s i with | some f => takeIndex s f a data | none => s)
  | .scale i _ => (match getFlight s i with | some f => modOrder s i a.cell (takeScales f a data) | none => s)
  | .put _ | .discard => s
/-- The instruction an access is for. -/
def accessInsn : AccessKind → Option Nat
  | .source i _ | .tag i _ | .modify i | .index i | .scale i _ | .put i => some i
  | .discard => none
/-- The stream position at which a failed read stops its instruction. -/
def readPoint (f : Flight) (o : Order) : AccessKind → Nat
  | .source _ keys =>
    (keys.map fun k => max f.from_ (k / 128 * srcPer f (k % 16))).foldl min (totalF f)
  | .modify _ => (match o.rmw with | some m => m.positions.foldl min (totalF f) | none => totalF f)
  | .scale _ _ => o.scaleAt
  | _ => max f.from_ (tabGet 0 o.emit 0)
/-- A read ends with an error: the channel halts, and RESUME repeats the read; a GATHER or SCATTER whose index read fails ends, work for another
chip is reported (R381, R382, R384). What a dropped instruction had asked for is nobody's any more (R211). -/
def failRead (s : State) (a : Access) (code : Code) : State :=
  match (accessInsn a.kind).bind (getFlight s) with
  | none => s
  | some f =>
    let addr : Word := BitVec.ofNat 64 (32 * a.sectors.headD 0)
    if f.dropped then s
    else match f.origin, a.kind, getOrder s f.id a.cell with
    | some (chip, k), _, _ => failForeign s a.cell f chip k code
    | none, .index _, _ => endWith s f code a.cell addr
    | none, _, some o =>
      haltFlight (modOrder s f.id a.cell fun o => { o with readAgain := some { kind := a.kind, sectors := a.sectors } }) f a.cell code false addr (readPoint f o a.kind)
    | none, _, none => s
/-- Removes an access. -/
def dropAccess (s : State) (tag : Nat) : State := { s with accesses := s.accesses.filter fun a => a.tag != tag }
/-- An H-cell's link is down, or was down while an access was under way (R423). -/
def hostDown (s : State) (cell tag : Nat) : Bool := !(getCell s cell).linkUp || decide (tag < (getCell s cell).upFrom)
/-- What a response's status amounts to: an H-cell whose link is down ends every access with ERR (R423), and the test port may
have injected an error (R434). -/
def statusAt (s : State) (cell tag : Nat) (st : AttStatus) : Option Code :=
  if roleOf cell = .h ∧ hostDown s cell tag then some BUS_ERROR
  else match (getCell s cell).injected with
    | some .attErr => some BUS_ERROR
    | some .attUncorr => some ECC_UNCORR
    | _ => statusCode st
/-- The injected error has been used (R434). -/
def useInjected (s : State) (cell : Nat) : State :=
  match (getCell s cell).injected with
  | some _ => modCell s cell fun x => { x with injected := none }
  | none => s
/-- Accesses to one sector are answered in the order in which the peer took them (R417). -/
def inOrder (s : State) (a : Access) : Bool :=
  s.accesses.all fun b => !(b.cell == a.cell && decide (b.tag < a.tag) && b.sectors.any a.sectors.contains)
/-- Only an H-cell answers with TIMEOUT, and it does so itself (R418, R423). -/
def statusFits (st : AttStatus) : Bool := decide (st ≠ .timeout)
/-- A host completion for a tag that a retry has superseded, or whose read has timed out (R423). -/
def superseded (s : State) (cell tag : Nat) : Bool := decide (roleOf cell = .h) && decide (tag < s.seq)
/-- READ_RESPONSE (R111, R360, R381, R384, R417, R418, R423): a completion for a superseded tag is discarded. -/
def execReadResponse (cell tag : Nat) (status : AttStatus) (data : List Byte) (s : State) : Res :=
  match s.accesses.find? fun a => a.tag == tag && a.cell == cell && !a.isWrite with
  | none => need (superseded s cell tag) .noSubject <| .next s
  | some a =>
  need (statusFits status && (decide (status ≠ .ok) || decide (data.length = 32 * a.sectors.length))) .badOperand <|
  need (inOrder s a) .outOfTurn <|
  let code := statusAt s cell tag status
  let s := useInjected (dropAccess s tag) cell
  .next (match code with
    | some e => failRead s a e
    | none => takeRead s a (sectorsOf a.sectors.length data))

/-! Writes (R284, R418). -/

/-- The order that made a write. -/
def writerOf (s : State) (insn tag : Nat) : Option Order :=
  s.orders.find? fun o => o.insn == insn && (match o.writing with | some w => w.tag == tag | none => false)
/-- An order's write has been answered: its lane goes on; one that had left its channel is over. -/
def answered (o : Order) : Order :=
  match o.writing with
  | some w => { o with writing := none, lanes := (match w.lane with | some l => tabSet o.lanes l w.next | none => o.lanes) }
  | none => o
/-- A write has been performed as far as its cell can tell (R284): a report to another chip may be due, and its instruction may come to
rest. -/
def finishWrite (s : State) (insn tag : Nat) : State :=
  let s := match writerOf s insn tag with
    | some o => if o.place = .left then removeOrder s o else modOrder s insn o.cell answered
    | none => s
  settleComplete (parkIfReady (settleOrigin s insn) insn) insn
/-- A sector as memory holds it; a byte that nothing has written is that of the data to be written. -/
def heldSector (s : State) (d : Nat) (new : Sector) : Sector :=
  bytesSector ((List.range 32).map fun i => (memRead s.mem (32 * d + i)).getD ((sectorBytes new).getD i 0))
/-- One sector of a write takes its data; where another unit of the order wrote it before, `sharedSector` says what it holds (R80, R112; log 11). -/
def landSector (a : Access) (s : State) (p : Nat × Sector × Option Nat) : State :=
  let i := (accessInsn a.kind).getD 0
  match p.2.2, getFlight s i, writerOf s i a.tag with
  | some u, some f, some o =>
    let s' := writeSector { s with fresh := s.fresh + 1 } p.1 (sharedSector s f o p.1 (some u) (heldSector s p.1 p.2.1) p.2.1)
    modOrder s' o.insn o.cell (noteUnit p.1 (some u))
  | _, _, _ => writeSector s p.1 p.2.1
/-- The sectors of a write take their data; a host write then waits for a flushing read (R284, R288). -/
def landWrite (s : State) (a : Access) : State :=
  let units := a.units ++ List.replicate a.sectors.length none
  let s := each (a.sectors.zip (a.data.zip units)) (landSector a) s
  if roleOf a.cell = .h then
    { s with hostWrites := s.hostWrites ++ [{ id := a.tag, cell := a.cell, ctx := a.ctx, sector := a.sectors.getLastD 0, insn := (accessInsn a.kind).getD 0, prefetch := a.prefetch }] }
  else s
/-- The stream position at which a failed write stops its instruction: that of its lane, or for an auxiliary write the next
boundary. -/
def writePoint (s : State) (f : Flight) (o : Order) (w : Writing) : Nat :=
  match w.lane, o.rest with
  | some l, _ => laneStart s f l (lanePos o l)
  | none, some p => laneStart s f p.lane (lanePos o p.lane)
  | none, none => min (totalF f) (pausePoint s f)
/-- A write as an order keeps it when it has failed, to be repeated on RESUME (R382). -/
def failedWrite (a : Access) (w : Writing) (pos : Nat) : FailedWrite :=
  let units := a.units ++ List.replicate a.sectors.length none
  { tag := a.tag, cell := a.cell, lane := w.lane, next := w.next, pos := pos,
    ws := (a.sectors.zip (a.data.zip units)).map fun p => { sector := p.1, data := p.2.1, unit := p.2.2 } }
/-- A write ends with an error: the channel halts, and the write is repeated when that is resolved, the last one of an order that had completed
too; where the channel has stopped since, and for an instruction that is over, the context latches the code; work for another chip is
reported (R381, R382, R384; log 53). -/
def failWrite (s : State) (a : Access) (code : Code) : State :=
  let addr : Word := BitVec.ofNat 64 (32 * a.sectors.headD 0)
  match accessInsn a.kind with
  | none => s
  | some i =>
    match getFlight s i, writerOf s i a.tag with
    | some f, w =>
      (match f.origin, w with
       | some (chip, k), _ => failForeign s a.cell f chip k code
       | none, some o =>
         let x := o.writing.getD { tag := a.tag }
         let pos := match x.lane with | none => if o.finished then totalF f else writePoint s f o x | some _ => writePoint s f o x
         if !o.finished || (decide ((getChan s o.cell o.ch).state = .on) && cellOn s o.cell) then
           haltFlight (modOrder s i o.cell fun o => { o with writing := none, failed := some (failedWrite a x pos) }) f o.cell code true addr pos
         else
           let s := if o.place = .left then removeOrder s o else modOrder s i o.cell answered
           raise (settleComplete s i) a.ctx { code := code, kind := .ending, pc := f.job.pc, addr := addr, cell := some a.cell }
       | none, none => if f.dropped then s else raise s a.ctx { code := code, kind := .ending, pc := f.job.pc, addr := addr, cell := some a.cell })
    | none, _ => if a.ctx < ctxCount then raise s a.ctx { code := code, kind := .ending, pc := a.pc, addr := addr, cell := some a.cell } else s
/-- WRITE_RESPONSE (R284, R287, R381, R417, R418). -/
def execWriteResponse (cell tag : Nat) (status : AttStatus) (s : State) : Res :=
  needSome (s.accesses.find? fun a => a.tag == tag && a.cell == cell && a.isWrite) .noSubject fun a =>
  need (statusFits status) .badOperand <|
  need (inOrder s a) .outOfTurn <|
  let code := statusAt s cell tag status
  let s := useInjected (dropAccess s tag) cell
  .next (match code with
    | some e => failWrite s a e
    | none => finishWrite (landWrite s a) ((accessInsn a.kind).getD 0) tag)

/-! The host port (R288, R293, R423). -/

/-- HOST_LINK_STATE (R423): an access made before the link came up ends with ERR all the same. -/
def execHostLinkState (cell : Nat) (up : Bool) (s : State) : Res :=
  need (decide (roleOf cell = .h) && decide (cell < cellCount)) .badOperand <|
  .next (modCell s cell fun x => { x with linkUp := up, upFrom := if up && !x.linkUp then s.seq else x.upFrom })
/-- FENCEs of a context that a failed flushing read faults (R293). -/
def faultFence (s : State) (h : Flush) (code : Code) : State :=
  match (getCtx s h.ctx).wait with
  | .fence 3 _ cells => if cells.contains h.cell then raiseHere s h.ctx code .sync (BitVec.ofNat 64 (32 * h.sector)) none else s
  | _ => s
/-- Chime updates that a failed flushing read guarded are not made (R288). -/
def faultChimes (s : State) (h : Flush) (code : Code) : State :=
  let mine := s.chimes.filter fun u => u.flush == some h.id
  let s := { s with chimes := s.chimes.filter fun u => u.flush != some h.id }
  each mine (fun s u => settleOrigin (answerChime s h.cell u code false) u.before) s
/-- A flushing read ends: the host writes it covers have been performed; or what it guarded faults (R284, R288, R293). -/
def endFlush (s : State) (h : Flush) (code : Option Code) : State :=
  let s := { s with flushes := s.flushes.filter fun x => x.id != h.id }
  match code with
  | none =>
    { s with
      hostWrites := s.hostWrites.filter fun w => !(w.cell == h.cell && decide (w.id < h.upto))
      chimes := s.chimes.map fun u => if u.flush = some h.id then { u with flush := none } else u }
  | some e => wakeDrains (faultFence (faultChimes s h e) h e)
/-- FLUSH_COMPLETE (R284, R288, R293, R423): a completion for a superseded tag is discarded. -/
def execFlushComplete (cell id : Nat) (status : AttStatus) (s : State) : Res :=
  match s.flushes.find? fun h => h.id == id && h.cell == cell with
  | none => need (superseded s cell id) .noSubject <| .next s
  | some h =>
  need (statusFits status) .badOperand <|
  .next (endFlush s h (if hostDown s cell id then some BUS_ERROR else statusCode status))
/-- A host read issued again, with a new tag (R423). -/
def retryRead (s : State) (a : Access) : State :=
  let again : Access := { a with tag := s.seq, issued := s.time.ref, tries := a.tries + 1 }
  let s := dropAccess s a.tag
  emit { s with accesses := s.accesses ++ [again], seq := s.seq + 1 } (.hostRead a.cell again.tag)
/-- A flushing read issued again, with a new tag (R423). -/
def retryFlush (s : State) (h : Flush) : State :=
  let again : Flush := { h with id := s.seq, issued := s.time.ref, tries := h.tries + 1 }
  let point (u : ChimePend) : ChimePend := if u.flush = some h.id then { u with flush := some again.id } else u
  let s := { s with flushes := (s.flushes.filter fun x => x.id != h.id) ++ [again], chimes := s.chimes.map point, seq := s.seq + 1 }
  emit s (.hostRead h.cell again.id)
/-- HOST_READ_TIMEOUT (R288, R423): a host read, or a flushing read, is issued again with a new tag, or ends with HOST_TIMEOUT. -/
def execHostReadTimeout (cell tag : Nat) (s : State) : Res :=
  let x := getCell s cell
  match s.flushes.find? fun h => h.id == tag && h.cell == cell with
  | some h =>
    need (elapsedUs s h.issued x.readTimeoutUs) .notDue <|
    .next (if h.tries < x.readRetries then retryFlush s h else endFlush s h (some HOST_TIMEOUT))
  | none =>
    needSome (s.accesses.find? fun a => a.tag == tag && a.cell == cell && !a.isWrite && decide (roleOf cell = .h)) .noSubject fun a =>
    need (elapsedUs s a.issued x.readTimeoutUs) .notDue <|
    .next (if a.tries < x.readRetries then retryRead s a else failRead (dropAccess s tag) a HOST_TIMEOUT)

/-! Ends in engine register space (R468). -/

/-- A sector of register words once all four are there. -/
def regSector (t : Tab Word) (sector : Nat) : Option Sector :=
  let ws := (List.range 4).map fun i => tabFind t (4 * sector + i)
  if ws.all Option.isSome then some (bytesSector (ws.flatMap fun w => toBytes 8 (w.getD 0).toNat)) else none
/-- A word read from register space joins its sector. -/
def takeWord (a : RegAccess) (v : Word) (o : Order) : Order :=
  let ws := tabSet o.words a.word v
  match regSector ws (a.word / 4) with
  | some d => { o with words := ws.filter fun p => p.1 / 4 != a.word / 4, sectors := tabSet o.sectors a.key d }
  | none => { o with words := ws }
/-- REGISTER_ACCESS_RESPONSE (R450, R455, R468): one 64-bit word is read or written at its owner. A word that nobody waits for any more, its
order having stopped, is dropped. -/
def execRegisterAccessResponse (id : Nat) (s : State) : Res :=
  match s.regAccesses.find? fun a => a.id == id with
  | none => need (decide (id < s.seq)) .noSubject <| .next s
  | some a =>
  need (!earlierAccess s a) .outOfTurn <|
  let off := 8 * a.word % 2 ^ 48
  let s := { s with regAccesses := s.regAccesses.filter fun x => x.id != id }
  if !a.isWrite then .next (modOrder s a.insn a.cell (takeWord a (readReg s off)))
  else
    let c := match getFlight s a.insn with | some f => f.job.ctx | none => ctxCount
    let s := writeReg s (.context c) off a.data
    if s.regAccesses.any fun x => x.isWrite && x.key == a.key then .next s else .next (finishWrite s a.insn a.key)

end Sys2Proof.Machine
end

