-- ==== Sys2Proof/Machine/Stages.lean ====
section
/-!
DEFINITION. Arbitration: the classes of a port's slots, ranking, wait counters, limiters, and what each stage of a cell grants:
attachment accesses, register accesses, slug injection and ejection, router outputs, the datapath and the impose unit
(R12, R43, R95, R100-R106, R148, R168, R173, R177-R181, R211, R220, R232, R260, R288, R301-R308, R332, R359, R366, R374, R382, R403, R410, R416,
R427, R468).
-/

namespace Sys2Proof.Machine

/-! Ranking (R302-R306). -/

/-- The classes of accesses at an attachment port (R302). -/
inductive PortClass where
  | read | write | remote
deriving DecidableEq, Repr
/-- The class of the slot of an engine cycle (R302). -/
def slotClass (x : Cell) (t : Nat) : PortClass :=
  let k := t % 256
  let m := x.shareRemote
  if k * m / 256 < (k + 1) * m / 256 then .remote
  else
    let u := k - k * m / 256
    let both := x.shareRead + x.shareWrite
    if u * x.shareRead / both < (u + 1) * x.shareRead / both then .read else .write
/-- A request at a stage, for some job: what R306 ranks it by, its wait counter, its limiter with what one transfer costs, the cycles that one
takes and the transfers it has left (R304-R306, R309), whether the port's own credits let it be granted (R416), and the context and domain it works for
(R401). A service access has priority 4 and its age in place of a deadline. -/
structure Ask (α : Type) where
  job : α
  prio : Nat
  deadline : Nat
  num : Nat
  wait : Nat := 0
  acc : Nat := 1024
  rate : Nat := 256
  cost : Nat := 0
  beats : Nat := 1
  left : Nat := 1
  fit : Bool := true
  ctx : Option Nat := .none
  dom : Option Nat := .none
deriving DecidableEq, Repr
/-- The priority of service accesses in an `Ask` (R306, step 1). -/
abbrev servicePrio : Nat := 4
/-- The limiter of a request allows its transfer (R304, R306). -/
def Ask.eligible {α : Type} (a : Ask α) : Bool := decide (a.cost ≤ a.acc)
/-- A wait counter has reached the limit (R305). -/
def isForced (limit wait : Nat) : Bool := decide (limit ≤ wait)
/-- The place of a requester in the rotation that starts after the last one granted (R306). -/
def turnOf (last n : Nat) : Nat := (n + 63 - last) % 64
/-- A request goes before another (R306). -/
def goesBefore {α : Type} (limit last : Nat) (a b : Ask α) : Bool :=
  if a.prio ≠ b.prio then decide (b.prio < a.prio)
  else if isForced limit a.wait ≠ isForced limit b.wait then isForced limit a.wait
  else if a.deadline ≠ b.deadline then decide (a.deadline < b.deadline)
  else decide (turnOf last a.num < turnOf last b.num)
/-- The request that a stage grants (R306). -/
def pick {α : Type} (limit last : Nat) (rs : List (Ask α)) : Option (Ask α) :=
  rs.foldl (fun m r => match m with
    | none => some r
    | some x => if goesBefore limit last r x then some r else some x) none
/-- The set of an order: 0 is the set whose order was accepted first (R306). -/
def setOf (s : State) (o : Order) : Nat :=
  flag (s.orders.any fun x => x.cell == o.cell && x.ch == o.ch && decide (x.place = .active ∨ x.place = .shadow) && decide (x.accepted < o.accepted))
/-- The requester number of an order (R306); work for other chips is in no channel and numbers 32 (log 38). -/
def numOf (s : State) (o : Order) : Nat := if channelCount ≤ o.ch then 32 else 2 * o.ch + setOf s o
/-- The deadline of an instruction's requests at a cell: 0 once it is late (R42, R43). -/
def deadlineAt (s : State) (cell deadline : Nat) (f : Flight) : Nat := if lateNow s cell f then 0 else deadline
/-- An order's request at a stage, given its wait counter there. -/
def askOf {α : Type} (s : State) (f : Flight) (o : Order) (job : α) (wait : Nat) : Ask α :=
  { job := job, prio := (getChan s o.cell o.ch).prio, deadline := deadlineAt s o.cell o.deadline f, num := numOf s o, wait := wait, rate := f.job.rate
    ctx := some f.job.ctx, dom := some f.job.domain }
/-- A service access as a request: the oldest goes first (R306). -/
def serviceAsk {α : Type} (job : α) (age : Nat) : Ask α := { job := job, prio := servicePrio, deadline := age, num := 0 }
/-- The last requester granted at a stage of a cell. -/
def lastAt (x : Cell) (g : Stage) : Nat := ((x.arb.lastGrant.find? fun p => p.1 == g).map Prod.snd).getD 63
/-- Records a grant at a stage, and counts it when it was forced (R305, R306, R403). -/
def noteGrant {α : Type} (s : State) (cell : Nat) (g : Stage) (r : Ask α) : State :=
  let s := if r.prio = servicePrio then s else modCell s cell fun x =>
    { x with arb := { x.arb with lastGrant := (g, r.num) :: x.arb.lastGrant.filter fun p => p.1 != g } }
  if isForced s.regs.waitLimit r.wait then countCell s cell 0x0A 1 r.ctx r.dom else s
/-- One more cycle of waiting (R305). -/
def waited (s : State) (w : Nat) : Nat := min s.regs.waitLimit (w + 1)
/-- A stage of a cell as a number (R301, R410). -/
def stageKey (cell : Nat) : Stage → Nat
  | .read => 16 * cell
  | .write => 16 * cell + 1
  | .remote => 16 * cell + 2
  | .datapath => 16 * cell + 3
  | .impose => 16 * cell + 4
  | .inject p => 16 * cell + 8 + p
  | .eject p => 16 * cell + 12 + p
/-- An instruction has waited at a stage through an engine cycle of a half, in reference ns (R377, R410; log 132). -/
def noteWait (s : State) (east : Bool) (insn key : Nat) : State :=
  modFlight s insn fun f => { f with waits := tabSet f.waits key (tabGet 0 f.waits key + (getHalf s east).clock.span) }
/-- A beat or tile of an instruction has been pre-empted (R106, R308, R410). -/
def notePreempted (s : State) (insn : Nat) : State := modFlight s insn fun f => { f with preempted := true }

/-! When an order may work (R111, R173, R178-R180, R381). -/

/-- The orders at a cell that hold a descriptor set or have a write to repeat, and the work there for other chips. -/
def cellOrders (s : State) (n : Nat) : List Order := s.orders.filter fun o => o.cell == n && (decide (o.place = .active ∨ o.place = .shadow) || o.failed.isSome)
/-- A halted channel grants nothing to any other order (R381). -/
def chanHolds (s : State) (o : Order) : Bool :=
  match (getChan s o.cell o.ch).haltedInsn with
  | some i => decide (i ≠ o.insn)
  | none => false
/-- The last read of an order has been issued (R178, R179). -/
def lastReadIssued (s : State) (f : Flight) (o : Order) : Bool :=
  !o.isSrc || stillF f || ((rankOrder s f o).isEmpty && (!twoPass f || decide (limitF f ≤ o.window) || (decide (o.pass = 1) && decide (limitF f ≤ windowEndF f o.window))))
/-- An order's reads may go on: it is active, or in the shadow set and R173, R178, R179 or R180 let it begin. -/
def readsOpen (s : State) (f : Flight) (o : Order) : Bool :=
  match o.place with
  | .active => true
  | .shadow =>
    (match orderIn s o.cell o.ch .active with
     | some a =>
       (match getFlight s a.insn with
        | some g => lastReadIssued s g a &&
            (f.job.lead || prefetchOf f.job.word || (decide (g.job.ctx = f.job.ctx) && g.job.half != f.job.half))
        | none => false)
     | none => false)
  | _ => false
/-- The engine cycles that reads of a source take (R311). -/
def readCycles (x : Forme) : Nat := match addrSpace x.base with | .core => 60 | .hbm => 520 | _ => 0
/-- Some engine cycles of a half in reference ns, by the clock last measured, rounded down (R309). -/
def nsOfCycles (s : State) (east : Bool) (cycles : Nat) : Nat := cycles * 256 / max 1 (getHalf s east).clock.per256
/-- The fetch half of a Lead-mode order that has its cue begins its reads so that the data is staged by then (R179, R310; log 133). -/
def leadWaits (s : State) (f : Flight) (o : Order) : Bool :=
  match o.gated with
  | some cue => f.job.lead && decide (o.place = .shadow) &&
      later cue (timeAt s o.cell + BitVec.ofNat 64 (nsOfCycles s (cellEast o.cell) (readCycles (srcF f 0))))
  | none => false
/-- The index values have been checked at every cell that generates addresses (R111). -/
def indexReady (f : Flight) : Bool := (gathered f).isNone || (f.index.isSome && (indexNeed f).all f.indexCells.contains)
/-- An order can work at its cell. -/
def works (s : State) (f : Flight) (o : Order) : Bool := !stillF f && !o.stopped && !chanHolds s o && indexReady f && cellOn s o.cell
/-- The attachment class of an order's reads or writes (R302). -/
def classOf (f : Flight) (write : Bool) : PortClass := if f.origin.isSome then .remote else if write then .write else .read
/-- The attachment class as a stage. -/
def classStage : PortClass → Stage
  | .read => .read | .write => .write | .remote => .remote
/-- A forme lies in engine register space (R468). -/
def inRegs (s : State) (x : Forme) : Bool := !isRemote s.regs.chipId x && decide (addrSpace x.base = .regs)
/-- Accesses of a cell's fetches and of the images read there that have been granted and have not returned (R168). -/
def fetchesOut (s : State) (cell : Nat) : Nat :=
  ((ctxNumbers s).map fun c =>
    let x := getCtx s c
    (if homeOf s c = cell then (x.fetches.map Fetch.granted).sum else 0) +
    (match x.wait with
     | .formeImage _ a _ left => if servingCell s cell cell a.toNat = cell then imageAccesses a - left else 0
     | _ => 0)).sum
/-- The credits of an attachment port in one direction are spent (R416). -/
def portFull (s : State) (cell : Nat) (write : Bool) : Bool :=
  decide (64 ≤ (s.accesses.filter fun a => a.cell == cell && a.isWrite == write).length +
    (if write then 0 else (s.flushes.filter fun h => h.cell == cell).length + fetchesOut s cell))

/-! Reads (R177, R302, R360, R366, R382, R468). -/

/-- A read that an order can make: the state and order with its credits taken, what it is for, its sectors. -/
structure ReadWork where
  state : State
  order : Order
  kind : AccessKind
  sectors : List Nat
/-- A tag record or scale sector has been asked for. -/
def askedFor (s : State) (o : Order) (sector : Nat) : Bool :=
  s.accesses.any fun a => a.cell == o.cell && !a.isWrite && a.sectors.contains sector && (match a.kind with
    | .tag i _ | .scale i _ => i == o.insn
    | _ => false)
/-- The tag record of a block of a sealed source (R359). -/
def srcTag (s : State) (f : Flight) (b : Nat) : Nat := tagSector (getDom s f.job.domain) (srcF f 0).base (128 * b)
/-- The failed read that an order makes again before any other, once its halt is resolved; of a source, when it has the credits (R177, R382). -/
def rereadWork (s : State) (f : Flight) (o : Order) : Option ReadWork :=
  match (if f.stop.isSome then none else o.readAgain) with
  | none => none
  | some g =>
    match g.kind with
    | .source _ keys =>
      (if twoPass f && decide (o.pass = 0) then some (s, o) else planReread s f o g).map fun (t, x) =>
        { state := t, order := { x with readAgain := none, reread := x.reread ++ keys }, kind := g.kind, sectors := g.sectors }
    | .tag _ _ | .scale _ _ => some { state := s, order := { o with readAgain := none }, kind := g.kind, sectors := g.sectors }
    | _ => none
/-- What an order reads next: what failed, tag records of its blocks, scales, then its source (R137, R177, R360, R382). -/
def readWork (s : State) (f : Flight) (o : Order) : Option ReadWork :=
  if !works s f o || !readsOpen s f o || !o.isSrc || leadWaits s f o then none
  else match rereadWork s f o with
  | some w => some w
  | none =>
    match (planTags f o).find? fun b => !askedFor s o (srcTag s f b) with
    | some b => some { state := s, order := o, kind := .tag f.id b, sectors := [srcTag s f b] }
    | none =>
      match (planScales f o).filter fun d => !askedFor s o d with
      | d :: ds => some { state := s, order := o, kind := .scale f.id [], sectors := d :: ds }
      | [] => (planRead s f o).map fun (t, x, p) =>
          { state := t, order := { x with rd := tabSet x.rd p.rank p.next }, kind := .source f.id (planKeys f p), sectors := planSectors f p }
/-- A read is of a source in engine register space: it goes over the control network (R468). -/
def readsRegs (s : State) (f : Flight) (w : ReadWork) : Bool :=
  match w.kind with
  | .source _ (k :: _) => inRegs s (srcF f (k % 16))
  | _ => false
/-- Counts an attachment access (R366, R403). -/
def countAccess (s : State) (cell : Nat) (f : Flight) (w : Work) : State :=
  let ctx := some f.job.ctx
  let dom := some f.job.domain
  let s := work s cell f.job.phase w 1 (match w with | .writes => 0x02 | _ => 0x01) ctx dom
  if f.origin.isSome then countCell s cell 0x03 1 ctx dom else s
/-- Issues an attachment read (R416). -/
def issueRead (s : State) (f : Flight) (cell : Nat) (k : AccessKind) (secs : List Nat) : State :=
  let a : Access :=
    { tag := s.seq, cell := cell, kind := k, ctx := f.job.ctx, prefetch := prefetchOf f.job.word, sectors := secs, issued := s.time.ref }
  let s := countAccess { s with accesses := s.accesses ++ [a], seq := s.seq + 1 } cell f .reads
  if roleOf cell = .h then emit s (.hostRead cell a.tag) else s
/-- Asks a register's owner for the words of a sector (R456, R468). -/
def readWords (s : State) (f : Flight) (cell key sector : Nat) : State :=
  { s with
    regAccesses := s.regAccesses ++ (List.range 4).map fun i => { id := s.seq + i, insn := f.id, cell := cell, isWrite := false, word := 4 * sector + i, key := key }
    seq := s.seq + 4 }
/-- A source in register space reads over the control network, at no port (R468). -/
def readRegs (s : State) (f : Flight) (o : Order) : State :=
  match readWork s f o with
  | some w =>
    if readsRegs s f w then
      let s := modOrder w.state o.insn o.cell fun _ => w.order
      (match w.kind with
       | .source _ keys => each (keys.zip w.sectors) (fun s p => readWords s f o.cell p.1 p.2) s
       | _ => s)
    else s
  | none => s
/-- Makes an order's read at its port; the limiter and the wait counter follow (R304, R305). -/
def grantRead (s : State) (f : Flight) (o : Order) : State :=
  match readWork s f o with
  | some w =>
    issueRead (modOrder w.state o.insn o.cell fun _ => { w.order with accRead := o.accRead - 256, waitRead := 0, heldRead := false, gated := none })
      f o.cell w.kind w.sectors
  | none => s

/-! Writes (R102, R211, R221, R229, R302, R321, R325, R359, R366, R416, R468). -/

/-- The stream positions whose elements a data write writes. -/
def writtenAt (s : State) (f : Flight) (o : Order) (l : Nat) : List Nat :=
  match o.rmw with
  | some m => m.positions
  | none => (laneRun s f o l [] (totalF f + 1) (lanePos o l)).1.flatten
/-- The casts that a destination makes of an element of a lane (R117, R133). -/
def dstCasts (s : State) (f : Flight) (o : Order) (l n : Nat) : List Cast :=
  let (b, r) := laneOf f l
  let rs := if decide (opF f = 0x25) && !rankLanes f then List.range (ranksF f) else [r]
  if selfMade f then [] else (rs.filter fun k => !castAtSource (inTy f k) (outTy f b)).map fun k => dstCast s f o b k n
/-- The reduction steps of one element of a lane (R144-R147, R366). -/
def foldSteps (f : Flight) : Nat :=
  if opF f = 0x34 ∨ rankLanes f then 1 else if opF f = 0x25 then ranksF f - flag (initOf f.job.word) else 0
/-- Counts the Caster's work on a write, its stochastic draws too (R125, R366, R403). -/
def countCast (s : State) (f : Flight) (o : Order) (l : Nat) : State :=
  let ns := writtenAt s f o l
  let cs := ns.flatMap (dstCasts s f o l)
  let s := countCasts s f o.cell cs
  work s o.cell f.job.phase .caster (cs.length + drawCount f cs.length + ns.length * foldSteps f) 0x07 (some f.job.ctx) (some f.job.domain)
/-- Issues an attachment write (R416). -/
def issueWrite (s : State) (f : Flight) (cell : Nat) (ws : List AuxWrite) : State :=
  let a : Access :=
    { tag := s.seq, cell := cell, kind := .put f.id, ctx := f.job.ctx, pc := f.job.pc, prefetch := prefetchOf f.job.word, isWrite := true
      sectors := ws.map AuxWrite.sector, data := ws.map AuxWrite.data, units := ws.map AuxWrite.unit }
  countGalley (countAccess { s with accesses := s.accesses ++ [a], seq := s.seq + 1 } cell f .writes) cell f.job 1
/-- Writes the words of sectors in register space over the control network (R456, R468). -/
def writeWords (s : State) (f : Flight) (cell key : Nat) (ws : List AuxWrite) : State :=
  let words := ws.flatMap fun w => (List.range 4).map fun i => (4 * w.sector + i, BitVec.ofNat 64 (fieldOf w.data.toNat (64 * i) 64))
  { s with
    regAccesses := s.regAccesses ++ (List.range words.length).map fun i =>
      let p := words.getD i (0, 0)
      { id := s.seq + 1 + i, insn := f.id, cell := cell, isWrite := true, word := p.1, key := key, data := p.2 }
    seq := s.seq + 1 + words.length }
/-- The credit that an item of a FILL to another chip takes at the owner, no slug having brought its elements (R325, log 51). -/
def ownCredit (s : State) (f : Flight) (o : Order) : Option Nat := if selfMade f then (freeCredit s f o o.cell).map Pool.id else none
/-- Puts an item of a lane's elements on the stream to the branch's chip, or back to the chip that reads here; it holds the galley slots of the
slugs that are spent with it until it is acknowledged (R321, R325, R333). -/
def passItem (s : State) (f : Flight) (o : Order) (l : Nat) (next : WritePos) (es : List (Nat × Nat)) : State :=
  let (b, r) := laneOf f l
  let scales := if dequantising f then ((es.map fun e => groupF f e.1).eraseDups.filterMap fun g => (tabFind o.scales g).map fun v => (g, v.toNat)) else []
  let k := match f.origin with | some (_, k) => k | none => f.id
  let rank := if f.origin.isSome then f.ranks.getD r r else r
  let o := { o with lanes := tabSet o.lanes l next, begun := true }
  let spent := o.taken.filter (slotSpent s f o)
  let own := (ownCredit s f o).toList
  let s := each own (fun s id => modPool s id fun p => { p with free := p.free - 1 }) s
  let s := modOrder s o.insn o.cell fun _ => { o with taken := o.taken.filter fun t => !spent.contains t }
  queueHeld s (itemChip f b) f.job.domain f.job.ctx f.job.epoch (.data k rank es scales (decide (next.n = totalF f))) (some f.id) (spent.map Taken.pool ++ own)
/-- A plan that needs no grant of a stage. -/
def isFree (s : State) (f : Flight) : WritePlan → Bool
  | .pass _ _ | .seal _ _ _ | .regs _ _ _ => true
  | .data l _ _ _ => inRegs s (dstF f (laneOf f l).1)
  | _ => false
/-- The write of a lane's data whose sectors lie in several 512-byte blocks goes out block by block, one access each (R416). -/
def doData (s : State) (f : Flight) (o : Order) (l : Nat) (next : WritePos) (ws fetch : List AuxWrite) : State :=
  let s := if o.rest.isNone then countCast s f o l else s
  let o := { o with rmw := none, rest := none, begun := true }
  let last (o : Order) : Order := { o with writing := some { tag := s.seq, lane := some l, next := next }, aux := o.aux ++ fetch }
  let put (o : Order) : State := modOrder s o.insn o.cell fun _ => o
  if inRegs s (dstF f (laneOf f l).1) then writeWords (put (last o)) f o.cell s.seq ws
  else match blockGroups ws AuxWrite.sector with
  | g :: h :: gs =>
    issueWrite (put { o with writing := some { tag := s.seq }, rest := some { lane := l, next := next, ws := (h :: gs).flatten, fetch := fetch } }) f o.cell g
  | _ => issueWrite (put (last o)) f o.cell ws
/-- Carries out what an order does next at its destination. -/
def doWrite (s : State) (f : Flight) (o : Order) (p : WritePlan) : State :=
  let put (g : Order → Order) (s : State) : State := modOrder s o.insn o.cell g
  match p with
  | .aux ws => issueWrite (put (fun x => { x with aux := x.aux.drop ws.length, writing := some { tag := s.seq }, begun := true }) s) f o.cell ws
  | .old m secs => issueRead (put (fun x => { x with rmw := some m, readAgain := none }) s) f o.cell (.modify f.id) secs
  | .data l next ws fetch => doData s f o l next ws fetch
  | .seal l next ws =>
    let one (s : State) (w : AuxWrite) : State :=
      { put (fun x => noteUnit w.sector w.unit { x with
          sealedData := tabSet x.sealedData w.sector (sharedSector s f x w.sector w.unit (tabGet w.data x.sealedData w.sector) w.data) }) s with
        fresh := s.fresh + 1 }
    put (fun x => { x with lanes := tabSet x.lanes l next }) (each ws one (countCast s f o l))
  | .regs l next xs =>
    put (fun x => { x with lanes := tabSet x.lanes l next, begun := true }) (storeScales s o.cell (scaleCh f) f.job.domain xs)
  | .item l next es => passItem s f o l next es
  | .pass l next => put (fun x => { x with lanes := tabSet x.lanes l next }) s
  | .again x => issueWrite (put (fun y => { y with failed := none, writing := some { tag := s.seq, lane := x.lane, next := x.next } }) s) f o.cell x.ws
/-- What an order can do at its destination now; an item of a FILL needs a credit of its own. -/
def writeWork (s : State) (f : Flight) (o : Order) : Option WritePlan :=
  if works s f o then
    (planWrite s f o).filter fun p => match p with
      | .item _ _ _ => !selfMade f || (ownCredit s f o).isSome
      | _ => true
  else none
/-- The CRC record that an L-cell has to send: the cell of its forme and what it writes (R232). -/
def recordWork (s : State) (f : Flight) (o : Order) : Option (Nat × List AuxWrite) :=
  if roleOf o.cell = .l then
    match writeWork s f o with
    | some (.aux ws) => some (servingCell s f.job.home f.job.hostCell (32 * (ws.map AuxWrite.sector).headD 0), ws)
    | some (.again x) => some (x.cell, x.ws)
    | _ => none
  else none
/-- Makes an order's write at its port; the limiter and the wait counter follow (R304, R305). -/
def grantWrite (s : State) (f : Flight) (o : Order) : State :=
  match writeWork s f o with
  | some p => modOrder (doWrite s f o p) o.insn o.cell fun x => { x with accWrite := o.accWrite - 256, waitWrite := 0, gated := none }
  | none => s

/-! Work that needs no stage: passing over what is not written here, sealing, closing (R138, R177, R221, R231, R359, R362, R468). -/

/-- Seals a block that is complete; without a key or a generation the MOVE ends (R351, R359). -/
def sealNext (s : State) (f : Flight) (o : Order) : State :=
  match readyBlocks f o with
  | b :: _ => (sealOne s f o b).getD (endWith s f KEY_ABSENT o.cell (BitVec.ofNat 64 (4096 * b)))
  | [] => s
/-- Applies an operation to an order as it stands now, with its instruction. -/
def withOrder (s : State) (insn cell : Nat) (k : State → Flight → Order → State) : State :=
  match getFlight s insn, getOrder s insn cell with
  | some f, some o => k s f o
  | _, _ => s
/-- A dequantising MOVE reads the channel's scale registers: its domain has them from then on, zeroed if another's (R362). -/
def claimScales (s : State) (f : Flight) (o : Order) : State :=
  if dequantising f && !auxFlagOf f.job.word && o.isDst && decide (o.place = .active) && decide ((getChan s o.cell (scaleCh f)).scaleDomain ≠ some f.job.domain) then
    storeScales s o.cell (scaleCh f) f.job.domain []
  else s
/-- A read of an order is held for want of a credit: counted once (event 0x0D). -/
def noteHeld (s : State) (f : Flight) (o : Order) : State :=
  if works s f o && readsOpen s f o && readHeld s f o && !o.heldRead then
    modOrder (countCell s o.cell 0x0D 1 (some f.job.ctx) (some f.job.domain)) o.insn o.cell fun o => { o with heldRead := true }
  else s
/-- The work of an order in an engine cycle that no stage arbitrates. -/
def freeWork (cell : Nat) (s : State) (insn : Nat) : State :=
  let act (k : State → Flight → Order → State) (s : State) : State := withOrder s insn cell fun s f o => if works s f o then k s f o else s
  let s := act readRegs s
  let s := act claimScales s
  let s := act (fun s f o => match writeWork s f o with | some p => if isFree s f p then doWrite s f o p else s | none => s) s
  let s := act (fun s f o => if o.isDst then sealNext s f o else s) s
  let s := act (fun s f o => if firstPassDone s f o then endFirstPass s f o else s) s
  let s := act (fun s f o => if closingDue s f o then makeClosing s f o else s) s
  let s := act freeSlots s
  let s := act noteHeld s
  leaveIfDone s insn cell

/-! Service accesses (R111, R168, R220, R259, R260, R288, R293, R302). -/

/-- What an access at an attachment port is for: a service access, a fetch or image read, or a read or write of an order. A core's overflow
flags, index values, a flushing read with the update it is for, a chime update, a poll; a context's burst or image; the shared requester of
the contexts without a deadline; a CRC record from an L-cell. -/
inductive PortJob where
  | owed | index (insn : Nat) | flush (c : Nat) (chime : Option Nat) | chime (id : Nat) | poll (id : Nat)
  | burst (c id : Nat) | image (c id : Nat) | fetches
  | read (insn : Nat) | write (insn : Nat) | errand (id : Nat)
deriving DecidableEq, Repr
/-- Needs of a context for a flushing read at an H-cell: a guarded update, or a FENCE of SYSTEM scope, whose writes have all
completed, or a DETACH; with the number it is as old as (R287, R293, R445). -/
def flushFor (s : State) (cell : Nat) : Option (Nat × Option Nat × Nat) :=
  let unflushed (c upto : Nat) (all : Bool) : Bool :=
    s.hostWrites.any fun h => h.cell == cell && h.ctx == c && (all || !h.prefetch) && decide (h.id < upto)
  let flying (c upto : Nat) (all : Bool) : Bool :=
    s.accesses.any fun a => a.isWrite && a.cell == cell && a.ctx == c && (all || !a.prefetch) && decide (a.tag < upto)
  let chime := s.chimes.find? fun u => u.cell == cell && u.flush.isNone && ordersGone s u cell && writesAnswered s u cell u.guard && !writesFlushed s u cell u.guard
  let running (c : Nat) : Bool := s.flushes.any fun h => h.cell == cell && h.ctx == c
  let fence := (ctxNumbers s).find? fun c => match (getCtx s c).wait with
    | .fence 3 all cells => cells.contains cell && coveredDone s c cell all && unflushed c s.seq all && !flying c s.seq all && !running c
    | _ => false
  let oldest (c : Nat) : Nat := ((s.hostWrites.filter fun h => h.cell == cell && h.ctx == c).map HostWrite.id).foldl min s.seq
  let last := if s.detach.isSome then s.hostWrites.find? fun h => h.cell == cell && !running h.ctx else none
  match chime, fence, last with
  | some u, _, _ => some (u.ctx, some u.id, u.id)
  | none, some c, _ => some (c, none, oldest c)
  | none, none, some h => some (h.ctx, none, h.id)
  | none, none, none => none
/-- The host sector last written of some host writes: accesses are numbered in the order in which they are made (R288). -/
def lastSector (hs : List HostWrite) : Nat :=
  ((hs.foldl (fun (m : Option HostWrite) h => match m with
    | none => some h
    | some k => if k.id < h.id then some h else some k) none).map HostWrite.sector).getD 0
/-- Issues a flushing read to the host sector last written by the writes it covers (R288). -/
def issueFlush (s : State) (cell c : Nat) (chime : Option Nat) : State :=
  let mine := s.hostWrites.filter fun h => h.cell == cell && h.ctx == c
  let h : Flush := { id := s.seq, cell := cell, ctx := c, sector := lastSector mine, upto := s.seq, issued := s.time.ref }
  let s := { s with
    flushes := s.flushes ++ [h], seq := s.seq + 1
    chimes := s.chimes.map fun u => if chime = some u.id then { u with flush := some h.id } else u }
  let (ctx, dom) := ctxDom s c
  countCell (work (emit s (.hostRead cell h.id)) cell (pollTag s c) .reads 1 0x01 ctx dom) cell 0x03 1 ctx dom
/-- The sectors of a forme of rank 1 in stream order. -/
def lineSectors (x : Forme) : List Nat := (List.range (ceilDiv (countOf x 0) (tyPerSector x.ty))).flatMap fun u => unitSectors x (u * tyPerSector x.ty :: List.replicate 7 0)
/-- The next index read at a cell: the instruction and the sectors (R111, R416). -/
def indexWork (s : State) (cell : Nat) : Option (Flight × List Nat) :=
  s.flights.findSome? fun f =>
    match (if f.origin.isNone && (gathered f).isSome && f.index.isNone && !stillF f then f.job.aux else none) with
    | some x =>
      if (formeCells s f.job.home f.job.hostCell x).headD cellCount ≠ cell then none
      else match (lineSectors x).drop f.indexAt with
        | d :: ds => some (f, (d :: ds.takeWhile fun e => e / 16 == d / 16).take 16)
        | [] => none
    | none => none
/-- Nothing at a cell is at work on a sector: no read-modify-write, no write in flight, no other update (R285). -/
def serviceFree (s : State) (cell sector : Nat) : Bool :=
  !(s.orders.any fun o => o.cell == cell && (ownSectors s o).contains sector) &&
  !(s.accesses.any fun a => a.isWrite && a.cell == cell && a.sectors.contains sector) && !(serviceSectors s).contains sector
/-- The chime updates that a cell can make now (R182, R220, R285, R287). -/
def chimeServices (s : State) (cell : Nat) : List (Nat × PortJob) :=
  (s.chimes.filter fun u => !s.granted.contains u.id && decide (addrChip u.addr = s.regs.chipId) &&
    decide (servingCell s u.cell u.cell u.addr.toNat = cell) && chimeReady s u cell && serviceFree s cell (wordSector u.addr)).map fun u => (u.id, .chime u.id)
/-- A successful TAKE would be a chime update of its context: what R182 and R287 put before it is done (R283, R287, R289). -/
def takeClear (s : State) (cell id c : Nat) (a : Word) : Bool :=
  let u : ChimePend := { id := id, addr := a, op := .sub, amount := 0, ctx := c, cell := cell, guard := s.seq, before := id }
  chimeClear s u cell s.seq && s.chimes.all fun x => !(x.ctx == c && decide (x.id < id) && x.addr.toNat / 32 == a.toNat / 32)
/-- The polls that a cell can make now (R260, R263, R285). -/
def pollServices (s : State) (cell : Nat) : List (Nat × PortJob) :=
  s.ctl.filterMap fun m => match m.body with
    | .poll id _ c a take _ =>
      if m.dst = cell ∧ addrChip a = s.regs.chipId ∧ !s.granted.contains id ∧
          (take = none ∨ (takeClear s cell id c a ∧ serviceFree s cell (wordSector a))) then some (id, .poll id) else none
    | _ => none
/-- The service accesses that wait at a cell, with their ages (R302). -/
def services (s : State) (cell : Nat) : List (Ask PortJob) :=
  let room := !portFull s cell false
  let flags := if 0 < (getCell s cell).owed then [serviceAsk .owed 0] else []
  let index := (indexWork s cell).toList.map fun p => { serviceAsk (.index p.1.id) p.1.id with fit := room }
  let flush := (if roleOf cell = .h then flushFor s cell else none).toList.map fun (c, u, age) => { serviceAsk (PortJob.flush c u) age with fit := room }
  flags ++ index ++ flush ++ (chimeServices s cell ++ pollServices s cell).map fun p => serviceAsk p.2 p.1
/-- The fetch and image reads that wait at a cell: those of deadline-bound contexts, or the others, the oldest first (R168). -/
def fetchJobs (s : State) (cell : Nat) (bound : Bool) : List (Nat × PortJob) :=
  let of_ (c : Nat) : List (Nat × PortJob) :=
    let x := getCtx s c
    (if homeOf s c = cell then (x.fetches.filter fun f => decide (f.granted < 2)).map fun f => (f.id, PortJob.burst c f.id) else []) ++
    (match x.wait with
     | .formeImage _ a id left => if 0 < left ∧ servingCell s (homeOf s c) (homeOf s c) a.toNat = cell then [(id, .image c id)] else []
     | _ => [])
  (((ctxNumbers s).filter fun c => cfgDeadline (configOf s c) == bound).flatMap of_).mergeSort fun a b => decide (a.1 ≤ b.1)
/-- The context of a fetch or image read. -/
def fetchCtx : PortJob → Option Nat
  | .burst c _ | .image c _ => some c
  | _ => none
/-- Fetches at the READ class: those of deadline-bound contexts go before every channel, the others are one requester of priority 0 (R168; its
number is log 38's). -/
def fetchAsks (s : State) (cell : Nat) : List (Ask PortJob) :=
  let room := !portFull s cell false
  (fetchJobs s cell true).map (fun p => { serviceAsk p.2 p.1 with fit := room }) ++
    ((fetchJobs s cell false).take 1).map fun p =>
      { job := .fetches, prio := 0, deadline := 0xFFFFF, num := 33, wait := (getCell s cell).fetchWait, fit := room
        ctx := fetchCtx p.2, dom := (fetchCtx p.2).map (domOf s) }
/-- Grants one access of a context's fetch or image (R168). -/
def grantFetch (s : State) (cell : Nat) (job : PortJob) : State :=
  let count (s : State) (c : Nat) : State := work s cell (getCtx s c).phase .reads 1 0x01 (some c) (some (domOf s c))
  match job with
  | .burst c id => count (modCtx s c fun x => { x with fetches := x.fetches.map fun f => if f.id = id then { f with granted := f.granted + 1 } else f }) c
  | .image c _ => count (modCtx s c fun x => { x with wait := match x.wait with
      | .formeImage k a id left => .formeImage k a id (left - 1)
      | w => w }) c
  | _ => s
/-- Grants a service access its slot: it is made at once, or by the row that carries it out (R111, R220, R259, R263, R288). -/
def grantService (s : State) (cell : Nat) (job : PortJob) : State :=
  match job with
  | .owed => modCell s cell fun x => { x with owed := x.owed - 1 }
  | .index i =>
    (match indexWork s cell with
     | some (f, secs) =>
       let s := issueRead (modFlight s i fun f => { f with indexAt := f.indexAt + secs.length }) f cell (.index i) secs
       countCell s cell 0x03 1 (some f.job.ctx) (some f.job.domain)
     | none => s)
  | .flush c u => issueFlush s cell c u
  | .chime id =>
    (match s.chimes.find? fun u => u.id == id with
     | some u => countService { s with granted := s.granted ++ [id] } cell u
     | none => s)
  | .poll id =>
    (match s.ctl.findSome? fun m => match m.body with | .poll k _ c _ _ _ => if k = id then some c else none | _ => none with
     | some c =>
       let (ctx, dom) := ctxDom s c
       countCell (work { s with granted := s.granted ++ [id] } cell (pollTag s c) .reads 1 0x01 ctx dom) cell 0x03 1 ctx dom
     | none => s)
  | _ => s

/-! The attachment port (R232, R302, R305, R306, R416). -/

/-- Sectors that an order has still to read, as accesses of sixteen. -/
def readsLeft (f : Flight) (o : Order) : Nat :=
  ((List.range (ranksF f)).map fun r => ceilDiv (readSteps f r - tabGet 0 o.rd r) 16).sum
/-- Units that an order has still to write, as accesses of sixteen sectors. -/
def unitsLeft (s : State) (f : Flight) (o : Order) : Nat :=
  ((lanesAt f o.cell).map fun l => ceilDiv (totalF f - laneStart s f l (lanePos o l)) (16 * srcPer f 0)).sum
/-- An order's request for a read. -/
def readAsk (s : State) (cell : Nat) (f : Flight) (o : Order) : Option (Ask PortJob) :=
  match readWork s f o with
  | some w =>
    if readsRegs s f w then none
    else some { askOf s f o (.read o.insn) o.waitRead with acc := o.accRead, cost := 256, left := max 1 (readsLeft f o), fit := !portFull s cell false }
  | none => none
/-- An order's request for a write, or for a read of a read-modify-write; the record of an L-cell is sent, not written (R232). -/
def writeAsk (s : State) (cell : Nat) (f : Flight) (o : Order) : Option (Ask PortJob) :=
  match writeWork s f o with
  | some p =>
    if isFree s f p || (recordWork s f o).isSome then none
    else
      let read := match p with | .old _ _ => true | _ => false
      some { askOf s f o (.write o.insn) o.waitWrite with acc := o.accWrite, cost := 256, left := max 1 (unitsLeft s f o), fit := !portFull s cell (!read) }
  | none => none
/-- The requests of the orders at a cell for a class's slots. -/
def orderAsks (s : State) (cell : Nat) (cls : PortClass) (write : Bool) : List (Ask PortJob) :=
  (cellOrders s cell).filterMap fun o =>
    match getFlight s o.insn with
    | some f => if classOf f write = cls then (if write then writeAsk s cell f o else readAsk s cell f o) else none
    | none => none
/-- The records that have come from L-cells, as requests of their channel at the cell (R232). -/
def errandAsks (s : State) (cell : Nat) : List (Ask PortJob) :=
  (s.errands.filter fun x => x.cell == cell).filterMap fun x => (getFlight s x.insn).map fun f =>
    { job := .errand x.id, prio := (getChan s cell (chOf f.job.word)).prio
      deadline := deadlineAt s cell (((ordersOf s f.id).head?.map Order.deadline).getD 0xFFFFF) f
      num := 2 * chOf f.job.word, wait := x.wait, fit := !portFull s cell true, ctx := some f.job.ctx, dom := some f.job.domain }
/-- The requests for a class's slots at a cell (R302). -/
def portAsks (s : State) (cell : Nat) : PortClass → List (Ask PortJob)
  | .read => fetchAsks s cell ++ orderAsks s cell .read false
  | .write => orderAsks s cell .write true ++ errandAsks s cell
  | .remote => services s cell ++ orderAsks s cell .remote false ++ orderAsks s cell .remote true
/-- A request at an attachment port waits for one more cycle; services have no counter (R305, R410). -/
def portWaits (cell : Nat) (cls : PortClass) (s : State) (a : Ask PortJob) : State :=
  let key := stageKey cell (classStage cls)
  match a.job with
  | .read i => noteWait (modOrder s i cell fun o => { o with waitRead := waited s o.waitRead }) (cellEast cell) i key
  | .write i => noteWait (modOrder s i cell fun o => { o with waitWrite := waited s o.waitWrite }) (cellEast cell) i key
  | .fetches => modCell s cell fun x => { x with fetchWait := waited s x.fetchWait }
  | .errand id => { s with errands := s.errands.map fun x => if x.id = id then { x with wait := waited s x.wait } else x }
  | _ => s
/-- Writes the CRC record of a MOVE to another chip at the cell of its forme; the order at the L-cell waits for the answer (R232). -/
def grantErrand (s : State) (cell id : Nat) : State :=
  match s.errands.find? fun x => x.id == id with
  | some x =>
    (match getFlight s x.insn with
     | some f =>
       let tag := s.seq
       let s := issueWrite { s with errands := s.errands.filter fun y => y.id != id } f cell x.ws
       modOrders s f.id fun o => if roleOf o.cell = .l then { o with writing := o.writing.map fun w => { w with tag := tag } } else o
     | none => s)
  | none => s
/-- Grants a request at an attachment port. -/
def grantPort (cell : Nat) (s : State) (job : PortJob) : State :=
  match job with
  | .read i => withOrder s i cell grantRead
  | .write i => withOrder s i cell grantWrite
  | .errand id => grantErrand s cell id
  | .fetches =>
    (match fetchJobs s cell false with
     | p :: _ => grantFetch (modCell s cell fun x => { x with fetchWait := 0 }) cell p.2
     | [] => s)
  | .burst _ _ | .image _ _ => grantFetch s cell job
  | .owed | .index _ | .flush _ _ | .chime _ | .poll _ => grantService s cell job
/-- The attachment port in one engine cycle: of the requests for the slot's class the first by R306 is granted, the others wait (R302, R305,
R306). -/
def servePort (t : Nat) (s : State) (cell : Nat) : State :=
  let cls := slotClass (getCell s cell) t
  let asks := (portAsks s cell cls).filter Ask.eligible
  let r := pick s.regs.waitLimit (lastAt (getCell s cell) (classStage cls)) (asks.filter Ask.fit)
  let s := each (asks.filter fun a => r.map Ask.job != some a.job) (portWaits cell cls) s
  match r with
  | some a => grantPort cell (noteGrant s cell (classStage cls) a) a.job
  | none => s

/-! Slugs (R12, R177, R211, R220, R232, R304, R307, R334, R366, R427, R428). -/

/-- The beats of a slug (R428). -/
def beatsOf (f : Flight) (d : SlugData) : Nat :=
  let scale := if profSfmt f.job.profile = 2 then 16 else 8
  max 1 (min 4 (ceilDiv (d.elems.length * tyWidth (streamF f d.rank) + d.scales.length * scale) 1024))
/-- A staged slug with a credit: its own, or one taken now (R330, R334); a dropped instruction takes none (R211). -/
def creditFor (s : State) (f : Flight) (o : Order) (e : Staged) : Option (State × Nat) :=
  match e.pool with
  | some id => some (s, id)
  | none => if f.dropped then none else takeCredit s f o e.data.rank e.cell ((e.data.elems.head?.map Prod.fst).getD 0)
/-- The first staged slug of an order that can go, to its own cell or through a port: of each cell and rank the first in order. What a dropped
instruction has read still goes (R211). -/
def nextOut (s : State) (f : Flight) (o : Order) (port : Option Nat) : Option Staged :=
  let head (e : Staged) : Bool := (o.out.find? fun x => x.cell == e.cell && x.data.rank == e.data.rank) == some e
  if !(works s f o || (f.dropped && cellOn s o.cell)) then none
  else o.out.find? fun e =>
    (match port with
     | none => decide (e.cell = o.cell)
     | some p => decide (e.cell ≠ o.cell) && decide (portOf o.cell (routerPair o.cell e.cell).1 = p)) &&
    head e && (creditFor s f o e).isSome
/-- A slug for the order's own cell crosses no port (R20); that of a dropped instruction is discarded (R211). -/
def moveLocal (cell : Nat) (s : State) (insn : Nat) : State :=
  withOrder s insn cell fun s f o =>
    match nextOut s f o none with
    | some e =>
      (match creditFor s f o e with
       | some (s, pool) =>
         if f.dropped then returnCredit (modOrder s insn cell fun x => { x with out := x.out.erase e }) (some pool)
         else countGalley (modOrder s insn cell fun x => { x with out := x.out.erase e, arrived := x.arrived ++ [(e.data, pool)] }) cell f.job 1
       | none => s)
    | none => s
/-- A port of a cell is sending a slug (R307). -/
def portBusy (x : Cell) (g : Stage) : Bool := x.arb.busy.any fun b => b.1 == g
/-- The slug that a port of a cell is sending, if any (R307). -/
def portSlug (s : State) (cell : Nat) (g : Stage) : Option Slug :=
  ((getCell s cell).arb.busy.find? fun b => b.1 == g).bind fun b => s.slugs.find? fun x => x.id == b.2.1
/-- The limiter of an order at an injection port (R304). -/
def accAt (o : Order) (p : Nat) : Nat := tabGet 1024 o.accInject p
/-- The side of its router that a cell injects at, as the direction in which a slug enters: 4 is an engine port of its own (R12). -/
def sideOf (cell : Nat) : Nat :=
  match roleOf cell with
  | .c => 4
  | .m => if ((dataRouters cell).headD (ctlRouter cell)).y = 0 then 2 else 3
  | .l | .h => if cellEast cell then 1 else 0
/-- What a slug to be injected carries: a chime update, data of an order, or the CRC record of an L-cell (R220, R232). -/
inductive SendJob where
  | chime (id dst : Nat) | data (insn : Nat) (e : Staged) | record (insn dst : Nat) (ws : List AuxWrite)
deriving DecidableEq, Repr
/-- The instruction of a slug to be injected. -/
def SendJob.insn : SendJob → Option Nat
  | .chime _ _ => none
  | .data i _ | .record i _ _ => some i
/-- The chime updates that can leave a cell for another through a port (R220, R287). -/
def chimeSends (s : State) (cell p : Nat) : List (Ask SendJob) :=
  (s.chimes.filter fun u => u.cell == cell && !u.here && !(s.slugs.any fun g => g.chime == some u.id)).filterMap fun u =>
    let dst := servingCell s cell cell u.addr.toNat
    if dst ≠ cell ∧ portOf cell (routerPair cell dst).1 = p ∧ chimeLeaves s u then some (serviceAsk (.chime u.id dst) u.id) else none
/-- An order's request for an injection port: its CRC record, or the slug it sends next (R232, R306). -/
def sendAsk (s : State) (p : Nat) (f : Flight) (o : Order) : Option (Ask SendJob) :=
  let ask (j : SendJob) (b : Nat) : Ask SendJob :=
    { askOf s f o j (tabGet 0 o.waitInject p) with acc := accAt o p, cost := 256 * b, beats := b, left := max 1 o.out.length }
  match (recordWork s f o).filter fun r => portOf o.cell (routerPair o.cell r.1).1 = p with
  | some (dst, ws) => some (ask (.record o.insn dst ws) 1)
  | none => (nextOut s f o (some p)).map fun e => ask (.data o.insn e) (beatsOf f e.data)
/-- The requests for an injection port (R306). -/
def injectAsks (s : State) (cell p : Nat) : List (Ask SendJob) :=
  chimeSends s cell p ++ (cellOrders s cell).filterMap fun o => (getFlight s o.insn).bind fun f => sendAsk s p f o
/-- A slug enters the mesh: the port is busy for its beats (R307, R366, R427). -/
def enterMesh (s : State) (p : Nat) (g : Slug) (ctx dom : Option Nat) : State :=
  let s := modCell { s with slugs := s.slugs ++ [g], seq := s.seq + 1 } g.src fun x => { x with arb := { x.arb with busy := x.arb.busy ++ [(.inject p, g.id, g.beats)] } }
  work s g.src g.tag .beats g.beats 0x04 ctx dom
/-- The order's limiter and wait counter at an injection port after a grant (R304, R305). -/
def spendInject (p beats : Nat) (o : Order) : Order :=
  { o with accInject := tabSet o.accInject p (accAt o p - 256 * beats), waitInject := tabSet o.waitInject p 0, gated := none }
/-- The slug of an order without its content. -/
def blankSlug (s : State) (f : Flight) (o : Order) (dst beats : Nat) : Slug :=
  { id := s.seq, insn := o.insn, src := o.cell, dst := dst, ch := o.ch, ctx := o.ctx, epoch := f.job.epoch
    deadline := deadlineAt s dst (deadlineAt s o.cell o.deadline f) f, beats := beats, data := {}, pool := 0, path := slugPath o.cell dst
    input := sideOf o.cell, tag := f.job.phase }
/-- Injects a slug (R177, R220, R232, R304). -/
def grantSend (s : State) (cell p : Nat) (a : Ask SendJob) : State :=
  match a.job with
  | .chime id dst =>
    (match s.chimes.find? fun u => u.id == id with
     | some u =>
       enterMesh s p
         { id := s.seq, insn := id, src := cell, dst := dst, ch := 0, ctx := u.ctx, epoch := u.epoch, deadline := 0, beats := 1, data := {}, pool := 0
           path := slugPath cell dst, input := sideOf cell, tag := u.tag, chime := some id }
         (if u.ctx < ctxCount then some u.ctx else none) (some (chimeDom s u))
     | none => s)
  | .data i e => withOrder s i cell fun s f o =>
    (match creditFor s f o e with
     | some (s, pool) =>
       let g := { blankSlug s f o e.cell a.beats with data := e.data, pool := pool }
       let s := modOrder s i cell fun x => { spendInject p a.beats x with out := x.out.erase e }
       countGalley (enterMesh s p g (some f.job.ctx) (some f.job.domain)) cell f.job 1
     | none => s)
  | .record i dst ws => withOrder s i cell fun s f o =>
    let w : Writing := match o.failed with
      | some x => { tag := s.seq, lane := x.lane, next := x.next }
      | none => { tag := s.seq }
    let s' := modOrder s i cell fun x => { spendInject p a.beats x with
      writing := some w, failed := none, aux := if x.failed.isSome then x.aux else x.aux.drop ws.length, begun := true }
    enterMesh s' p { blankSlug s f o dst a.beats with record := ws } (some f.job.ctx) (some f.job.domain)
/-- A requester waits at an injection port for one more cycle (R305, R410). -/
def sendWaits (cell p : Nat) (s : State) (i : Nat) : State :=
  noteWait (modOrder s i cell fun o => { o with waitInject := tabSet o.waitInject p (waited s (tabGet 0 o.waitInject p)) }) (cellEast cell) i
    (stageKey cell (.inject p))
/-- An injection port in one engine cycle; while a slug holds it the other requesters wait (R305-R307). -/
def serveInject (cell : Nat) (s : State) (p : Nat) : State :=
  let asks := (injectAsks s cell p).filter Ask.eligible
  let now := portSlug s cell (.inject p)
  let r := if portBusy (getCell s cell) (.inject p) then none else pick s.regs.waitLimit (lastAt (getCell s cell) (.inject p)) asks
  let served := match r with | some a => a.job.insn | none => now.map Slug.insn
  let s := each ((asks.filterMap fun a => a.job.insn).filter fun i => some i != served) (sendWaits cell p) s
  match r with
  | some a => grantSend (noteGrant s cell (.inject p) a) cell p a
  | none => s

/-! Router outputs (R301, R305, R307, R374). -/

/-- The row of the router at which a slug stands. -/
def standRow (g : Slug) : Nat := match g.path.head? with | some l => l.2.2.1 | none => (routerPair g.src g.dst).2.y
/-- A slug may leave its elastic buffer: it is not in one, or it is the first there (R374). -/
def seamFirst (s : State) (g : Slug) : Bool :=
  !g.seam || ((s.slugs.find? fun h => h.seam && h.input == g.input && standRow h == standRow g).map Slug.id == some g.id)
/-- The elastic buffer behind a seam link has room: 32 slugs (R374). -/
def seamRoom (s : State) (l : Link) : Bool :=
  !isSeamLink l || decide ((s.slugs.filter fun g => g.seam && g.input == l.2.2.2 && standRow g == l.2.2.1).length < 32)
/-- Of some slugs that want one output the first of each input, if it may leave its buffer (R307, R374). -/
def inputHeads (s : State) (gs : List Slug) : List Slug :=
  gs.filter fun g => (gs.find? fun h => h.input == g.input).map Slug.id == some g.id && seamFirst s g
/-- The heads of the inputs that wait at an output, but for the slug in progress there, wait for one more cycle (R305, R410). -/
def linkWaits (s : State) (east : Bool) (key : Nat) (gs : List Slug) (served : Option Nat) : State :=
  let rest := gs.filter fun g => some g.id != served
  let bump (g : Slug) : Slug := if rest.any fun h => h.id == g.id then { g with wait := waited s g.wait } else g
  each (rest.map Slug.insn) (fun s i => noteWait s east i key) { s with slugs := s.slugs.map bump }
/-- A slug leaves where it stands: a router's input, or an elastic buffer, whose credit goes back (R374). -/
def leaveBuffer (s : State) (id : Nat) : State := { s with slugs := s.slugs.map fun g => if g.id = id then { g with seam := false } else g }
/-- A slug's deadline where it stands: 0 for a chime update's, and once its instruction is late (R43, R220). -/
def slugDeadline (s : State) (g : Slug) : Nat :=
  match g.chime, getFlight s g.insn with
  | some _, _ => 0
  | none, some f => deadlineAt s g.dst g.deadline f
  | none, none => g.deadline
/-- The slugs that have come to the router of a cell's ejection port, the first of each input (R301, R305). -/
def ejectHeads (s : State) (cell p : Nat) : List Slug :=
  inputHeads s (s.slugs.filter fun g => g.dst == cell && g.path.isEmpty && !g.ejected && portOf cell (routerPair g.src cell).2 == p)
/-- The context and domain that a slug works for. -/
def slugOwner (s : State) (g : Slug) : Option Nat × Option Nat :=
  match getFlight s g.insn with
  | some f => (some f.job.ctx, some f.job.domain)
  | none => ctxDom s g.ctx
/-- A slug's request for an ejection port, ranked by the receiving cell's channels (R301, R306). -/
def ejectAsk (s : State) (cell : Nat) (g : Slug) : Ask Nat :=
  if g.chime.isSome then serviceAsk g.id g.id
  else { job := g.id, prio := (getChan s cell g.ch).prio, deadline := slugDeadline s g, num := g.input, wait := g.wait, beats := g.beats
         ctx := (slugOwner s g).1, dom := (slugOwner s g).2 }
/-- An ejection port in one engine cycle (R301, R305-R307). -/
def serveEject (cell : Nat) (s : State) (p : Nat) : State :=
  let gs := ejectHeads s cell p
  let x := getCell s cell
  let now := portSlug s cell (.eject p)
  let r := if portBusy x (.eject p) then none else pick s.regs.waitLimit (lastAt x (.eject p)) (gs.map (ejectAsk s cell))
  let s := linkWaits s (cellEast cell) (stageKey cell (.eject p)) gs (match r with | some a => some a.job | none => now.map Slug.id)
  match r with
  | some a =>
    modCell (noteGrant (leaveBuffer s a.job) cell (.eject p) a) cell fun x => { x with arb := { x.arb with busy := x.arb.busy ++ [(.eject p, a.job, a.beats)] } }
  | none => s
/-- One beat of every slug in progress at a cell's ports; an ejected slug waits for its staging (R307, R366, R367). -/
def portBeats (s : State) (cell : Nat) : State :=
  let busy := (getCell s cell).arb.busy.map fun b => (b.1, b.2.1, b.2.2 - 1)
  let isEject (g : Stage) : Bool := match g with | .eject _ => true | _ => false
  let out := (busy.filter fun b => b.2.2 == 0 && isEject b.1).map fun b => b.2.1
  let s := modCell s cell fun x => { x with arb := { x.arb with busy := busy.filter fun b => b.2.2 != 0 } }
  let count (s : State) (g : Slug) : State := let q := slugOwner s g; work s cell g.tag .beats g.beats 0x05 q.1 q.2
  let s := each (s.slugs.filter fun g => out.contains g.id) count s
  { s with slugs := s.slugs.map fun g => if out.contains g.id then { g with ejected := true } else g }
/-- The slugs that wait for a link, the first of each input (R307). -/
def linkHeads (s : State) (l : Link) : List Slug := inputHeads s (s.slugs.filter fun g => decide (g.path.head? = some l))
/-- A slug's request for a router output, ranked by forced inputs, the smaller deadline, rotation over the inputs (R307). -/
def linkAsk (s : State) (g : Slug) : Ask Nat :=
  { job := g.id, prio := 0, deadline := slugDeadline s g, num := g.input, wait := g.wait, beats := g.beats }
/-- The half in whose engine cycles a link carries beats: its router's, and for a seam link the slower of the two, by the clocks last measured, the
sender's where they are alike (R374; log 134). -/
def linkEast (s : State) (l : Link) : Bool :=
  let w := s.west.clock.per256
  let e := s.east.clock.per256
  if !isSeamLink l || w = e then decide (l.1 = 1) else decide (e < w)
/-- A slug has crossed a link: it stands at the next router, behind those already there. -/
def crossLink (s : State) (id : Nat) (l : Link) : State :=
  match s.slugs.find? fun g => g.id == id with
  | some g => { s with slugs := (s.slugs.filter fun x => x.id != id) ++ [{ g with path := g.path.drop 1, input := l.2.2.2, seam := isSeamLink l, wait := 0 }] }
  | none => s
/-- One beat at a router output; between slugs it grants the first by R307, the others wait (R305, R307). -/
def serveLink (s : State) (l : Link) : State :=
  let k := linkKey l
  let x := tabGet {} s.routers k
  let gs := linkHeads s l
  let east := linkEast s l
  let put (y : Router) (s : State) : State := { s with routers := if y.slug.isNone ∧ y.lastInput = 4 then tabErase s.routers k else tabSet s.routers k y }
  match x.slug with
  | some (id, left) =>
    let s := linkWaits s east (8192 + k) gs (some id)
    if left ≤ 1 then put { x with slug := none } (crossLink s id l) else put { x with slug := some (id, left - 1) } s
  | none =>
    let best := if seamRoom s l then pick s.regs.waitLimit x.lastInput (gs.map (linkAsk s)) else none
    let s := linkWaits s east (8192 + k) gs (best.map Ask.job)
    match best with
    | some a =>
      let s := leaveBuffer s a.job
      if a.beats ≤ 1 then put { x with slug := none, lastInput := a.num } (crossLink s a.job l)
      else put { x with slug := some (a.job, a.beats - 1), lastInput := a.num } s
    | none => s

/-! The datapath and the impose unit (R95, R100, R105, R106, R118, R148, R308). -/

/-- A request for the datapath: an order, its side, the beats it needs and has had. -/
structure PathReq where
  insn : Nat
  dst : Bool
  beats : Nat
  had : Nat
deriving DecidableEq, Repr
/-- The side of an order as a number. -/
def pathKey (p : PathReq) : Nat := 2 * p.insn + flag p.dst
/-- An order's request for the datapath on one side. -/
def pathAsk (s : State) (f : Flight) (o : Order) (p : PathReq) : Ask PathReq :=
  { askOf s f o p o.waitPath with acc := 1024, rate := 256, beats := max 1 (p.beats - p.had) }
/-- The requests for a cell's datapath: slugs to make, and slugs to take, a fork having room for them (R211, R308, R334). -/
def pathAsks (s : State) (cell : Nat) : List (Ask PathReq) :=
  (cellOrders s cell).flatMap fun o =>
    match getFlight s o.insn with
    | some f =>
      let src := if ((works s f o && readsOpen s f o) || (f.dropped && cellOn s cell)) && o.isSrc then
          (planPiece s f o).map fun p => pathAsk s f o { insn := o.insn, dst := false, beats := pieceBeats f p.1 p.2.1 p.2.2, had := o.srcBeats }
        else none
      let dst := if stillF f || !cellOn s cell || !forkRoom s f o then none
        else o.arrived.head?.map fun d => pathAsk s f o { insn := o.insn, dst := true, beats := slugBeats f d.1, had := o.dstBeats }
      src.toList ++ dst.toList
    | none => []
/-- The first of some requests by steps 3 to 5 of R306; a slug in progress goes on. -/
def pickPath (s : State) (cell : Nat) (ps : List (Ask PathReq)) : Option (Ask PathReq) :=
  match ps.find? fun p => decide (0 < p.job.had) with
  | some p => some p
  | none => (pick s.regs.waitLimit (lastAt (getCell s cell) .datapath) (ps.map fun p => { p with prio := 0 })).bind fun r => ps.find? fun p => p.job == r.job
/-- A slug is made or taken at the end of its last beat. -/
def endPath (s : State) (f : Flight) (o : Order) (dst : Bool) : State :=
  if dst then takeSlug s f o
  else match planPiece s f o with
    | some (r, a, b) => countGalley (makePiece s f o r a b) o.cell f.job 1
    | none => s
/-- Spends one beat of the datapath on a request (R308). -/
def pathBeat (s : State) (cell : Nat) (p : Ask PathReq) : State :=
  let last := decide (p.job.beats ≤ p.job.had + 1)
  let key := pathKey p.job
  let s := modCell s cell fun x => { x with arb := { x.arb with
    datapath := if last then (if x.arb.datapath = some key then none else x.arb.datapath)
      else if p.prio = 3 then x.arb.datapath else some key } }
  withOrder s p.job.insn cell fun s f o =>
    let o' : Order := { o with
      waitPath := 0, gated := none
      srcBeats := if p.job.dst then o.srcBeats else o.srcBeats + 1, dstBeats := if p.job.dst then o.dstBeats + 1 else o.dstBeats }
    if last then endPath s f { o' with srcBeats := o.srcBeats, dstBeats := o.dstBeats } p.job.dst else modOrder s o.insn o.cell fun _ => o'
/-- An order waits at the datapath for one more cycle (R305, R410). -/
def pathWaits (cell : Nat) (s : State) (i : Nat) : State :=
  noteWait (modOrder s i cell fun o => { o with waitPath := waited s o.waitPath }) (cellEast cell) i (stageKey cell .datapath)
/-- A cell's datapath in one engine cycle: priority 3 takes any beat; others hold it from slug to slug (R308). -/
def serveDatapath (s : State) (cell : Nat) : State :=
  let ps := pathAsks s cell
  let high := ps.filter fun p => p.prio == 3
  let holder := (getCell s cell).arb.datapath.bind fun k => ps.find? fun p => pathKey p.job == k
  let choice := if high.isEmpty then (match holder with | some p => some p | none => pickPath s cell ps) else pickPath s cell high
  match choice with
  | none => s
  | some p =>
    let s := each (((ps.map fun q => q.job.insn).eraseDups).filter fun i => i ≠ p.job.insn) (pathWaits cell) s
    let s := match (if high.isEmpty then none else holder) with
      | some h => notePreempted (countCell s cell 0x0B 1 ((getFlight s p.job.insn).map fun f => f.job.ctx) ((getFlight s p.job.insn).map fun f => f.job.domain)) h.job.insn
      | none => s
    pathBeat (if p.job.had = 0 then noteGrant s cell .datapath p else s) cell p
/-- What the impose unit does next for an order: the tile of a lane, the split of a lane's elements into planes, or the join of a rank's planes
(R95, R100, R118). -/
inductive TileJob where
  | turn (lane : Nat) | split (lane : Nat) | join (rank : Nat)
deriving DecidableEq, Repr
/-- A job of the impose unit as a number. -/
def tileKey (insn : Nat) : TileJob → Nat
  | .turn l => 64 * insn + l
  | .split l => 64 * insn + 16 + l
  | .join r => 64 * insn + 32 + r
/-- The job that a number stands for. -/
def tileJob (key : Nat) : TileJob :=
  let k := key % 64
  if k < 16 then .turn k else if k < 32 then .split (k - 16) else .join (k - 32)
/-- The engine cycles that a job takes in the impose unit (R95, R100). -/
def tileCycles (s : State) (f : Flight) (o : Order) : TileJob → Nat
  | .turn l =>
    let elems := ((tilePositions s f l (lanePos o l)).map List.length).sum
    let ty := streamF f (laneOf f l).2
    max 1 (ceilDiv (elems * tyWidth ty) (8 * imposeRate ty))
  | .split l => match splitReady s f o l with
    | some (a, b) => planeCycles f (laneOf f l).1 (laneOf f l).2 (b - a)
    | none => 1
  | .join r => match joinReady s f o r with
    | some (a, b) => planeCycles f 0 r (b - a)
    | none => 1
/-- The jobs of an order that the impose unit can do. -/
def tileJobs (s : State) (f : Flight) (o : Order) : List TileJob :=
  if !works s f o then []
  else
    (if o.isDst && decide (o.place = .active) then
      ((lanesAt f o.cell).filter (tileReady s f o)).map TileJob.turn ++ ((lanesAt f o.cell).filter fun l => (splitReady s f o l).isSome).map TileJob.split
     else []) ++
    (if o.isSrc && readsOpen s f o then ((List.range (ranksF f)).filter fun r => (joinReady s f o r).isSome).map TileJob.join else [])
/-- The requests for the impose unit of a cell; a job is named by its number. -/
def tileAsks (s : State) (cell : Nat) : List (Ask Nat) :=
  (cellOrders s cell).flatMap fun o =>
    match getFlight s o.insn with
    | some f => (tileJobs s f o).map fun j => { askOf s f o (tileKey o.insn j) o.waitTile with acc := 1024, rate := 256, beats := tileCycles s f o j }
    | none => []
/-- A job of the impose unit is done: one tile turned, or rows of planes split or joined (R366, R403). -/
def endTile (s : State) (cell key : Nat) : State :=
  withOrder s (key / 64) cell fun s f o =>
    let count (n : Nat) (s : State) : State := work s cell f.job.phase .tiles n 0x08 (some f.job.ctx) (some f.job.domain)
    let put (g : Order → Order) (s : State) : State := modOrder s o.insn o.cell g
    match tileJob key with
    | .turn l => put (fun o => { o with turned := tabSet o.turned l { lanePos o l with w := 0 } }) (count 1 s)
    | .split l => (match splitReady s f o l with
      | some (a, b) => put (fun o => { o with splitAt := tabSet o.splitAt l b }) (count (ceilDiv (b - a) 256) s)
      | none => s)
    | .join r => (match joinReady s f o r with
      | some (a, b) => put (fun o => { o with joined := tabSet o.joined r b }) (count (ceilDiv (b - a) 256) s)
      | none => s)
/-- The job that takes the impose unit next: priority 3 first, a parked tile, then by R306 (R106, R308). -/
def pickTile (s : State) (cell : Nat) (ts : List (Ask Nat)) (parked : Option (Nat × Nat)) : Option (Ask Nat) :=
  let best (ts : List (Ask Nat)) : Option (Ask Nat) :=
    (pick s.regs.waitLimit (lastAt (getCell s cell) .impose) (ts.map fun t => { t with prio := 0 })).bind fun r => ts.find? fun t => t.job == r.job
  match best (ts.filter fun t => t.prio == 3), parked.bind fun k => ts.find? fun t => t.job == k.1 with
  | some t, _ => some t
  | none, some t => some t
  | none, none => best ts
/-- An order waits at the impose unit for one more cycle (R305, R410). -/
def tileWaits (cell : Nat) (s : State) (i : Nat) : State :=
  noteWait (modOrder s i cell fun o => { o with waitTile := waited s o.waitTile }) (cellEast cell) i (stageKey cell .impose)
/-- A cell's impose unit in one engine cycle (R105, R106, R308): the job in hand goes on, unless priority 3 parks it; another begins, or the one
that is parked goes on with the cycles it has left. -/
def serveImpose (s : State) (cell : Nat) : State :=
  let ts := tileAsks s cell
  let arb := (getCell s cell).arb
  let wanted (x : Option (Nat × Nat)) : Option (Nat × Nat) := x.filter fun k => ts.any fun t => t.job == k.1
  let now := wanted arb.impose
  let parked := wanted arb.parkedTile
  let low (k : Nat × Nat) : Bool := ts.any fun t => t.job == k.1 && t.prio != 3
  let preempt := (match now with | some k => low k | none => false) && ts.any fun t => t.prio == 3
  let parked := if preempt then now else parked
  let s := match (if preempt then now else none) with
    | some k => notePreempted (countCell s cell 0x0C 1 ((getFlight s (k.1 / 64)).map fun f => f.job.ctx) ((getFlight s (k.1 / 64)).map fun f => f.job.domain)) (k.1 / 64)
    | none => s
  let next := if preempt || now.isNone then pickTile s cell ts parked else none
  let run : Option (Nat × Nat) := match next with
    | some t => some (match parked.filter fun k => k.1 == t.job with | some k => k | none => (t.job, t.beats))
    | none => now
  let s := match next with
    | some t => modOrder (noteGrant s cell .impose t) (t.job / 64) cell fun o => { o with waitTile := 0, gated := none }
    | none => s
  let parked := if run.map Prod.fst = parked.map Prod.fst then none else parked
  let s := each (((ts.map fun t => t.job / 64).eraseDups).filter fun i => run.map (fun k => k.1 / 64) ≠ some i) (tileWaits cell) s
  let set (i : Option (Nat × Nat)) (s : State) : State := modCell s cell fun x => { x with arb := { x.arb with impose := i, parkedTile := parked } }
  match run with
  | some (key, left) => if left ≤ 1 then endTile (set none s) cell key else set (some (key, left - 1)) s
  | none => if arb.impose.isNone ∧ arb.parkedTile.isNone then s else set none s

end Sys2Proof.Machine
end

