-- ==== Sys2Proof/Machine/Cycle.lean ====
section
/-!
DEFINITION. The engine cycle of a half: what its cells do in every cycle around their arbitrated stages, cues, stream groups,
and ENGINE_CYCLE itself (R21, R169, R173, R301-R310, R325, R330, R339, R352, R368, R382, R385, R390).
-/

namespace Sys2Proof.Machine

/-! Rearming and activation (R173, R304, R390). -/

/-- A stopped cell whose `REARM` is set turns ON again, and so do its channels; one that a fuse keeps off does not (R4, R390). -/
def rearmCell (s : State) (n : Nat) (x : Cell) : Cell :=
  let x := if x.state = .off ∧ x.rearm ∧ !x.retired ∧ !fusedOff s n then startCell x else x
  let one (c : Chan) : Chan := if c.state = .off ∧ c.rearm then startChan c else c
  if x.state = .on then { x with chans := x.chans.map fun q => (q.1, one q.2) } else x
/-- Stopped lines whose `REARM` is set turn ON again (R274, R390). -/
def rearmLines (s : State) : State :=
  each ((s.lines.filter fun p => decide (p.2.state = .off) && p.2.rearm).map Prod.fst) (fun s n => settleRound (modLine s n startLine) n) s
/-- Rearms what has been stopped: cells of the half, and with the West half the Peal lines. -/
def rearm (east : Bool) (s : State) : State :=
  let s := { s with cells := s.cells.map fun p => if cellEast p.1 = east then (p.1, rearmCell s p.1 p.2) else p }
  if east then s else rearmLines s
/-- The orders of a channel in a place, the first accepted first. -/
def inPlace (s : State) (o : Order) (p : Place) : List Order :=
  (s.orders.filter fun x => x.cell == o.cell && x.ch == o.ch && decide (x.place = p)).mergeSort fun a b => decide (a.accepted ≤ b.accepted)
/-- An order may move up: the set before it is empty and it is the first accepted of those that wait. -/
def movesUp (s : State) (o : Order) (up : Place) : Bool :=
  (inPlace s o up).isEmpty && ((inPlace s o o.place).head?.map Order.insn == some o.insn)
/-- The shadow set becomes active with a full limiter, an order held back enters the shadow set (R21, R173, R304). -/
def moveUp (s : State) (o : Order) : Order :=
  match o.place with
  | .shadow => if movesUp s o .active then { o with place := .active, accRead := 1024, accWrite := 1024, accInject := [] } else o
  | .held => if movesUp s o .shadow then { o with place := .shadow } else o
  | _ => o
/-- Moves up the orders of a half, shadow sets first. -/
def moveUpAll (east : Bool) (s : State) : State :=
  let go (p : Place) (s : State) : State :=
    { s with orders := s.orders.map fun o => if o.place = p ∧ cellEast o.cell = east then moveUp s o else o }
  go .held (go .shadow s)
/-- The limiters gain their rate (R304). -/
def refill (east : Bool) (s : State) : State :=
  let one (o : Order) : Order :=
    if cellEast o.cell ≠ east then o
    else match getFlight s o.insn with
    | some f =>
      let up (a : Nat) : Nat := min 1024 (a + f.job.rate)
      { o with accRead := up o.accRead, accWrite := up o.accWrite, accInject := o.accInject.map fun p => (p.1, up p.2) }
    | none => o
  { s with orders := s.orders.map one }

/-! The remote pool (R330, R332). -/

/-- The context number under which a chip and domain hold remote credits. -/
def remoteOwner (q : Nat × Nat) : Nat := 2 ^ 26 + q.1 * 256 + q.2
/-- The next item of a stream is held in no instruction's slices: return data and reports apart, it needs the owner's remote pool (R325). -/
def reportWaits (s : State) (chip : Nat) : Option Held :=
  match (nextGroup (getStream s chip)).head? with
  | some h => if h.credits.isEmpty && (h.insn.bind (getFlight s)).isNone then some h else none
  | none => none
/-- The work for other chips that wants a credit at a cell: the chip and domain (R325, R330). -/
def remoteWants (s : State) (cell : Nat) : List (Nat × Nat) :=
  ((s.flights.filterMap fun f => match f.origin with
    | some (chip, _) =>
      if (ordersOf s f.id).any fun o => (freeCredit s f o cell).isNone &&
          ((o.out.any fun e => decide (e.cell = cell) && e.pool.isNone) || (o.heldRead && (partCells f).contains cell))
      then some (chip, f.job.domain) else none
    | none => none) ++
   (s.streams.filter fun p => p.2.owner == cell).filterMap fun p => (reportWaits s p.1).bind fun h =>
     match findPool s cell (remoteOwner (p.1, h.item.domain)) 16 4 with
     | some q => if q.free = 0 then some (p.1, h.item.domain) else none
     | none => some (p.1, h.item.domain)).eraseDups
/-- The slices of a cell's remote pool (log 21). -/
def remotePool (s : State) (cell : Nat) : List Nat := (List.range (remoteSlicesOf s cell)).map fun k => 64 - remoteSlicesOf s cell + k
/-- Slices of a cell's remote pool that are left for what the links bring, where there is more than one (R330; log 21). -/
def keptFree (s : State) (cell : Nat) : Nat := flag (decide (roleOf cell = .l) && decide (1 < remoteSlicesOf s cell))
/-- Grants one free slice of the remote pool to a chip and domain, scrubbed as it passes (R330, R361). -/
def grantRemote (cell : Nat) (s : State) (q : Nat × Nat) : State :=
  match (if remoteUsed s cell [] + keptFree s cell < remoteSlicesOf s cell then
      (remotePool s cell).find? fun k => (getSlice (getCell s cell) k).remote.isNone else none) with
  | none => s
  | some k =>
    let s := modCell s cell fun x => { x with slices := tabSet x.slices k { (getSlice x k) with remote := some q, lastDomain := some q.2 } }
    match findPool s cell (remoteOwner q) 16 4 with
    | some p => modPool s p.id fun p => { p with size := p.size + 64, free := p.free + 64 }
    | none => { s with pools := s.pools ++ [{ id := s.seq, cell := cell, ctx := remoteOwner q, ch := 16, queue := 4, size := 64, free := 64 }], seq := s.seq + 1 }
/-- The owner of a stream's reports waits for a pool: it keeps what it has. -/
def reportNeeds (s : State) (p : Pool) : Bool :=
  s.streams.any fun x => x.2.owner == p.cell && (match reportWaits s x.1 with | some h => remoteOwner (x.1, h.item.domain) == p.ctx | none => false)
/-- Gives back the remote slices of a pool that nobody uses. -/
def releaseRemote (s : State) (p : Pool) : State :=
  let q := ((p.ctx - 2 ^ 26) / 256, p.ctx % 256)
  if p.queue ≠ 4 ∨ p.free ≠ p.size ∨ p.returning ≠ 0 ∨ reportNeeds s p ∨ (s.flights.any fun f => decide (poolOwner f = p.ctx) && f.origin.isSome) then s
  else
    let s := { s with pools := s.pools.filter fun x => x.id != p.id }
    modCell s p.cell fun x => { x with slices := x.slices.map fun e => if e.2.remote = some q then (e.1, { e.2 with remote := none }) else e }
/-- Keeps the remote pools of some cells. -/
def keepRemote (cells : List Nat) (s : State) : State :=
  let s := each cells (fun s n => each (remoteWants s n) (grantRemote n) s) s
  each (s.pools.filter fun p => cells.contains p.cell) releaseRemote s
/-- Work that came from a chip whose window has retired and that has nothing left in hand is over (R339). -/
def orphaned (s : State) (f : Flight) : Bool :=
  match f.origin with
  | some (chip, _) =>
    (tabFind s.windows chip).isNone && !f.complete && !writesOut s f.id && (s.slugs.all fun g => g.insn != f.id) &&
    (ordersOf s f.id).all fun o => o.out.isEmpty && o.arrived.isEmpty && o.rmw.isNone && (writeWork s f o).isNone
  | none => false
/-- Removes such work. -/
def dropOrphans (s : State) : State := each ((s.flights.filter (orphaned s)).map Flight.id) removeFlight s
/-- A router forgets a slug that is no longer in the mesh. -/
def clearRouters (s : State) : State :=
  let lost (x : Router) : Bool := match x.slug with | some (id, _) => s.slugs.all fun g => g.id != id | none => false
  { s with routers := s.routers.map fun p => if lost p.2 then (p.1, { p.2 with slug := none }) else p }

/-! Fetching and decoding (R167-R169). -/

/-- The bursts that a context's Compositor asks for: of the current list, the one at the program counter and two beyond (R167). -/
def burstsDue (x : Ctx) : List Word :=
  let cur := x.pc &&& ~~~(0x3FF : Word)
  ([cur, cur + 1024, cur + 2048]).filter fun a =>
    burstWanted x a && !(x.bursts.any fun b => b.addr == a) && !(x.fetches.any fun f => f.addr == a && !f.stale)
/-- A context that runs or waits asks for the bursts it has not got (R167, R168). -/
def beginFetch (s : State) (c : Nat) : State :=
  let x := getCtx s c
  if x.regs.state = .running ∨ x.regs.state = .waiting then
    each (burstsDue x) (fun s a => modCtx (bump s) c fun x => { x with fetches := x.fetches ++ [{ id := s.seq, addr := a }] }) s
  else s


/-- A context has an instruction ready: fetched, not waiting, none of its orders held back (R21, R169). -/
def readyToDecode (s : State) (c : Nat) : Bool :=
  let x := getCtx s c
  decide (x.regs.state = .running) && decide (x.wait = .none) && !x.tollHold && inList x &&
  (match burstOf x with | some b => b.bad.isSome || (currentWord x).isSome | none => false) &&
  s.orders.all fun o => o.ctx ≠ c || decide (o.place ≠ .held)
/-- The next of some contexts in number order after one (R169). -/
def nextInTurn (last : Nat) (cs : List Nat) : Option Nat :=
  let cs := cs.mergeSort
  match cs.find? fun c => decide (last < c) with
  | some c => some c
  | none => cs.head?
/-- The context whose instruction a cell's Compositor may decode next (R169). A Compositor has one memory of the context it served last, for
both groups (log 16). -/
def decodeTurn (s : State) (cell : Nat) : Option Nat :=
  let cs := (ctxNumbers s).filter fun c => homeOf s c == cell && readyToDecode s c
  let due := cs.filter fun c => cfgDeadline (configOf s c)
  nextInTurn (getCell s cell).lastServed (if due.isEmpty then cs else due)
/-- Grants a cell's decode turn. -/
def giveTurn (s : State) (cell : Nat) : State := modCell s cell fun x => { x with decode := decodeTurn s cell }

/-! Cues (R309, R310). -/

/-- Runs a stage forward from a cycle until a request is granted: the cycles that takes, at most `fuel` (R309). Every request has what it has
left ready; limiters and slots evolve. -/
def cueRun {α : Type} [BEq α] (limit : Nat) (slot : Nat → Bool) (target : α) (last busy t : Nat) (rs : List (Ask α)) : Nat → Nat
  | 0 => 0
  | fuel + 1 =>
    let ok := rs.filter fun r => decide (0 < r.left) && r.eligible && slot t
    let now := if busy = 0 then pick limit last ok else none
    let won (r : Ask α) : Bool := match now with | some g => g.job == r.job | none => false
    let step (r : Ask α) : Ask α :=
      { r with
        acc := min 1024 ((if won r then r.acc - r.cost else r.acc) + r.rate)
        left := if won r then r.left - 1 else r.left
        wait := if won r then 0 else if ok.any fun k => k.job == r.job then min limit (r.wait + 1) else r.wait }
    match now with
    | some g =>
      if g.job == target then 0
      else 1 + cueRun limit slot target (if g.prio = servicePrio then last else g.num) (g.beats - 1) (t + 1) (rs.map step) fuel
    | none => 1 + cueRun limit slot target last (busy - 1) (t + 1) (rs.map step) fuel
/-- The cues of a stage's requests, in engine cycles from the present one, at most 4,096 (R309). -/
def stageCues {α : Type} [BEq α] (s : State) (slot : Nat → Bool) (last busy t : Nat) (rs : List (Ask α)) : List (α × Nat) :=
  rs.map fun r => (r.job, cueRun s.regs.waitLimit slot r.job last busy t rs 4096)
/-- The beats that a port has still to send of the slug in hand (R307). -/
def beatsHeld (x : Cell) (g : Stage) : Nat := ((x.arb.busy.find? fun b => b.1 == g).map fun b => b.2.2).getD 0
/-- The order of a request at an attachment port. -/
def PortJob.insn : PortJob → Option Nat
  | .read i | .write i => some i
  | _ => none
/-- The cues of the orders at an attachment port, class by class (R309). -/
def portCues (t : Nat) (s : State) (cell : Nat) : List (Nat × Nat) :=
  [PortClass.read, .write, .remote].flatMap fun cls =>
    (stageCues s (fun k => slotClass (getCell s cell) k == cls) (lastAt (getCell s cell) (classStage cls)) 0 t (portAsks s cell cls)).filterMap fun p =>
      p.1.insn.map fun i => (i, p.2)
/-- The cues of the orders at an injection port (R309). -/
def injectCues (t : Nat) (s : State) (cell p : Nat) : List (Nat × Nat) :=
  let x := getCell s cell
  (stageCues s (fun _ => true) (lastAt x (.inject p)) (beatsHeld x (.inject p)) t (injectAsks s cell p)).filterMap fun q => q.1.insn.map fun i => (i, q.2)
/-- The cues of the orders at the datapath (R309). -/
def pathCues (t : Nat) (s : State) (cell : Nat) : List (Nat × Nat) :=
  (stageCues s (fun _ => true) (lastAt (getCell s cell) .datapath) 0 t (pathAsks s cell)).map fun q => (q.1.insn, q.2)
/-- The cues of the slugs at an ejection port; a slug has no clock to gate (R309, R310). -/
def ejectCues (t : Nat) (s : State) (cell p : Nat) : List (Nat × Nat) :=
  let x := getCell s cell
  stageCues s (fun _ => true) (lastAt x (.eject p)) (beatsHeld x (.eject p)) t ((ejectHeads s cell p).map (ejectAsk s cell))
/-- The cues of the slugs at a router output; a slug has no clock to gate (R309, R310). -/
def linkCues (t : Nat) (s : State) (l : Link) : List (Nat × Nat) :=
  let x := tabGet {} s.routers (linkKey l)
  stageCues s (fun _ => true) x.lastInput ((x.slug.map Prod.snd).getD 0) t ((linkHeads s l).map (linkAsk s))
/-- A cue some engine cycles ahead, as reference time (R309). -/
def cueTime (s : State) (cell cycles : Nat) : Word := timeAt s cell + BitVec.ofNat 64 (nsOfCycles s (cellEast cell) (min 4096 cycles))
/-- The ports of a cell (R12). -/
def portsOf (cell : Nat) : List Nat := List.range (dataRouters cell).length
/-- A set none of whose transfers is eligible until its cue gates its clock, where that is more than 8 ns ahead (R310). -/
def gateCell (t : Nat) (s : State) (cell : Nat) : State :=
  if !s.regs.cueGate then s
  else
    let cues := portCues t s cell ++ (portsOf cell).flatMap (injectCues t s cell) ++ pathCues t s cell
    let gate (o : Order) : Order :=
      match (cues.filter fun q => q.1 == o.insn).map Prod.snd with
      | [] => o
      | k :: ks =>
        let cue := cueTime s cell (ks.foldl min k)
        if o.cell = cell ∧ o.gated.isNone ∧ later cue (timeAt s cell + 8) then { o with gated := some cue } else o
    if cues.isEmpty then s else { s with orders := s.orders.map gate }

/-! Streams (R325, R330, R338, R352, R353). -/

/-- An item takes the galley slot in which the owner holds it until it is acknowledged: it has those of its slugs, or takes one of its instruction's
if there is one free, or one of the owner's remote pool (R325). -/
def holdItem (s : State) (chip : Nat) (h : Held) : Option (State × Held) :=
  let cell := (getStream s chip).owner
  let take (p : Pool) : State × Held := (modPool s p.id fun p => { p with free := p.free - 1 }, { h with credits := [p.id] })
  if !h.credits.isEmpty then some (s, h)
  else match h.insn.bind (getFlight s) with
    | some f => some (((getOrder s f.id cell).bind fun o => (freeCredit s f o cell).map take).getD (s, h))
    | none => ((findPool s cell (remoteOwner (chip, h.item.domain)) 16 4).filter fun p => decide (0 < p.free)).map take
/-- Sends the next seal group of a stream, if one can go: an empty key slot or spent wrap counts fail it (R325, R352, R353). -/
def serveStream (s : State) (chip : Nat) : State :=
  let x := getStream s chip
  let g := nextGroup x
  match (if groupDue s chip then g.head? else none).bind (holdItem s chip) with
  | none => s
  | some (s, h) =>
    let key := (getDom s h.item.domain).key
    let g := h :: g.drop 1
    if key.isSome && !wrapsSpent x g.length then sendGroup s chip key g.length g
    else match faultReport h KEY_ABSENT with
      | some p => sendGroup s chip none g.length [{ h with item := { h.item with payload := p } }]
      | none => each g (fun s h => failHeld (freeHeld s [h]) chip KEY_ABSENT h) (modStream s chip fun x => { x with waiting := x.waiting.drop g.length })

/-! The cycle. -/

/-- The cells of a half with anything to arbitrate. -/
def busyCells (s : State) (east : Bool) : List Nat :=
  let contexts := (ctxNumbers s).flatMap fun c =>
    let x := getCtx s c
    (if x.fetches.isEmpty then [] else [homeOf s c]) ++ (match x.wait with
      | .formeImage _ a _ _ => [servingCell s (homeOf s c) (homeOf s c) a.toNat]
      | _ => [])
  let polls := s.ctl.filterMap fun m => match m.body with | .poll _ _ _ _ _ _ => some m.dst | _ => none
  ((s.orders.map Order.cell ++ contexts ++ polls ++ (s.slugs.filter fun g => g.path.isEmpty && !g.ejected).map Slug.dst ++ s.hostWrites.map HostWrite.cell ++
    (s.chimes.flatMap fun u => [u.cell, servingCell s u.cell u.cell u.addr.toNat]) ++ s.errands.map Errand.cell ++ (s.streams.map fun p => p.2.owner) ++
    (s.flights.filterMap fun f => (f.job.aux.map fun x => (formeCells s f.job.home f.job.hostCell x).headD cellCount)) ++
    ((s.cells.filter fun p => !p.2.arb.busy.isEmpty || p.2.arb.impose.isSome || p.2.arb.parkedTile.isSome || decide (0 < p.2.owed)).map Prod.fst)).eraseDups).filter fun n =>
      decide (n < cellCount) && cellEast n == east
/-- One engine cycle of a cell; the cues are taken before anything is granted (R309). -/
def cellCycle (t : Nat) (s : State) (cell : Nat) : State :=
  let s := each ((s.orders.filter fun o => o.cell == cell).map Order.insn) (freeWork cell) s
  let s := gateCell t s cell
  let s := servePort t s cell
  let s := each ((cellOrders s cell).map Order.insn) (moveLocal cell) s
  let s := each (portsOf cell) (serveInject cell) s
  let s := each (portsOf cell) (serveEject cell) s
  let s := portBeats s cell
  serveImpose (serveDatapath s cell) cell
/-- The links that slugs wait for or cross and that carry beats in a half's cycles. -/
def busyLinks (s : State) (east : Bool) : List Link :=
  ((s.slugs.filterMap fun g => g.path.head?).eraseDups).filter fun l => linkEast s l == east
/-- The homes of a half's contexts. -/
def homeCells (s : State) (east : Bool) : List Nat :=
  (((ctxNumbers s).filter fun c => decide (stateOf s c ≠ .free)).map (homeOf s)).eraseDups.filter fun n => cellEast n == east
/-- The halts, pauses and failures that have come about (R360, R381, R382, R385). -/
def settleAll (s : State) : State :=
  let s := parkAll s
  let s := each (s.flights.map Flight.id) (fun s i => match getFlight s i with | some f => endFailed s f | none => s) s
  let s := each (ctxNumbers s) settlePause (takeHalts s)
  each (s.cells.flatMap fun p => (p.2.chans.filter fun q => q.2.pausing).map fun q => (p.1, q.1)) (fun s k => settleChannel s k.1 k.2) s
/-- The lend hints of a half fall where nothing keeps them up (R368). -/
def dropLends (east : Bool) (s : State) : State :=
  each ((s.cells.filter fun p => p.2.lend && cellEast p.1 == east).map Prod.fst) dropLend s
/-- The streams whose owner cell lies in a half. -/
def streamsOf (s : State) (east : Bool) : List Nat := (s.streams.filter fun p => cellEast p.2.owner == east).map Prod.fst
/-- The windows whose cell lies in a half. -/
def windowsIn (s : State) (east : Bool) : List Nat := (s.windows.filter fun p => cellEast p.2.cell == east).map Prod.fst
/-- Forgets the slots of polls and updates that are over. -/
def sweepGranted (s : State) : State :=
  let live (id : Nat) : Bool := (s.chimes.any fun u => u.id == id) || s.ctl.any fun m => match m.body with | .poll k _ _ _ _ _ => k == id | _ => false
  { s with granted := s.granted.filter live }
/-- What happens before a half's stages are served: rearming, what is over, activation, limiters, windows, remote pools, fetches, decode turns. -/
def beginCycle (east : Bool) (s : State) : State :=
  let s := sweepGranted (sweepOrders (dropOrphans (sweepGhosts s)))
  let s := refill east (moveUpAll east (rearm east s))
  let s := each (windowsIn s east) pumpWindow s
  let s := keepRemote (busyCells s east) (clearRouters s)
  let s := each ((ctxNumbers s).filter fun c => cellEast (homeOf s c) == east) beginFetch s
  each (homeCells s east) giveTurn s
/-- A half's clock makes a cycle (R309, R410). -/
def nextCycle (now : Word) (c : Clock) : Clock :=
  { c with cycles := c.cycles + 1, span := (match c.cycleAt with | some t => (now - t).toNat | none => 0), cycleAt := some now }
/-- ENGINE_CYCLE (R301-R310): one engine cycle of a half. -/
def execEngineCycle (east : Bool) (s : State) : Res :=
  need (s.regs.powered && !(east && s.west.seesEastFailed)) .outOfTurn <|
  let t := (getHalf s east).clock.cycles
  let s := beginCycle east (modClock s east (nextCycle s.time.ref))
  let s := each (busyCells s east) (cellCycle t) s
  let s := each (busyLinks s east) serveLink s
  let s := each (streamsOf s east) serveStream s
  .next (dropLends east (settleAll (wakeDrains s)))

end Sys2Proof.Machine
end

