-- ==== Sys2Proof/Machine/Movement.lean ====
section
/-!
DEFINITION. The movement, reduction and integrity instructions of Edlum at issue (R214-R232). What their orders then do
is the work of the rows that move data.
-/

namespace Sys2Proof.Machine

/-- MOVE (R222, R223). -/
def execMove (c : Nat) (s : State) : Res := movementRow s c 0x20
/-- GATHER (R109, R224). -/
def execGather (c : Nat) (s : State) : Res := movementRow s c 0x21
/-- SCATTER (R110, R224). -/
def execScatter (c : Nat) (s : State) : Res := movementRow s c 0x22
/-- FILL (R225). -/
def execFill (c : Nat) (s : State) : Res := movementRow s c 0x23
/-- MCAST (R226). -/
def execMcast (c : Nat) (s : State) : Res := movementRow s c 0x24
/-- REDUCE (R228). -/
def execReduce (c : Nat) (s : State) : Res := movementRow s c 0x25
/-- AMOADD (R230). -/
def execAmoadd (c : Nat) (s : State) : Res := movementRow s c 0x34
/-- CHECK (R231). -/
def execCheck (c : Nat) (s : State) : Res := movementRow s c 0x26

end Sys2Proof.Machine
end

