-- ==== Sys2Proof/Machine/Dispatch.lean ====
section
/-!
DEFINITION. One arm for each command of the opcode table: a call of its meaning.
-/

namespace Sys2Proof.Machine

/-- What a command does to everything but the queue. -/
def exec (i : Instr) (s : State) : Host.Outcome State Fault Refusal :=
  match i with
  | .forme c => Sys2Proof.Machine.execForme c s
  | .formeImageReturn c status image => Sys2Proof.Machine.execFormeImageReturn c status image s
  | .unforme c => Sys2Proof.Machine.execUnforme c s
  | .ldscale c => Sys2Proof.Machine.execLdscale c s
  | .stscale c => Sys2Proof.Machine.execStscale c s
  | .setcast c => Sys2Proof.Machine.execSetcast c s
  | .setrate c => Sys2Proof.Machine.execSetrate c s
  | .phase c => Sys2Proof.Machine.execPhase c s
  | .advance c => Sys2Proof.Machine.execAdvance c s
  | .loop c => Sys2Proof.Machine.execLoop c s
  | .endloop c => Sys2Proof.Machine.execEndloop c s
  | .branch c => Sys2Proof.Machine.execBranch c s
  | .call c => Sys2Proof.Machine.execCall c s
  | .ret c => Sys2Proof.Machine.execRet c s
  | .toll c => Sys2Proof.Machine.execToll c s
  | .halt c => Sys2Proof.Machine.execHalt c s
  | .nop c => Sys2Proof.Machine.execNop c s
  | .abandon c => Sys2Proof.Machine.execAbandon c s
  | .swap c => Sys2Proof.Machine.execSwap c s
  | .drain c => Sys2Proof.Machine.execDrain c s
  | .move c => Sys2Proof.Machine.execMove c s
  | .gather c => Sys2Proof.Machine.execGather c s
  | .scatter c => Sys2Proof.Machine.execScatter c s
  | .fill c => Sys2Proof.Machine.execFill c s
  | .mcast c => Sys2Proof.Machine.execMcast c s
  | .reduce c => Sys2Proof.Machine.execReduce c s
  | .amoadd c => Sys2Proof.Machine.execAmoadd c s
  | .check c => Sys2Proof.Machine.execCheck c s
  | .signalAdd c => Sys2Proof.Machine.execSignalAdd c s
  | .signalGive c => Sys2Proof.Machine.execSignalGive c s
  | .signalSub c => Sys2Proof.Machine.execSignalSub c s
  | .waitGe c => Sys2Proof.Machine.execWaitGe c s
  | .waitTake c => Sys2Proof.Machine.execWaitTake c s
  | .pealArrive c => Sys2Proof.Machine.execPealArrive c s
  | .pealEnrol c => Sys2Proof.Machine.execPealEnrol c s
  | .pealResign c => Sys2Proof.Machine.execPealResign c s
  | .fence c => Sys2Proof.Machine.execFence c s
  | .mark c => Sys2Proof.Machine.execMark c s
  | .queueEntryTake c entry => Sys2Proof.Machine.execQueueEntryTake c entry s
  | .fetchBurstReturn c addr status words => Sys2Proof.Machine.execFetchBurstReturn c addr status words s
  | .load c agent grants => Sys2Proof.Machine.execLoad c agent grants s
  | .unload c => Sys2Proof.Machine.execUnload c s
  | .save c => Sys2Proof.Machine.execSave c s
  | .restore c agent grants image => Sys2Proof.Machine.execRestore c agent grants image s
  | .pause c => Sys2Proof.Machine.execPause c s
  | .resume c => Sys2Proof.Machine.execResume c s
  | .abort c => Sys2Proof.Machine.execAbort c s
  | .badOp c op => Sys2Proof.Machine.execBadOp c op s
  | .galleyScrubDone c => Sys2Proof.Machine.execGalleyScrubDone c s
  | .contextFreed c => Sys2Proof.Machine.execContextFreed c s
  | .doorbell c value => Sys2Proof.Machine.execDoorbell c value s
  | .ctxConfigWrite c agent value => Sys2Proof.Machine.execCtxConfigWrite c agent value s
  | .channelPause cell ch => Sys2Proof.Machine.execChannelPause cell ch s
  | .channelResume cell ch => Sys2Proof.Machine.execChannelResume cell ch s
  | .channelSkip cell ch => Sys2Proof.Machine.execChannelSkip cell ch s
  | .channelAbort cell ch => Sys2Proof.Machine.execChannelAbort cell ch s
  | .channelEnable cell ch => Sys2Proof.Machine.execChannelEnable cell ch s
  | .channelDisable cell ch => Sys2Proof.Machine.execChannelDisable cell ch s
  | .channelStopped cell ch => Sys2Proof.Machine.execChannelStopped cell ch s
  | .cellEnable cell => Sys2Proof.Machine.execCellEnable cell s
  | .cellDisable cell => Sys2Proof.Machine.execCellDisable cell s
  | .cellStopped cell => Sys2Proof.Machine.execCellStopped cell s
  | .retire cell => Sys2Proof.Machine.execRetire cell s
  | .degradedClear cell => Sys2Proof.Machine.execDegradedClear cell s
  | .healthConfigWrite value => Sys2Proof.Machine.execHealthConfigWrite value s
  | .modeTest => Sys2Proof.Machine.execModeTest s
  | .modeInit => Sys2Proof.Machine.execModeInit s
  | .modeRun => Sys2Proof.Machine.execModeRun s
  | .modeRecovery => Sys2Proof.Machine.execModeRecovery s
  | .attach => Sys2Proof.Machine.execAttach s
  | .attachEnterRun => Sys2Proof.Machine.execAttachEnterRun s
  | .attachTimeout => Sys2Proof.Machine.execAttachTimeout s
  | .detach => Sys2Proof.Machine.execDetach s
  | .detachDrained => Sys2Proof.Machine.execDetachDrained s
  | .detachTimeout => Sys2Proof.Machine.execDetachTimeout s
  | .commit d agent => Sys2Proof.Machine.execCommit d agent s
  | .release d agent => Sys2Proof.Machine.execRelease d agent s
  | .loadKey d key frameOk => Sys2Proof.Machine.execLoadKey d key frameOk s
  | .zeroise d frameOk => Sys2Proof.Machine.execZeroise d frameOk s
  | .lock d frameOk => Sys2Proof.Machine.execLock d frameOk s
  | .unlock d frameOk => Sys2Proof.Machine.execUnlock d frameOk s
  | .keyRelease d frameOk => Sys2Proof.Machine.execKeyRelease d frameOk s
  | .write addr value frameOk => Sys2Proof.Machine.execWrite addr value frameOk s
  | .zeroiseAll frameOk => Sys2Proof.Machine.execZeroiseAll frameOk s
  | .tamper => Sys2Proof.Machine.execTamper s
  | .tollPeriodWrite value => Sys2Proof.Machine.execTollPeriodWrite value s
  | .attSplitWrite cell value => Sys2Proof.Machine.execAttSplitWrite cell value s
  | .arbConfigWrite value => Sys2Proof.Machine.execArbConfigWrite value s
  | .routeWrite chip value => Sys2Proof.Machine.execRouteWrite chip value s
  | .pealEnable line => Sys2Proof.Machine.execPealEnable line s
  | .pealDisable line => Sys2Proof.Machine.execPealDisable line s
  | .pealLineStopped line => Sys2Proof.Machine.execPealLineStopped line s
  | .dumpTrigger => Sys2Proof.Machine.execDumpTrigger s
  | .dumpDone consumed => Sys2Proof.Machine.execDumpDone consumed s
  | .freeze now => Sys2Proof.Machine.execFreeze now s
  | .thaw now => Sys2Proof.Machine.execThaw now s
  | .snapshot now => Sys2Proof.Machine.execSnapshot now s
  | .damperCancel => Sys2Proof.Machine.execDamperCancel s
  | .damperAction => Sys2Proof.Machine.execDamperAction s
  | .evselWrite owner k value => Sys2Proof.Machine.execEvselWrite owner k value s
  | .evcntWrite owner k value units => Sys2Proof.Machine.execEvcntWrite owner k value units s
  | .impConfigWrite cell value => Sys2Proof.Machine.execImpConfigWrite cell value s
  | .lowerWordRead offset => Sys2Proof.Machine.execLowerWordRead offset s
  | .registerWrite agent offset width value => Sys2Proof.Machine.execRegisterWrite agent offset width value s
  | .powerGood fuses => Sys2Proof.Machine.execPowerGood fuses s
  | .mbistDone fails => Sys2Proof.Machine.execMbistDone fails s
  | .mbistRun cell => Sys2Proof.Machine.execMbistRun cell s
  | .faultInject cell kind => Sys2Proof.Machine.execFaultInject cell kind s
  | .scanEntry => Sys2Proof.Machine.execScanEntry s
  | .refTick => Sys2Proof.Machine.execRefTick s
  | .syncOffset cell offset masterTime masterBase masterPeriod => Sys2Proof.Machine.execSyncOffset cell offset masterTime masterBase masterPeriod s
  | .tollTick => Sys2Proof.Machine.execTollTick s
  | .tollPulse cell => Sys2Proof.Machine.execTollPulse cell s
  | .guardInstant cell => Sys2Proof.Machine.execGuardInstant cell s
  | .overrunReport cell => Sys2Proof.Machine.execOverrunReport cell s
  | .stoppedInterval cell => Sys2Proof.Machine.execStoppedInterval cell s
  | .heartbeat east => Sys2Proof.Machine.execHeartbeat east s
  | .heartbeatLoss east => Sys2Proof.Machine.execHeartbeatLoss east s
  | .orderArrival cell insn => Sys2Proof.Machine.execOrderArrival cell insn s
  | .indexDelivery cell insn => Sys2Proof.Machine.execIndexDelivery cell insn s
  | .readResponse cell tag status data => Sys2Proof.Machine.execReadResponse cell tag status data s
  | .writeResponse cell tag status => Sys2Proof.Machine.execWriteResponse cell tag status s
  | .haltFlit cell insn => Sys2Proof.Machine.execHaltFlit cell insn s
  | .slugArrival cell id => Sys2Proof.Machine.execSlugArrival cell id s
  | .creditReturn id => Sys2Proof.Machine.execCreditReturn id s
  | .destinationComplete cell insn => Sys2Proof.Machine.execDestinationComplete cell insn s
  | .completionFlit insn cell => Sys2Proof.Machine.execCompletionFlit insn cell s
  | .performedReport c cell => Sys2Proof.Machine.execPerformedReport c cell s
  | .flushComplete cell id status => Sys2Proof.Machine.execFlushComplete cell id status s
  | .hostReadTimeout cell tag => Sys2Proof.Machine.execHostReadTimeout cell tag s
  | .hostLinkState cell up => Sys2Proof.Machine.execHostLinkState cell up s
  | .chimeUpdate cell id status old flags => Sys2Proof.Machine.execChimeUpdate cell id status old flags s
  | .pollTimer c => Sys2Proof.Machine.execPollTimer c s
  | .pollRequest c status value => Sys2Proof.Machine.execPollRequest c status value s
  | .pollResult c => Sys2Proof.Machine.execPollResult c s
  | .subResult c => Sys2Proof.Machine.execSubResult c s
  | .waitTimeout c => Sys2Proof.Machine.execWaitTimeout c s
  | .corePealArrive core line => Sys2Proof.Machine.execCorePealArrive core line s
  | .pealLeave party line => Sys2Proof.Machine.execPealLeave party line s
  | .pealRelease cell line => Sys2Proof.Machine.execPealRelease cell line s
  | .pealTimeout line => Sys2Proof.Machine.execPealTimeout line s
  | .pealFlit cell line odd kind => Sys2Proof.Machine.execPealFlit cell line odd kind s
  | .abandonFlit cell c => Sys2Proof.Machine.execAbandonFlit cell c s
  | .abandonReport cell c => Sys2Proof.Machine.execAbandonReport cell c s
  | .itemArrival link item => Sys2Proof.Machine.execItemArrival link item s
  | .refusalReport c => Sys2Proof.Machine.execRefusalReport c s
  | .ackTimer chip => Sys2Proof.Machine.execAckTimer chip s
  | .remoteAck chip h => Sys2Proof.Machine.execRemoteAck chip h s
  | .resendTimer chip => Sys2Proof.Machine.execResendTimer chip s
  | .streamLostTimer chip => Sys2Proof.Machine.execStreamLostTimer chip s
  | .streamOpen link chip incarnation first => Sys2Proof.Machine.execStreamOpen link chip incarnation first s
  | .openReply chip window => Sys2Proof.Machine.execOpenReply chip window s
  | .openRetry chip => Sys2Proof.Machine.execOpenRetry chip s
  | .streamIdle chip => Sys2Proof.Machine.execStreamIdle chip s
  | .close chip incarnation => Sys2Proof.Machine.execClose chip incarnation s
  | .goodbye chip incarnation => Sys2Proof.Machine.execGoodbye chip incarnation s
  | .peerSilence chip => Sys2Proof.Machine.execPeerSilence chip s
  | .linkDown cell => Sys2Proof.Machine.execLinkDown cell s
  | .linkUp cell => Sys2Proof.Machine.execLinkUp cell s
  | .slugReplayFail id => Sys2Proof.Machine.execSlugReplayFail id s
  | .correctableError cell kind => Sys2Proof.Machine.execCorrectableError cell kind s
  | .cueWake cell insn => Sys2Proof.Machine.execCueWake cell insn s
  | .lendThreshold cell => Sys2Proof.Machine.execLendThreshold cell s
  | .floorLost east => Sys2Proof.Machine.execFloorLost east s
  | .stepNotice east starts lower floorOk => Sys2Proof.Machine.execStepNotice east starts lower floorOk s
  | .stretchChange east high => Sys2Proof.Machine.execStretchChange east high s
  | .wearMeasure cell drift emStress ttSeconds => Sys2Proof.Machine.execWearMeasure cell drift emStress ttSeconds s
  | .engineCycle east => Sys2Proof.Machine.execEngineCycle east s
  | .uncorrectableGalleyError cell insn => Sys2Proof.Machine.execUncorrectableGalleyError cell insn s
  | .registerAccessResponse id => Sys2Proof.Machine.execRegisterAccessResponse id s
  | .illegalOpcode c => Sys2Proof.Machine.execIllegalOpcode c s

end Sys2Proof.Machine
end

