-- ==== Sys2Proof/Safety.lean ====
section
/-!
DEFINITION. What a sound state is, and the vocabulary of the statements: an instruction at its turn, going on at an
address, a latched fault, and what a command leaves alone.
-/

namespace Sys2Proof.Machine

/-! Sound states. -/

/-- A Toll period is one that R30 and R49 allow: 4 to 1,024 microseconds. -/
def periodLegal (us : Nat) : Prop := 4 ≤ us ∧ us ≤ 1024

/-- Memory is in its canonical form, and the Toll's period, a pending period and the period an attach has locked to are legal
(R30, R49; log 3). -/
def State.Sound (s : State) : Prop :=
  Memory.wf s.mem = true ∧ periodLegal s.time.periodUs ∧ (∀ p, s.time.pendingPeriod = some p → periodLegal p) ∧
    ∀ a e, s.attach = some a → a.entry = some e → periodLegal a.period

/-- Every byte of memory reads the same. -/
def sameMemory (s t : State) : Prop := ∀ a, memRead t.mem a = memRead s.mem a

/-- Bytes outside `len` bytes at `a` read the same. -/
def sameMemoryBut (s t : State) (a len : Nat) : Prop :=
  ∀ x, x < a ∨ a + len ≤ x → memRead t.mem x = memRead s.mem x

/-- The `len` bytes at `a` read as the little-endian value `v` (R7). -/
def holdsBytes (t : State) (a len v : Nat) : Prop :=
  ∀ i, i < len → memRead t.mem (a + i) = some (BitVec.ofNat 8 (v >>> (8 * i)))

/-- The key slots and locks of every domain are the same. -/
def sameKeys (s t : State) : Prop :=
  ∀ d, (getDom t d).key = (getDom s d).key ∧ (getDom t d).lock = (getDom s d).lock

/-! Edlum instructions at issue. -/

/-- Context `c` has its turn to decode, and the word `w`, fetched without an error, stands at its program counter (R167,
R169). -/
def AtWord (s : State) (c : Nat) (w : Insn) : Prop :=
  c < ctxCount ∧ hasTurn s c = true ∧ (∃ b, burstOf (getCtx s c) = some b ∧ b.bad = none) ∧
    currentWord (getCtx s c) = some w

/-- `w` passes the first four steps of R188: its encoding, and its channel's `CHMASK` bit. -/
def Accepted (s : State) (c : Nat) (w : Insn) : Prop :=
  wordOk w = true ∧ (namesChannel w = true → cfgChannel (configOf s c) (chOf w) = true)

/-- The checks at issue of an instruction that sends orders: R195 and R196 for the scale instructions, R216 for the
others. -/
def issueCheck (s : State) (c : Nat) (w : Insn) : Option Code :=
  let f : Flight := { id := 0, job := draftJob s c w }
  if opOf w = 0x03 ∨ opOf w = 0x04 then scaleFault s c f else issueFault s c f

/-- The opcodes whose instructions send orders: the scale, movement, reduction and integrity instructions (R196, R214). -/
abbrev SendsOrders (w : Insn) : Prop := opOf w = 0x03 ∨ opOf w = 0x04 ∨ isMovement (opOf w) = true

/-- The row of the opcode table that decodes an instruction word of context `c` (R185, R214, R215). -/
def rowOf (c : Nat) (w : Insn) : Instr :=
  match opOf w with
  | 0x01 => .forme c | 0x02 => .unforme c | 0x03 => .ldscale c | 0x04 => .stscale c | 0x05 => .setcast c
  | 0x06 => .setrate c | 0x07 => .phase c | 0x08 => .advance c | 0x10 => .loop c | 0x11 => .endloop c
  | 0x12 => .branch c | 0x13 => .call c | 0x14 => .ret c | 0x15 => .toll c | 0x16 => .halt c | 0x17 => .nop c
  | 0x18 => .abandon c | 0x19 => .swap c | 0x1A => .drain c
  | 0x20 => .move c | 0x21 => .gather c | 0x22 => .scatter c | 0x23 => .fill c | 0x24 => .mcast c | 0x25 => .reduce c
  | 0x26 => .check c
  | 0x30 => if subopOf w = 0 then .signalAdd c else if subopOf w = 1 then .signalGive c else if subopOf w = 2 then .signalSub c
    else .illegalOpcode c
  | 0x31 => if subopOf w = 0 then .waitGe c else if subopOf w = 1 then .waitTake c else .illegalOpcode c
  | 0x32 => if subopOf w = 0 then .pealArrive c else if subopOf w = 1 then .pealEnrol c else if subopOf w = 2 then .pealResign c
    else .illegalOpcode c
  | 0x33 => .fence c | 0x34 => .amoadd c | 0x3F => .mark c
  | _ => .illegalOpcode c

/-- `t` is `u` with a fault latched in context `c`, which had none: its code and kind, `FAULT_PC` (bit 0 kept), the
state PAUSED and the program counter as it stood; the poll of a WAIT GE is no longer waited for; other contexts and the rest of the
chip are as in `u`, but for the fault logs and counters of the Belfries (R189, R264, R379, R398). -/
def Faulted (u t : State) (c : Nat) (code : Code) (kind : FaultKind) (pc : Word) : Prop :=
  let x := getCtx u c
  getCtx t c = { x with
    wait := .none, tollHold := false, lendSince := none
    sync := if x.sync.op = 1 then { x.sync with outstanding := none } else x.sync
    regs := { x.regs with
      state := .paused, fault := code, faultKind := kind, faultByInsn := true
      faultPc := (pc &&& ~~~(0xF : Word)) ||| (x.regs.faultPc &&& 1) } } ∧
  (∀ k, k ≠ c → getCtx t k = getCtx u k) ∧
  t = { u with ctxs := t.ctxs, west := t.west, east := t.east }

/-- `t` is `u` with context `c` gone on at `pc`: within its list, or past the list's end, where it faults if calls are
open, its program counter on the instruction it went on from, goes on with a pending queue entry, or waits for the doorbell
(R157, R164, R200, R201). -/
def GoesOn (u t : State) (c : Nat) (pc : Word) : Prop :=
  let x := getCtx u c
  if pc ≠ listEnd x then t = putCtx u c { x with pc := pc }
  else if x.calls ≠ [] then x.regs.fault = 0 → Faulted u t c ILLEGAL_INSTR .issue x.pc
  else if pendingEntries x ≠ 0 then t = putCtx u c { dropBursts x with pc := pc, listBase := pc, listCount := 0 }
  else t = putCtx u c
    { dropBursts x with pc := pc, listBase := pc, listCount := 0, wait := .doorbell, regs := { x.regs with state := .waiting } }

/-- Context `c`, `x` as it was, has gone on to the next instruction, unless its list ends there with calls open (R201). -/
def MovesOn (x : Ctx) (t : State) (c : Nat) : Prop :=
  x.pc + 16 ≠ listEnd x ∨ x.calls = [] → (getCtx t c).pc = x.pc + 16

/-- Context `x` with its wait over (R157). -/
def awake (x : Ctx) : Ctx := { x with wait := .none, lendSince := none, regs := { x.regs with state := .running } }

/-- The address in the current list of context `x` (R200). -/
abbrev InList (x : Ctx) (a : Word) : Prop := (a - x.listBase).toNat < 16 * x.listCount

/-! Streams. -/

/-- The stream to a chip is over: its peer is as named, nothing of it is held or waits, no instruction that reaches the chip
is left incomplete, those that do not are as they were, and the contexts of those that were open have latched LINK_LOST (R338, R446). -/
def StreamOver (s t : State) (chip : Nat) (peer : Peer) : Prop :=
  (getRoute t chip).peer = peer ∧ (getStream t chip).held = [] ∧ (getStream t chip).waiting = [] ∧ sameMemory s t ∧
  ((s.flights.map Flight.id).Nodup →
    (∀ f ∈ t.flights, (reachesChip f chip = true → f.complete = true) ∧ (f ∈ s.flights ∨ ∃ g ∈ s.flights, g.id = f.id ∧ g.complete = true)) ∧
    ∀ f ∈ s.flights, reachesChip f chip = true → f.complete = false → (getCtx s f.job.ctx).regs.fault = 0 →
      (stateOf s f.job.ctx = .running ∨ stateOf s f.job.ctx = .waiting) →
      (getCtx t f.job.ctx).regs.fault = LINK_LOST ∧ stateOf t f.job.ctx = .paused)

/-- The window of a chip is gone, and no read that served the chip is left (R339). -/
def WindowGone (s t : State) (chip : Nat) : Prop :=
  (tabWf s.windows = true → tabFind t.windows chip = none) ∧
  ∀ f ∈ t.flights, f ∈ s.flights ∧ ¬(servesRead f = true ∧ ∃ k, f.origin = some (chip, k))

end Sys2Proof.Machine
end

