-- ==== Sys2Proof/Certificates/Slice0/Obligations.lean ====
section
/-!
DEFINITION. The statements: what the rules of the manual say of each command, the frames, and the invariants that every
step keeps.
-/

open Sys2Proof Sys2Proof.Machine

/-! The queue, reset and the invariants. -/

/-- A step with command `c` at the front of the queue is `exec c` on the state with the queue's rest. On an empty queue a
step changes nothing (the model's choice, log 1). -/
def Obligations.TheFrontCommandRuns : Prop :=
  (∀ (s : State) (c : Instr) (rest : List Instr),
     s.pending = c :: rest → step s = exec c { s with pending := rest }) ∧
  (∀ s : State, s.pending = [] → step s = .next s)

/-- R157, R171, R303, R305, R324, R395, R435, R461: after reset the chip is in INIT mode, the Toll stands still with its period
at 50 microseconds, every context is FREE, every cell and channel is ON with its shares and priority, every Peal line is
OFF, no key is held and nothing waits or is in flight. -/
def Obligations.ResetStateIsAsTheTablesSay : Prop :=
  State.reset.regs.mode = .init ∧ State.reset.regs.waitLimit = 32 ∧ State.reset.regs.cueGate = true ∧ State.reset.regs.attachMs = 100 ∧
  State.reset.regs.detachUs = 10000 ∧ State.reset.regs.ackUs = 50 ∧ State.reset.regs.lostUs = 5000 ∧ State.reset.regs.idleUs = 100 ∧
  State.reset.time.ref = 0 ∧ State.reset.time.periodUs = 50 ∧ State.reset.time.running = false ∧
  (∀ c, stateOf State.reset c = .free ∧ (getCtx State.reset c).epoch = 0 ∧ ∀ k, slotOf State.reset c k = {}) ∧
  (∀ n, (getCell State.reset n).state = .on ∧ (getCell State.reset n).shareRead = 112 ∧ (getCell State.reset n).shareWrite = 112 ∧
    (getCell State.reset n).shareRemote = 32 ∧ ∀ ch, (getChan State.reset n ch).state = .on ∧ (getChan State.reset n ch).prio = ch % 4) ∧
  (∀ l, (getLine State.reset l).state = .off ∧ (getLine State.reset l).parent = 31) ∧
  (∀ d, (getDom State.reset d).key = none ∧ (getDom State.reset d).lock = false) ∧ (∀ k, (getRoute State.reset k).peer = .none) ∧
  State.reset.flights = [] ∧ State.reset.orders = [] ∧ State.reset.pending = [] ∧ State.reset.Sound

/-- Every step keeps memory in its canonical form and the Toll's period, pending and locked periods inside R30's range
of 4 to 1,024 microseconds (the form of memory is the model's, log 3). -/
def Obligations.SoundIsKept : Prop :=
  ∀ s t : State, s.Sound → step s = .next t → t.Sound

/-- No command touches the commands that wait behind it: the queue is the model's own (log 1). -/
def Obligations.TheQueueIsUntouched : Prop :=
  ∀ (i : Instr) (s t : State), exec i s = .next t → t.pending = s.pending

/-- R346, R349, R350: a key slot comes to hold a key only by LOAD_KEY of that domain and that key, a domain becomes locked only by
LOCK, and it becomes unlocked only by UNLOCK or by a release, which finds every context of the domain FREE and leaves the
slot empty. -/
def Obligations.KeysComeOnlyThroughTheKeyPort : Prop :=
  ∀ (i : Instr) (s t : State), exec i s = .next t → ∀ d,
    (∀ k, (getDom t d).key = some k → (getDom s d).key = some k ∨ ∃ ok, i = .loadKey d k ok) ∧
    ((getDom t d).lock = true → (getDom s d).lock = true ∨ ∃ ok, i = .lock d ok) ∧
    ((getDom s d).lock = true → (getDom t d).lock = true ∨ (∃ ok, i = .unlock d ok) ∨
      (domainFree s d = true ∧ (getDom t d).key = none))

/-! Edlum: setup and control (R188-R213). -/

/-- R206: NOP retires with no effect, whatever its other bits hold. R193: UNFORME empties every slot whose bit is set in
the mask and no other; instructions already issued keep what they hold. -/
def Obligations.NopAndUnformeRetire : Prop :=
  (∀ (s : State) (c : Nat) (w : Insn), AtWord s c w → opOf w = 0x17 →
     ∃ t, exec (.nop c) s = .next t ∧ GoesOn (useTurn s c) t c ((getCtx s c).pc + 16)) ∧
  (∀ (s : State) (c : Nat) (w : Insn), AtWord s c w → Accepted s c w → opOf w = 0x02 →
     ∃ u t, exec (.unforme c) s = .next t ∧ GoesOn u t c ((getCtx s c).pc + 16) ∧
       u = putCtx (useTurn s c) c { getCtx s c with slots := (getCtx u c).slots } ∧
       ∀ k, k < 64 → slotOf u c k = if (immOf w).getLsbD k then {} else slotOf s c k)

/-- R197, R198, R199, R209, R238: SETCAST writes the named profile, SETRATE the named channel's rate and budget, PHASE the phase
tag and MARK the pending tag; SWAP flips the half bit of the named channel, with `ALL` that of every channel whose `CHMASK`
bit is set, and nothing in a Lead-mode context. Each retires and changes nothing else. -/
def Obligations.SetupInstructionsWriteTheirRegister : Prop :=
  (∀ (s : State) (c : Nat) (w : Insn), AtWord s c w → Accepted s c w →
     let x := getCtx s c
     let goes (i : Instr) (y : Ctx) : Prop :=
       ∃ t, exec i s = .next t ∧ GoesOn (putCtx (useTurn s c) c y) t c (x.pc + 16)
     (opOf w = 0x05 → goes (.setcast c) { x with profiles := tabSet x.profiles (profOf w) (immOf w) }) ∧
     (opOf w = 0x06 → goes (.setrate c) { x with rates := tabSet x.rates (chOf w) { rate := rateOf w, budget := budgetOf w } }) ∧
     (opOf w = 0x07 → goes (.phase c) { x with phase := lowImm w }) ∧
     (opOf w = 0x3F → goes (.mark c) { x with mark := some (lowImm w) })) ∧
  (∀ (s : State) (c : Nat) (w : Insn), AtWord s c w → Accepted s c w → opOf w = 0x19 →
     let x := getCtx s c
     (isLead s c = true → ∃ t, exec (.swap c) s = .next t ∧ GoesOn (useTurn s c) t c (x.pc + 16)) ∧
     (isLead s c = false → ∃ t, exec (.swap c) s = .next t ∧
       ∃ halves, GoesOn (putCtx (useTurn s c) c { x with halves := halves }) t c (x.pc + 16) ∧
         ∀ ch, ch < 16 → halves.getLsbD ch =
           xor (x.halves.getLsbD ch) (if flag0Of w then cfgChannel (configOf s c) ch else decide (ch = chOf w))))

/-- R202, R203: LOOP writes its register and continues, or with a count of 0 transfers and leaves the register, and its
displacement must be at least 1; ENDLOOP decrements its register modulo 2^32 and transfers when the result is not zero, and
its displacement must be 0 or below. Otherwise they are ILLEGAL_INSTR. -/
def Obligations.LoopAndEndloopCount : Prop :=
  (∀ (s : State) (c : Nat) (w : Insn), AtWord s c w → opOf w = 0x10 →
     let x := getCtx s c
     let target := x.pc + BitVec.ofInt 64 (16 * dispOf w)
     (dispOf w < 1 → x.regs.fault = 0 →
       ∃ t, exec (.loop c) s = .next t ∧ Faulted (useTurn s c) t c ILLEGAL_INSTR .issue x.pc) ∧
     (Accepted s c w → InList x target →
       ∃ t, exec (.loop c) s = .next t ∧
         if lowImm w = 0 then GoesOn (useTurn s c) t c target
         else GoesOn (putCtx (useTurn s c) c { x with loops := tabSet x.loops (lregOf w) (lowImm w) }) t c (x.pc + 16))) ∧
  (∀ (s : State) (c : Nat) (w : Insn), AtWord s c w → opOf w = 0x11 →
     let x := getCtx s c
     let target := x.pc + BitVec.ofInt 64 (16 * dispOf w)
     (0 < dispOf w → x.regs.fault = 0 →
       ∃ t, exec (.endloop c) s = .next t ∧ Faulted (useTurn s c) t c ILLEGAL_INSTR .issue x.pc) ∧
     (Accepted s c w → InList x target →
       let old := tabGet 0 x.loops (lregOf w)
       ∃ v t, exec (.endloop c) s = .next t ∧ v.toNat = (old.toNat + (2 ^ 32 - 1)) % 2 ^ 32 ∧
         GoesOn (putCtx (useTurn s c) c { x with loops := tabSet x.loops (lregOf w) v }) t c
           (if old = 1 then x.pc + 16 else target)))

/-- R204, R205: BRANCH is taken with `COND` 0 or with its comparison true; with `ENDLIST` a taken branch ends the list, and its
displacement must be 0. CALL pushes its own address + 16 and transfers, and at depth 8 is ILLEGAL_INSTR; RET pops the return
address and transfers to it, and at depth 0 is ILLEGAL_INSTR. -/
def Obligations.BranchCallAndRetTransfer : Prop :=
  (∀ (s : State) (c : Nat) (w : Insn), AtWord s c w → opOf w = 0x12 →
     let x := getCtx s c
     let target := x.pc + BitVec.ofInt 64 (16 * dispOf w)
     let v := tabGet 0 x.loops (lregOf w)
     (endlistOf w = true → dispOf w ≠ 0 → x.regs.fault = 0 →
       ∃ t, exec (.branch c) s = .next t ∧ Faulted (useTurn s c) t c ILLEGAL_INSTR .issue x.pc) ∧
     (Accepted s c w → InList x target →
       let taken := condOf w = 0 ∨ (condOf w = 1 ∧ v = lowImm w) ∨ (condOf w = 2 ∧ v ≠ lowImm w)
       ∃ t, exec (.branch c) s = .next t ∧
         (¬taken → GoesOn (useTurn s c) t c (x.pc + 16)) ∧
         (taken → endlistOf w = false → GoesOn (useTurn s c) t c target) ∧
         (taken → endlistOf w = true → GoesOn (useTurn s c) t c (x.listBase + BitVec.ofNat 64 (16 * x.listCount))))) ∧
  (∀ (s : State) (c : Nat) (w : Insn), AtWord s c w →
     let x := getCtx s c
     let target := x.pc + BitVec.ofInt 64 (16 * dispOf w)
     (opOf w = 0x13 → Accepted s c w → InList x target → x.calls.length < 8 →
       ∃ t, exec (.call c) s = .next t ∧
         GoesOn (putCtx (useTurn s c) c { x with calls := x.calls ++ [x.pc + 16] }) t c target) ∧
     (opOf w = 0x13 → 8 ≤ x.calls.length → x.regs.fault = 0 →
       ∃ t, exec (.call c) s = .next t ∧ Faulted (useTurn s c) t c ILLEGAL_INSTR .issue x.pc) ∧
     (opOf w = 0x14 → Accepted s c w → ∀ (rest : List Word) (a : Word), x.calls = rest ++ [a] →
       ∃ t, exec (.ret c) s = .next t ∧ GoesOn (putCtx (useTurn s c) c { x with calls := rest }) t c a) ∧
     (opOf w = 0x14 → x.calls = [] → x.regs.fault = 0 →
       ∃ t, exec (.ret c) s = .next t ∧ Faulted (useTurn s c) t c ILLEGAL_INSTR .issue x.pc))

/-- R207, R208, R210, R33: TOLL retires when the home cell's count has reached its target or the Toll is stopped, and otherwise
the context is WAITING with reason 4. HALT retires, the context enters HALTED and its fetched bursts are discarded. DRAIN
retires once every earlier instruction of the context that counts has completed and their chime writes have left their cells,
and otherwise the context is WAITING with reason 5; PREFETCH-marked instructions count only with `ALL`. That a HALT that ends
a list does not look at the call stack is the model's choice (log 89). -/
def Obligations.TollHaltAndDrainHoldTheContext : Prop :=
  (∀ (s : State) (c : Nat) (w : Insn), AtWord s c w → Accepted s c w → opOf w = 0x15 →
     let x := getCtx s c
     let count : BitVec 16 := BitVec.ofNat 16 (getCell s (homeOf s c)).tollCount
     let imm : BitVec 16 := w.setWidth 16
     let target := if flag0Of w then count + imm else imm
     ∃ t, exec (.toll c) s = .next t ∧
       if s.time.running = false ∨ (count - target).toNat < 2 ^ 15 then GoesOn (useTurn s c) t c (x.pc + 16)
       else t = putCtx (useTurn s c) c { x with wait := .toll target, regs := { x.regs with state := .waiting } } ∧
         ctxStatus t c / 8 % 8 = 4) ∧
  (∀ (s : State) (c : Nat) (w : Insn), AtWord s c w → Accepted s c w → opOf w = 0x16 →
     let x := getCtx s c
     ∃ t, exec (.halt c) s = .next t ∧
       t = putCtx (useTurn s c) c { dropBursts x with pc := x.pc + 16, wait := .none, regs := { x.regs with state := .halted } } ∧
         (getCtx t c).bursts = []) ∧
  (∀ (s : State) (c : Nat) (w : Insn), AtWord s c w → Accepted s c w → opOf w = 0x1A →
     let x := getCtx s c
     let all := flag0Of w
     let done := (∀ f ∈ s.flights, f.origin = none → f.job.ctx = c → (all = true ∨ prefetchOf f.job.word = false) → f.complete = true) ∧
       (∀ u ∈ s.chimes, u.origin = none → u.ctx = c → all = false ∧ u.prefetch = true)
     (done → ∃ t, exec (.drain c) s = .next t ∧ GoesOn (useTurn s c) t c (x.pc + 16)) ∧
     (¬done → ∃ t, exec (.drain c) s = .next t ∧
       t = putCtx (useTurn s c) c { x with wait := .drain all, regs := { x.regs with state := .waiting } } ∧ ctxStatus t c / 8 % 8 = 5))

/-- R211: ABANDON increments the epoch modulo 2^32, sends an abandon flit to every source and destination cell of the
context's issued and incomplete instructions, and retires at once when there is none. -/
def Obligations.AbandonSendsItsFlits : Prop :=
  ∀ (s : State) (c : Nat) (w : Insn), AtWord s c w → Accepted s c w → opOf w = 0x18 →
    let x := getCtx s c
    let y := { x with epoch := x.epoch + 1, regs := { x.regs with lastDropped := 0 } }
    ∃ t cells, exec (.abandon c) s = .next t ∧ cells.Nodup ∧
      (∀ n, n ∈ cells ↔ ∃ f ∈ s.flights, f.origin = none ∧ f.job.ctx = c ∧ f.complete = false ∧ (n ∈ f.srcCells ∨ n ∈ f.parts.map Part.cell)) ∧
      (cells = [] → GoesOn (putCtx (useTurn s c) c y) t c (x.pc + 16)) ∧
      (cells ≠ [] → t = { putCtx (useTurn s c) c { y with wait := .abandonReports cells } with
        ctl := s.ctl ++ cells.map fun n => { vc := 0, src := homeOf s c, dst := n, body := .abandon c (x.epoch + 1) } })

/-- R191: FORME whose image address is aligned and readable asks for the image and issues nothing before it returns; a misaligned
address is ALIGN, one that no readable entry holds is RANGE, and either leaves the slot EMPTY (R75). R69, R75, R191: the image
whose accesses the port has granted makes the slot VALID with the forme it describes when its validation passes, and leaves it
EMPTY with the fault when the read or the validation fails. That the wait for an image shows no wait reason, and how many
accesses an image takes, are the model's choice (log 91, log 8). -/
def Obligations.FormeFetchesAndValidates : Prop :=
  let emptied (s : State) (c : Nat) (w : Insn) : State :=
    putCtx (useTurn s c) c { getCtx s c with slots := tabSet (getCtx s c).slots (dstOf w) {} }
  (∀ (s : State) (c : Nat) (w : Insn), AtWord s c w → Accepted s c w → opOf w = 0x01 →
     let a := immOf w
     let x := getCtx s c
     (a.toNat % 32 = 0 → imageReachable s c a = true →
       ∃ t, exec (.forme c) s = .next t ∧ getCtx t c = { x with wait := .formeImage (dstOf w) a s.seq (imageAccesses a) } ∧ hasTurn t c = false ∧
         t.flights = s.flights ∧ t.mem = s.mem) ∧
     (a.toNat % 32 ≠ 0 → x.regs.fault = 0 →
       ∃ t, exec (.forme c) s = .next t ∧ Faulted (emptied s c w) t c ALIGN .issue x.pc ∧ slotOf t c (dstOf w) = {}) ∧
     (a.toNat % 32 = 0 → imageReachable s c a = false → x.regs.fault = 0 →
       ∃ t, exec (.forme c) s = .next t ∧ Faulted (emptied s c w) t c RANGE .issue x.pc ∧ slotOf t c (dstOf w) = {})) ∧
  (∀ (s : State) (c k id : Nat) (a : Word) (status : AttStatus) (image : List Word),
     c < ctxCount → (getCtx s c).wait = .formeImage k a id 0 → (getCtx s c).regs.state = .running →
     let x := getCtx s c
     let u (slot : Slot) := putCtx s c { x with wait := .none, slots := tabSet x.slots k slot }
     (∀ f, status = .ok → parseForme image = some f → checkForme s c f = none →
       ∃ t, exec (.formeImageReturn c status image) s = .next t ∧
         GoesOn (u { state := .valid, forme := f }) t c (x.pc + 16)) ∧
     (∀ code, (statusCode status = some code ∨
         (status = .ok ∧ parseForme image = none ∧ code = BAD_FORME) ∨
         (∃ f, status = .ok ∧ parseForme image = some f ∧ checkForme s c f = some code)) →
       x.regs.fault = 0 →
       ∃ t, exec (.formeImageReturn c status image) s = .next t ∧ Faulted (u {}) t c code .issue x.pc ∧ slotOf t c k = {}))

/-- R81, R194: ADVANCE moves a VALID slot's base by the multiple of the dimension's stride and revalidates it; a base whose
bits [63:48] change is RANGE, an EMPTY slot BAD_FORME, a STALE one RANGE. -/
def Obligations.AdvanceMovesTheBase : Prop :=
  ∀ (s : State) (c : Nat) (w : Insn), AtWord s c w → Accepted s c w → opOf w = 0x08 →
    let x := getCtx s c
    let slot := slotOf s c (dstOf w)
    let faults (code : Code) := x.regs.fault = 0 → ∃ t, exec (.advance c) s = .next t ∧ Faulted (useTurn s c) t c code .issue x.pc
    (slot.state = .empty → faults BAD_FORME) ∧ (slot.state = .stale → faults RANGE) ∧
    (slot.state = .valid → ∀ b, advancedBase slot.forme (advDimOf w) (advMulOf w) = some b →
      let f := { slot.forme with base := BitVec.ofInt 64 b }
      (b / 2 ^ 48 ≠ ((slot.forme.base.toNat / 2 ^ 48 : Nat) : Int) → faults RANGE) ∧
      (b / 2 ^ 48 = ((slot.forme.base.toNat / 2 ^ 48 : Nat) : Int) →
        (∀ code, checkForme s c f = some code → faults code) ∧
        (checkForme s c f = none → ∃ t, exec (.advance c) s = .next t ∧
          GoesOn (putCtx (useTurn s c) c { x with slots := tabSet x.slots (dstOf w) { state := .valid, forme := f } }) t c (x.pc + 16))))

/-- R188, R200, R215: a word whose encoding R185 to R187 or R214 and R215 do not allow faults with ILLEGAL_INSTR, and one whose
channel's `CHMASK` bit is clear with CLASS_PRIV; a LOOP, ENDLOOP, BRANCH or CALL whose target lies outside the current list
is ILLEGAL_INSTR, whether or not the transfer would be taken. None has another effect. -/
def Obligations.RejectedWordsAndTargetsFault : Prop :=
  (∀ (s : State) (c : Nat) (w : Insn), AtWord s c w → (getCtx s c).regs.fault = 0 →
     (wordOk w = false → ∃ t, exec (rowOf c w) s = .next t ∧ Faulted (useTurn s c) t c ILLEGAL_INSTR .issue (getCtx s c).pc) ∧
     (opListed (opOf w) = false →
       ∃ t, exec (.illegalOpcode c) s = .next t ∧ Faulted (useTurn s c) t c ILLEGAL_INSTR .issue (getCtx s c).pc) ∧
     (wordOk w = true → opOf w < 0x20 → namesChannel w = true → cfgChannel (configOf s c) (chOf w) = false →
       ∃ t, exec (rowOf c w) s = .next t ∧ Faulted (useTurn s c) t c CLASS_PRIV .issue (getCtx s c).pc)) ∧
  (∀ (s : State) (c : Nat) (w : Insn), AtWord s c w → opOf w = 0x10 ∨ opOf w = 0x11 ∨ opOf w = 0x12 ∨ opOf w = 0x13 →
     let x := getCtx s c
     ¬InList x (x.pc + BitVec.ofInt 64 (16 * dispOf w)) → x.regs.fault = 0 →
       ∃ t, exec (rowOf c w) s = .next t ∧ Faulted (useTurn s c) t c ILLEGAL_INSTR .issue x.pc)

/-- R185, R189: whatever word stands at its program counter, a context that has its turn goes on or faults: the row of the
word's opcode answers a next state, in which no byte of memory, key slot or lock has changed. -/
def Obligations.EveryWordHasItsRow : Prop :=
  ∀ (s : State) (c : Nat) (w : Insn), AtWord s c w →
    ∃ t, exec (rowOf c w) s = .next t ∧ sameMemory s t ∧ sameKeys s t ∧ t.pending = s.pending

/-! Edlum: movement and synchronisation (R214-R238, R258-R276). -/

/-- R42, R78, R170, R172, R196, R199, R209, R216: a scale, movement, reduction or CHECK instruction (LDSCALE, STSCALE, MOVE, GATHER, SCATTER, FILL,
MCAST, REDUCE, CHECK, AMOADD: the row of its word) that passes its checks outside a guard issues. What its slots, profile, seed, phase tag, rate, half and epoch hold is captured; one order goes to
each of its source and destination cells; a pending MARK is spent by a movement instruction; the next instruction follows. A
deadline-bound context's orders carry the channel's budget beyond the later of now and the last deadline that the channel had
in the frame, and never more than the guard; those of another context carry 2^20 - 1. -/
def Obligations.TransfersIssueTheirOrders : Prop :=
  ∀ (s : State) (c : Nat) (w : Insn), AtWord s c w → Accepted s c w → SendsOrders w → heldByGuard s c = false →
    issueCheck (useTurn s c) c w = none →
    let x := getCtx s c
    ∃ t f, exec (rowOf c w) s = .next t ∧ t.flights = s.flights ++ [f] ∧ f.id = s.seq ∧ t.seq = s.seq + 1 ∧
      f.origin = none ∧ f.complete = false ∧ f.stop = none ∧
      f.job.ctx = c ∧ f.job.word = w ∧ f.job.pc = x.pc ∧ f.job.epoch = x.epoch ∧ f.job.phase = x.phase ∧ f.job.seed = x.seed ∧
      f.job.profile = tabGet 0 x.profiles (profOf w) ∧ f.job.rate = (tabGet {} x.rates (chOf w)).rate ∧
      f.job.half = x.halves.getLsbD (chOf w) ∧
      f.job.srcs = (slotsOf w).1.map (fun k => (slotOf s c k).forme) ∧
      f.job.dsts = (slotsOf w).2.1.map (fun k => (slotOf s c k).forme) ∧
      f.job.mark = (if isMovement (opOf w) then x.mark else none) ∧
      (let now := timeAt s (homeOf s c)
       let guard := periodNs s - 1000
       let budget := (tabGet {} x.rates (chOf w)).budget
       let prev := if x.prevFrame = frameAt s now then tabGet 0 x.prevDeadline (chOf w) else 0
       f.job.frame = frameAt s now ∧ (cfgDeadline (configOf s c) = false → f.job.deadline = 2 ^ 20 - 1) ∧
       (cfgDeadline (configOf s c) = true → budget = 0 → f.job.deadline = guard) ∧
       (cfgDeadline (configOf s c) = true → budget ≠ 0 → f.job.deadline = min (max (offsetAt s now) prev + budget) guard) ∧
       (cfgDeadline (configOf s c) = true → (getCtx t c).prevFrame = frameAt s now ∧ tabGet 0 (getCtx t c).prevDeadline (chOf w) = f.job.deadline)) ∧
      (getCtx t c).mark = (if isMovement (opOf w) then none else x.mark) ∧
      (∃ os, t.orders = s.orders ++ os ∧ (os.map Order.cell).Nodup ∧ (∀ o ∈ os, o.insn = f.id ∧ o.ctx = c ∧ o.ch = chOf w ∧ o.place = .sent) ∧
        ∀ n, n ∈ os.map Order.cell ↔ n ∈ f.srcCells ∨ n ∈ f.parts.map Part.cell) ∧
      MovesOn x t c ∧ sameMemory s t

/-- R37, R75, R79, R188, R195, R216: in a guard a deadline-bound context's scale, movement, reduction or CHECK instruction is
held and nothing is issued; outside it, one that fails a check latches that check's fault and issues nothing. A MOVE that
passes the checks before its slots' faults with BAD_FORME when a slot it names is EMPTY, and with RANGE when none is EMPTY
and one is STALE. That a context with a guarded order gets no further turn is the model's choice (log 48). -/
def Obligations.TransfersAreHeldOrFault : Prop :=
  (∀ (s : State) (c : Nat) (w : Insn), AtWord s c w → Accepted s c w → SendsOrders w → heldByGuard s c = true →
     ∃ t, exec (rowOf c w) s = .next t ∧ t = putCtx (useTurn s c) c { getCtx s c with wait := .guarded } ∧ hasTurn t c = false) ∧
  (∀ (s : State) (c : Nat) (w : Insn), AtWord s c w → Accepted s c w → SendsOrders w → heldByGuard s c = false →
     ∀ code, issueCheck (useTurn s c) c w = some code → (getCtx s c).regs.fault = 0 →
       ∃ t, exec (rowOf c w) s = .next t ∧ Faulted (useTurn s c) t c code .issue (getCtx s c).pc) ∧
  (∀ (s : State) (c : Nat) (w : Insn), AtWord s c w → Accepted s c w → opOf w = 0x20 → auxFlagOf w = false →
     heldByGuard s c = false → step1Ok (useTurn s c) c w = true → step3Ok (useTurn s c) c w = true → (getCtx s c).regs.fault = 0 →
     let a := (slotOf s c (srcOf w)).state
     let b := (slotOf s c (dstOf w)).state
     (a = .empty ∨ b = .empty → ∃ t, exec (.move c) s = .next t ∧ Faulted (useTurn s c) t c BAD_FORME .issue (getCtx s c).pc) ∧
     (a ≠ .empty → b ≠ .empty → (a = .stale ∨ b = .stale) →
       ∃ t, exec (.move c) s = .next t ∧ Faulted (useTurn s c) t c RANGE .issue (getCtx s c).pc))

/-- R219, R233: a SIGNAL whose chime word passes its checks sends one update of its kind and amount to the cell that serves the
word; ADD and GIVE retire at issue, SUB waits for its result; a failed check latches its fault. A SUB's result retires it, or
latches the fault it brings; BUS_ERROR and ECC_UNCORR of its update are End faults, for which it has retired (R384). That
the wait for a SUB's result shows no wait reason is the model's choice (log 91). -/
def Obligations.SignalsSendTheirUpdate : Prop :=
  (∀ (s : State) (c : Nat) (w : Insn), AtWord s c w → Accepted s c w →
     let x := getCtx s c
     let sends (i : Instr) (op : ChimeOp) (waits : Bool) : Prop :=
       (signalFault (useTurn s c) c w false true = none → ∃ t u, exec i s = .next t ∧ t.chimes = s.chimes ++ [u] ∧
         u.addr = signalAddr w ∧ u.op = op ∧ u.amount = lowImm w ∧ u.ctx = c ∧ u.cell = signalCell s c w ∧ u.wantsResult = waits ∧
         t.seq = s.seq + 1 ∧ sameMemory s t ∧
         if waits then getCtx t c = { x with wait := .subResult } else MovesOn x t c) ∧
       (∀ code, signalFault (useTurn s c) c w false true = some code → x.regs.fault = 0 →
         ∃ t, exec i s = .next t ∧ Faulted (useTurn s c) t c code .issue x.pc)
     (opOf w = 0x30 → subopOf w = 0 → sends (.signalAdd c) .add false) ∧
     (opOf w = 0x30 → subopOf w = 1 → sends (.signalGive c) .give false) ∧
     (opOf w = 0x30 → subopOf w = 2 → sends (.signalSub c) .sub true)) ∧
  (∀ (s : State) (c : Nat) (fault : BitVec 8) (m : Msg),
     c < ctxCount → findMsg s (isSubResult c) = some m → m.body = .subResult c fault →
     let x := getCtx s c
     let u := putCtx { s with ctl := s.ctl.erase m } c { x with wait := .none }
     x.regs.state = .running → x.wait = .subResult →
     ∃ t, exec (.subResult c) s = .next t ∧ (fault = 0 → GoesOn u t c (x.pc + 16)) ∧
       (fault ≠ 0 → fault ≠ BUS_ERROR → fault ≠ ECC_UNCORR → x.regs.fault = 0 → Faulted u t c fault .sync x.pc) ∧
       (fault = BUS_ERROR ∨ fault = ECC_UNCORR → x.regs.fault = 0 → (x.pc + 16 ≠ listEnd x ∨ x.calls = []) →
         (getCtx t c).regs.fault = fault ∧ (getCtx t c).regs.faultKind = .ending ∧ stateOf t c = .paused ∧ (getCtx t c).pc = x.pc + 16))

/-- R234, R235: a WAIT whose word passes its checks holds its context WAITING with reason 2, with the target or amount it
computes, and sends its first poll, to the serving cell where the word is this chip's; a TAKE of more than 0x7FFF_FFFF on a
chime word it may use is ILLEGAL_INSTR (the order of the checks is the model's choice, log 128). -/
def Obligations.WaitsSendTheirFirstPoll : Prop :=
  ∀ (s : State) (c : Nat) (w : Insn), AtWord s c w → Accepted s c w → opOf w = 0x31 →
    let x := getCtx s c
    let v : BitVec 32 := lowImm w - BitVec.ofNat 32 (stepOf w) * tabGet 0 x.loops (lregOf w)
    let waits (i : Instr) (op : Nat) : Prop :=
      ∃ t, exec i s = .next t ∧ (getCtx t c).wait = .chime ∧ ctxStatus t c / 8 % 8 = 2 ∧ (getCtx t c).pc = x.pc ∧
        (getCtx t c).sync.op = op ∧ (getCtx t c).sync.addr = signalAddr w ∧ (getCtx t c).sync.target = v ∧
        (getCtx t c).sync.outstanding = some s.seq ∧
        (addrChip (signalAddr w) = s.regs.chipId →
          t.ctl = s.ctl ++ [{ vc := 0, src := homeOf s c, dst := signalCell s c w,
                              body := .poll s.seq s.seq c (signalAddr w) (if op = 2 then some v else none) x.epoch }])
    (subopOf w = 0 → signalFault (useTurn s c) c w true false = none → waits (.waitGe c) 1) ∧
    (subopOf w = 1 → signalFault (useTurn s c) c w true true = none → v.toNat ≤ 0x7FFFFFFF → waits (.waitTake c) 2) ∧
    (subopOf w = 1 → chimeWordOk (useTurn s c) c (signalAddr w) (chimeCoreOf w) true true = true → 0x7FFFFFFF < v.toNat → x.regs.fault = 0 →
      ∃ t, exec (.waitTake c) s = .next t ∧ Faulted (useTurn s c) t c ILLEGAL_INSTR .issue x.pc)

/-- R258, R263, R235: a poll whose slot the port of the cell that serves its word has granted sends the value back; a TAKE that finds at least its amount
subtracts it from the word in the same update, and no other byte of memory changes; every other poll changes none. R234,
R235, R262, R265: a poll's result ends a WAIT GE whose target it has reached and a TAKE that took its amount; a value
2^31 before the target is CHIME_FAR, a failed poll faults with its code, and any other value leaves the WAIT waiting. The
result of a poll that nobody waits for changes nothing (R264). -/
def Obligations.PollsReadTakeAndEndTheWait : Prop :=
  (∀ (s : State) (c id ask : Nat) (a : Word) (take : Option (BitVec 32)) (epoch value : BitVec 32) (m : Msg),
     findMsg s (isPoll c) = some m → m.body = .poll id ask c a take epoch → addrChip a = s.regs.chipId → s.granted.contains id = true →
     ∃ t, exec (.pollRequest c .ok value) s = .next t ∧
       (∀ n, take = some n → n.toNat ≤ value.toNat →
         holdsBytes t a.toNat 4 (value.toNat - n.toNat) ∧ sameMemoryBut s t a.toNat 4) ∧
       ((∀ n, take = some n → value.toNat < n.toNat) → sameMemory s t) ∧
       (c < ctxCount → ∃ took, t.ctl = s.ctl.erase m ++ [{ vc := 1, src := m.dst, dst := m.src, body := .pollResult ask c value took 0 }] ∧
         (took = true ↔ ∃ n, take = some n ∧ n.toNat ≤ value.toNat))) ∧
  (∀ (s : State) (c id : Nat) (v : BitVec 32) (took : Bool) (fault : BitVec 8) (m : Msg),
     c < ctxCount → findMsg s (isPollResult c) = some m → m.body = .pollResult id c v took fault →
     (getCtx s c).sync.outstanding ≠ some id → exec (.pollResult c) s = .next { s with ctl := s.ctl.erase m }) ∧
  (∀ (s : State) (c id : Nat) (v : BitVec 32) (took : Bool) (fault : BitVec 8) (m : Msg),
     c < ctxCount → findMsg s (isPollResult c) = some m → m.body = .pollResult id c v took fault →
     let x := getCtx s c
     x.regs.state = .waiting → x.wait = .chime → x.sync.outstanding = some id → (x.sync.op = 1 ∨ x.sync.op = 2) →
     let y := { x with sync := { x.sync with outstanding := none, last := v } }
     let u := putCtx { s with ctl := s.ctl.erase m } c y
     let met := if x.sync.op = 2 then took = true else (v - x.sync.target).toNat < 2 ^ 31
     ∃ t, exec (.pollResult c) s = .next t ∧
       (fault = 0 → met → GoesOn (putCtx u c (awake { y with sync := clearSync y.sync })) t c (x.pc + 16)) ∧
       (fault = 0 → ¬met → (x.sync.op = 2 ∨ (x.sync.target - v).toNat ≠ 2 ^ 31) → t = u) ∧
       (fault = 0 → x.sync.op = 1 → (x.sync.target - v).toNat = 2 ^ 31 → x.regs.fault = 0 → Faulted u t c CHIME_FAR .sync x.pc) ∧
       (fault ≠ 0 → x.regs.fault = 0 → Faulted u t c fault .sync x.pc))

/-- R234, R264: once 64 x (`POLL` + 1) ns have passed since the last poll, and its result has come, the next poll is sent. A
WAIT that has waited `WAIT_US` microseconds from its first poll latches WAIT_TIMEOUT, and a proof dump is under way; a TAKE
with a poll outstanding is awaited (the model's choice, log 45). -/
def Obligations.WaitTimersPollAndTimeOut : Prop :=
  (∀ (s : State) (c : Nat), c < ctxCount → (getCtx s c).wait = .chime → (getCtx s c).sync.outstanding = none →
     pollNs (getCtx s c) ≤ (timeAt s (homeOf s c) - (getCtx s c).sync.lastPoll).toNat →
     ∃ t, exec (.pollTimer c) s = .next t ∧ (getCtx t c).sync.outstanding = some s.seq ∧ (getCtx t c).wait = .chime ∧
       (getCtx t c).sync.lastPoll = timeAt s (homeOf s c) ∧ (getCtx t c).sync.polls = (getCtx s c).sync.polls + 1 ∧ sameMemory s t) ∧
  (∀ (s : State) (c : Nat), c < ctxCount → (getCtx s c).wait = .chime → s.regs.waitUs ≠ 0 →
     ¬((getCtx s c).sync.outstanding.isSome = true ∧ (getCtx s c).sync.op = 2) →
     s.regs.waitUs * 1000 ≤ (timeAt s (homeOf s c) - (getCtx s c).sync.since).toNat →
     (getCtx s c).regs.state = .waiting → (getCtx s c).regs.fault = 0 →
     ∃ t, exec (.waitTimeout c) s = .next t ∧ (getCtx t c).regs.fault = WAIT_TIMEOUT ∧ (getCtx t c).regs.state = .paused ∧
       (getCtx t c).pc = (getCtx s c).pc ∧ t.instr.dump ≠ none ∧ sameMemory s t)

/-- R236, R266, R267, R269: PEAL ARRIVE of an enrolled context holds it WAITING with reason 3 for its next round; unless
entry is held, its input for that round is raised. A line of another domain is CLASS_PRIV, one that is not ON or on which the
context is not enrolled PEAL_NOT_ENROLLED. R236, R269, R270: ENROL makes the context a participant whose first round is
the open one, or the next where this chip of a system line has sent its arrival in the open round up the tree (the model's
choice, log 126), and RESIGN takes it off the line; the same two faults stop them on such a line; each retires (in the same step: the model's choice, log 15). -/
def Obligations.PealParticipationAndArrival : Prop :=
  (∀ (s : State) (c : Nat) (w : Insn), AtWord s c w → Accepted s c w → opOf w = 0x32 → subopOf w = 0 →
     let n := lineOf w
     let l := getLine s n
     let x := getCtx s c
     (l.domain = domOf s c → l.state = .on → ∀ p, partyOf l (.context c) = some p →
       ∃ t, exec (.pealArrive c) s = .next t ∧ (getCtx t c).wait = .peal ∧ (getCtx t c).sync.op = 3 ∧ (getCtx t c).sync.index = n ∧
         (getCtx t c).sync.round = p.next ∧ (getCtx t c).pc = x.pc ∧ ctxStatus t c / 8 % 8 = 3 ∧
         (entryHeld l p.next = true → (getLine t n).round = l.round ∧ (getLine t n).stalls = (l.stalls + 1) % 2 ^ 48) ∧
         (entryHeld l p.next = false → ∃ q, partyOf (getLine t n) (.context c) = some q ∧ arrivedIn q p.next = true ∧ q.next = p.next + 1)) ∧
     (x.regs.fault = 0 → l.domain ≠ domOf s c →
       ∃ t, exec (.pealArrive c) s = .next t ∧ Faulted (useTurn s c) t c CLASS_PRIV .issue x.pc) ∧
     (x.regs.fault = 0 → l.domain = domOf s c → (l.state ≠ .on ∨ partyOf l (.context c) = none) →
       ∃ t, exec (.pealArrive c) s = .next t ∧ Faulted (useTurn s c) t c PEAL_NOT_ENROLLED .issue x.pc)) ∧
  (∀ (s : State) (c : Nat) (w : Insn), AtWord s c w → Accepted s c w → opOf w = 0x32 →
     let n := lineOf w
     let l := getLine s n
     let x := getCtx s c
     let first := if l.system = true ∧ l.sentUp = true then l.round + 1 else l.round
     (subopOf w = 1 → l.domain = domOf s c → l.state = .on →
       ∃ t, exec (.pealEnrol c) s = .next t ∧ MovesOn x t c ∧
         (partyOf l (.context c) = none →
           getLine t n = { l with parties := l.parties ++ [{ party := .context c, firstRound := first, next := first }] } ∧
           (getCtx t c).sync.enrolled.getLsbD n = true) ∧
         ((partyOf l (.context c)).isSome = true → getLine t n = l)) ∧
     (subopOf w = 2 → l.domain = domOf s c → (∃ p, partyOf l (.context c) = some p) →
       ∃ t, exec (.pealResign c) s = .next t ∧ MovesOn x t c ∧ partyOf (getLine t n) (.context c) = none ∧
         (getCtx t c).sync.enrolled.getLsbD n = false) ∧
     (x.regs.fault = 0 → (subopOf w = 1 ∨ subopOf w = 2) → l.domain ≠ domOf s c →
       ∃ t, exec (rowOf c w) s = .next t ∧ Faulted (useTurn s c) t c CLASS_PRIV .issue x.pc) ∧
     (x.regs.fault = 0 → l.domain = domOf s c → (subopOf w = 1 ∧ l.state ≠ .on) ∨ (subopOf w = 2 ∧ partyOf l (.context c) = none) →
       ∃ t, exec (rowOf c w) s = .next t ∧ Faulted (useTurn s c) t c PEAL_NOT_ENROLLED .issue x.pc))

/-- R266, R267: on a line that is ON a core that arrives, joining the line if it is its first arrival (the model's choice, log 14), raises
its input and goes on to its next round, or is held and counted in `STALLS` where the round two before has not been left; on any
other line it changes nothing. On a line that spans one chip, when it was the last
participant missing from the open round `ROUND` increments and the release goes to every cell that arrived, and otherwise
the round stays open. R266, R268: a release that reaches a cell retires the ARRIVE of every context there that waits for that round, and
leaves other contexts as they are where no entry is held; a participant that still holds its input of a released round lowers it when
it leaves, and its enrolment stays; one that has no input raised changes nothing. -/
def Obligations.RoundsReleaseAndAreLeft : Prop :=
  (∀ (s : State) (core n : Nat), n < lineCount → coreGood s core = true →
     let l := getLine s n
     let first := if l.system = true ∧ l.sentUp = true then l.round + 1 else l.round
     let p := (partyOf l (.core core)).getD { party := .core core, firstRound := first, next := first }
     (l.state ≠ .on → exec (.corePealArrive core n) s = .next s) ∧
     (l.state = .on → p.held = false → ∃ t q, exec (.corePealArrive core n) s = .next t ∧ sameMemory s t ∧
       partyOf (getLine t n) (.core core) = some q ∧
       (entryHeld l p.next = true → q.held = true ∧ q.next = p.next ∧ (getLine t n).round = l.round ∧
         (getLine t n).stalls = (l.stalls + 1) % 2 ^ 48 ∧ t.ctxs = s.ctxs) ∧
       (entryHeld l p.next = false → q.held = false ∧ arrivedIn q p.next = true ∧ q.next = p.next + 1))) ∧
  (∀ (s : State) (core n : Nat) (p : Participant), n < lineCount → coreGood s core = true →
     let l := getLine s n
     l.state = .on → l.system = false → (∀ x ∈ l.parties, x.withdrawn = false) →
     partyOf l (.core core) = some p → p.held = false → entryHeld l p.next = false →
     let l' := { l with parties := l.parties.map fun x => if x.party = .core core then raiseWire x p.next else x }
     ∃ t, exec (.corePealArrive core n) s = .next t ∧ t.ctxs = s.ctxs ∧ sameMemory s t ∧
       (roundComplete l' = true → p.next = l.round → enrolledIn p (l.round + 1) = true → arrivedIn p (l.round + 1) = false →
         (getLine t n).round = l.round + 1 ∧ ∀ cell ∈ arrivedCells s l' l.round, cell ∈ (getLine t n).deliver) ∧
       (roundComplete l' = false → (getLine t n).round = l.round ∧ (getLine t n).parties = l'.parties)) ∧
  ((∀ (s : State) (cell n c : Nat), n < lineCount → cell < cellCount → (getLine s n).deliver.contains cell = true →
      releasedHere s cell n = [c] →
      ∃ t, exec (.pealRelease cell n) s = .next t ∧ MovesOn (getCtx s c) t c ∧ (getCtx t c).sync.op = 0 ∧
        (getCtx t c).wait ≠ .peal ∧ ((∀ p ∈ (getLine s n).parties, p.held = false) → ∀ k, k ≠ c → getCtx t k = getCtx s k)) ∧
   (∀ (s : State) (cell n : Nat), n < lineCount → cell < cellCount → (getLine s n).deliver.contains cell = true →
      (releasedHere s cell n).Nodup → (∀ p ∈ (getLine s n).parties, p.held = false) →
      ∃ t, exec (.pealRelease cell n) s = .next t ∧ (getLine t n).deliver = (getLine s n).deliver.filter (· ≠ cell) ∧ sameMemory s t ∧
        (∀ c ∈ releasedHere s cell n, MovesOn (getCtx s c) t c ∧ (getCtx t c).sync.op = 0 ∧ (getCtx t c).wait ≠ .peal) ∧
        ∀ k, k ∉ releasedHere s cell n → getCtx t k = getCtx s k) ∧
   (∀ (s : State) (party : Party) (n : Nat) (p : Participant) (r : BitVec 32), n < lineCount →
      partyOf (getLine s n) party = some p → oldestHeld p = some r → isReleased (getLine s n) r = true →
      ∃ t, exec (.pealLeave party n) s = .next t ∧ sameMemory s t ∧ ((∀ q ∈ (getLine s n).parties, q.held = false) →
        (getLine t n).parties = ((getLine s n).parties.map fun q => if q.party = party then lowerWire q r else q) ∧
        (getLine t n).round = (getLine s n).round ∧ t.ctxs = s.ctxs)) ∧
   ∀ (s : State) (party : Party) (n : Nat), n < lineCount → (∀ p, partyOf (getLine s n) party = some p → p.even = none ∧ p.odd = none) →
      exec (.pealLeave party n) s = .next s)

/-- R272, R274, R340: a line whose open round has stayed unreleased for `PEAL_US` microseconds from its first arrival is marked
FAILED and releases no one; every context waiting in ARRIVE on it for a round not yet released latches PEAL_TIMEOUT, its
enrolments are cleared, and a proof dump is under way. A Peal flit for a line that is not an ON system line, or
over a link that the line's tree does not name, changes nothing (the model's choice, log 46); on one, a failure marks the line FAILED, a release of the open round's wire from the parent
increments `ROUND`, one of the other wire, a repetition, changes nothing, and an arrival or a leaving from a child is taken
and leaves the line ON: on a chip with a parent the arrival of a child that has left that wire's last round is noted, and so is its
being taken back, and a child that leaves has nothing more to leave. -/
def Obligations.PealFailureAndTreeFlits : Prop :=
  (∀ (s : State) (n : Nat) (since : Word), n < lineCount → (getLine s n).state = .on → s.regs.pealUs ≠ 0 →
     (getLine s n).firstArrival = some since → elapsedUs s since s.regs.pealUs = true →
     ∃ t, exec (.pealTimeout n) s = .next t ∧ (getLine t n).state = .failed ∧ (getLine t n).round = (getLine s n).round ∧
       (getLine t n).parties = [] ∧ t.instr.dump ≠ none ∧
       (∀ c, (getCtx s c).wait = .peal → (getCtx s c).sync.index = n → (getCtx s c).regs.state = .waiting →
         isReleased (getLine s n) (getCtx s c).sync.round = false → (getCtx s c).regs.fault = 0 → (getCtx t c).regs.fault = PEAL_TIMEOUT ∧ (getCtx t c).regs.state = .paused) ∧
       sameMemory s t) ∧
  (∀ (s : State) (cell n : Nat) (odd : Bool) (kind : PealFlit), 8 ≤ n → n < lineCount → roleOf cell = .l →
     let l := getLine s n
     (¬(l.system = true ∧ l.state = .on) ∨ (l.parent ≠ cell - 336 ∧ l.children.getLsbD (cell - 336) = false) →
       exec (.pealFlit cell n odd kind) s = .next s) ∧
     (l.system = true → l.state = .on → l.parent = cell - 336 →
       (∃ t, exec (.pealFlit cell n odd .failure) s = .next t ∧ (getLine t n).state = .failed ∧ (getLine t n).parties = []) ∧
       (∃ t, exec (.pealFlit cell n odd .release) s = .next t ∧
         (odd = l.round.getLsbD 0 → (getLine t n).round = l.round + 1) ∧ (odd ≠ l.round.getLsbD 0 → t = s))) ∧
     (l.system = true → l.state = .on → l.children.getLsbD (cell - 336) = true → ∀ k, (∃ up, k = .arrival up) ∨ (∃ b, k = .leave b) →
       ∃ t, exec (.pealFlit cell n odd k) s = .next t ∧ (getLine t n).state = .on ∧ sameMemory s t ∧
         (∀ up, k = .arrival up → l.parent ≠ 0x1F → (childBits l odd true).getLsbD (cell - 336) = false →
           (childBits (getLine t n) odd false).getLsbD (cell - 336) = up ∧ (getLine t n).round = l.round ∧ t.ctxs = s.ctxs) ∧
         (∀ b, k = .leave b → (∀ q ∈ l.parties, q.held = false) →
           (childBits (getLine t n) odd true).getLsbD (cell - 336) = false ∧ (getLine t n).round = l.round ∧ t.ctxs = s.ctxs)))

/-- R237, R293: FENCE retires at once when no cell holds an effect it covers, and otherwise holds its context WAITING with
reason 6 until each of those cells has reported; the last report retires it. -/
def Obligations.FenceWaitsForItsReports : Prop :=
  (∀ (s : State) (c : Nat) (w : Insn), AtWord s c w → Accepted s c w → opOf w = 0x33 →
    let x := getCtx s c
    let cells := fenceCells s c (fenceAllOf w)
    ∃ t, exec (.fence c) s = .next t ∧
      if cells = [] then GoesOn (useTurn s c) t c (x.pc + 16)
      else t = putCtx (useTurn s c) c { x with wait := .fence (scopeOf w) (fenceAllOf w) cells, regs := { x.regs with state := .waiting } } ∧
        ctxStatus t c / 8 % 8 = 6) ∧
  (∀ (s : State) (c cell scope : Nat) (all : Bool) (cells : List Nat), c < ctxCount → cell < cellCount →
    (getCtx s c).wait = .fence scope all cells → (getCtx s c).regs.state = .waiting → cell ∈ cells →
    fenceEvidence s c cell scope all = true →
    let x := getCtx s c
    let rest := cells.filter fun n => n ≠ cell
    ∃ t, exec (.performedReport c cell) s = .next t ∧
      (rest = [] → GoesOn (putCtx s c (awake x)) t c (x.pc + 16)) ∧
      (rest ≠ [] → t = putCtx s c { x with wait := .fence scope all rest }))

/-! Contexts: the queue, commands, images and abandons (R149-R168, R174-R176, R211, R385-R387). -/

/-- R163, R164: the entry at `HEAD` is taken, and `HEAD` steps on around the ring. An entry that breaks no rule becomes the
current list, or is consumed if it holds no instruction; one that breaks a rule latches its fault. R167, R168, R380: a burst of
the current list whose accesses the home cell's port has granted is kept with its words when it arrives, and one that failed
with its fault; one asked for under a list that is over is dropped. -/
def Obligations.QueueEntriesAndBurstsArrive : Prop :=
  (∀ (s : State) (c : Nat) (e : Insn), c < ctxCount →
    let x := getCtx s c
    let regs := { x.regs with head := (x.regs.head + 1) % ringSize x }
    x.regs.state = .running → x.wait = .none → x.tollHold = false → betweenLists x = true → 0 < pendingEntries x →
    ∃ t, exec (.queueEntryTake c e) s = .next t ∧
      (entryFault s c e = none → entryCount e ≠ 0 →
        t = putCtx s c { dropBursts x with pc := entryList e, listBase := entryList e, listCount := entryCount e, regs := regs }) ∧
      (entryFault s c e = none → entryCount e = 0 → x.calls = [] →
        (getCtx t c).regs.head = regs.head ∧ (getCtx t c).listCount = 0 ∧ (getCtx t c).pc = x.pc) ∧
      (∀ code, entryFault s c e = some code → x.regs.fault = 0 →
        (getCtx t c).regs.fault = code ∧ (getCtx t c).regs.state = .paused ∧ (getCtx t c).regs.head = regs.head ∧ (getCtx t c).pc = x.pc)) ∧
  (∀ (s : State) (c : Nat) (addr : Word) (status : AttStatus) (words : List Insn) (k : Fetch), c < ctxCount →
    let x := getCtx s c
    let rest := x.fetches.filter fun f => f.id != k.id
    x.fetches.find? (fun f => decide (f.addr = addr) && decide (f.granted = 2)) = some k →
    ((k.stale = true ∨ burstWanted x addr = false) →
      exec (.fetchBurstReturn c addr status words) s = .next (putCtx s c { x with fetches := rest })) ∧
    (k.stale = false → burstWanted x addr = true → (status = .ok → words.length = min 64 ((listEnd x - addr).toNat / 16)) →
      ∃ t bs, exec (.fetchBurstReturn c addr status words) s = .next t ∧ getCtx t c = { x with bursts := bs, fetches := rest } ∧
        { addr := addr, bad := statusCode status, words := if status = .ok then words else [] } ∈ bs ∧ sameMemory s t))

/-- R149, R153-R155, R162, R175, R361, R391: LOAD and RESTORE of a FREE context whose registers, grant list and image break no
rule reserve its slices and give it fresh resources with the next epoch; it is LOADED, at once or when the last slice has
been scrubbed. A broken rule leaves it FREE with the rule's result. That a context under scrub is FREE with its command busy
is the model's reading of R361 (log 88). -/
def Obligations.LoadAndRestoreMakeAContext : Prop :=
  (∀ (s : State) (c : Nat) (agent : Agent) (grants : List Word), c < ctxCount → windowDead s (ctxEast c) = false → lockedAgainst s (domOf s c) agent = false →
    let x := getCtx s c
    x.regs.state = .free → x.regs.cmd = .none →
    (loadFault s c = none → grants.length = cfgGrants (configOf s c) → grantFault s c grants = none →
      ∃ t, exec (.load c agent grants) s = .next t ∧
        let y := getCtx t c
        y.epoch = x.epoch + 1 ∧ y.seed = x.regs.seed ∧ y.slots = [] ∧ y.calls = [] ∧ y.grants = grants.map grantOf ∧
        y.regs.head = 0 ∧ y.regs.tail = 0 ∧ y.regs.fault = 0 ∧ y.regs.config = x.regs.config ∧
        ((y.regs.state = .loaded ∧ y.regs.cmd = .none ∧ y.regs.cmdResult = 0) ∨
          (y.regs.state = .free ∧ y.regs.cmd = .load ∧ scrubPending t c = true)) ∧ sameMemory s t) ∧
    (∀ r, (loadFault s c = some r ∨
        (loadFault s c = none ∧ grants.length = cfgGrants (configOf s c) ∧ grantFault s c grants = some r)) →
      ∃ t, exec (.load c agent grants) s = .next t ∧
        t = putCtx s c { x with regs := { x.regs with rearm := false, cmd := .none, cmdResult := r } })) ∧
  (∀ (s : State) (c : Nat) (agent : Agent) (grants : List Word) (image : List Byte), c < ctxCount → windowDead s (ctxEast c) = false →
    lockedAgainst s (domOf s c) agent = false →
    let x := getCtx s c
    x.regs.state = .free → x.regs.cmd = .none → x.regs.imageAddr.toNat % 32 = 0 → loadFault s c = none →
    imageAllowed s c true false = true → grants.length = cfgGrants (configOf s c) → image.length = 8192 →
    (∀ r, imageFault s c image = some r → ∃ t, exec (.restore c agent grants image) s = .next t ∧
      t = putCtx s c { x with regs := { x.regs with cmd := .none, cmdResult := r } }) ∧
    (imageFault s c image = none → grantFault s c grants = none →
      ∃ t, exec (.restore c agent grants image) s = .next t ∧
        let y := getCtx t c
        y.epoch = x.epoch + 1 ∧ y.pc.toNat = bytesAt image 8 8 ∧ y.phase.toNat = bytesAt image 0x2C 4 ∧
        y.regs.head = bytesAt image 0x18 2 ∧ y.regs.tail = bytesAt image 0x1A 2 ∧ y.halves = 0 ∧
        ((y.regs.state = .loaded ∧ y.regs.cmd = .none) ∨ (y.regs.state = .free ∧ y.regs.cmd = .restore)) ∧ sameMemory s t)) ∧
  (∀ (s : State) (c : Nat), c < ctxCount → ((getCtx s c).regs.cmd = .load ∨ (getCtx s c).regs.cmd = .restore) →
    ∃ t, exec (.galleyScrubDone c) s = .next t ∧ (getCtx t c).regs.state = .loaded ∧ (getCtx t c).regs.cmd = .none ∧
      (getCtx t c).regs.cmdResult = 0 ∧ scrubPending t c = false ∧ sameMemory s t)

/-- R159-R161: SAVE of an idle LOADED, PAUSED or HALTED context whose range table allows it writes its 8,192-byte image at
`IMAGE_ADDR` and no other byte, and changes nothing of the context but the command's result. That the image is written in one
step is the model's choice (log 87). -/
def Obligations.SaveWritesTheImage : Prop :=
  ∀ (s : State) (c : Nat), c < ctxCount → windowDead s (ctxEast c) = false → cmdBusy (getCtx s c) = false → ctxIdle s c = true →
    let x := getCtx s c
    let a := x.regs.imageAddr.toNat
    a % 32 = 0 → (x.regs.state = .loaded ∨ x.regs.state = .paused ∨ x.regs.state = .halted) → imageAllowed s c false true = true →
    (contextImage s c).length = 8192 ∧
    ∃ t, exec (.save c) s = .next t ∧ (∀ i, i < 8192 → memRead t.mem (a + i) = (contextImage s c)[i]?) ∧ sameMemoryBut s t a 8192 ∧
      t.ctxs = (putCtx s c { x with regs := { x.regs with cmd := .none, cmdResult := 0 } }).ctxs ∧ t.cells = s.cells ∧ t.flights = s.flights

/-- R157, R158, R270, R387: UNLOAD of a LOADED, PAUSED or HALTED context and ABORT of a RUNNING, WAITING, PAUSED or HALTED one
send it to STOPPING under the next epoch, off every Peal line; from another state they are BAD_STATE. Once everything it
waits for has come about it is FREE, holding no slice and no credit pool. -/
def Obligations.UnloadAndAbortFreeTheContext : Prop :=
  (∀ (s : State) (c : Nat), c < ctxCount → windowDead s (ctxEast c) = false → cmdBusy (getCtx s c) = false →
    let x := getCtx s c
    let stops (i : Instr) : Prop := ∃ t, exec i s = .next t ∧ (getCtx t c).regs.state = .stopping ∧ (getCtx t c).epoch = x.epoch + 1 ∧
      (∀ n, n < lineCount → partyOf (getLine t n) (.context c) = none) ∧ sameMemory s t
    let bad (i : Instr) : Prop := exec i s = .next (putCtx s c { x with regs := { x.regs with cmd := .none, cmdResult := 0x02 } })
    ((x.regs.state = .loaded ∨ x.regs.state = .paused ∨ x.regs.state = .halted) → stops (.unload c)) ∧
    ((x.regs.state = .running ∨ x.regs.state = .waiting ∨ x.regs.state = .free) → bad (.unload c)) ∧
    ((x.regs.state = .running ∨ x.regs.state = .waiting ∨ x.regs.state = .paused ∨ x.regs.state = .halted) → stops (.abort c)) ∧
    ((x.regs.state = .loaded ∨ x.regs.state = .free) → bad (.abort c))) ∧
  (∀ (s : State) (c : Nat), c < ctxCount → (getCtx s c).regs.state = .stopping → released s c = true →
    ∃ t, exec (.contextFreed c) s = .next t ∧ (getCtx t c).regs.state = .free ∧ (getCtx t c).epoch = (getCtx s c).epoch ∧
      (getCtx t c).slots = [] ∧ (∀ p ∈ t.pools, p.ctx ≠ c) ∧ (∀ n k ch, (getSlice (getCell t n) k).owner ≠ some (c, ch)) ∧ sameMemory s t)

/-- R153, R271, R385, R386: PAUSE leaves a RUNNING or WAITING context PAUSED at its program counter, past an ARRIVE whose round
was released before; RESUME of a PAUSED one with no
halted order clears the fault latch and the SKIP bit and lets it run on, past the faulting instruction where the SKIP bit asks
for it. A command that R157 does not list is BAD_OP, and while a command executes every other one only sets
`CMD_IGNORED` (a LOAD in STOPPING apart, R391). -/
def Obligations.PauseAndResumeHoldTheContext : Prop :=
  (∀ (s : State) (c : Nat), c < ctxCount → windowDead s (ctxEast c) = false → cmdBusy (getCtx s c) = false →
    ((getCtx s c).regs.state = .running ∨ (getCtx s c).regs.state = .waiting) →
    let x := getCtx s c
    let retired : Prop := x.wait = .peal ∧ isReleased (getLine s x.sync.index) x.sync.round = true
    ∃ t, exec (.pause c) s = .next t ∧ (getCtx t c).regs.state = .paused ∧
      (retired → (getCtx t c).pc = x.pc + 16) ∧ (¬retired → (getCtx t c).pc = x.pc) ∧
      (getCtx t c).regs.fault = (getCtx s c).regs.fault ∧ sameMemory s t) ∧
  (∀ (s : State) (c : Nat), c < ctxCount → windowDead s (ctxEast c) = false → cmdBusy (getCtx s c) = false → haltedOrders s c = false →
    let x := getCtx s c
    let skips : Prop := x.regs.faultPc.getLsbD 0 = true ∧ x.regs.fault ≠ 0 ∧ (x.regs.faultKind = .issue ∨ x.regs.faultKind = .sync) ∧
      x.regs.faultByInsn = true
    ∀ pc, (skips → pc = x.pc + 16) → (¬skips → pc = x.pc) → InList x pc → x.regs.state = .paused →
    ∃ t, exec (.resume c) s = .next t ∧ (getCtx t c).pc = pc ∧ (getCtx t c).regs.fault = 0 ∧ (getCtx t c).regs.faultPc.getLsbD 0 = false ∧
      (cfgDeadline (configOf s c) = false → (getCtx t c).regs.state = .running) ∧
      (cfgDeadline (configOf s c) = true → (getCtx t c).tollHold = true) ∧ sameMemory s t) ∧
  (∀ (s : State) (c op : Nat), c < ctxCount → windowDead s (ctxEast c) = false → ¬(1 ≤ op ∧ op ≤ 7) → cmdBusy (getCtx s c) = false →
    exec (.badOp c op) s = .next (putCtx s c { getCtx s c with regs := { (getCtx s c).regs with cmd := .none, cmdResult := 0x0A } })) ∧
  (∀ (s : State) (c : Nat) (i : Instr), c < ctxCount → windowDead s (ctxEast c) = false → cmdBusy (getCtx s c) = true →
    i = .unload c ∨ i = .save c ∨ i = .pause c ∨ i = .resume c ∨ i = .abort c ∨ (∃ op, ¬(1 ≤ op ∧ op ≤ 7) ∧ i = .badOp c op) ∨
      (∃ a ws, (getCtx s c).regs.cmd ≠ .askedLoad a ∧ (getCtx s c).regs.state ≠ .stopping ∧ i = .load c a ws) ∨
      (∃ a ws image, (getCtx s c).regs.cmd ≠ .askedRestore a ∧ i = .restore c a ws image) →
    exec i s = .next (putCtx s c { getCtx s c with regs := { (getCtx s c).regs with cmdIgnored := true } }))

/-- R150, R157, R166, R346, R370, R441: a doorbell write sets `TAIL`: a LOADED context leaves LOADED (a deadline-bound one to
wait for the next Toll) unless it is of class 0 in RECOVERY, one waiting for the doorbell goes on, one RUNNING between two
lists whose entries are all taken back waits for the doorbell, and a tail outside the ring only sets `DOORBELL_REJECT`; a FREE or STOPPING context ignores it. `CONFIG` is written only while FREE with no command
executing and, if its domain or the new one is locked, only by the key port; otherwise `CMD_IGNORED` is set. -/
def Obligations.DoorbellAndConfigWrites : Prop :=
  (∀ (s : State) (c : Nat) (value : Word), c < ctxCount → windowDead s (ctxEast c) = false →
    let x := getCtx s c
    let tail := value.toNat % 65536
    ((x.regs.state = .free ∨ x.regs.state = .stopping) → exec (.doorbell c value) s = .next s) ∧
    (x.regs.state ≠ .free → x.regs.state ≠ .stopping → ringSize x ≤ tail →
      exec (.doorbell c value) s = .next (putCtx s c { x with regs := { x.regs with doorbellReject := true } })) ∧
    (x.regs.state ≠ .free → x.regs.state ≠ .stopping → tail < ringSize x →
      ∃ t, exec (.doorbell c value) s = .next t ∧ (getCtx t c).regs.tail = tail ∧ sameMemory s t ∧
        (x.regs.state = .loaded → s.regs.mode = .recovery → cfgClass (configOf s c) = 0 → (getCtx t c).regs.state = .loaded) ∧
        (x.regs.state = .loaded → ¬(s.regs.mode = .recovery ∧ cfgClass (configOf s c) = 0) → cfgDeadline (configOf s c) = true →
          (getCtx t c).regs.state = .waiting ∧ (getCtx t c).wait = .firstToll) ∧
        (x.regs.state = .loaded → ¬(s.regs.mode = .recovery ∧ cfgClass (configOf s c) = 0) → cfgDeadline (configOf s c) = false →
          (getCtx t c).regs.state ≠ .loaded ∧ (inList x = true → (getCtx t c).regs.state = .running)) ∧
        (x.regs.state = .running → x.wait = .none → betweenLists x = true → tail = x.regs.head →
          (getCtx t c).regs.state = .waiting ∧ (getCtx t c).wait = .doorbell) ∧
        (x.regs.state = .waiting → x.wait = .doorbell → tail ≠ x.regs.head → x.regs.head < ringSize x → (getCtx t c).regs.state = .running))) ∧
  (∀ (s : State) (c : Nat) (agent : Agent) (value : Word), c < ctxCount → windowDead s (ctxEast c) = false →
    let x := getCtx s c
    let locked : Prop := lockedAgainst s (domOf s c) agent = true ∨ lockedAgainst s (cfgDomain value) agent = true
    ∃ t, exec (.ctxConfigWrite c agent value) s = .next t ∧
      (¬locked → x.regs.state = .free → cmdBusy x = false →
        t = putCtx s c { x with regs := { x.regs with config := value &&& 0x7FFFFFFFFFFF } }) ∧
      ((locked ∨ x.regs.state ≠ .free ∨ cmdBusy x = true) → t = putCtx s c { x with regs := { x.regs with cmdIgnored := true } }))

/-- R211: an abandon flit that reaches a cell stops every affected order there that has not begun writing, leaves the others,
and reports which have begun. With the last report the affected instructions that no cell reported as begun, and that have
completed nowhere, are dropped: they are over, and only what they have asked for still arrives; those reported as begun stay. -/
def Obligations.AbandonFlitsAndReportsDrop : Prop :=
  (∀ (s : State) (c cell : Nat) (m : Msg) (epoch : BitVec 32), c < ctxCount → cell < cellCount →
    findMsg s (isAbandon c cell) = some m → m.body = .abandon c epoch →
    (∀ f ∈ affected s c, ∀ o, getOrder s f.id cell = some o → o.place ≠ .sent) →
    ∃ t begun, exec (.abandonFlit cell c) s = .next t ∧ sameMemory s t ∧
      t.ctl = s.ctl.erase m ++ [{ vc := 1, src := cell, dst := m.src, body := .abandonReport c epoch begun }] ∧
      (∀ i, i ∈ begun ↔ ∃ f ∈ affected s c, f.id = i ∧ ∃ o, getOrder s i cell = some o ∧ o.begun = true) ∧
      ∀ f ∈ affected s c, ∀ o, getOrder s f.id cell = some o →
        ∃ o', getOrder t f.id cell = some o' ∧ (o.begun = false → o'.stopped = true) ∧ (o.begun = true → o' = o)) ∧
  (∀ (s : State) (c cell : Nat) (m : Msg) (begun cells : List Nat), c < ctxCount → cell < cellCount →
    findMsg s (isAbandonReport c cell) = some m → m.body = .abandonReport c (getCtx s c).epoch begun →
    (getCtx s c).wait = .abandonReports cells →
    let rest := cells.filter fun n => n ≠ cell
    ∃ t, exec (.abandonReport cell c) s = .next t ∧ sameMemory s t ∧
      (rest ≠ [] → (getCtx t c).wait = .abandonReports rest ∧ ∀ f ∈ t.flights, f.id ∈ begun → f.kept = true) ∧
      (rest = [] → ∀ f ∈ affected s c,
        (f.kept = false → f.id ∉ begun → (∀ p ∈ f.parts, p.done = true → p.skipped = true) →
          ∀ g ∈ t.flights, g.id = f.id → g.dropped = true ∧ g.complete = true) ∧
        ((s.flights.map Flight.id).Nodup → f.id ∈ begun → ∃ g ∈ t.flights, g.id = f.id)))

/-! Stoppable functions, range tables and keys (R341-R350, R382-R397). -/

/-- R382, R387: a channel PAUSE of an ON channel that is not halted takes hold; RESUME and SKIP of a channel that is halted here or
paused clear both flags; ABORT of a channel halted here sends its context to STOPPING; each is otherwise ignored with
`CMD_IGNORED`, and on a block that ignores writes it changes nothing. -/
def Obligations.ChannelCommandsResolve : Prop :=
  ∀ (s : State) (cell ch : Nat), cell < cellCount → ch < channelCount →
    let c := getChan s cell ch
    let ignored (i : Instr) : Prop := exec i s = .next (modChan s cell ch fun c => { c with cmdIgnored := true })
    (blockDead s cell = true → ∀ i, i = .channelPause cell ch ∨ i = .channelResume cell ch ∨ i = .channelSkip cell ch ∨
      i = .channelAbort cell ch ∨ i = .channelEnable cell ch ∨ i = .channelDisable cell ch → exec i s = .next s) ∧
    (blockDead s cell = false →
      (c.state = .on → c.halted = false → ∃ t, exec (.channelPause cell ch) s = .next t ∧
        ((getChan t cell ch).paused = true ∨ (getChan t cell ch).pausing = true) ∧
        (heldOrders s cell ch = [] → (getChan t cell ch).paused = true) ∧ sameMemory s t) ∧
      ((c.state ≠ .on ∨ c.halted = true) → ignored (.channelPause cell ch)) ∧
      (resolvable s cell ch = true →
        (∃ t, exec (.channelResume cell ch) s = .next t ∧ (getChan t cell ch).halted = false ∧ (getChan t cell ch).paused = false ∧ sameMemory s t) ∧
        (∃ t, exec (.channelSkip cell ch) s = .next t ∧ (getChan t cell ch).halted = false ∧ (getChan t cell ch).paused = false ∧ sameMemory s t)) ∧
      (resolvable s cell ch = false → ignored (.channelResume cell ch) ∧ ignored (.channelSkip cell ch)) ∧
      (∀ i f, c.halted = true → haltedHere s cell ch = some i → getFlight s i = some f →
        let x := getCtx s f.job.ctx
        (x.regs.state = .running ∨ x.regs.state = .waiting ∨ x.regs.state = .paused ∨ x.regs.state = .halted) →
        ∃ t, exec (.channelAbort cell ch) s = .next t ∧ (getCtx t f.job.ctx).regs.state = .stopping ∧ sameMemory s t) ∧
      (c.halted = false ∨ haltedHere s cell ch = none → ignored (.channelAbort cell ch)))

/-- R390, R392, R393, R396: a stoppable channel or cell turns ON from OFF when enabled, and from ON goes to STOPPING when
disabled; enabling it while STOPPING is kept; once it holds no work it is OFF, a channel keeping its priority. Retiring
a cell in RUN, RECOVERY or TEST marks it retired and disabled for good, and does nothing in another mode. -/
def Obligations.ChannelsAndCellsStopAndStart : Prop :=
  (∀ (s : State) (cell ch : Nat), cell < cellCount → ch < channelCount → blockDead s cell = false →
    let c := getChan s cell ch
    (c.state = .off → c.rearm = false → cellOn s cell = true → ∃ t, exec (.channelEnable cell ch) s = .next t ∧
      getChan t cell ch = { c with enable := true, state := .on, rearm := false }) ∧
    (c.state = .stopping → ∃ t, exec (.channelEnable cell ch) s = .next t ∧ getChan t cell ch = { c with enable := true, rearm := true }) ∧
    (c.state = .on → ∃ t, exec (.channelDisable cell ch) s = .next t ∧ (getChan t cell ch).state = .stopping ∧
      (getChan t cell ch).enable = false ∧ sameMemory s t) ∧
    (c.state = .stopping → heldOrders s cell ch = [] → ∃ t, exec (.channelStopped cell ch) s = .next t ∧ (getChan t cell ch).state = .off ∧
      (getChan t cell ch).prio = c.prio ∧ (getChan t cell ch).enable = c.enable ∧ (getChan t cell ch).halted = false)) ∧
  (∀ (s : State) (cell : Nat), cell < cellCount → blockDead s cell = false →
    let x := getCell s cell
    (x.retired = true → exec (.cellEnable cell) s = .next s) ∧
    (x.retired = false → x.state = .off → x.rearm = false → ∃ t, exec (.cellEnable cell) s = .next t ∧
      (getCell t cell).state = .on ∧ (getCell t cell).enable = true) ∧
    (x.retired = false → x.state = .stopping → ∃ t, exec (.cellEnable cell) s = .next t ∧
      getCell t cell = { x with enable := true, rearm := true }) ∧
    (x.state = .on → ∃ t, exec (.cellDisable cell) s = .next t ∧ (getCell t cell).state = .stopping ∧ (getCell t cell).enable = false ∧
      sameMemory s t) ∧
    (x.state = .stopping → cellQuiet s cell = true → ∃ t, exec (.cellStopped cell) s = .next t ∧ (getCell t cell).state = .off ∧
      (getCell t cell).corrGalley = x.corrGalley ∧ (getCell t cell).retired = x.retired) ∧
    (s.regs.mode = .init ∨ s.regs.mode = .detached → exec (.retire cell) s = .next s) ∧
    (s.regs.mode = .run ∨ s.regs.mode = .recovery ∨ s.regs.mode = .test → x.retired = false →
      ∃ t, exec (.retire cell) s = .next t ∧ (getCell t cell).retired = true ∧ (getCell t cell).enable = false ∧ sameMemory s t))

/-- R272-R274, R390: enabling an OFF line with a valid parent turns it ON; a line of one chip with no participants opens with
`ROUND` 0, and on a leaf of a system tree without participants its arrival goes up at once; an invalid parent leaves the line
OFF. Enabling a FAILED line does nothing more, and one in STOPPING is enabled again later. Disabling an ON or FAILED line takes
it to STOPPING with no participants, every context waiting on it for a round not yet released latching PEAL_NOT_ENROLLED; from
STOPPING it reaches OFF. -/
def Obligations.PealLinesStopAndStart : Prop :=
  ∀ (s : State) (n : Nat), n < lineCount →
    let l := getLine s n
    let live : Prop := windowDead s false = false
    (live → l.state = .off → l.rearm = false → (l.parent < 16 ∨ l.parent = 31) → ∃ t, exec (.pealEnable n) s = .next t ∧
      (getLine t n).state = .on ∧ (getLine t n).enable = true ∧ (getLine t n).rearm = false ∧
      (l.system = false → l.parties = [] → getLine t n = { l with enable := true, state := .on, rearm := false, round := 0 }) ∧
      (l.system = true → l.parent < 16 → l.parties = [] → l.children = 0 → l.sentUp = false →
        getLine t n = { l with enable := true, state := .on, rearm := false, round := 0, sentUp := true } ∧
        t.outbox = s.outbox ++ [.peal l.parent n false (.arrival true)])) ∧
    (live → l.state = .off → l.rearm = false → 16 ≤ l.parent → l.parent ≠ 31 → ∃ t, exec (.pealEnable n) s = .next t ∧
      getLine t n = { l with enable := true, rearm := false }) ∧
    (live → l.state = .stopping → ∃ t, exec (.pealEnable n) s = .next t ∧ getLine t n = { l with enable := true, rearm := true }) ∧
    (live → l.state = .on ∨ l.state = .failed → ∃ t, exec (.pealEnable n) s = .next t ∧ getLine t n = { l with enable := true }) ∧
    (live → l.state = .on ∨ l.state = .failed → ∃ t, exec (.pealDisable n) s = .next t ∧ (getLine t n).state = .stopping ∧
      (getLine t n).parties = [] ∧ (getLine t n).enable = false ∧
      (∀ c, (getCtx s c).wait = .peal → (getCtx s c).sync.index = n → (getCtx s c).regs.state = .waiting → (getCtx s c).regs.fault = 0 →
        isReleased l (getCtx s c).sync.round = false →
        (getCtx t c).regs.fault = PEAL_NOT_ENROLLED ∧ (getCtx t c).regs.state = .paused) ∧ sameMemory s t) ∧
    (l.state = .stopping → ∃ t, exec (.pealLineStopped n) s = .next t ∧ (getLine t n).state = .off ∧ (getLine t n).round = 0 ∧
      (getLine t n).parties = [] ∧ sameMemory s t)

/-- R343-R346, R76: a COMMIT by an agent that the lock allows, of a staged table with no bad entry that breaks no exclusion,
makes the staged table current, and where it narrows access every VALID slot of the domain's contexts becomes STALE;
otherwise the current table stays and `REJECT` shows the cause. R350: RELEASE of a domain whose contexts are all FREE clears
all but its key generation and reject cause. That a release clears `SEAL_GEN` too is the model's choice (log 98). -/
def Obligations.CommitAndReleaseRangeTables : Prop :=
  ∀ (s : State) (d : Nat) (agent : Agent), d < domainCount → windowDead s false = false →
    let x := getDom s d
    let bad : Prop := ∃ e ∈ x.staged, rangeBad e.2 = true
    let broken : Prop := ∃ p ∈ s.domains, p.1 ≠ d ∧ exclusionBroken x.staged p.2.current = true
    let rejects (i : Instr) (cause : Nat) : Prop := exec i s = .next (modDom s d fun x => { x with reject := true, rejectCause := cause })
    (lockedAgainst s d agent = true → rejects (.commit d agent) 3 ∧ rejects (.release d agent) 3) ∧
    (lockedAgainst s d agent = false →
      (bad → rejects (.commit d agent) 1) ∧ (¬bad → broken → rejects (.commit d agent) 2) ∧
      (¬bad → ¬broken → ∃ t, exec (.commit d agent) s = .next t ∧ getDom t d = { x with current := x.staged } ∧
        (∀ k, k ≠ d → getDom t k = getDom s k) ∧ sameMemory s t ∧
        (tableNarrows x.current x.staged = true → ∀ c k, domOf s c = d → (slotOf s c k).state = .valid → (slotOf t c k).state = .stale) ∧
        (tableNarrows x.current x.staged = false → t.ctxs = s.ctxs)) ∧
      (domainFree s d = true → ∃ t, exec (.release d agent) s = .next t ∧
        getDom t d = { keyGen := x.keyGen, reject := x.reject, rejectCause := x.rejectCause } ∧ ∀ k, k ≠ d → getDom t k = getDom s k) ∧
      (domainFree s d = false → rejects (.release d agent) 4))

/-- R346, R349, R350, R433: the key port's commands. LOAD_KEY stores the key, counts `KEY_GEN` and clears `SEAL_GEN`; ZEROISE
clears the slot; LOCK and UNLOCK set and clear the lock; RELEASE works as the host's for a domain whose contexts are all
FREE and is otherwise refused with cause 3; ZEROISE_ALL and TAMPER clear every slot and leave the locks and tables. A frame that is malformed or names no domain is
refused with cause 1 and changes nothing. That a release clears `SEAL_GEN` too is the model's choice (log 98). -/
def Obligations.KeyPortCommands : Prop :=
  ∀ (s : State) (d : Nat) (key : BitVec 256), windowDead s false = false →
    let x := getDom s d
    let does (i : Instr) (y : Domain) : Prop := ∃ t, exec i s = .next t ∧ getDom t d = y ∧ (∀ k, k ≠ d → getDom t k = getDom s k) ∧
      t.ctxs = s.ctxs ∧ sameMemory s t ∧ t.outbox = s.outbox ++ [.keyAnswer false 0]
    let clears (i : Instr) : Prop := ∃ t, exec i s = .next t ∧ (∀ k, getDom t k = { getDom s k with key := none }) ∧ t.ctxs = s.ctxs ∧ sameMemory s t
    (d < domainCount →
      does (.loadKey d key true) { x with key := some key, keyGen := x.keyGen + 1, sealGen := 0 } ∧ does (.zeroise d true) { x with key := none } ∧
      does (.lock d true) { x with lock := true } ∧ does (.unlock d true) { x with lock := false } ∧
      (domainFree s d = true → does (.keyRelease d true) { keyGen := x.keyGen, reject := x.reject, rejectCause := x.rejectCause })) ∧
    clears (.zeroiseAll true) ∧ clears .tamper ∧
    (domainCount ≤ d → ∀ i, i = .loadKey d key true ∨ i = .zeroise d true ∨ i = .lock d true ∨ i = .unlock d true ∨ i = .keyRelease d true →
      exec i s = .next { s with outbox := s.outbox ++ [.keyAnswer true 1] }) ∧
    (d < domainCount → domainFree s d = false → exec (.keyRelease d true) s =
      .next { modDom s d (fun x => { x with reject := true, rejectCause := 4 }) with outbox := s.outbox ++ [.keyAnswer true 3] }) ∧
    (∀ i, i = .loadKey d key false ∨ i = .zeroise d false ∨ i = .lock d false ∨ i = .unlock d false ∨ i = .keyRelease d false ∨
      i = .zeroiseAll false → exec i s = .next { s with outbox := s.outbox ++ [.keyAnswer true 1] })

/-! Modes, attach and detach, power-good and the test port (R18, R31, R434-R446). -/

/-- R31, R436, R437, R441, R442: a mode command while a transition runs only sets `CMD_IGNORED`; one that the table does not list
is BAD_MODE; one whose contexts are not FREE is NOT_FREE; otherwise the mode changes. Entry to RUN from INIT or DETACHED starts
the Toll at count 0, on the time rounded up to a whole microsecond plus one, under the next incarnation; RECOVERY pauses the
USER contexts at work. -/
def Obligations.ModeCommandsFollowTheTable : Prop :=
  ∀ s : State,
    let ignored (i : Instr) : Prop := exec i s = .next { s with regs := { s.regs with modeIgnored := true } }
    let refused (i : Instr) (e : ModeResult) : Prop := exec i s = .next { s with regs := { s.regs with result := e } }
    let enters (m : Mode) (t : State) : Prop := t.regs.mode = m ∧ t.regs.busy = false ∧ t.regs.result = .done ∧ sameMemory s t ∧ sameKeys s t
    let runs (i : Instr) : Prop := ∃ t, exec i s = .next t ∧ enters .run t ∧ t.time.running = true ∧ t.time.count = 0 ∧ t.time.next = 0 ∧
      t.time.base = BitVec.ofNat 64 ((s.time.ref.toNat + 999) / 1000 * 1000 + 1000) ∧ t.regs.incarnation = s.regs.nextInc ∧ t.ctxs = s.ctxs
    (s.regs.busy = true → ignored .modeTest ∧ ignored .modeInit ∧ ignored .modeRun ∧ ignored .modeRecovery ∧ ignored .attach ∧ ignored .detach) ∧
    (s.regs.busy = false →
      (s.regs.mode ≠ .init → refused .modeTest .badMode) ∧
      (s.regs.mode = .init → classFree s 3 = false → refused .modeTest .notFree ∧ refused .modeRun .notFree) ∧
      (s.regs.mode = .init → classFree s 3 = true → (∃ t, exec .modeTest s = .next t ∧ enters .test t ∧ t.ctxs = s.ctxs) ∧ runs .modeRun) ∧
      (s.regs.mode = .test → classFree s 2 = true → ∃ t, exec .modeInit s = .next t ∧ enters .init t ∧ t.ctxs = s.ctxs) ∧
      (s.regs.mode = .test → classFree s 2 = false → refused .modeInit .notFree) ∧
      (s.regs.mode = .detached → ∃ t, exec .modeInit s = .next t ∧ enters .init t ∧ t.ctxs = s.ctxs) ∧
      (s.regs.mode = .init ∨ s.regs.mode = .run ∨ s.regs.mode = .recovery → refused .modeInit .badMode) ∧
      (s.regs.mode = .test ∨ s.regs.mode = .run → refused .modeRun .badMode) ∧
      (s.regs.mode = .detached → allFree s = true → (s.regs.master || s.regs.standalone) = true → runs .modeRun) ∧
      (s.regs.mode = .detached → allFree s = true → (s.regs.master || s.regs.standalone) = false → refused .modeRun .badMode) ∧
      (s.regs.mode = .recovery → westFailed s = true → refused .modeRun .belfryFailed) ∧
      (s.regs.mode = .recovery → westFailed s = false → ∃ t, exec .modeRun s = .next t ∧ enters .run t ∧ t.time = s.time) ∧
      (s.regs.mode ≠ .run → refused .modeRecovery .badMode) ∧
      (s.regs.mode = .run → ∃ t, exec .modeRecovery s = .next t ∧ enters .recovery t ∧
        ∀ c, cfgClass (configOf s c) = 0 → (getCtx s c).regs.cmd = .none → (stateOf s c = .running ∨ stateOf s c = .waiting) →
          stateOf t c = .paused))

/-- R436, R443, R445, R446: ATTACH from INIT or DETACHED and DETACH from RUN or RECOVERY set `BUSY`; the attach enters RUN on the master's
grid at its entry Toll, or after `ATTACH_MS` without lock goes back to the mode it came from with SYNC_FAIL; the detach ends
in DETACHED with the Toll stopped and every key slot zeroised, once all is quiet or at its limit. -/
def Obligations.AttachAndDetach : Prop :=
  ∀ s : State,
    (s.regs.busy = false → (s.regs.mode = .init ∨ s.regs.mode = .detached) → allFree s = true →
      (s.regs.master || s.regs.standalone) = false → ∃ t a, exec .attach s = .next t ∧ t.regs.busy = true ∧ t.attach = some a ∧
        a.fromMode = s.regs.mode ∧ a.stepped = false ∧ a.entry = none ∧ t.ctxs = s.ctxs ∧ sameMemory s t) ∧
    (∀ a k instant, s.attach = some a → a.entry = some (k, instant) → notBefore s.time.ref instant = true →
      ∃ t, exec .attachEnterRun s = .next t ∧ t.regs.mode = .run ∧ t.regs.busy = false ∧ t.regs.result = .done ∧ t.time.running = true ∧
        t.time.base = a.base ∧ t.time.periodUs = a.period ∧ t.time.count = k % 2 ^ 48 ∧ t.regs.incarnation = s.regs.nextInc ∧
        t.attach = none ∧ sameMemory s t) ∧
    (∀ a, s.attach = some a → a.entry = none → notBefore s.time.ref a.limit = true →
      ∃ t, exec .attachTimeout s = .next t ∧ t.regs.mode = a.fromMode ∧ t.regs.busy = false ∧ t.regs.result = .syncFail ∧ t.attach = none ∧
        t.ctxs = s.ctxs ∧ sameMemory s t) ∧
    (s.regs.busy = false → (s.regs.mode = .run ∨ s.regs.mode = .recovery) → westFailed s = false →
      ∃ t, exec .detach s = .next t ∧ t.regs.busy = true ∧ t.regs.mode = s.regs.mode ∧ t.detach = some {} ∧ t.ctxs = s.ctxs ∧ sameMemory s t) ∧
    (∀ d, s.detach = some d → d.stopped = true →
      let detaches (i : Instr) : Prop := ∃ t, exec i s = .next t ∧ t.regs.mode = .detached ∧ t.regs.busy = false ∧ t.time.running = false ∧
        t.detach = none ∧ (∀ k, (getDom t k).key = none) ∧ sameMemory s t
      (detachQuiet s = true → detaches .detachDrained) ∧ (notBefore s.time.ref d.limit = true → detaches .detachTimeout))

/-- R4, R29, R434, R438, R439: POWER_GOOD starts reference time at 0 and reads the fuses, a cluster disabled by fuse being OFF; the
self-test retires the failing cells and leaves the chip in INIT. In TEST mode an injected fault acts as the real one and in
INIT a scan entry zeroises every key slot; in other modes neither does anything (the model's choice, log 47). -/
def Obligations.PowerGoodAndTheTestPort : Prop :=
  (∀ (s : State) (f : Fuses), s.regs.powered = false → f.grade < 3 → f.readOk = true →
    ∃ t, exec (.powerGood f) s = .next t ∧ t.regs.fuseOk = true ∧ t.regs.grade = f.grade ∧ t.regs.good = f.good ∧ t.time.ref = 0 ∧
      t.regs.busy = s.regs.busy ∧ (∀ n, fusedOff t n = true → n < cellCount → (getCell t n).state = .off) ∧ sameMemory s t) ∧
  (∀ (s : State) (f : Fuses), s.regs.powered = false → f.grade < 3 → f.readOk = false →
    ∃ t, exec (.powerGood f) s = .next t ∧ t.regs.fuseOk = s.regs.fuseOk ∧ t.regs.busy = s.regs.busy ∧ t.time.ref = 0 ∧ t.cells = s.cells) ∧
  (∀ (s : State) (fails : List Nat), (∀ n ∈ fails, n < cellCount ∧ fusedOff s n = false) → s.regs.fuseOk = true → s.regs.mbistDone = false →
    ∃ t, exec (.mbistDone fails) s = .next t ∧ t.regs.mode = .init ∧ t.regs.busy = false ∧ t.regs.result = .done ∧ t.regs.mbistDone = true ∧
      (∀ n ∈ fails, (getCell t n).retired = true ∧ (getCell t n).enable = false) ∧ sameMemory s t) ∧
  (∀ (s : State) (cell : Nat), cell < cellCount →
    ((s.regs.mode = .init ∨ s.regs.mode = .test) → ∃ t, exec (.mbistRun cell) s = .next t ∧
      (∀ k, (getSlice (getCell t cell) k).lastDomain = none ∧ (getSlice (getCell t cell) k).owner = (getSlice (getCell s cell) k).owner) ∧
      sameMemory s t) ∧
    (s.regs.mode ≠ .init → s.regs.mode ≠ .test → exec (.mbistRun cell) s = .next s) ∧
    (s.regs.mode ≠ .test → ∀ kind, exec (.faultInject cell kind) s = .next s) ∧
    (s.regs.mode = .test →
      (∃ t, exec (.faultInject cell .galleySingle) s = .next t ∧ (getCell t cell).corrGalley = min ((getCell s cell).corrGalley + 1) 65535 ∧ sameMemory s t) ∧
      (∃ t, exec (.faultInject cell .galleyDouble) s = .next t ∧ (getCell t cell).degraded = true ∧ sameMemory s t) ∧
      (∃ t, exec (.faultInject cell .attErr) s = .next t ∧ getCell t cell = { getCell s cell with injected := some .attErr }))) ∧
  (∀ s : State, (s.regs.mode = .init → s.regs.busy = false →
      ∃ t, exec .scanEntry s = .next t ∧ t.regs.scan = true ∧ (∀ d, (getDom t d).key = none) ∧ sameMemory s t) ∧
    (s.regs.mode ≠ .init ∨ s.regs.busy = true → exec .scanEntry s = .next s))

/-- R18: a heartbeat is noted; a Belfry that has missed the other's for 4 us takes it as failed. When the West one is lost
the Toll stops, the chip is in RECOVERY and no transition runs any more; R454: its window then reads zero and the chip-wide
mirrors of the East window keep their last values. When the East one is lost every context of the East half is FREE. -/
def Obligations.HeartbeatsWatchTheBelfries : Prop :=
  (∀ (s : State) (east : Bool), ∃ t, exec (.heartbeat east) s = .next t ∧ (getHalf t east).lastBeat = s.time.ref ∧
    getHalf t (!east) = getHalf s (!east) ∧ t.ctxs = s.ctxs ∧ sameMemory s t) ∧
  (∀ s : State, elapsedUs s s.east.lastBeat 4 = true → s.east.seesWestFailed = false →
    ∃ t, exec (.heartbeatLoss true) s = .next t ∧ t.east.seesWestFailed = true ∧ t.regs.mode = .recovery ∧ t.regs.busy = false ∧
      t.time.running = false ∧ t.attach = none ∧ t.detach = none ∧ sameMemory s t ∧ (∀ off, off < 0x800000 → readReg t off = 0) ∧
      (s.mirror = none → ∀ off, isMirror off = true → off % 8 = 0 → readReg t (0x800000 + off) = readReg s (0x800000 + off))) ∧
  (∀ s : State, elapsedUs s s.west.lastBeat 4 = true → s.west.seesEastFailed = false →
    ∃ t, exec (.heartbeatLoss false) s = .next t ∧ t.west.seesEastFailed = true ∧ (∀ c, ctxEast c = true → stateOf t c = .free) ∧
      t.regs.mode = s.regs.mode ∧ sameMemory s t)

/-! Registers and instruments (R34, R35, R277-R282, R303, R305, R320, R399-R409, R448-R468). -/

/-- R34, R35: a Toll period of 4 to 1,024 is taken at once in INIT and TEST, and in RUN or RECOVERY becomes pending while no
deadline-bound context is at work; otherwise, while locked to a master or in DETACHED, only `PERIOD_REJECT` is set. R303,
R305, R320: the attachment shares change in INIT alone, to three numbers of at least 16 that sum to 256, and another value
sets `SPLIT_REJECT`; `WAIT_LIMIT` changes in INIT to a value that is not 0, `CUE_GATE` always; a route entry that R320
refuses sets `ROUTE_REJECT` and keeps its value, and any other is written. That a period written in DETACHED is rejected is
the model's reading of R34 (log 104). -/
def Obligations.PeriodShareAndRouteWrites : Prop :=
  (∀ (s : State) (value : Word), windowDead s false = false →
     let p := value.toNat % 2048
     let busy : Prop := ∃ c ∈ ctxNumbers s, cfgDeadline (configOf s c) = true ∧ (stateOf s c = .running ∨ stateOf s c = .waiting ∨ stateOf s c = .stopping)
     let rejects : Prop := exec (.tollPeriodWrite value) s = .next { s with time := { s.time with periodReject := true } }
     ((p < 4 ∨ 1024 < p) → rejects) ∧ (s.time.syncLocked = true → rejects) ∧ (s.regs.mode = .detached → rejects) ∧
     (4 ≤ p → p ≤ 1024 → s.time.syncLocked = false →
       ((s.regs.mode = .init ∨ s.regs.mode = .test) → exec (.tollPeriodWrite value) s = .next { s with time := { s.time with periodUs := p } }) ∧
       ((s.regs.mode = .run ∨ s.regs.mode = .recovery) → busy → rejects) ∧
       ((s.regs.mode = .run ∨ s.regs.mode = .recovery) → ¬busy →
         exec (.tollPeriodWrite value) s = .next { s with time := { s.time with pendingPeriod := some p } }))) ∧
  ((∀ (s : State) (cell : Nat) (value : Word), cell < cellCount → fusedOff s cell = false → eastLost s cell = false → blockDead s cell = false →
     bit value 27 = false →
     let x := getCell s cell
     let r := field value 0 9
     let w := field value 9 9
     let m := field value 18 9
     ∃ t, exec (.attSplitWrite cell value) s = .next t ∧
       (s.regs.mode = .init → 16 ≤ r → 16 ≤ w → 16 ≤ m → r + w + m = 256 →
         getCell t cell = { x with shareRead := r, shareWrite := w, shareRemote := m }) ∧
       ((s.regs.mode ≠ .init ∨ r < 16 ∨ w < 16 ∨ m < 16 ∨ r + w + m ≠ 256) → ¬(r = x.shareRead ∧ w = x.shareWrite ∧ m = x.shareRemote) →
         getCell t cell = { x with splitReject := true }) ∧ ∀ n, n ≠ cell → getCell t n = getCell s n) ∧
   (∀ (s : State) (value : Word), windowDead s false = false → exec (.arbConfigWrite value) s = .next { s with regs := { s.regs with
     waitLimit := if s.regs.mode = .init ∧ value.toNat % 256 ≠ 0 then value.toNat % 256 else s.regs.waitLimit, cueGate := value.getLsbD 8 } }) ∧
   (∀ (s : State) (chip : Nat) (value : Word), chip < chipCount → windowDead s false = false →
     (routeBad s chip value = true → exec (.routeWrite chip value) s = .next { s with regs := { s.regs with routeReject := true } }) ∧
     (routeBad s chip value = false → ∃ t, exec (.routeWrite chip value) s = .next t ∧ (getRoute t chip).bits.toNat = value.toNat % 2 ^ 18 ∧
       (getRoute t chip).useAlt = (getRoute s chip).useAlt ∧ (∀ k, k ≠ chip → getRoute t k = getRoute s k) ∧ t.regs = s.regs)))

/-- R402, R408, R409, R450, R452: writing an event counter's selector or count replaces it, units counted in the same cycle
added, `OVF` kept unless its bit is written 1 or the count wraps; writing IMP_CONFIG sets the interval and mode and starts
the interval anew; reading the lower word of a latching register latches its upper word, and other reads latch nothing. R433,
R448-R456: a register write of another width than 64 bits, at an offset that is no multiple of 8 or beyond the last register,
changes nothing, nor does one of a chip-wide register in the East window, nor a command that writes a register in a failed
Belfry's window; one of SYNC_TIMEOUT sets both limits, and one of a
context's IMAGE_ADDR its field unless a command executes. The key port's WRITE does what a register write of its agent does,
and answers; a malformed one is refused. That `OVF` clears by a 1 is the model's reading of R402 (log 108), and what a key-
port address may be its choice (log 99). -/
def Obligations.CounterLatchAndRegisterWrites : Prop :=
  ((∀ (s : State) (owner : CounterOwner) (k : Nat) (value : Word), ownerOk owner = true → k < 8 → ownerDead s owner = false →
     let counter (t : State) : Counter := match owner with
       | .cell n => tabGet {} (getCell t n).counters k
       | .belfry e => tabGet {} (getHalf t e).counters k
     (∃ t, exec (.evselWrite owner k value) s = .next t ∧
       counter t = { counter s with select := BitVec.ofNat 32 (value.toNat % 2 ^ 28) } ∧ t.ctxs = s.ctxs ∧ sameMemory s t) ∧
     ∀ units, ∃ t, exec (.evcntWrite owner k value units) s = .next t ∧ t.ctxs = s.ctxs ∧ sameMemory s t ∧
       let total := value.toNat % 2 ^ 48 + units
       counter t = { counter s with
         count := total % 2 ^ 48, ovf := ((counter s).ovf && !value.getLsbD 63) || decide (2 ^ 48 ≤ total) }) ∧
   (∀ (s : State) (cell : Nat) (value : Word), cell < cellCount → fusedOff s cell = false → eastLost s cell = false → blockDead s cell = false →
     let imp := (getCell s cell).imp
     ∃ t, exec (.impConfigWrite cell value) s = .next t ∧ (getCell t cell).imp = { imp with
       interval := value.toNat % 65536, stopMode := value.getLsbD 16, since := 0, full := imp.full && !value.getLsbD 17 } ∧
       ∀ n, n ≠ cell → getCell t n = getCell s n) ∧
   (∀ (s : State) (offset : Nat),
     (offset % 8 = 0 → latching offset = true → ∃ t, exec (.lowerWordRead offset) s = .next t ∧
       tabGet 0 t.latches offset = (readReg s offset >>> 32).setWidth 32 ∧ (∀ k, k ≠ offset → tabGet 0 t.latches k = tabGet 0 s.latches k) ∧
       t = { s with latches := t.latches }) ∧
     ((offset % 8 ≠ 0 ∨ latching offset = false) → exec (.lowerWordRead offset) s = .next s))) ∧
  ((∀ (s : State) (agent : Agent) (offset width : Nat) (value : Word),
     (width ≠ 64 ∨ offset % 8 ≠ 0 ∨ 0x1000000 + 354 * 0x10000 ≤ offset ∨ (0x800000 ≤ offset ∧ offset < 0x8000A8)) →
       exec (.registerWrite agent offset width value) s = .next s) ∧
   (∀ (s : State) (agent : Agent) (value : Word), westFailed s = false →
     exec (.registerWrite agent 0x50 64 value) s = .next { s with regs := { s.regs with
       waitUs := value.toNat % 2 ^ 24, pealUs := value.toNat / 2 ^ 32 % 2 ^ 24 } }) ∧
   (∀ (s : State) (agent : Agent) (value : Word) (c : Nat), c < 512 → westFailed s = false →
     let x := getCtx s c
     ∃ t, exec (.registerWrite agent (0x100018 + 0x80 * c) 64 value) s = .next t ∧
       (cmdBusy x = false → t = putCtx s c { x with regs := { x.regs with imageAddr := value } }) ∧
       (cmdBusy x = true → t = putCtx s c { x with regs := { x.regs with cmdIgnored := true } })) ∧
   (∀ (s : State) (addr value : Word) (off : Nat), windowDead s false = false → keyOffset s addr = some off →
     ∃ t, exec (.registerWrite .key off 64 value) s = .next t ∧
       exec (.write addr value true) s = .next { t with outbox := t.outbox ++ [.keyAnswer false 0] }) ∧
   (∀ (s : State) (addr value : Word) (frameOk : Bool), windowDead s false = false → (frameOk = false ∨ keyOffset s addr = none) →
     exec (.write addr value frameOk) s = .next { s with outbox := s.outbox ++ [.keyAnswer true 1] })) ∧
  ((∀ (s : State) (c : Nat) (agent : Agent) (ws : List Word) (image : List Byte) (value : Word) (i : Instr), c < ctxCount →
     windowDead s (ctxEast c) = true →
     i = .load c agent ws ∨ i = .restore c agent ws image ∨ i = .unload c ∨ i = .save c ∨ i = .pause c ∨ i = .resume c ∨ i = .abort c ∨
       i = .badOp c 0 ∨ i = .doorbell c value ∨ i = .ctxConfigWrite c agent value → exec i s = .next s) ∧
   (∀ (s : State) (n d chip off : Nat) (agent : Agent) (key : BitVec 256) (addr value : Word) (ok : Bool) (i : Instr), n < lineCount →
     d < domainCount → chip < chipCount → off < 0x800000 → windowDead s false = true →
     i = .pealEnable n ∨ i = .pealDisable n ∨ i = .commit d agent ∨ i = .release d agent ∨ i = .loadKey d key ok ∨ i = .zeroise d ok ∨
       i = .lock d ok ∨ i = .unlock d ok ∨ i = .keyRelease d ok ∨ i = .zeroiseAll ok ∨ i = .write addr value ok ∨
       i = .tollPeriodWrite value ∨ i = .arbConfigWrite value ∨ i = .routeWrite chip value ∨ i = .healthConfigWrite value ∨
       i = .dumpTrigger ∨ i = .freeze ok ∨ i = .thaw ok ∨ i = .snapshot ok ∨ i = .damperCancel ∨
       i = .registerWrite agent off 64 value → exec i s = .next s))

/-- R277-R280: a trigger starts a dump under the next sequence number unless one is under way, which it is then merged into; at
its end a domain whose buffer is still there, allowed and free gets its header and records, no other byte of memory changes,
and the dump is over unless another was merged. R405-R407: FREEZE, THAW and SNAPSHOT act at once where their instant has come
and are pending otherwise, until their instant or a cancel. FREEZE stops the counters of the whole chip and notes each cell's
reference cycle, THAW lets them go on, and SNAPSHOT copies every counter with its `OVF` bit. That the consumed headers are an
operand, and what `DAMPER_LAST` records of a late action, is the model's choice and reading (log 92, log 109). -/
def Obligations.DumpsAndDamper : Prop :=
  ((∀ s : State, windowDead s false = false →
     (s.instr.dump = none → ∃ t d, exec .dumpTrigger s = .next t ∧ t.instr.dump = some d ∧ d.seq = s.instr.dumpSeq + 1 ∧ d.triggers = [.command] ∧
       t.instr.dumpSeq = s.instr.dumpSeq + 1 ∧ (∀ p ∈ d.parts, dumpAllowed s p.1 = true) ∧ t.ctxs = s.ctxs ∧ sameMemory s t) ∧
     (s.instr.dump ≠ none → exec .dumpTrigger s = .next { s with instr := { s.instr with merged := s.instr.merged ++ [.command] } })) ∧
   (∀ (s : State) (dump : Dump) (d : Nat) (recs header : List Byte) (consumed : List Nat), s.instr.dump = some dump → dump.parts = [(d, recs, header)] →
     s.instr.merged = [] → header.length = 256 →
     let x := getDom s d
     let a := x.dumpAddr.toNat
     let writes : Prop := x.dumpAddr ≠ 0 ∧ (d ∈ consumed ∨ x.dumpWritten = false) ∧ dumpAllowed s d = true
     ∃ t, exec (.dumpDone consumed) s = .next t ∧ t.instr.dump = none ∧ t.ctxs = s.ctxs ∧
       (writes → (∀ i, i < 256 → memRead t.mem (a + i) = header[i]?) ∧ (∀ i, i < recs.length → memRead t.mem (a + 256 + i) = recs[i]?) ∧
         sameMemoryBut s t a (256 + recs.length) ∧ (getDom t d).dumpWritten = true) ∧
       (¬writes → sameMemory s t))) ∧
  (∀ s : State, windowDead s false = false →
     let acts (op : Nat) (t : State) : Prop := t.instr.damper = none ∧ t.ctxs = s.ctxs ∧ sameMemory s t ∧
       (op = 1 → t.instr.frozen = true ∧ (s.instr.frozen = false → ∀ n, n < cellCount → (getCell t n).refSnap = s.time.refCyc)) ∧
       (op = 2 → t.instr.frozen = false) ∧
       (op = 3 → ∀ n k, n < cellCount → tabGet {} (getCell t n).counters k =
         { tabGet {} (getCell s n).counters k with
           snap := (tabGet {} (getCell s n).counters k).count, snapOvf := (tabGet {} (getCell s n).counters k).ovf })
     let commands (i : Bool → Instr) (op : Nat) : Prop :=
       (∃ t, exec (i true) s = .next t ∧ acts op t ∧ t.instr.damperLast = s.time.ref) ∧
       (notBefore s.time.ref s.instr.damperAt = true → ∃ t, exec (i false) s = .next t ∧ acts op t ∧ t.instr.damperLast = s.instr.damperAt) ∧
       (notBefore s.time.ref s.instr.damperAt = false →
         exec (i false) s = .next { s with instr := { s.instr with damper := some { op := op, instant := s.instr.damperAt } } })
     commands .freeze 1 ∧ commands .thaw 2 ∧ commands .snapshot 3 ∧
     exec .damperCancel s = .next { s with instr := { s.instr with damper := none } } ∧
     ∀ d, s.instr.damper = some d → (d.op = 1 ∨ d.op = 2 ∨ d.op = 3) → notBefore s.time.ref d.instant = true →
       ∃ t, exec .damperAction s = .next t ∧ acts d.op t ∧ t.instr.damperLast = d.instant)

/-! Reference time, the Toll, power and wear (R27-R51, R310, R365-R373, R394, R395, R411-R415). -/

/-- R27, R28, R399: a reference tick adds 1 ns; a known offset from the master is worked off by 1 ns more or less, once
in 10,000 ticks (the model's choice of the instant, log 7). R28, R49, R50, R443: a chip that follows a master takes the
offset it reports, is locked within 40 ns and then holds the master's period and base, and loses the lock beyond; a
joining chip first steps its time to the master's; another chip takes no notice. -/
def Obligations.ReferenceTimeAdvancesAndFollows : Prop :=
  (∀ s : State, s.regs.powered = true →
     ∃ t step, exec .refTick s = .next t ∧ t.time.ref = s.time.ref + BitVec.ofInt 64 step ∧ t.time.refCyc = s.time.refCyc + 1 ∧
       (0 ≤ step ∧ step ≤ 2) ∧ (step ≠ 1 → 9999 ≤ s.time.sinceCorrection ∧ t.time.sinceCorrection = 0) ∧
       (∀ d, s.time.offset = some d → t.time.offset = some (d + step - 1) ∧ (0 < d → step ≤ 1) ∧ (d < 0 → 1 ≤ step) ∧ (d = 0 → step = 1) ∧
         (follows s = true → 9999 ≤ s.time.sinceCorrection → d ≠ 0 → step ≠ 1)) ∧
       (follows s = false → step = 1) ∧
       t.ctxs = s.ctxs ∧ sameMemory s t) ∧
  (∀ (s : State) (cell : Nat) (offset : Int) (mt mb : Word) (mp : Nat), roleOf cell = .l → cell < cellCount → 4 ≤ mp → mp ≤ 1024 →
     ((getCell s cell).linkUp = false ∨ follows s = false → exec (.syncOffset cell offset mt mb mp) s = .next s) ∧
     ((getCell s cell).linkUp = true → follows s = true → s.attach = none →
       ∃ t, exec (.syncOffset cell offset mt mb mp) s = .next t ∧ t.time.offset = some offset ∧ t.time.ref = s.time.ref ∧
         (-40 ≤ offset → offset ≤ 40 → t.time.syncLocked = true ∧ (s.time.running = true → t.time.base = mb ∧ t.time.periodUs = mp)) ∧
         ((offset < -40 ∨ 40 < offset) → t.time.syncLocked = false ∧ t.time.base = s.time.base ∧
           (s.time.syncLocked = true → t.time.syncLost = true)) ∧ sameMemory s t) ∧
     ((getCell s cell).linkUp = true → follows s = true → ∀ a, s.attach = some a → a.stepped = false →
       ∃ t b, exec (.syncOffset cell offset mt mb mp) s = .next t ∧ t.time.ref = mt ∧ t.attach = some b ∧ b.stepped = true ∧ t.ctxs = s.ctxs ∧ sameMemory s t))

/-- R30, R32, R33, R34, R365: at T_k the Toll count becomes k and a pulse starts to every cell that is on, a pending period
governing from that Toll on; a pulse that reaches a cell sets its count, clears what the guard recorded and ends the guard's
hold of the contexts homed there, and the cell reports its activity. That a context with a late instruction is left to the
Belfry first is the model's reading of R45 and R46 (log 62). -/
def Obligations.TollsAndTheirPulses : Prop :=
  (∀ s : State, s.time.running = true → s.time.pulses = [] → notBefore s.time.ref (tollAt s s.time.next) = true →
    let k := s.time.next
    ∃ t, exec .tollTick s = .next t ∧ t.time.count = k % 2 ^ 48 ∧ t.time.next = k + 1 ∧ t.time.pulses = pulseCells s ∧ sameMemory s t ∧
      (s.time.pendingPeriod = none → t.time.periodUs = s.time.periodUs ∧ t.time.base = s.time.base) ∧
      (∀ p, s.time.pendingPeriod = some p → t.time.periodUs = p ∧ t.time.pendingPeriod = none ∧
        tollAt t k = tollAt s k ∧ tollAt t (k + 1) = tollAt s k + BitVec.ofNat 64 (p * 1000))) ∧
  (∀ (s : State) (cell : Nat), cell ∈ s.time.pulses →
    ∃ t, exec (.tollPulse cell) s = .next t ∧ t.time.pulses = s.time.pulses.erase cell ∧ (getCell t cell).tollCount = s.time.count % 65536 ∧
      (getCell t cell).guardList = [] ∧ (getCell t cell).activity = [] ∧
      (∀ c, homeOf s c = cell → stateOf s c ≠ .free →
        (overrunPending s c = false → (getCtx s c).wait = .guarded → (getCtx t c).wait = .none ∧ (getCtx t c).tollHold = false) ∧
        ((∃ l ∈ s.time.lates, l.ctx = c) → s.time.pulses.erase cell ≠ [] → getCtx t c = getCtx s c)) ∧
      sameMemory s t)

/-- R37, R45, R365: in the guard a cell notes the deadline-bound instructions of the frame that it still holds; once every cell
has had the Toll and every report has come, each late context latches FRAME_OVERRUN, one overrun is counted and a proof dump
is under way; while the Toll is stopped a cell that is on reports its activity at every multiple of 50,000 ns. That the reports of one
Toll are gathered is the model's reading of R45 (log 62). -/
def Obligations.OverrunsAndReports : Prop :=
  (∀ (s : State) (cell : Nat), cell < cellCount → s.time.running = true → inGuard s (timeAt s cell) = true →
    ∃ t, exec (.guardInstant cell) s = .next t ∧ getCell t cell = { getCell s cell with guardList := inFlight s cell (frameAt s (timeAt s cell)) } ∧
      (∀ n, n ≠ cell → getCell t n = getCell s n) ∧ t.ctxs = s.ctxs ∧ sameMemory s t) ∧
  (∀ (s : State) (cell : Nat) (m : Msg) (ls : List Late), findMsg s (fun m => isOverrun m && m.src == cell) = some m → m.body = .overrun ls →
    ∃ t, exec (.overrunReport cell) s = .next t ∧ sameMemory s t ∧
      ((s.time.pulses ≠ [] ∨ (s.ctl.erase m).any isOverrun = true) → ∀ l ∈ ls, ∃ k ∈ t.time.lates, k.insn = l.insn) ∧
      (s.time.pulses = [] → (s.ctl.erase m).any isOverrun = false → (s.time.lates ≠ [] ∨ ls ≠ []) →
        t.time.lates = [] ∧ t.time.overruns = min (s.time.overruns + 1) 65535 ∧ t.instr.dump ≠ none ∧
        ∀ l, (l ∈ s.time.lates ∨ (l ∈ ls ∧ ∀ k ∈ s.time.lates, k.insn ≠ l.insn)) → (stateOf s l.ctx = .running ∨ stateOf s l.ctx = .waiting) → (getCtx s l.ctx).regs.fault = 0 →
          (getCtx t l.ctx).regs.fault = FRAME_OVERRUN ∧ stateOf t l.ctx = .paused)) ∧
  (∀ (s : State) (cell : Nat), cell < cellCount → s.time.running = false → (pulseCells s).contains cell = true →
    (timeAt s cell).toNat / 50000 ≠ (getCell s cell).reported →
    ∃ t, exec (.stoppedInterval cell) s = .next t ∧ (getCell t cell).activity = [] ∧
      t.outbox = s.outbox ++ [.activity cell (BitVec.ofNat 64 ((timeAt s cell).toNat / 50000 * 50000)) (getCell s cell).activity] ∧ sameMemory s t)

/-- R310, R368, R370-R373: a gated order wakes 8 ns before its cue; a cell raises its lend hint once; the fall of `FLOOR_OK` is
noted; a step runs from its notice to its end, held while the stretch is high, and `FLOOR_OK` falls for a lower one that
begins; the stretch follows its signal and starts a new measurement. That the level of `FLOOR_OK` comes with the notice is the model's choice (log 112). -/
def Obligations.PowerAndClockEvents : Prop :=
  (∀ (s : State) (cell insn : Nat) (o : Order) (cue : Word), getOrder s insn cell = some o → o.gated = some cue → notBefore (timeAt s cell + 8) cue = true →
    ∃ t, exec (.cueWake cell insn) s = .next t ∧ getOrder t insn cell = some { o with gated := none } ∧ t.ctxs = s.ctxs ∧ sameMemory s t) ∧
  (∀ (s : State) (cell : Nat), cell < cellCount → (getCell s cell).lend = false → lendsNow s cell = true →
    ∃ t, exec (.lendThreshold cell) s = .next t ∧ getCell t cell = { getCell s cell with lend := true } ∧ t.outbox = s.outbox ++ [.lend cell true] ∧
      t.ctxs = s.ctxs ∧ sameMemory s t) ∧
  (∀ (s : State) (cell : Nat), cell < cellCount → (getCell s cell).lend = true → lendsNow s cell = true → exec (.lendThreshold cell) s = .next s) ∧
  (∀ (s : State) (east : Bool), let c := (getHalf s east).clock
    (∃ t, exec (.floorLost east) s = .next t ∧ (getHalf t east).clock.floorOk = false ∧ t.ctxs = s.ctxs ∧ sameMemory s t) ∧
    (∀ lower ok, c.stepping = false → c.stepHeld = false → ∃ t, exec (.stepNotice east true lower ok) s = .next t ∧
      (c.stretch = true → (getHalf t east).clock.stepHeld = true ∧ (getHalf t east).clock.stepping = false ∧ (getHalf t east).clock.floorOk = ok) ∧
      (c.stretch = false → c.stretchFell = none → (getHalf t east).clock.stepping = true ∧ (getHalf t east).clock.floorOk = (ok && !lower)) ∧
      t.ctxs = s.ctxs ∧ sameMemory s t) ∧
    (∀ lower ok, c.stepping = true → ∃ t, exec (.stepNotice east false lower ok) s = .next t ∧ (getHalf t east).clock.stepping = false ∧
      (getHalf t east).clock.measure = some (s.time.ref, c.cycles) ∧ (getHalf t east).clock.floorOk = ok ∧ sameMemory s t) ∧
    exec (.stretchChange east c.stretch) s = .next s ∧
    (∀ high, c.stretch ≠ high → ∃ t, exec (.stretchChange east high) s = .next t ∧ (getHalf t east).clock.stretch = high ∧
      (getHalf t east).clock.measure = some (s.time.ref, c.cycles) ∧ t.ctxs = s.ctxs ∧ sameMemory s t))

/-- R394, R395: a corrected error is counted at its cell up to 65,535 and joins its history, which marks the cell DEGRADED
once it holds as many events of the window as the threshold; an uncorrectable galley error marks the cell DEGRADED at once. R411-R415: a wear measurement adds its stress and high-temperature seconds to the
accumulators, which saturate, and an alarm names its cell. R395: writing 1 to `DEGRADED` clears it with the cell's
history, and writing HEALTH_CONFIG clears every cell's history, a field written 0 keeping its value. -/
def Obligations.HealthAndWearAreCounted : Prop :=
  ((∀ (s : State) (cell : Nat) (kind : CorrKind), cell < cellCount → (kind = .linkCrc → roleOf cell = .l) →
     let x := getCell s cell
     ∃ t, exec (.correctableError cell kind) s = .next t ∧ sameMemory s t ∧ t.ctxs = s.ctxs ∧ let y := getCell t cell
       y.corrGalley = (if kind = .galley then min (x.corrGalley + 1) 65535 else x.corrGalley) ∧
       y.corrSideband = (if kind = .sideband then min (x.corrSideband + 1) 65535 else x.corrSideband) ∧
       y.corrCtl = (if kind = .ctlCrc then min (x.corrCtl + 1) 65535 else x.corrCtl) ∧
       y.corrLink = (if kind = .linkCrc then min (x.corrLink + 1) 65535 else x.corrLink) ∧
       y.events = recentEvents s x ++ [x.healthTolls] ∧ (s.regs.threshold ≤ y.events.length → y.degraded = true)) ∧
   (∀ (s : State) (cell insn : Nat), cell < cellCount →
     ∃ t, exec (.uncorrectableGalleyError cell insn) s = .next t ∧ (getCell t cell).degraded = true ∧ sameMemory s t) ∧
   (∀ (s : State) (cell : Nat) (drift : List Nat) (em tt : Nat), cell < cellCount →
     let w := (getCell s cell).wear
     60000000000 ≤ (s.time.ref - w.last.getD 0).toNat →
     ∃ t, exec (.wearMeasure cell drift em tt) s = .next t ∧ t.ctxs = s.ctxs ∧ sameMemory s t ∧
       (getCell t cell).wear.em.toNat = min (w.em.toNat + em) (2 ^ 64 - 1) ∧ (getCell t cell).wear.tt.toNat = min (w.tt.toNat + tt) (2 ^ 64 - 1) ∧
       (getCell t cell).wear.last = some s.time.ref ∧
       ((getHalf s (cellEast cell)).alarm = false → (getHalf t (cellEast cell)).alarm = true → (getHalf t (cellEast cell)).alarmCell = cell))) ∧
  ((∀ (s : State) (cell : Nat), cell < cellCount → fusedOff s cell = false → eastLost s cell = false →
     exec (.degradedClear cell) s = .next (putCell s cell { getCell s cell with degraded := false, events := [] })) ∧
   (∀ (s : State) (cell : Nat), cell < cellCount → fusedOff s cell = true ∨ eastLost s cell = true → exec (.degradedClear cell) s = .next s) ∧
   (∀ (s : State) (value : Word), windowDead s false = false → ∃ t, exec (.healthConfigWrite value) s = .next t ∧
     (∀ n, getCell t n = { getCell s n with events := [] }) ∧
     (value.toNat % 2 ^ 24 = 0 → t.regs.window = s.regs.window) ∧ (value.toNat % 2 ^ 24 ≠ 0 → t.regs.window = value.toNat % 2 ^ 24) ∧
     (value.toNat / 2 ^ 24 % 32 = 0 → t.regs.threshold = s.regs.threshold) ∧
     (value.toNat / 2 ^ 24 % 32 ≠ 0 → t.regs.threshold = value.toNat / 2 ^ 24 % 32) ∧ t.ctxs = s.ctxs ∧ sameMemory s t))

/-! What arrives at the cells (R19, R21, R109-R111, R173, R177, R212, R220, R258-R261, R284-R293, R381, R416-R423, R429, R468). -/

/-- R21, R173, R392: an order that reaches an ON channel enters its shadow set, or is held back behind one that is there; at a
channel that is not ON its context latches INTERNAL. R109-R111: index values that are all valid let their cell generate
addresses, once the instruction's queue has the slots they take (two are left for its data: the model's choice, log 51); a
failing one ends the instruction with INDEX_RANGE. -/
def Obligations.OrdersAndIndexValuesArrive : Prop :=
  (∀ (s : State) (cell insn : Nat) (o : Order) (f : Flight), getOrder s insn cell = some o → getFlight s insn = some f → o.place = .sent →
    firstSent s o = true →
    let on : Prop := cellOn s cell = true ∧ (getChan s cell o.ch).state = .on
    ∃ t, exec (.orderArrival cell insn) s = .next t ∧ sameMemory s t ∧
      (on → t.seq = s.seq + 1 ∧ t.ctxs = s.ctxs ∧
        ((∃ x ∈ s.orders, x.cell = cell ∧ x.ch = o.ch ∧ (x.place = .shadow ∨ x.place = .held)) →
          getOrder t insn cell = some { o with place := .held, accepted := s.seq }) ∧
        ((∀ x ∈ s.orders, x.cell = cell → x.ch = o.ch → x.place ≠ .shadow ∧ x.place ≠ .held) →
          getOrder t insn cell = some { o with place := .shadow, accepted := s.seq })) ∧
      (¬on → (stateOf s f.job.ctx = .running ∨ stateOf s f.job.ctx = .waiting) → (getCtx s f.job.ctx).regs.fault = 0 →
        (getCtx t f.job.ctx).regs.fault = INTERNAL ∧ stateOf t f.job.ctx = .paused)) ∧
  (∀ (s : State) (cell insn : Nat) (m : Msg) (f : Flight) (o : Order), findMsg s (isIndex cell insn) = some m → getFlight s insn = some f →
    getOrder s insn cell = some o → o.place ≠ .sent →
    let values := f.index.getD []
    ((∀ x ∈ values, indexOk f x = true) →
      (∀ p, findPool s cell f.job.ctx o.ch (queueOf f.job) = some p → firstInQueue s f o = true ∧ min (indexSlots f) (p.size - 2) ≤ p.free) →
      ∃ t, exec (.indexDelivery cell insn) s = .next t ∧ sameMemory s t ∧ t.ctxs = s.ctxs ∧ t.ctl = s.ctl.erase m ∧
        getFlight t insn = some { f with indexCells := f.indexCells ++ [cell] }) ∧
    ((∃ x ∈ values, indexOk f x = false) →
      ∃ t, exec (.indexDelivery cell insn) s = .next t ∧ sameMemory s t ∧ getFlight t insn = none ∧
        (f.origin = none → (stateOf s f.job.ctx = .running ∨ stateOf s f.job.ctx = .waiting) → (getCtx s f.job.ctx).regs.fault = 0 →
          (getCtx t f.job.ctx).regs.fault = INDEX_RANGE ∧ stateOf t f.job.ctx = .paused)))

/-- R177, R212, R220, R232, R381, R429: an ejected slug of an order that goes on is staged there, one that carries a chime update
brings the update to its cell, one that carries a CRC record has it written there; a credit that comes back is free again; a
slug whose replay fails is discarded and its context latches INTERNAL; a halt flit latches the code in the context at its
home, and elsewhere the channel learns of the halt. What `HALTED` of a channel shows, and that a slug of a gone instruction
is discarded, is the model's choice (log 39, log 60). -/
def Obligations.SlugsCreditsAndHaltFlitsArrive : Prop :=
  (∀ (s : State) (cell id : Nat) (g : Slug), s.slugs.find? (fun g => g.id == id && g.dst == cell) = some g → g.ejected = true →
    (∀ f o, g.chime = none → g.record = [] → getFlight s g.insn = some f → getOrder s g.insn cell = some o → stillF f = false →
      f.dropped = false → f.stop = none → o.finished = false → o.isDst = true →
      ∃ t, exec (.slugArrival cell id) s = .next t ∧ t.slugs = s.slugs.filter (fun x => x.id != id) ∧
        getOrder t g.insn cell = some { o with arrived := o.arrived ++ [(g.data, g.pool)] } ∧ t.ctxs = s.ctxs ∧ sameMemory s t) ∧
    (∀ k, g.chime = some k →
      ∃ t, exec (.slugArrival cell id) s = .next t ∧ t.slugs = s.slugs.filter (fun x => x.id != id) ∧ t.ctxs = s.ctxs ∧ sameMemory s t ∧
        t.chimes = s.chimes.map fun u => if u.id = k then { u with here := true } else u) ∧
    (g.chime = none → g.record ≠ [] → (getFlight s g.insn).isSome = true →
      ∃ t, exec (.slugArrival cell id) s = .next t ∧ t.slugs = s.slugs.filter (fun x => x.id != id) ∧ t.ctxs = s.ctxs ∧ sameMemory s t ∧
        t.errands = s.errands ++ [{ id := s.seq, insn := g.insn, cell := cell, ws := g.record }]) ∧
    (g.chime = none → getFlight s g.insn = none →
      ∃ t, exec (.slugArrival cell id) s = .next t ∧ t.slugs = s.slugs.filter (fun x => x.id != id) ∧ t.orders = s.orders ∧ sameMemory s t)) ∧
  (∀ (s : State) (id : Nat) (p : Pool), s.pools.find? (fun p => p.id == id) = some p → 0 < p.returning →
    exec (.creditReturn id) s = .next { s with pools := s.pools.map fun q =>
      if q.id = id then { q with free := q.free + 1, returning := q.returning - 1 } else q }) ∧
  (∀ (s : State) (id : Nat) (g : Slug), s.slugs.find? (fun g => g.id == id) = some g → g.ejected = false →
    (∀ f, g.chime = none → getFlight s g.insn = some f → f.origin = none → f.dropped = false →
      (stateOf s f.job.ctx = .running ∨ stateOf s f.job.ctx = .waiting) → (getCtx s f.job.ctx).regs.fault = 0 →
      ∃ t, exec (.slugReplayFail id) s = .next t ∧ (∀ x ∈ t.slugs, x.id ≠ id) ∧ getFlight t g.insn = none ∧
        (getCtx t f.job.ctx).regs.fault = INTERNAL ∧ stateOf t f.job.ctx = .paused ∧ sameMemory s t) ∧
    (∀ k u, g.chime = some k → s.chimes.find? (fun u => u.id == k) = some u → u.ctx < ctxCount → u.wantsResult = false →
      (stateOf s u.ctx = .running ∨ stateOf s u.ctx = .waiting) → (getCtx s u.ctx).regs.fault = 0 →
      ∃ t, exec (.slugReplayFail id) s = .next t ∧ (∀ x ∈ t.slugs, x.id ≠ id) ∧ (∀ x ∈ t.chimes, x.id ≠ k) ∧
        (getCtx t u.ctx).regs.fault = INTERNAL ∧ stateOf t u.ctx = .paused ∧ sameMemory s t)) ∧
  (∀ (s : State) (cell insn : Nat) (m : Msg) (l : Late) (halted : Nat) (code : BitVec 8) (addr : Word),
    findMsg s (isHalt cell insn) = some m → m.body = .haltNotice l halted code addr →
    ∃ t, exec (.haltFlit cell insn) s = .next t ∧ t.ctl = s.ctl.erase m ∧ sameMemory s t ∧
      (homeOf s l.ctx = cell → (stateOf s l.ctx = .running ∨ stateOf s l.ctx = .waiting) → (getCtx s l.ctx).regs.fault = 0 →
        (getCtx t l.ctx).regs.fault = code ∧ (getCtx t l.ctx).regs.faultKind = .halt ∧ stateOf t l.ctx = .paused) ∧
      (∀ f, getFlight s insn = some f → stopAt f = some (.halt halted) → cell ∈ flightCells f → cell ≠ halted →
        (getChan s cell (chOf f.job.word)).haltedInsn = none → (getChan t cell (chOf f.job.word)).haltedInsn = some insn))

/-- R80, R284, R285, R381, R417, R418: read data fill the sectors that were asked for and change no memory; a write's data land in the
sectors it names and nowhere else, once the peer answers OK, but that a sector that another element of the order shares may
keep what that left there as a whole (R80, R285); an answer with an error changes no memory, and the failing read
or write of an order halts its channel with the code, the direction and the address, the last write of a completed order too.
That a failed access reports its first sector, that memory changes with the answer OK and that a completed order's write
halts is the model's reading and choice (log 8, log 52, log 53). -/
def Obligations.AttachmentResponses : Prop :=
  (∀ (s : State) (cell tag insn : Nat) (keys : List Nat) (a : Access) (f : Flight) (o : Order) (data : List Byte),
    s.accesses.find? (fun a => a.tag == tag && a.cell == cell && !a.isWrite) = some a → a.kind = .source insn keys → inOrder s a = true →
    getFlight s insn = some f → getOrder s insn cell = some o → f.id = insn →
    (statusAt s cell tag .ok = none → (srcF f 0).sealed = false → data.length = 32 * a.sectors.length → keys.length = a.sectors.length → keys.Nodup →
      ∃ t o', exec (.readResponse cell tag .ok data) s = .next t ∧ getOrder t insn cell = some o' ∧ o' = { o with sectors := o'.sectors } ∧
        (∀ i k, keys[i]? = some k → tabFind o'.sectors k = some (bytesSector ((data.drop (32 * i)).take 32))) ∧
        t.accesses = s.accesses.filter (fun x => x.tag != tag) ∧ t.ctxs = s.ctxs ∧ sameMemory s t) ∧
    (∀ st code, st ≠ .ok → st ≠ .timeout → statusAt s cell tag st = some code → f.origin = none → f.dropped = false → f.stop = none →
      (getChan s cell (chOf f.job.word)).haltedInsn = none →
      ∃ t, exec (.readResponse cell tag st data) s = .next t ∧ (getChan t cell (chOf f.job.word)).fault = code ∧
        (getChan t cell (chOf f.job.word)).dir = false ∧ (getChan t cell (chOf f.job.word)).haltedInsn = some insn ∧
        (getChan t cell (chOf f.job.word)).faultAddr = BitVec.ofNat 64 (32 * a.sectors.headD 0) ∧ sameMemory s t)) ∧
  (∀ (s : State) (cell tag : Nat) (a : Access) (st : AttStatus),
    s.accesses.find? (fun a => a.tag == tag && a.cell == cell && a.isWrite) = some a → inOrder s a = true → st ≠ .timeout →
    ∃ t, exec (.writeResponse cell tag st) s = .next t ∧
      (statusAt s cell tag st = none → a.sectors.Nodup → a.data.length = a.sectors.length →
        (∀ (i d : Nat) (x : Sector), a.sectors[i]? = some d → a.data[i]? = some x →
          (a.units[i]?.getD none = none → holdsBytes t (32 * d) 32 x.toNat) ∧
          (holdsBytes t (32 * d) 32 x.toNat ∨
            ∀ k, k < 32 → memRead s.mem (32 * d + k) ≠ none → memRead t.mem (32 * d + k) = memRead s.mem (32 * d + k))) ∧
        (∀ b, b / 32 ∉ a.sectors → memRead t.mem b = memRead s.mem b)) ∧
      (statusAt s cell tag st ≠ none → sameMemory s t) ∧
      (∀ insn code f o, a.kind = .put insn → statusAt s cell tag st = some code → getFlight s insn = some f → writerOf s insn tag = some o →
        f.origin = none → f.stop = none → o.ch = chOf f.job.word → (getChan s o.cell o.ch).haltedInsn = none →
        (o.finished = true → (getChan s o.cell o.ch).state = .on ∧ cellOn s o.cell = true) →
        (getChan t o.cell o.ch).fault = code ∧ (getChan t o.cell o.ch).dir = true ∧ (getChan t o.cell o.ch).haltedInsn = some insn ∧
          (getChan t o.cell o.ch).faultAddr = BitVec.ofNat 64 (32 * a.sectors.headD 0)))

/-- R288, R293, R423: a flushing read that ends well shows the host writes it covers performed and lets go the updates that
waited for it; one that fails faults the FENCEs of SYSTEM scope it served. A host read whose time is up is issued again under
a new tag until its retries are spent, and a completion for a superseded tag is discarded. The host link's state is what the port says; while it is down, and for an access made before it
came up, every answer counts as ERR. Which host writes a flushing read covers
is the model's choice (log 72). -/
def Obligations.HostPortResponses : Prop :=
  (∀ (s : State) (cell id : Nat) (h : Flush), s.flushes.find? (fun h => h.id == id && h.cell == cell) = some h →
    hostDown s cell id = false →
    (∃ t, exec (.flushComplete cell id .ok) s = .next t ∧ t.flushes = s.flushes.filter (fun x => x.id != h.id) ∧
      (∀ w, w ∈ t.hostWrites ↔ w ∈ s.hostWrites ∧ ¬(w.cell = h.cell ∧ w.id < h.upto)) ∧ (∀ u ∈ t.chimes, u.flush ≠ some h.id) ∧
      t.ctxs = s.ctxs ∧ sameMemory s t) ∧
    (∀ all cells, (getCtx s h.ctx).wait = .fence 3 all cells → h.cell ∈ cells → (getCtx s h.ctx).regs.state = .waiting →
      (getCtx s h.ctx).regs.fault = 0 → (∀ u ∈ s.chimes, u.flush ≠ some h.id) →
      ∃ t, exec (.flushComplete cell id .err) s = .next t ∧ (getCtx t h.ctx).regs.fault = BUS_ERROR ∧ stateOf t h.ctx = .paused ∧
        (getCtx t h.ctx).pc = (getCtx s h.ctx).pc ∧ sameMemory s t)) ∧
  (∀ (s : State) (cell tag : Nat) (a : Access), (∀ h ∈ s.flushes, ¬(h.id = tag ∧ h.cell = cell)) → roleOf cell = .h →
    s.accesses.find? (fun a => a.tag == tag && a.cell == cell && !a.isWrite && decide (roleOf cell = .h)) = some a →
    elapsedUs s a.issued (getCell s cell).readTimeoutUs = true →
    ∃ t, exec (.hostReadTimeout cell tag) s = .next t ∧ sameMemory s t ∧
      (a.tries < (getCell s cell).readRetries →
        t.accesses = s.accesses.filter (fun x => x.tag != a.tag) ++ [{ a with tag := s.seq, issued := s.time.ref, tries := a.tries + 1 }] ∧
        t.outbox = s.outbox ++ [.hostRead a.cell s.seq] ∧ t.ctxs = s.ctxs) ∧
      ((getCell s cell).readRetries ≤ a.tries → ∀ x ∈ t.accesses, x.tag ≠ tag)) ∧
  (∀ (s : State) (cell tag : Nat) (st : AttStatus) (data : List Byte), roleOf cell = .h → tag < s.seq →
    (s.accesses.find? (fun a => a.tag == tag && a.cell == cell && !a.isWrite) = none → exec (.readResponse cell tag st data) s = .next s) ∧
    (s.flushes.find? (fun h => h.id == tag && h.cell == cell) = none → exec (.flushComplete cell tag st) s = .next s)) ∧
  (∀ (s : State) (cell : Nat) (up : Bool), roleOf cell = .h → cell < cellCount →
    exec (.hostLinkState cell up) s = .next (putCell s cell { getCell s cell with
      linkUp := up, upFrom := if up && !(getCell s cell).linkUp then s.seq else (getCell s cell).upFrom }) ∧
    ∀ (tag : Nat) (st : AttStatus), (∀ t, exec (.hostLinkState cell up) s = .next t → up = false ∨ ((getCell s cell).linkUp = false ∧ tag < s.seq) →
      statusAt t cell tag st = some BUS_ERROR))

/-- R19, R220, R221, R231: when the last write of an order has left its cell, one strike goes to the cell's enabled cores and, where
the instruction names a chime, one update of 1 starts for each of its branches there; a CHECK that fails makes no
update and latches CRC_MISMATCH. A completion flit makes the home know of it, one of another chip's report with the instant
of its completion (R38, R329). -/
def Obligations.CompletionStrikesAndChimes : Prop :=
  (∀ (s : State) (cell insn : Nat) (o : Order) (f : Flight), getOrder s insn cell = some o → getFlight s insn = some f → f.origin = none →
    o.place = .active → o.finished = false → stillF f = false → o.stopped = false → writesLeft s f o = true →
    ∃ t, exec (.destinationComplete cell insn) s = .next t ∧ sameMemory s t ∧
      (∀ b ∈ branchesAt f cell, remoteBranch s f b = false → .strike cell (strikeCores s cell) f.job.ctx ∈ t.outbox) ∧
      (chimeOf f.job.word ≠ 63 → checkFails f o = false → f.refusedAt = [] → ∀ b ∈ branchesAt f cell, remoteBranch s f b = false →
        ∃ u ∈ t.chimes, s.seq ≤ u.id ∧ u.addr = chimeAddr f b ∧ u.amount = 1 ∧ u.cell = cell ∧ u.ctx = o.ctx ∧
          u.op = (if ckindOf f.job.word && isMovement (opOf f.job.word) then .give else .add)) ∧
      ((chimeOf f.job.word = 63 ∨ checkFails f o = true) → t.chimes = s.chimes) ∧
      (checkFails f o = true → (stateOf s f.job.ctx = .running ∨ stateOf s f.job.ctx = .waiting) → (getCtx s f.job.ctx).regs.fault = 0 →
        (getCtx t f.job.ctx).regs.fault = CRC_MISMATCH ∧ (getCtx t f.job.ctx).regs.faultKind = .ending)) ∧
  (∀ (s : State) (cell insn : Nat) (m : Msg) (skipped : Bool), findMsg s (isCompletion insn cell) = some m → m.body = .completion insn skipped →
    ∃ t, exec (.completionFlit insn cell) s = .next t ∧ sameMemory s t ∧
      ∀ f ∈ t.flights, f.id = insn → ∀ p ∈ f.parts, p.cell = cell → p.done = true → p.known = true) ∧
  (∀ (s : State) (cell insn chip : Nat) (at_ : Word) (m : Msg), findMsg s (isCompletion insn cell) = some m → m.body = .remoteDone insn chip at_ →
    ∃ t, exec (.completionFlit insn cell) s = .next t ∧ sameMemory s t ∧
      ∀ f ∈ t.flights, f.id = insn → ∀ r ∈ f.remotes, r.chip = chip → r.completion = false ∧ r.at_ = at_)

/-- R258-R261, R220, R233, R302: an update whose slot the port of the cell that serves its word has granted writes the new value there
and no other byte: ADD modulo 2^32; GIVE, when the sum is above 0x7FFF_FFFF, writes that and sets the word's bit in the
core's overflow flags; SUB subtracts, or leaves the word where the result would fall below 0. An update that meets an error
changes no memory, nor does one for another chip, which the L-cell passes on once nothing holds it back (R287); a result owed
to a SUB goes back. The old value of the word and of the flags comes with the command
(the model's choice, log 2). -/
def Obligations.ChimeUpdatesWriteTheirWord : Prop :=
  ∀ (s : State) (cell id : Nat) (u : ChimePend) (old flags : Word) (st : AttStatus), s.chimes.find? (fun u => u.id == id) = some u →
    servingCell s u.cell u.cell u.addr.toNat = cell → st ≠ .timeout →
    (addrChip u.addr = s.regs.chipId → s.granted.contains id = true) → (addrChip u.addr ≠ s.regs.chipId → chimeReady s u cell = true) →
    ∃ t, exec (.chimeUpdate cell id st old flags) s = .next t ∧ (∀ x ∈ t.chimes, x.id ≠ id) ∧
      (addrChip u.addr ≠ s.regs.chipId ∨ st ≠ .ok → sameMemory s t) ∧
      (addrChip u.addr = s.regs.chipId → st = .ok →
        let v := old.toNat % 2 ^ 32
        let n := u.amount.toNat
        let word (x : Nat) : Prop := holdsBytes t u.addr.toNat 4 x ∧ sameMemoryBut s t u.addr.toNat 4
        let flagsAt := u.addr.toNat - u.addr.toNat % 2 ^ 24 + 0xBFFFC0
        (u.op = .add → word ((v + n) % 2 ^ 32)) ∧
        (u.op = .give → v + n ≤ 0x7FFFFFFF → word (v + n)) ∧
        (u.op = .give → 0x7FFFFFFF < v + n → u.addr.toNat + 4 ≤ flagsAt →
          holdsBytes t u.addr.toNat 4 0x7FFFFFFF ∧ holdsBytes t flagsAt 8 (flags ||| (1#64 <<< chimeNo u.addr)).toNat ∧
          ∀ a, (a < u.addr.toNat ∨ u.addr.toNat + 4 ≤ a) → (a < flagsAt ∨ flagsAt + 8 ≤ a) → memRead t.mem a = memRead s.mem a) ∧
        (u.op = .sub → n ≤ v → word (v - n)) ∧ (u.op = .sub → v < n → sameMemory s t) ∧
        (u.op = .sub → u.wantsResult = true → u.ctx < ctxCount →
          ∃ m ∈ t.ctl, m.vc = 1 ∧ m.src = cell ∧ m.dst = homeOf s u.ctx ∧ m.body = .subResult u.ctx (if n ≤ v then 0 else CHIME_UNDERFLOW)))

/-- R450, R455, R468: a word that a transfer end reads in register space joins its order; one that it writes has the effect of
a register write of its context. -/
def Obligations.RegisterAccessesAnswer : Prop :=
  ∀ (s : State) (id : Nat) (a : RegAccess), s.regAccesses.find? (fun a => a.id == id) = some a → earlierAccess s a = false →
    let rest := { s with regAccesses := s.regAccesses.filter fun x => x.id != id }
    let off := 8 * a.word % 2 ^ 48
    (a.isWrite = false → ∀ o, getOrder s a.insn a.cell = some o →
      ∃ t, exec (.registerAccessResponse id) s = .next t ∧ getOrder t a.insn a.cell = some (takeWord a (readReg rest off) o) ∧
        t.ctxs = s.ctxs ∧ t.regAccesses = rest.regAccesses ∧ sameMemory s t) ∧
    (a.isWrite = true → ∀ f, getFlight s a.insn = some f →
      ∃ t u, exec (.registerAccessResponse id) s = .next t ∧ exec (.registerWrite (.context f.job.ctx) off 64 a.data) rest = .next u ∧
        sameMemory u t ∧ ((∃ x ∈ u.regAccesses, x.isWrite = true ∧ x.key = a.key) → t = u))

/-! Streams between chips (R320-R340, R351-R354, R446). -/

/-- R324, R339: an OPEN gives the sender a window with h one before its first sequence, at the L-cell it came in on, else at the
lowest-numbered one of that half with fewer than 256 windows, else of the other, and is refused where none has room; a new
incarnation ends the reads that served the old one. A reply opens the stream or counts a refusal, and finds a stream that no longer waits for one as it is; a refused OPEN is sent
again after `ACK_US` (as it stood when the timer started), and a stream that has nothing to send for `IDLE_US` closes, its sequence kept. A CLOSE retires the
window of its incarnation only. That only L-cells that are ON have room is the model's reading of R324 (log 82). -/
def Obligations.StreamsOpenAndClose : Prop :=
  (∀ (s : State) (link chip : Nat) (inc : BitVec 16) (first : BitVec 32), link < 16 → chip < chipCount → chip ≠ s.regs.chipId →
     ∃ t, exec (.streamOpen link chip inc first) s = .next t ∧ t.peerHeard = tabSet s.peerHeard chip { since := s.time.ref, us := s.regs.lostUs } ∧ t.ctxs = s.ctxs ∧ sameMemory s t ∧
       (∀ w, tabFind s.windows chip = some w → w.incarnation ≠ inc → tabWf s.windows = true →
         (∀ f ∈ t.flights, f ∈ s.flights ∧ ¬(servesRead f = true ∧ ∃ k, f.origin = some (chip, k))) ∧
         ∀ v, tabFind t.windows chip = some v → v.incarnation = inc ∧ v.h = first - 1) ∧
       (tabFind s.windows chip = none → (∀ f ∈ s.flights, ¬(servesRead f = true ∧ ∃ k, f.origin = some (chip, k))) →
         let here := 336 + link
         let near (n : Nat) : Prop := 336 ≤ n ∧ n < 352 ∧ cellEast n = cellEast here
         let far (n : Nat) : Prop := 336 ≤ n ∧ n < 352 ∧ cellEast n ≠ cellEast here
         let room (n : Nat) : Prop := cellOn s n = true ∧ (s.windows.filter fun p => p.2.cell == n).length < 256
         let opens (n : Nat) : Prop := (∃ w, t.windows = tabSet s.windows chip w ∧ w.cell = n ∧ w.incarnation = inc ∧ w.h = first - 1) ∧
           t.outbox = s.outbox ++ [.linkControl link chip 2 (BitVec.ofNat 32 (16 + (n - 336)))]
         (room here → opens here) ∧
         (¬room here → ∀ n, near n → room n → (∀ m, near m → m < n → ¬room m) → opens n) ∧
         ((∀ m, near m → ¬room m) → ∀ n, far n → room n → (∀ m, far m → m < n → ¬room m) → opens n) ∧
         ((∀ m, near m ∨ far m → ¬room m) → t.windows = s.windows ∧ t.outbox = s.outbox ++ [.linkControl link chip 2 0]))) ∧
  (∀ (s : State) (chip : Nat) (window : Option Nat), chip < chipCount → (getStream s chip).opening = false →
     ∃ t, exec (.openReply chip window) s = .next t ∧ t = { s with peerHeard := t.peerHeard }) ∧
  (∀ (s : State) (chip : Nat), chip < chipCount → (getStream s chip).opening = true →
     (∃ t, exec (.openReply chip none) s = .next t ∧ getStream t chip = { getStream s chip with refused := true } ∧
       t.regs = { s.regs with openRefused := min (s.regs.openRefused + 1) 65535 } ∧ t.routes = s.routes ∧ t.ctxs = s.ctxs ∧ sameMemory s t) ∧
     (∀ n, n < 16 → ∃ t, exec (.openReply chip (some n)) s = .next t ∧ (getRoute t chip).peer = .opened ∧ (getStream t chip).opening = false ∧
       (getStream t chip).window = n ∧ (getStream t chip).waiting = (getStream s chip).waiting ∧ t.regs = s.regs ∧ t.ctxs = s.ctxs ∧ sameMemory s t) ∧
     ((getStream s chip).refused = true → timerDue s (getStream s chip).openTimer = true →
       ∃ t, exec (.openRetry chip) s = .next t ∧
         getStream t chip = { getStream s chip with refused := false, openTimer := { since := s.time.ref, us := s.regs.ackUs } } ∧
         t.outbox = s.outbox ++ [.linkControl (currentLink s chip) chip 1 (getStream s chip).nextSeq] ∧ t.ctxs = s.ctxs ∧ sameMemory s t)) ∧
  (∀ (s : State) (chip : Nat), (getRoute s chip).peer = .opened → (getStream s chip).held = [] → (getStream s chip).waiting = [] →
     timerDue s (getStream s chip).idleTimer = true →
     ∃ t, exec (.streamIdle chip) s = .next t ∧ (getRoute t chip).peer = .none ∧ getStream t chip = getStream s chip ∧
       t.outbox = s.outbox ++ [.linkControl (currentLink s chip) chip 3 0] ∧ t.ctxs = s.ctxs ∧ sameMemory s t) ∧
  (∀ (s : State) (chip : Nat) (inc : BitVec 16), chip < chipCount →
     (∀ w, tabFind s.windows chip = some w → w.incarnation = inc →
       ∃ t, exec (.close chip inc) s = .next t ∧ WindowGone s t chip ∧ t.ctxs = s.ctxs ∧ sameMemory s t) ∧
     ((∀ w, tabFind s.windows chip = some w → w.incarnation ≠ inc) → exec (.close chip inc) s = .next s))

/-- R325, R327, R336: an acknowledgement goes out within a microsecond of an arrival; a cumulative acknowledgement frees what it
covers, and a repeated or stale one changes no stream; items without progress for `ACK_US` are all sent again in order. R338,
R339, R446: without progress for `LOST_US` after a resend the stream is lost, a GOODBYE makes the peer GONE, and a chip
silent for `LOST_US` whose stream is lost loses its window. R337: a stream whose link goes down moves to its alternate link,
where that is valid, up and not yet in use, and is lost otherwise. That an acknowledgement of more than is held changes no
stream is the model's choice (log 44). -/
def Obligations.StreamsAreResentMovedOrLost : Prop :=
  (∀ (s : State) (chip : Nat) (w : Window), tabFind s.windows chip = some w →
     (w.arrived = true → elapsedUs s w.lastAck 1 = true →
       ∃ t, exec (.ackTimer chip) s = .next t ∧ t.outbox = s.outbox ++ [.linkControl (currentLink s chip) chip 5 w.h] ∧
         tabFind t.windows chip = some { w with handed := 0, arrived := false, lastAck := s.time.ref } ∧ t.ctxs = s.ctxs ∧ sameMemory s t) ∧
     ((getRoute s chip).peer = .lost → timerDue s (tabGet {} s.peerHeard chip) = true →
       ∃ t, exec (.peerSilence chip) s = .next t ∧ WindowGone s t chip ∧ t.ctxs = s.ctxs ∧ sameMemory s t)) ∧
  (∀ (s : State) (chip : Nat) (h : BitVec 32), chip < chipCount →
     let x := getStream s chip
     let n := (h - x.acked).toNat
     ∃ t, exec (.remoteAck chip h) s = .next t ∧ t.ctxs = s.ctxs ∧ sameMemory s t ∧
       ((getRoute s chip).peer = .opened → 0 < n → n ≤ x.held.length →
         getStream t chip = { x with
           acked := h, held := x.held.drop n, resent := false
           resendTimer := { since := s.time.ref, us := s.regs.ackUs }, lostTimer := { since := s.time.ref, us := s.regs.lostUs } }) ∧
       ((n = 0 ∨ x.held.length < n) → t.streams = s.streams)) ∧
  (∀ (s : State) (chip : Nat), (getRoute s chip).peer = .opened → (getStream s chip).held ≠ [] →
     let x := getStream s chip
     (timerDue s x.resendTimer = true →
       ∃ t, exec (.resendTimer chip) s = .next t ∧ (getStream t chip).held = x.held ∧ (getStream t chip).resent = true ∧
         t.outbox = s.outbox ++ x.held.map (fun h => .linkFrame (currentLink s chip) chip h.item) ∧ t.ctxs = s.ctxs ∧ sameMemory s t) ∧
     (x.resent = true → timerDue s x.lostTimer = true →
       ∃ t, exec (.streamLostTimer chip) s = .next t ∧ StreamOver s t chip .lost)) ∧
  (∀ (s : State) (chip : Nat) (inc : BitVec 16), chip < chipCount →
     ∃ t, exec (.goodbye chip inc) s = .next t ∧ StreamOver s t chip .gone ∧
       (∀ w, tabFind s.windows chip = some w → w.incarnation = inc → tabWf s.windows = true → tabFind t.windows chip = none)) ∧
  (∀ (s : State) (cell : Nat), roleOf cell = .l →
     exec (.linkUp cell) s = .next (putCell s cell { getCell s cell with linkUp := true }) ∧
     ∃ t, exec (.linkDown cell) s = .next t ∧ (getCell t cell).linkUp = false ∧ sameMemory s t ∧
       ∀ chip, tabWf s.streams = true → (tabFind s.streams chip).isSome = true → (getRoute s chip).peer = .opened → (getStream s chip).opening = false →
         336 + currentLink s chip = cell →
         let r := getRoute s chip
         let alt := field r.bits 8 4
         (bit r.bits 17 = true → r.useAlt = false → 336 + alt ≠ cell → (getCell s (336 + alt)).linkUp = true →
           (getRoute t chip).useAlt = true ∧ (getRoute t chip).peer = .opened ∧ ∀ h ∈ (getStream s chip).held, .linkFrame alt chip h.item ∈ t.outbox) ∧
         ((bit r.bits 17 = false ∨ r.useAlt = true ∨ 336 + alt = cell ∨ (getCell s (336 + alt)).linkUp = false) →
           (getRoute t chip).peer = .lost ∧ (getStream t chip).held = []))

/-- R326, R351, R354: an item out of its incarnation, or out of sequence, is discarded and advances nothing; one in sequence, for
which the window cell has room, joins its seal group, and the last of a group lets its items be handed on, h advancing past
each. A sealed group whose slot is empty or whose tag fails starts no update and no work and writes no byte. R328: an update
whose tag verifies is started where its domain may write the word, and refused otherwise. A refusal latches its code in the
context as an End fault, and after a failed group the instruction ends. A tag is the model's uninterpreted function of key, IV
and items (log 12), and only the key and IV an item was encrypted under show what it carries (log 76). -/
def Obligations.ItemsArriveInSequence : Prop :=
  (∀ (s : State) (link : Nat) (i : Item), link < 16 → i.chip < chipCount → i.chip ≠ s.regs.chipId → i.domain < domainCount → i.ctx < ctxCount →
     ((∀ w, tabFind s.windows i.chip = some w → w.incarnation ≠ i.incarnation) →
       exec (.itemArrival link i) s = .next { s with peerHeard := tabSet s.peerHeard i.chip { since := s.time.ref, us := s.regs.lostUs } }) ∧
     ∀ w, tabFind s.windows i.chip = some w → w.incarnation = i.incarnation →
       remoteUsed s w.cell [(i.chip, i.domain)] ≤ remoteSlicesOf s w.cell →
       let d := (i.seq - w.h).toNat
       let n := w.group.length
       let next := d = w.ready.length + n + 1
       let open_ : Prop := w.ready = [] ∧ ∀ j ∈ w.group, j.last = false
       let word (a : Word) : Prop := addrChip a = s.regs.chipId ∧ itemAllowed s i.domain [a.toNat / 32] a.toNat (a.toNat + 3) false true = true ∧
         cellOn s (servingCell s w.cell w.cell a.toNat) = true
       let idle (t : State) : Prop := (∀ u ∈ t.chimes, u ∈ s.chimes) ∧ ∀ f ∈ t.flights, ∃ g ∈ s.flights, g.id = f.id
       ∃ t, exec (.itemArrival link i) s = .next t ∧ sameMemory s t ∧
         (¬next → tabFind t.windows i.chip = some { w with arrived := true } ∧ t.ctxs = s.ctxs ∧ t.flights = s.flights ∧ t.chimes = s.chimes ∧ t.ctl = s.ctl) ∧
         (next → open_ → i.last = false → tabFind t.windows i.chip = some { w with arrived := true, group := w.group ++ [i] } ∧ t.ctxs = s.ctxs ∧
           t.flights = s.flights ∧ t.chimes = s.chimes ∧ t.ctl = s.ctl) ∧
         (next → open_ → i.last = true → ∃ v, tabFind t.windows i.chip = some v ∧ v.group = [] ∧ v.ready.length ≤ n + 1 ∧
           v.h + BitVec.ofNat 32 v.ready.length = w.h + BitVec.ofNat 32 (n + 1)) ∧
         (next → i.last = true → w.ready = [] → w.group = [] → i.isSealed = true →
           ((getDom s i.domain).key = none → idle t) ∧
           ∀ k, (getDom s i.domain).key = some k →
             let iv := linkIv i.chip s.regs.chipId i.incarnation w.wraps i.seq
             let opens : Prop := i.tag = Config.gcmGroupTag k iv (authed [i]) ∧ i.cipher = some (k, iv)
             (¬opens → (getCell t w.cell).suspect = true ∧ idle t) ∧
             (opens → ∀ id a op amount pc, i.payload = .chime id a op amount pc →
               (word a → ∃ u, t.chimes = s.chimes ++ [u] ∧ u.addr = a ∧ u.op = op ∧ u.amount = amount ∧ u.origin = some i.chip) ∧
               (¬word a → t.chimes = s.chimes)))) ∧
  (∀ (s : State) (c k : Nat) (m : Msg) (i : Option Nat) (code : Code) (ends : Bool) (pc : Word), c < ctxCount →
     findMsg s (isRefusal c) = some m → m.body = .refusal k i code ends pc →
     ∃ t, exec (.refusalReport c) s = .next t ∧ sameMemory s t ∧
       ((∀ f, i.bind (getFlight s) = some f → f.job.ctx = c) → (getCtx s c).regs.fault = 0 → code ≠ 0 → (stateOf s c = .running ∨ stateOf s c = .waiting) →
         (getCtx t c).regs.fault = code ∧ (getCtx t c).regs.faultKind = .ending ∧ stateOf t c = .paused) ∧
       (∀ f, i.bind (getFlight s) = some f → f.origin = none → f.complete = false → ends = true → getFlight t f.id = none))

/-! The engine cycle (R301-R310, R390). -/

/-- R302, R303: in any 256 slots each class has as many as its share, whatever the shares are. R306: a stage grants a request of the
highest priority, among those a forced one if there is one, among those one of the smallest deadline, and among those the next
in the rotation after the last one granted. An engine cycle of a working half advances its clock and no other, turns on what
waits to be armed again and no fuse keeps off, and writes no memory, moves no time and changes no chip register. -/
def Obligations.EngineCyclesArbitrate : Prop :=
  (∀ (x : Cell) (start : Nat), x.shareRead + x.shareWrite + x.shareRemote = 256 →
     let slots (k : PortClass) : Nat := ((List.range 256).filter fun i => slotClass x (start + i) == k).length
     slots .read = x.shareRead ∧ slots .write = x.shareWrite ∧ slots .remote = x.shareRemote) ∧
  (∀ (limit last : Nat) (rs : List (Ask PortJob)), rs ≠ [] → ∃ r ∈ rs, pick limit last rs = some r ∧ ∀ x ∈ rs,
     let forced (y : Ask PortJob) : Bool := isForced limit y.wait
     x.prio ≤ r.prio ∧ (x.prio = r.prio → (forced x = true → forced r = true) ∧
       (forced x = forced r → r.deadline ≤ x.deadline ∧ (x.deadline = r.deadline → turnOf last r.num ≤ turnOf last x.num)))) ∧
  (∀ (s : State) (east : Bool), s.regs.powered = true → ¬(east = true ∧ s.west.seesEastFailed = true) →
     ∃ t, exec (.engineCycle east) s = .next t ∧ (getHalf t east).clock = nextCycle s.time.ref (getHalf s east).clock ∧
       (getHalf t east).clock.cycles = (getHalf s east).clock.cycles + 1 ∧
       (getHalf t (!east)).clock = (getHalf s (!east)).clock ∧ t.time = s.time ∧ t.regs = s.regs ∧ sameMemory s t ∧
       (∀ n, cellEast n = east → (getCell s n).state = .off → (getCell s n).rearm = true → (getCell s n).retired = false → fusedOff s n = false →
         (getCell t n).state = .on ∧ (getCell t n).rearm = false) ∧
       (∀ n, east = false → (getLine s n).state = .off → (getLine s n).rearm = true → ((getLine s n).parent < 16 ∨ (getLine s n).parent = 0x1F) →
         (getLine t n).state = .on ∧
           ((getLine s n).parties = [] → ((getLine s n).system = true → (getLine s n).parent ≠ 0x1F) → (getLine t n).round = 0)))
end

