-- ==== Sys2Proof/Laws/State.lean ====
section
/-!
SUPPORT. The state record: what each update of Machine/Ops.lean leaves as it was, field by field, and what it reads back.
-/

namespace Sys2Proof.Machine

/-! One lemma for each field that an update leaves. -/

@[simp] theorem putCtx_pending (s : State) (c : Nat) (x : Ctx) : (putCtx s c x).pending = s.pending := rfl
@[simp] theorem putCtx_regs (s : State) (c : Nat) (x : Ctx) : (putCtx s c x).regs = s.regs := rfl
@[simp] theorem putCtx_time (s : State) (c : Nat) (x : Ctx) : (putCtx s c x).time = s.time := rfl
@[simp] theorem putCtx_west (s : State) (c : Nat) (x : Ctx) : (putCtx s c x).west = s.west := rfl
@[simp] theorem putCtx_east (s : State) (c : Nat) (x : Ctx) : (putCtx s c x).east = s.east := rfl
@[simp] theorem putCtx_instr (s : State) (c : Nat) (x : Ctx) : (putCtx s c x).instr = s.instr := rfl
@[simp] theorem putCtx_attach (s : State) (c : Nat) (x : Ctx) : (putCtx s c x).attach = s.attach := rfl
@[simp] theorem putCtx_detach (s : State) (c : Nat) (x : Ctx) : (putCtx s c x).detach = s.detach := rfl
@[simp] theorem putCtx_domains (s : State) (c : Nat) (x : Ctx) : (putCtx s c x).domains = s.domains := rfl
@[simp] theorem putCtx_cells (s : State) (c : Nat) (x : Ctx) : (putCtx s c x).cells = s.cells := rfl
@[simp] theorem putCtx_lines (s : State) (c : Nat) (x : Ctx) : (putCtx s c x).lines = s.lines := rfl
@[simp] theorem putCtx_routes (s : State) (c : Nat) (x : Ctx) : (putCtx s c x).routes = s.routes := rfl
@[simp] theorem putCtx_streams (s : State) (c : Nat) (x : Ctx) : (putCtx s c x).streams = s.streams := rfl
@[simp] theorem putCtx_windows (s : State) (c : Nat) (x : Ctx) : (putCtx s c x).windows = s.windows := rfl
@[simp] theorem putCtx_peerHeard (s : State) (c : Nat) (x : Ctx) : (putCtx s c x).peerHeard = s.peerHeard := rfl
@[simp] theorem putCtx_seqHeard (s : State) (c : Nat) (x : Ctx) : (putCtx s c x).seqHeard = s.seqHeard := rfl
@[simp] theorem putCtx_flights (s : State) (c : Nat) (x : Ctx) : (putCtx s c x).flights = s.flights := rfl
@[simp] theorem putCtx_orders (s : State) (c : Nat) (x : Ctx) : (putCtx s c x).orders = s.orders := rfl
@[simp] theorem putCtx_accesses (s : State) (c : Nat) (x : Ctx) : (putCtx s c x).accesses = s.accesses := rfl
@[simp] theorem putCtx_regAccesses (s : State) (c : Nat) (x : Ctx) : (putCtx s c x).regAccesses = s.regAccesses := rfl
@[simp] theorem putCtx_chimes (s : State) (c : Nat) (x : Ctx) : (putCtx s c x).chimes = s.chimes := rfl
@[simp] theorem putCtx_distant (s : State) (c : Nat) (x : Ctx) : (putCtx s c x).distant = s.distant := rfl
@[simp] theorem putCtx_hostWrites (s : State) (c : Nat) (x : Ctx) : (putCtx s c x).hostWrites = s.hostWrites := rfl
@[simp] theorem putCtx_flushes (s : State) (c : Nat) (x : Ctx) : (putCtx s c x).flushes = s.flushes := rfl
@[simp] theorem putCtx_granted (s : State) (c : Nat) (x : Ctx) : (putCtx s c x).granted = s.granted := rfl
@[simp] theorem putCtx_errands (s : State) (c : Nat) (x : Ctx) : (putCtx s c x).errands = s.errands := rfl
@[simp] theorem putCtx_slugs (s : State) (c : Nat) (x : Ctx) : (putCtx s c x).slugs = s.slugs := rfl
@[simp] theorem putCtx_routers (s : State) (c : Nat) (x : Ctx) : (putCtx s c x).routers = s.routers := rfl
@[simp] theorem putCtx_pools (s : State) (c : Nat) (x : Ctx) : (putCtx s c x).pools = s.pools := rfl
@[simp] theorem putCtx_ctl (s : State) (c : Nat) (x : Ctx) : (putCtx s c x).ctl = s.ctl := rfl
@[simp] theorem putCtx_mem (s : State) (c : Nat) (x : Ctx) : (putCtx s c x).mem = s.mem := rfl
@[simp] theorem putCtx_latches (s : State) (c : Nat) (x : Ctx) : (putCtx s c x).latches = s.latches := rfl
@[simp] theorem putCtx_mirror (s : State) (c : Nat) (x : Ctx) : (putCtx s c x).mirror = s.mirror := rfl
@[simp] theorem putCtx_outbox (s : State) (c : Nat) (x : Ctx) : (putCtx s c x).outbox = s.outbox := rfl
@[simp] theorem putCtx_seq (s : State) (c : Nat) (x : Ctx) : (putCtx s c x).seq = s.seq := rfl
@[simp] theorem putCtx_fresh (s : State) (c : Nat) (x : Ctx) : (putCtx s c x).fresh = s.fresh := rfl

@[simp] theorem modCtx_pending (s : State) (c : Nat) (f : Ctx → Ctx) : (modCtx s c f).pending = s.pending := rfl
@[simp] theorem modCtx_regs (s : State) (c : Nat) (f : Ctx → Ctx) : (modCtx s c f).regs = s.regs := rfl
@[simp] theorem modCtx_time (s : State) (c : Nat) (f : Ctx → Ctx) : (modCtx s c f).time = s.time := rfl
@[simp] theorem modCtx_west (s : State) (c : Nat) (f : Ctx → Ctx) : (modCtx s c f).west = s.west := rfl
@[simp] theorem modCtx_east (s : State) (c : Nat) (f : Ctx → Ctx) : (modCtx s c f).east = s.east := rfl
@[simp] theorem modCtx_instr (s : State) (c : Nat) (f : Ctx → Ctx) : (modCtx s c f).instr = s.instr := rfl
@[simp] theorem modCtx_attach (s : State) (c : Nat) (f : Ctx → Ctx) : (modCtx s c f).attach = s.attach := rfl
@[simp] theorem modCtx_detach (s : State) (c : Nat) (f : Ctx → Ctx) : (modCtx s c f).detach = s.detach := rfl
@[simp] theorem modCtx_domains (s : State) (c : Nat) (f : Ctx → Ctx) : (modCtx s c f).domains = s.domains := rfl
@[simp] theorem modCtx_cells (s : State) (c : Nat) (f : Ctx → Ctx) : (modCtx s c f).cells = s.cells := rfl
@[simp] theorem modCtx_lines (s : State) (c : Nat) (f : Ctx → Ctx) : (modCtx s c f).lines = s.lines := rfl
@[simp] theorem modCtx_routes (s : State) (c : Nat) (f : Ctx → Ctx) : (modCtx s c f).routes = s.routes := rfl
@[simp] theorem modCtx_streams (s : State) (c : Nat) (f : Ctx → Ctx) : (modCtx s c f).streams = s.streams := rfl
@[simp] theorem modCtx_windows (s : State) (c : Nat) (f : Ctx → Ctx) : (modCtx s c f).windows = s.windows := rfl
@[simp] theorem modCtx_peerHeard (s : State) (c : Nat) (f : Ctx → Ctx) : (modCtx s c f).peerHeard = s.peerHeard := rfl
@[simp] theorem modCtx_seqHeard (s : State) (c : Nat) (f : Ctx → Ctx) : (modCtx s c f).seqHeard = s.seqHeard := rfl
@[simp] theorem modCtx_flights (s : State) (c : Nat) (f : Ctx → Ctx) : (modCtx s c f).flights = s.flights := rfl
@[simp] theorem modCtx_orders (s : State) (c : Nat) (f : Ctx → Ctx) : (modCtx s c f).orders = s.orders := rfl
@[simp] theorem modCtx_accesses (s : State) (c : Nat) (f : Ctx → Ctx) : (modCtx s c f).accesses = s.accesses := rfl
@[simp] theorem modCtx_regAccesses (s : State) (c : Nat) (f : Ctx → Ctx) : (modCtx s c f).regAccesses = s.regAccesses := rfl
@[simp] theorem modCtx_chimes (s : State) (c : Nat) (f : Ctx → Ctx) : (modCtx s c f).chimes = s.chimes := rfl
@[simp] theorem modCtx_distant (s : State) (c : Nat) (f : Ctx → Ctx) : (modCtx s c f).distant = s.distant := rfl
@[simp] theorem modCtx_hostWrites (s : State) (c : Nat) (f : Ctx → Ctx) : (modCtx s c f).hostWrites = s.hostWrites := rfl
@[simp] theorem modCtx_flushes (s : State) (c : Nat) (f : Ctx → Ctx) : (modCtx s c f).flushes = s.flushes := rfl
@[simp] theorem modCtx_granted (s : State) (c : Nat) (f : Ctx → Ctx) : (modCtx s c f).granted = s.granted := rfl
@[simp] theorem modCtx_errands (s : State) (c : Nat) (f : Ctx → Ctx) : (modCtx s c f).errands = s.errands := rfl
@[simp] theorem modCtx_slugs (s : State) (c : Nat) (f : Ctx → Ctx) : (modCtx s c f).slugs = s.slugs := rfl
@[simp] theorem modCtx_routers (s : State) (c : Nat) (f : Ctx → Ctx) : (modCtx s c f).routers = s.routers := rfl
@[simp] theorem modCtx_pools (s : State) (c : Nat) (f : Ctx → Ctx) : (modCtx s c f).pools = s.pools := rfl
@[simp] theorem modCtx_ctl (s : State) (c : Nat) (f : Ctx → Ctx) : (modCtx s c f).ctl = s.ctl := rfl
@[simp] theorem modCtx_mem (s : State) (c : Nat) (f : Ctx → Ctx) : (modCtx s c f).mem = s.mem := rfl
@[simp] theorem modCtx_latches (s : State) (c : Nat) (f : Ctx → Ctx) : (modCtx s c f).latches = s.latches := rfl
@[simp] theorem modCtx_mirror (s : State) (c : Nat) (f : Ctx → Ctx) : (modCtx s c f).mirror = s.mirror := rfl
@[simp] theorem modCtx_outbox (s : State) (c : Nat) (f : Ctx → Ctx) : (modCtx s c f).outbox = s.outbox := rfl
@[simp] theorem modCtx_seq (s : State) (c : Nat) (f : Ctx → Ctx) : (modCtx s c f).seq = s.seq := rfl
@[simp] theorem modCtx_fresh (s : State) (c : Nat) (f : Ctx → Ctx) : (modCtx s c f).fresh = s.fresh := rfl

@[simp] theorem modRegs_pending (s : State) (c : Nat) (f : CtxRegs → CtxRegs) : (modRegs s c f).pending = s.pending := rfl
@[simp] theorem modRegs_regs (s : State) (c : Nat) (f : CtxRegs → CtxRegs) : (modRegs s c f).regs = s.regs := rfl
@[simp] theorem modRegs_time (s : State) (c : Nat) (f : CtxRegs → CtxRegs) : (modRegs s c f).time = s.time := rfl
@[simp] theorem modRegs_west (s : State) (c : Nat) (f : CtxRegs → CtxRegs) : (modRegs s c f).west = s.west := rfl
@[simp] theorem modRegs_east (s : State) (c : Nat) (f : CtxRegs → CtxRegs) : (modRegs s c f).east = s.east := rfl
@[simp] theorem modRegs_instr (s : State) (c : Nat) (f : CtxRegs → CtxRegs) : (modRegs s c f).instr = s.instr := rfl
@[simp] theorem modRegs_attach (s : State) (c : Nat) (f : CtxRegs → CtxRegs) : (modRegs s c f).attach = s.attach := rfl
@[simp] theorem modRegs_detach (s : State) (c : Nat) (f : CtxRegs → CtxRegs) : (modRegs s c f).detach = s.detach := rfl
@[simp] theorem modRegs_domains (s : State) (c : Nat) (f : CtxRegs → CtxRegs) : (modRegs s c f).domains = s.domains := rfl
@[simp] theorem modRegs_cells (s : State) (c : Nat) (f : CtxRegs → CtxRegs) : (modRegs s c f).cells = s.cells := rfl
@[simp] theorem modRegs_lines (s : State) (c : Nat) (f : CtxRegs → CtxRegs) : (modRegs s c f).lines = s.lines := rfl
@[simp] theorem modRegs_routes (s : State) (c : Nat) (f : CtxRegs → CtxRegs) : (modRegs s c f).routes = s.routes := rfl
@[simp] theorem modRegs_streams (s : State) (c : Nat) (f : CtxRegs → CtxRegs) : (modRegs s c f).streams = s.streams := rfl
@[simp] theorem modRegs_windows (s : State) (c : Nat) (f : CtxRegs → CtxRegs) : (modRegs s c f).windows = s.windows := rfl
@[simp] theorem modRegs_peerHeard (s : State) (c : Nat) (f : CtxRegs → CtxRegs) : (modRegs s c f).peerHeard = s.peerHeard := rfl
@[simp] theorem modRegs_seqHeard (s : State) (c : Nat) (f : CtxRegs → CtxRegs) : (modRegs s c f).seqHeard = s.seqHeard := rfl
@[simp] theorem modRegs_flights (s : State) (c : Nat) (f : CtxRegs → CtxRegs) : (modRegs s c f).flights = s.flights := rfl
@[simp] theorem modRegs_orders (s : State) (c : Nat) (f : CtxRegs → CtxRegs) : (modRegs s c f).orders = s.orders := rfl
@[simp] theorem modRegs_accesses (s : State) (c : Nat) (f : CtxRegs → CtxRegs) : (modRegs s c f).accesses = s.accesses := rfl
@[simp] theorem modRegs_regAccesses (s : State) (c : Nat) (f : CtxRegs → CtxRegs) : (modRegs s c f).regAccesses = s.regAccesses := rfl
@[simp] theorem modRegs_chimes (s : State) (c : Nat) (f : CtxRegs → CtxRegs) : (modRegs s c f).chimes = s.chimes := rfl
@[simp] theorem modRegs_distant (s : State) (c : Nat) (f : CtxRegs → CtxRegs) : (modRegs s c f).distant = s.distant := rfl
@[simp] theorem modRegs_hostWrites (s : State) (c : Nat) (f : CtxRegs → CtxRegs) : (modRegs s c f).hostWrites = s.hostWrites := rfl
@[simp] theorem modRegs_flushes (s : State) (c : Nat) (f : CtxRegs → CtxRegs) : (modRegs s c f).flushes = s.flushes := rfl
@[simp] theorem modRegs_granted (s : State) (c : Nat) (f : CtxRegs → CtxRegs) : (modRegs s c f).granted = s.granted := rfl
@[simp] theorem modRegs_errands (s : State) (c : Nat) (f : CtxRegs → CtxRegs) : (modRegs s c f).errands = s.errands := rfl
@[simp] theorem modRegs_slugs (s : State) (c : Nat) (f : CtxRegs → CtxRegs) : (modRegs s c f).slugs = s.slugs := rfl
@[simp] theorem modRegs_routers (s : State) (c : Nat) (f : CtxRegs → CtxRegs) : (modRegs s c f).routers = s.routers := rfl
@[simp] theorem modRegs_pools (s : State) (c : Nat) (f : CtxRegs → CtxRegs) : (modRegs s c f).pools = s.pools := rfl
@[simp] theorem modRegs_ctl (s : State) (c : Nat) (f : CtxRegs → CtxRegs) : (modRegs s c f).ctl = s.ctl := rfl
@[simp] theorem modRegs_mem (s : State) (c : Nat) (f : CtxRegs → CtxRegs) : (modRegs s c f).mem = s.mem := rfl
@[simp] theorem modRegs_latches (s : State) (c : Nat) (f : CtxRegs → CtxRegs) : (modRegs s c f).latches = s.latches := rfl
@[simp] theorem modRegs_mirror (s : State) (c : Nat) (f : CtxRegs → CtxRegs) : (modRegs s c f).mirror = s.mirror := rfl
@[simp] theorem modRegs_outbox (s : State) (c : Nat) (f : CtxRegs → CtxRegs) : (modRegs s c f).outbox = s.outbox := rfl
@[simp] theorem modRegs_seq (s : State) (c : Nat) (f : CtxRegs → CtxRegs) : (modRegs s c f).seq = s.seq := rfl
@[simp] theorem modRegs_fresh (s : State) (c : Nat) (f : CtxRegs → CtxRegs) : (modRegs s c f).fresh = s.fresh := rfl

@[simp] theorem putCell_pending (s : State) (n : Nat) (x : Cell) : (putCell s n x).pending = s.pending := rfl
@[simp] theorem putCell_regs (s : State) (n : Nat) (x : Cell) : (putCell s n x).regs = s.regs := rfl
@[simp] theorem putCell_time (s : State) (n : Nat) (x : Cell) : (putCell s n x).time = s.time := rfl
@[simp] theorem putCell_west (s : State) (n : Nat) (x : Cell) : (putCell s n x).west = s.west := rfl
@[simp] theorem putCell_east (s : State) (n : Nat) (x : Cell) : (putCell s n x).east = s.east := rfl
@[simp] theorem putCell_instr (s : State) (n : Nat) (x : Cell) : (putCell s n x).instr = s.instr := rfl
@[simp] theorem putCell_attach (s : State) (n : Nat) (x : Cell) : (putCell s n x).attach = s.attach := rfl
@[simp] theorem putCell_detach (s : State) (n : Nat) (x : Cell) : (putCell s n x).detach = s.detach := rfl
@[simp] theorem putCell_ctxs (s : State) (n : Nat) (x : Cell) : (putCell s n x).ctxs = s.ctxs := rfl
@[simp] theorem putCell_domains (s : State) (n : Nat) (x : Cell) : (putCell s n x).domains = s.domains := rfl
@[simp] theorem putCell_lines (s : State) (n : Nat) (x : Cell) : (putCell s n x).lines = s.lines := rfl
@[simp] theorem putCell_routes (s : State) (n : Nat) (x : Cell) : (putCell s n x).routes = s.routes := rfl
@[simp] theorem putCell_streams (s : State) (n : Nat) (x : Cell) : (putCell s n x).streams = s.streams := rfl
@[simp] theorem putCell_windows (s : State) (n : Nat) (x : Cell) : (putCell s n x).windows = s.windows := rfl
@[simp] theorem putCell_peerHeard (s : State) (n : Nat) (x : Cell) : (putCell s n x).peerHeard = s.peerHeard := rfl
@[simp] theorem putCell_seqHeard (s : State) (n : Nat) (x : Cell) : (putCell s n x).seqHeard = s.seqHeard := rfl
@[simp] theorem putCell_flights (s : State) (n : Nat) (x : Cell) : (putCell s n x).flights = s.flights := rfl
@[simp] theorem putCell_orders (s : State) (n : Nat) (x : Cell) : (putCell s n x).orders = s.orders := rfl
@[simp] theorem putCell_accesses (s : State) (n : Nat) (x : Cell) : (putCell s n x).accesses = s.accesses := rfl
@[simp] theorem putCell_regAccesses (s : State) (n : Nat) (x : Cell) : (putCell s n x).regAccesses = s.regAccesses := rfl
@[simp] theorem putCell_chimes (s : State) (n : Nat) (x : Cell) : (putCell s n x).chimes = s.chimes := rfl
@[simp] theorem putCell_distant (s : State) (n : Nat) (x : Cell) : (putCell s n x).distant = s.distant := rfl
@[simp] theorem putCell_hostWrites (s : State) (n : Nat) (x : Cell) : (putCell s n x).hostWrites = s.hostWrites := rfl
@[simp] theorem putCell_flushes (s : State) (n : Nat) (x : Cell) : (putCell s n x).flushes = s.flushes := rfl
@[simp] theorem putCell_granted (s : State) (n : Nat) (x : Cell) : (putCell s n x).granted = s.granted := rfl
@[simp] theorem putCell_errands (s : State) (n : Nat) (x : Cell) : (putCell s n x).errands = s.errands := rfl
@[simp] theorem putCell_slugs (s : State) (n : Nat) (x : Cell) : (putCell s n x).slugs = s.slugs := rfl
@[simp] theorem putCell_routers (s : State) (n : Nat) (x : Cell) : (putCell s n x).routers = s.routers := rfl
@[simp] theorem putCell_pools (s : State) (n : Nat) (x : Cell) : (putCell s n x).pools = s.pools := rfl
@[simp] theorem putCell_ctl (s : State) (n : Nat) (x : Cell) : (putCell s n x).ctl = s.ctl := rfl
@[simp] theorem putCell_mem (s : State) (n : Nat) (x : Cell) : (putCell s n x).mem = s.mem := rfl
@[simp] theorem putCell_latches (s : State) (n : Nat) (x : Cell) : (putCell s n x).latches = s.latches := rfl
@[simp] theorem putCell_mirror (s : State) (n : Nat) (x : Cell) : (putCell s n x).mirror = s.mirror := rfl
@[simp] theorem putCell_outbox (s : State) (n : Nat) (x : Cell) : (putCell s n x).outbox = s.outbox := rfl
@[simp] theorem putCell_seq (s : State) (n : Nat) (x : Cell) : (putCell s n x).seq = s.seq := rfl
@[simp] theorem putCell_fresh (s : State) (n : Nat) (x : Cell) : (putCell s n x).fresh = s.fresh := rfl

@[simp] theorem modCell_pending (s : State) (n : Nat) (f : Cell → Cell) : (modCell s n f).pending = s.pending := rfl
@[simp] theorem modCell_regs (s : State) (n : Nat) (f : Cell → Cell) : (modCell s n f).regs = s.regs := rfl
@[simp] theorem modCell_time (s : State) (n : Nat) (f : Cell → Cell) : (modCell s n f).time = s.time := rfl
@[simp] theorem modCell_west (s : State) (n : Nat) (f : Cell → Cell) : (modCell s n f).west = s.west := rfl
@[simp] theorem modCell_east (s : State) (n : Nat) (f : Cell → Cell) : (modCell s n f).east = s.east := rfl
@[simp] theorem modCell_instr (s : State) (n : Nat) (f : Cell → Cell) : (modCell s n f).instr = s.instr := rfl
@[simp] theorem modCell_attach (s : State) (n : Nat) (f : Cell → Cell) : (modCell s n f).attach = s.attach := rfl
@[simp] theorem modCell_detach (s : State) (n : Nat) (f : Cell → Cell) : (modCell s n f).detach = s.detach := rfl
@[simp] theorem modCell_ctxs (s : State) (n : Nat) (f : Cell → Cell) : (modCell s n f).ctxs = s.ctxs := rfl
@[simp] theorem modCell_domains (s : State) (n : Nat) (f : Cell → Cell) : (modCell s n f).domains = s.domains := rfl
@[simp] theorem modCell_lines (s : State) (n : Nat) (f : Cell → Cell) : (modCell s n f).lines = s.lines := rfl
@[simp] theorem modCell_routes (s : State) (n : Nat) (f : Cell → Cell) : (modCell s n f).routes = s.routes := rfl
@[simp] theorem modCell_streams (s : State) (n : Nat) (f : Cell → Cell) : (modCell s n f).streams = s.streams := rfl
@[simp] theorem modCell_windows (s : State) (n : Nat) (f : Cell → Cell) : (modCell s n f).windows = s.windows := rfl
@[simp] theorem modCell_peerHeard (s : State) (n : Nat) (f : Cell → Cell) : (modCell s n f).peerHeard = s.peerHeard := rfl
@[simp] theorem modCell_seqHeard (s : State) (n : Nat) (f : Cell → Cell) : (modCell s n f).seqHeard = s.seqHeard := rfl
@[simp] theorem modCell_flights (s : State) (n : Nat) (f : Cell → Cell) : (modCell s n f).flights = s.flights := rfl
@[simp] theorem modCell_orders (s : State) (n : Nat) (f : Cell → Cell) : (modCell s n f).orders = s.orders := rfl
@[simp] theorem modCell_accesses (s : State) (n : Nat) (f : Cell → Cell) : (modCell s n f).accesses = s.accesses := rfl
@[simp] theorem modCell_regAccesses (s : State) (n : Nat) (f : Cell → Cell) : (modCell s n f).regAccesses = s.regAccesses := rfl
@[simp] theorem modCell_chimes (s : State) (n : Nat) (f : Cell → Cell) : (modCell s n f).chimes = s.chimes := rfl
@[simp] theorem modCell_distant (s : State) (n : Nat) (f : Cell → Cell) : (modCell s n f).distant = s.distant := rfl
@[simp] theorem modCell_hostWrites (s : State) (n : Nat) (f : Cell → Cell) : (modCell s n f).hostWrites = s.hostWrites := rfl
@[simp] theorem modCell_flushes (s : State) (n : Nat) (f : Cell → Cell) : (modCell s n f).flushes = s.flushes := rfl
@[simp] theorem modCell_granted (s : State) (n : Nat) (f : Cell → Cell) : (modCell s n f).granted = s.granted := rfl
@[simp] theorem modCell_errands (s : State) (n : Nat) (f : Cell → Cell) : (modCell s n f).errands = s.errands := rfl
@[simp] theorem modCell_slugs (s : State) (n : Nat) (f : Cell → Cell) : (modCell s n f).slugs = s.slugs := rfl
@[simp] theorem modCell_routers (s : State) (n : Nat) (f : Cell → Cell) : (modCell s n f).routers = s.routers := rfl
@[simp] theorem modCell_pools (s : State) (n : Nat) (f : Cell → Cell) : (modCell s n f).pools = s.pools := rfl
@[simp] theorem modCell_ctl (s : State) (n : Nat) (f : Cell → Cell) : (modCell s n f).ctl = s.ctl := rfl
@[simp] theorem modCell_mem (s : State) (n : Nat) (f : Cell → Cell) : (modCell s n f).mem = s.mem := rfl
@[simp] theorem modCell_latches (s : State) (n : Nat) (f : Cell → Cell) : (modCell s n f).latches = s.latches := rfl
@[simp] theorem modCell_mirror (s : State) (n : Nat) (f : Cell → Cell) : (modCell s n f).mirror = s.mirror := rfl
@[simp] theorem modCell_outbox (s : State) (n : Nat) (f : Cell → Cell) : (modCell s n f).outbox = s.outbox := rfl
@[simp] theorem modCell_seq (s : State) (n : Nat) (f : Cell → Cell) : (modCell s n f).seq = s.seq := rfl
@[simp] theorem modCell_fresh (s : State) (n : Nat) (f : Cell → Cell) : (modCell s n f).fresh = s.fresh := rfl

@[simp] theorem modChan_pending (s : State) (n ch : Nat) (f : Chan → Chan) : (modChan s n ch f).pending = s.pending := rfl
@[simp] theorem modChan_regs (s : State) (n ch : Nat) (f : Chan → Chan) : (modChan s n ch f).regs = s.regs := rfl
@[simp] theorem modChan_time (s : State) (n ch : Nat) (f : Chan → Chan) : (modChan s n ch f).time = s.time := rfl
@[simp] theorem modChan_west (s : State) (n ch : Nat) (f : Chan → Chan) : (modChan s n ch f).west = s.west := rfl
@[simp] theorem modChan_east (s : State) (n ch : Nat) (f : Chan → Chan) : (modChan s n ch f).east = s.east := rfl
@[simp] theorem modChan_instr (s : State) (n ch : Nat) (f : Chan → Chan) : (modChan s n ch f).instr = s.instr := rfl
@[simp] theorem modChan_attach (s : State) (n ch : Nat) (f : Chan → Chan) : (modChan s n ch f).attach = s.attach := rfl
@[simp] theorem modChan_detach (s : State) (n ch : Nat) (f : Chan → Chan) : (modChan s n ch f).detach = s.detach := rfl
@[simp] theorem modChan_ctxs (s : State) (n ch : Nat) (f : Chan → Chan) : (modChan s n ch f).ctxs = s.ctxs := rfl
@[simp] theorem modChan_domains (s : State) (n ch : Nat) (f : Chan → Chan) : (modChan s n ch f).domains = s.domains := rfl
@[simp] theorem modChan_lines (s : State) (n ch : Nat) (f : Chan → Chan) : (modChan s n ch f).lines = s.lines := rfl
@[simp] theorem modChan_routes (s : State) (n ch : Nat) (f : Chan → Chan) : (modChan s n ch f).routes = s.routes := rfl
@[simp] theorem modChan_streams (s : State) (n ch : Nat) (f : Chan → Chan) : (modChan s n ch f).streams = s.streams := rfl
@[simp] theorem modChan_windows (s : State) (n ch : Nat) (f : Chan → Chan) : (modChan s n ch f).windows = s.windows := rfl
@[simp] theorem modChan_peerHeard (s : State) (n ch : Nat) (f : Chan → Chan) : (modChan s n ch f).peerHeard = s.peerHeard := rfl
@[simp] theorem modChan_seqHeard (s : State) (n ch : Nat) (f : Chan → Chan) : (modChan s n ch f).seqHeard = s.seqHeard := rfl
@[simp] theorem modChan_flights (s : State) (n ch : Nat) (f : Chan → Chan) : (modChan s n ch f).flights = s.flights := rfl
@[simp] theorem modChan_orders (s : State) (n ch : Nat) (f : Chan → Chan) : (modChan s n ch f).orders = s.orders := rfl
@[simp] theorem modChan_accesses (s : State) (n ch : Nat) (f : Chan → Chan) : (modChan s n ch f).accesses = s.accesses := rfl
@[simp] theorem modChan_regAccesses (s : State) (n ch : Nat) (f : Chan → Chan) : (modChan s n ch f).regAccesses = s.regAccesses := rfl
@[simp] theorem modChan_chimes (s : State) (n ch : Nat) (f : Chan → Chan) : (modChan s n ch f).chimes = s.chimes := rfl
@[simp] theorem modChan_distant (s : State) (n ch : Nat) (f : Chan → Chan) : (modChan s n ch f).distant = s.distant := rfl
@[simp] theorem modChan_hostWrites (s : State) (n ch : Nat) (f : Chan → Chan) : (modChan s n ch f).hostWrites = s.hostWrites := rfl
@[simp] theorem modChan_flushes (s : State) (n ch : Nat) (f : Chan → Chan) : (modChan s n ch f).flushes = s.flushes := rfl
@[simp] theorem modChan_granted (s : State) (n ch : Nat) (f : Chan → Chan) : (modChan s n ch f).granted = s.granted := rfl
@[simp] theorem modChan_errands (s : State) (n ch : Nat) (f : Chan → Chan) : (modChan s n ch f).errands = s.errands := rfl
@[simp] theorem modChan_slugs (s : State) (n ch : Nat) (f : Chan → Chan) : (modChan s n ch f).slugs = s.slugs := rfl
@[simp] theorem modChan_routers (s : State) (n ch : Nat) (f : Chan → Chan) : (modChan s n ch f).routers = s.routers := rfl
@[simp] theorem modChan_pools (s : State) (n ch : Nat) (f : Chan → Chan) : (modChan s n ch f).pools = s.pools := rfl
@[simp] theorem modChan_ctl (s : State) (n ch : Nat) (f : Chan → Chan) : (modChan s n ch f).ctl = s.ctl := rfl
@[simp] theorem modChan_mem (s : State) (n ch : Nat) (f : Chan → Chan) : (modChan s n ch f).mem = s.mem := rfl
@[simp] theorem modChan_latches (s : State) (n ch : Nat) (f : Chan → Chan) : (modChan s n ch f).latches = s.latches := rfl
@[simp] theorem modChan_mirror (s : State) (n ch : Nat) (f : Chan → Chan) : (modChan s n ch f).mirror = s.mirror := rfl
@[simp] theorem modChan_outbox (s : State) (n ch : Nat) (f : Chan → Chan) : (modChan s n ch f).outbox = s.outbox := rfl
@[simp] theorem modChan_seq (s : State) (n ch : Nat) (f : Chan → Chan) : (modChan s n ch f).seq = s.seq := rfl
@[simp] theorem modChan_fresh (s : State) (n ch : Nat) (f : Chan → Chan) : (modChan s n ch f).fresh = s.fresh := rfl

@[simp] theorem modDom_pending (s : State) (d : Nat) (f : Domain → Domain) : (modDom s d f).pending = s.pending := rfl
@[simp] theorem modDom_regs (s : State) (d : Nat) (f : Domain → Domain) : (modDom s d f).regs = s.regs := rfl
@[simp] theorem modDom_time (s : State) (d : Nat) (f : Domain → Domain) : (modDom s d f).time = s.time := rfl
@[simp] theorem modDom_west (s : State) (d : Nat) (f : Domain → Domain) : (modDom s d f).west = s.west := rfl
@[simp] theorem modDom_east (s : State) (d : Nat) (f : Domain → Domain) : (modDom s d f).east = s.east := rfl
@[simp] theorem modDom_instr (s : State) (d : Nat) (f : Domain → Domain) : (modDom s d f).instr = s.instr := rfl
@[simp] theorem modDom_attach (s : State) (d : Nat) (f : Domain → Domain) : (modDom s d f).attach = s.attach := rfl
@[simp] theorem modDom_detach (s : State) (d : Nat) (f : Domain → Domain) : (modDom s d f).detach = s.detach := rfl
@[simp] theorem modDom_ctxs (s : State) (d : Nat) (f : Domain → Domain) : (modDom s d f).ctxs = s.ctxs := rfl
@[simp] theorem modDom_cells (s : State) (d : Nat) (f : Domain → Domain) : (modDom s d f).cells = s.cells := rfl
@[simp] theorem modDom_lines (s : State) (d : Nat) (f : Domain → Domain) : (modDom s d f).lines = s.lines := rfl
@[simp] theorem modDom_routes (s : State) (d : Nat) (f : Domain → Domain) : (modDom s d f).routes = s.routes := rfl
@[simp] theorem modDom_streams (s : State) (d : Nat) (f : Domain → Domain) : (modDom s d f).streams = s.streams := rfl
@[simp] theorem modDom_windows (s : State) (d : Nat) (f : Domain → Domain) : (modDom s d f).windows = s.windows := rfl
@[simp] theorem modDom_peerHeard (s : State) (d : Nat) (f : Domain → Domain) : (modDom s d f).peerHeard = s.peerHeard := rfl
@[simp] theorem modDom_seqHeard (s : State) (d : Nat) (f : Domain → Domain) : (modDom s d f).seqHeard = s.seqHeard := rfl
@[simp] theorem modDom_flights (s : State) (d : Nat) (f : Domain → Domain) : (modDom s d f).flights = s.flights := rfl
@[simp] theorem modDom_orders (s : State) (d : Nat) (f : Domain → Domain) : (modDom s d f).orders = s.orders := rfl
@[simp] theorem modDom_accesses (s : State) (d : Nat) (f : Domain → Domain) : (modDom s d f).accesses = s.accesses := rfl
@[simp] theorem modDom_regAccesses (s : State) (d : Nat) (f : Domain → Domain) : (modDom s d f).regAccesses = s.regAccesses := rfl
@[simp] theorem modDom_chimes (s : State) (d : Nat) (f : Domain → Domain) : (modDom s d f).chimes = s.chimes := rfl
@[simp] theorem modDom_distant (s : State) (d : Nat) (f : Domain → Domain) : (modDom s d f).distant = s.distant := rfl
@[simp] theorem modDom_hostWrites (s : State) (d : Nat) (f : Domain → Domain) : (modDom s d f).hostWrites = s.hostWrites := rfl
@[simp] theorem modDom_flushes (s : State) (d : Nat) (f : Domain → Domain) : (modDom s d f).flushes = s.flushes := rfl
@[simp] theorem modDom_granted (s : State) (d : Nat) (f : Domain → Domain) : (modDom s d f).granted = s.granted := rfl
@[simp] theorem modDom_errands (s : State) (d : Nat) (f : Domain → Domain) : (modDom s d f).errands = s.errands := rfl
@[simp] theorem modDom_slugs (s : State) (d : Nat) (f : Domain → Domain) : (modDom s d f).slugs = s.slugs := rfl
@[simp] theorem modDom_routers (s : State) (d : Nat) (f : Domain → Domain) : (modDom s d f).routers = s.routers := rfl
@[simp] theorem modDom_pools (s : State) (d : Nat) (f : Domain → Domain) : (modDom s d f).pools = s.pools := rfl
@[simp] theorem modDom_ctl (s : State) (d : Nat) (f : Domain → Domain) : (modDom s d f).ctl = s.ctl := rfl
@[simp] theorem modDom_mem (s : State) (d : Nat) (f : Domain → Domain) : (modDom s d f).mem = s.mem := rfl
@[simp] theorem modDom_latches (s : State) (d : Nat) (f : Domain → Domain) : (modDom s d f).latches = s.latches := rfl
@[simp] theorem modDom_mirror (s : State) (d : Nat) (f : Domain → Domain) : (modDom s d f).mirror = s.mirror := rfl
@[simp] theorem modDom_outbox (s : State) (d : Nat) (f : Domain → Domain) : (modDom s d f).outbox = s.outbox := rfl
@[simp] theorem modDom_seq (s : State) (d : Nat) (f : Domain → Domain) : (modDom s d f).seq = s.seq := rfl
@[simp] theorem modDom_fresh (s : State) (d : Nat) (f : Domain → Domain) : (modDom s d f).fresh = s.fresh := rfl

@[simp] theorem modLine_pending (s : State) (n : Nat) (f : Line → Line) : (modLine s n f).pending = s.pending := rfl
@[simp] theorem modLine_regs (s : State) (n : Nat) (f : Line → Line) : (modLine s n f).regs = s.regs := rfl
@[simp] theorem modLine_time (s : State) (n : Nat) (f : Line → Line) : (modLine s n f).time = s.time := rfl
@[simp] theorem modLine_west (s : State) (n : Nat) (f : Line → Line) : (modLine s n f).west = s.west := rfl
@[simp] theorem modLine_east (s : State) (n : Nat) (f : Line → Line) : (modLine s n f).east = s.east := rfl
@[simp] theorem modLine_instr (s : State) (n : Nat) (f : Line → Line) : (modLine s n f).instr = s.instr := rfl
@[simp] theorem modLine_attach (s : State) (n : Nat) (f : Line → Line) : (modLine s n f).attach = s.attach := rfl
@[simp] theorem modLine_detach (s : State) (n : Nat) (f : Line → Line) : (modLine s n f).detach = s.detach := rfl
@[simp] theorem modLine_ctxs (s : State) (n : Nat) (f : Line → Line) : (modLine s n f).ctxs = s.ctxs := rfl
@[simp] theorem modLine_domains (s : State) (n : Nat) (f : Line → Line) : (modLine s n f).domains = s.domains := rfl
@[simp] theorem modLine_cells (s : State) (n : Nat) (f : Line → Line) : (modLine s n f).cells = s.cells := rfl
@[simp] theorem modLine_routes (s : State) (n : Nat) (f : Line → Line) : (modLine s n f).routes = s.routes := rfl
@[simp] theorem modLine_streams (s : State) (n : Nat) (f : Line → Line) : (modLine s n f).streams = s.streams := rfl
@[simp] theorem modLine_windows (s : State) (n : Nat) (f : Line → Line) : (modLine s n f).windows = s.windows := rfl
@[simp] theorem modLine_peerHeard (s : State) (n : Nat) (f : Line → Line) : (modLine s n f).peerHeard = s.peerHeard := rfl
@[simp] theorem modLine_seqHeard (s : State) (n : Nat) (f : Line → Line) : (modLine s n f).seqHeard = s.seqHeard := rfl
@[simp] theorem modLine_flights (s : State) (n : Nat) (f : Line → Line) : (modLine s n f).flights = s.flights := rfl
@[simp] theorem modLine_orders (s : State) (n : Nat) (f : Line → Line) : (modLine s n f).orders = s.orders := rfl
@[simp] theorem modLine_accesses (s : State) (n : Nat) (f : Line → Line) : (modLine s n f).accesses = s.accesses := rfl
@[simp] theorem modLine_regAccesses (s : State) (n : Nat) (f : Line → Line) : (modLine s n f).regAccesses = s.regAccesses := rfl
@[simp] theorem modLine_chimes (s : State) (n : Nat) (f : Line → Line) : (modLine s n f).chimes = s.chimes := rfl
@[simp] theorem modLine_distant (s : State) (n : Nat) (f : Line → Line) : (modLine s n f).distant = s.distant := rfl
@[simp] theorem modLine_hostWrites (s : State) (n : Nat) (f : Line → Line) : (modLine s n f).hostWrites = s.hostWrites := rfl
@[simp] theorem modLine_flushes (s : State) (n : Nat) (f : Line → Line) : (modLine s n f).flushes = s.flushes := rfl
@[simp] theorem modLine_granted (s : State) (n : Nat) (f : Line → Line) : (modLine s n f).granted = s.granted := rfl
@[simp] theorem modLine_errands (s : State) (n : Nat) (f : Line → Line) : (modLine s n f).errands = s.errands := rfl
@[simp] theorem modLine_slugs (s : State) (n : Nat) (f : Line → Line) : (modLine s n f).slugs = s.slugs := rfl
@[simp] theorem modLine_routers (s : State) (n : Nat) (f : Line → Line) : (modLine s n f).routers = s.routers := rfl
@[simp] theorem modLine_pools (s : State) (n : Nat) (f : Line → Line) : (modLine s n f).pools = s.pools := rfl
@[simp] theorem modLine_ctl (s : State) (n : Nat) (f : Line → Line) : (modLine s n f).ctl = s.ctl := rfl
@[simp] theorem modLine_mem (s : State) (n : Nat) (f : Line → Line) : (modLine s n f).mem = s.mem := rfl
@[simp] theorem modLine_latches (s : State) (n : Nat) (f : Line → Line) : (modLine s n f).latches = s.latches := rfl
@[simp] theorem modLine_mirror (s : State) (n : Nat) (f : Line → Line) : (modLine s n f).mirror = s.mirror := rfl
@[simp] theorem modLine_outbox (s : State) (n : Nat) (f : Line → Line) : (modLine s n f).outbox = s.outbox := rfl
@[simp] theorem modLine_seq (s : State) (n : Nat) (f : Line → Line) : (modLine s n f).seq = s.seq := rfl
@[simp] theorem modLine_fresh (s : State) (n : Nat) (f : Line → Line) : (modLine s n f).fresh = s.fresh := rfl

@[simp] theorem modRoute_pending (s : State) (c : Nat) (f : Route → Route) : (modRoute s c f).pending = s.pending := rfl
@[simp] theorem modRoute_regs (s : State) (c : Nat) (f : Route → Route) : (modRoute s c f).regs = s.regs := rfl
@[simp] theorem modRoute_time (s : State) (c : Nat) (f : Route → Route) : (modRoute s c f).time = s.time := rfl
@[simp] theorem modRoute_west (s : State) (c : Nat) (f : Route → Route) : (modRoute s c f).west = s.west := rfl
@[simp] theorem modRoute_east (s : State) (c : Nat) (f : Route → Route) : (modRoute s c f).east = s.east := rfl
@[simp] theorem modRoute_instr (s : State) (c : Nat) (f : Route → Route) : (modRoute s c f).instr = s.instr := rfl
@[simp] theorem modRoute_attach (s : State) (c : Nat) (f : Route → Route) : (modRoute s c f).attach = s.attach := rfl
@[simp] theorem modRoute_detach (s : State) (c : Nat) (f : Route → Route) : (modRoute s c f).detach = s.detach := rfl
@[simp] theorem modRoute_ctxs (s : State) (c : Nat) (f : Route → Route) : (modRoute s c f).ctxs = s.ctxs := rfl
@[simp] theorem modRoute_domains (s : State) (c : Nat) (f : Route → Route) : (modRoute s c f).domains = s.domains := rfl
@[simp] theorem modRoute_cells (s : State) (c : Nat) (f : Route → Route) : (modRoute s c f).cells = s.cells := rfl
@[simp] theorem modRoute_lines (s : State) (c : Nat) (f : Route → Route) : (modRoute s c f).lines = s.lines := rfl
@[simp] theorem modRoute_streams (s : State) (c : Nat) (f : Route → Route) : (modRoute s c f).streams = s.streams := rfl
@[simp] theorem modRoute_windows (s : State) (c : Nat) (f : Route → Route) : (modRoute s c f).windows = s.windows := rfl
@[simp] theorem modRoute_peerHeard (s : State) (c : Nat) (f : Route → Route) : (modRoute s c f).peerHeard = s.peerHeard := rfl
@[simp] theorem modRoute_seqHeard (s : State) (c : Nat) (f : Route → Route) : (modRoute s c f).seqHeard = s.seqHeard := rfl
@[simp] theorem modRoute_flights (s : State) (c : Nat) (f : Route → Route) : (modRoute s c f).flights = s.flights := rfl
@[simp] theorem modRoute_orders (s : State) (c : Nat) (f : Route → Route) : (modRoute s c f).orders = s.orders := rfl
@[simp] theorem modRoute_accesses (s : State) (c : Nat) (f : Route → Route) : (modRoute s c f).accesses = s.accesses := rfl
@[simp] theorem modRoute_regAccesses (s : State) (c : Nat) (f : Route → Route) : (modRoute s c f).regAccesses = s.regAccesses := rfl
@[simp] theorem modRoute_chimes (s : State) (c : Nat) (f : Route → Route) : (modRoute s c f).chimes = s.chimes := rfl
@[simp] theorem modRoute_distant (s : State) (c : Nat) (f : Route → Route) : (modRoute s c f).distant = s.distant := rfl
@[simp] theorem modRoute_hostWrites (s : State) (c : Nat) (f : Route → Route) : (modRoute s c f).hostWrites = s.hostWrites := rfl
@[simp] theorem modRoute_flushes (s : State) (c : Nat) (f : Route → Route) : (modRoute s c f).flushes = s.flushes := rfl
@[simp] theorem modRoute_granted (s : State) (c : Nat) (f : Route → Route) : (modRoute s c f).granted = s.granted := rfl
@[simp] theorem modRoute_errands (s : State) (c : Nat) (f : Route → Route) : (modRoute s c f).errands = s.errands := rfl
@[simp] theorem modRoute_slugs (s : State) (c : Nat) (f : Route → Route) : (modRoute s c f).slugs = s.slugs := rfl
@[simp] theorem modRoute_routers (s : State) (c : Nat) (f : Route → Route) : (modRoute s c f).routers = s.routers := rfl
@[simp] theorem modRoute_pools (s : State) (c : Nat) (f : Route → Route) : (modRoute s c f).pools = s.pools := rfl
@[simp] theorem modRoute_ctl (s : State) (c : Nat) (f : Route → Route) : (modRoute s c f).ctl = s.ctl := rfl
@[simp] theorem modRoute_mem (s : State) (c : Nat) (f : Route → Route) : (modRoute s c f).mem = s.mem := rfl
@[simp] theorem modRoute_latches (s : State) (c : Nat) (f : Route → Route) : (modRoute s c f).latches = s.latches := rfl
@[simp] theorem modRoute_mirror (s : State) (c : Nat) (f : Route → Route) : (modRoute s c f).mirror = s.mirror := rfl
@[simp] theorem modRoute_outbox (s : State) (c : Nat) (f : Route → Route) : (modRoute s c f).outbox = s.outbox := rfl
@[simp] theorem modRoute_seq (s : State) (c : Nat) (f : Route → Route) : (modRoute s c f).seq = s.seq := rfl
@[simp] theorem modRoute_fresh (s : State) (c : Nat) (f : Route → Route) : (modRoute s c f).fresh = s.fresh := rfl

@[simp] theorem modStream_pending (s : State) (c : Nat) (f : OutStream → OutStream) : (modStream s c f).pending = s.pending := rfl
@[simp] theorem modStream_regs (s : State) (c : Nat) (f : OutStream → OutStream) : (modStream s c f).regs = s.regs := rfl
@[simp] theorem modStream_time (s : State) (c : Nat) (f : OutStream → OutStream) : (modStream s c f).time = s.time := rfl
@[simp] theorem modStream_west (s : State) (c : Nat) (f : OutStream → OutStream) : (modStream s c f).west = s.west := rfl
@[simp] theorem modStream_east (s : State) (c : Nat) (f : OutStream → OutStream) : (modStream s c f).east = s.east := rfl
@[simp] theorem modStream_instr (s : State) (c : Nat) (f : OutStream → OutStream) : (modStream s c f).instr = s.instr := rfl
@[simp] theorem modStream_attach (s : State) (c : Nat) (f : OutStream → OutStream) : (modStream s c f).attach = s.attach := rfl
@[simp] theorem modStream_detach (s : State) (c : Nat) (f : OutStream → OutStream) : (modStream s c f).detach = s.detach := rfl
@[simp] theorem modStream_ctxs (s : State) (c : Nat) (f : OutStream → OutStream) : (modStream s c f).ctxs = s.ctxs := rfl
@[simp] theorem modStream_domains (s : State) (c : Nat) (f : OutStream → OutStream) : (modStream s c f).domains = s.domains := rfl
@[simp] theorem modStream_cells (s : State) (c : Nat) (f : OutStream → OutStream) : (modStream s c f).cells = s.cells := rfl
@[simp] theorem modStream_lines (s : State) (c : Nat) (f : OutStream → OutStream) : (modStream s c f).lines = s.lines := rfl
@[simp] theorem modStream_routes (s : State) (c : Nat) (f : OutStream → OutStream) : (modStream s c f).routes = s.routes := rfl
@[simp] theorem modStream_windows (s : State) (c : Nat) (f : OutStream → OutStream) : (modStream s c f).windows = s.windows := rfl
@[simp] theorem modStream_peerHeard (s : State) (c : Nat) (f : OutStream → OutStream) : (modStream s c f).peerHeard = s.peerHeard := rfl
@[simp] theorem modStream_seqHeard (s : State) (c : Nat) (f : OutStream → OutStream) : (modStream s c f).seqHeard = s.seqHeard := rfl
@[simp] theorem modStream_flights (s : State) (c : Nat) (f : OutStream → OutStream) : (modStream s c f).flights = s.flights := rfl
@[simp] theorem modStream_orders (s : State) (c : Nat) (f : OutStream → OutStream) : (modStream s c f).orders = s.orders := rfl
@[simp] theorem modStream_accesses (s : State) (c : Nat) (f : OutStream → OutStream) : (modStream s c f).accesses = s.accesses := rfl
@[simp] theorem modStream_regAccesses (s : State) (c : Nat) (f : OutStream → OutStream) : (modStream s c f).regAccesses = s.regAccesses := rfl
@[simp] theorem modStream_chimes (s : State) (c : Nat) (f : OutStream → OutStream) : (modStream s c f).chimes = s.chimes := rfl
@[simp] theorem modStream_distant (s : State) (c : Nat) (f : OutStream → OutStream) : (modStream s c f).distant = s.distant := rfl
@[simp] theorem modStream_hostWrites (s : State) (c : Nat) (f : OutStream → OutStream) : (modStream s c f).hostWrites = s.hostWrites := rfl
@[simp] theorem modStream_flushes (s : State) (c : Nat) (f : OutStream → OutStream) : (modStream s c f).flushes = s.flushes := rfl
@[simp] theorem modStream_granted (s : State) (c : Nat) (f : OutStream → OutStream) : (modStream s c f).granted = s.granted := rfl
@[simp] theorem modStream_errands (s : State) (c : Nat) (f : OutStream → OutStream) : (modStream s c f).errands = s.errands := rfl
@[simp] theorem modStream_slugs (s : State) (c : Nat) (f : OutStream → OutStream) : (modStream s c f).slugs = s.slugs := rfl
@[simp] theorem modStream_routers (s : State) (c : Nat) (f : OutStream → OutStream) : (modStream s c f).routers = s.routers := rfl
@[simp] theorem modStream_pools (s : State) (c : Nat) (f : OutStream → OutStream) : (modStream s c f).pools = s.pools := rfl
@[simp] theorem modStream_ctl (s : State) (c : Nat) (f : OutStream → OutStream) : (modStream s c f).ctl = s.ctl := rfl
@[simp] theorem modStream_mem (s : State) (c : Nat) (f : OutStream → OutStream) : (modStream s c f).mem = s.mem := rfl
@[simp] theorem modStream_latches (s : State) (c : Nat) (f : OutStream → OutStream) : (modStream s c f).latches = s.latches := rfl
@[simp] theorem modStream_mirror (s : State) (c : Nat) (f : OutStream → OutStream) : (modStream s c f).mirror = s.mirror := rfl
@[simp] theorem modStream_outbox (s : State) (c : Nat) (f : OutStream → OutStream) : (modStream s c f).outbox = s.outbox := rfl
@[simp] theorem modStream_seq (s : State) (c : Nat) (f : OutStream → OutStream) : (modStream s c f).seq = s.seq := rfl
@[simp] theorem modStream_fresh (s : State) (c : Nat) (f : OutStream → OutStream) : (modStream s c f).fresh = s.fresh := rfl

@[simp] theorem modFlight_pending (s : State) (id : Nat) (f : Flight → Flight) : (modFlight s id f).pending = s.pending := rfl
@[simp] theorem modFlight_regs (s : State) (id : Nat) (f : Flight → Flight) : (modFlight s id f).regs = s.regs := rfl
@[simp] theorem modFlight_time (s : State) (id : Nat) (f : Flight → Flight) : (modFlight s id f).time = s.time := rfl
@[simp] theorem modFlight_west (s : State) (id : Nat) (f : Flight → Flight) : (modFlight s id f).west = s.west := rfl
@[simp] theorem modFlight_east (s : State) (id : Nat) (f : Flight → Flight) : (modFlight s id f).east = s.east := rfl
@[simp] theorem modFlight_instr (s : State) (id : Nat) (f : Flight → Flight) : (modFlight s id f).instr = s.instr := rfl
@[simp] theorem modFlight_attach (s : State) (id : Nat) (f : Flight → Flight) : (modFlight s id f).attach = s.attach := rfl
@[simp] theorem modFlight_detach (s : State) (id : Nat) (f : Flight → Flight) : (modFlight s id f).detach = s.detach := rfl
@[simp] theorem modFlight_ctxs (s : State) (id : Nat) (f : Flight → Flight) : (modFlight s id f).ctxs = s.ctxs := rfl
@[simp] theorem modFlight_domains (s : State) (id : Nat) (f : Flight → Flight) : (modFlight s id f).domains = s.domains := rfl
@[simp] theorem modFlight_cells (s : State) (id : Nat) (f : Flight → Flight) : (modFlight s id f).cells = s.cells := rfl
@[simp] theorem modFlight_lines (s : State) (id : Nat) (f : Flight → Flight) : (modFlight s id f).lines = s.lines := rfl
@[simp] theorem modFlight_routes (s : State) (id : Nat) (f : Flight → Flight) : (modFlight s id f).routes = s.routes := rfl
@[simp] theorem modFlight_streams (s : State) (id : Nat) (f : Flight → Flight) : (modFlight s id f).streams = s.streams := rfl
@[simp] theorem modFlight_windows (s : State) (id : Nat) (f : Flight → Flight) : (modFlight s id f).windows = s.windows := rfl
@[simp] theorem modFlight_peerHeard (s : State) (id : Nat) (f : Flight → Flight) : (modFlight s id f).peerHeard = s.peerHeard := rfl
@[simp] theorem modFlight_seqHeard (s : State) (id : Nat) (f : Flight → Flight) : (modFlight s id f).seqHeard = s.seqHeard := rfl
@[simp] theorem modFlight_orders (s : State) (id : Nat) (f : Flight → Flight) : (modFlight s id f).orders = s.orders := rfl
@[simp] theorem modFlight_accesses (s : State) (id : Nat) (f : Flight → Flight) : (modFlight s id f).accesses = s.accesses := rfl
@[simp] theorem modFlight_regAccesses (s : State) (id : Nat) (f : Flight → Flight) : (modFlight s id f).regAccesses = s.regAccesses := rfl
@[simp] theorem modFlight_chimes (s : State) (id : Nat) (f : Flight → Flight) : (modFlight s id f).chimes = s.chimes := rfl
@[simp] theorem modFlight_distant (s : State) (id : Nat) (f : Flight → Flight) : (modFlight s id f).distant = s.distant := rfl
@[simp] theorem modFlight_hostWrites (s : State) (id : Nat) (f : Flight → Flight) : (modFlight s id f).hostWrites = s.hostWrites := rfl
@[simp] theorem modFlight_flushes (s : State) (id : Nat) (f : Flight → Flight) : (modFlight s id f).flushes = s.flushes := rfl
@[simp] theorem modFlight_granted (s : State) (id : Nat) (f : Flight → Flight) : (modFlight s id f).granted = s.granted := rfl
@[simp] theorem modFlight_errands (s : State) (id : Nat) (f : Flight → Flight) : (modFlight s id f).errands = s.errands := rfl
@[simp] theorem modFlight_slugs (s : State) (id : Nat) (f : Flight → Flight) : (modFlight s id f).slugs = s.slugs := rfl
@[simp] theorem modFlight_routers (s : State) (id : Nat) (f : Flight → Flight) : (modFlight s id f).routers = s.routers := rfl
@[simp] theorem modFlight_pools (s : State) (id : Nat) (f : Flight → Flight) : (modFlight s id f).pools = s.pools := rfl
@[simp] theorem modFlight_ctl (s : State) (id : Nat) (f : Flight → Flight) : (modFlight s id f).ctl = s.ctl := rfl
@[simp] theorem modFlight_mem (s : State) (id : Nat) (f : Flight → Flight) : (modFlight s id f).mem = s.mem := rfl
@[simp] theorem modFlight_latches (s : State) (id : Nat) (f : Flight → Flight) : (modFlight s id f).latches = s.latches := rfl
@[simp] theorem modFlight_mirror (s : State) (id : Nat) (f : Flight → Flight) : (modFlight s id f).mirror = s.mirror := rfl
@[simp] theorem modFlight_outbox (s : State) (id : Nat) (f : Flight → Flight) : (modFlight s id f).outbox = s.outbox := rfl
@[simp] theorem modFlight_seq (s : State) (id : Nat) (f : Flight → Flight) : (modFlight s id f).seq = s.seq := rfl
@[simp] theorem modFlight_fresh (s : State) (id : Nat) (f : Flight → Flight) : (modFlight s id f).fresh = s.fresh := rfl

@[simp] theorem modOrder_pending (s : State) (insn cell : Nat) (f : Order → Order) : (modOrder s insn cell f).pending = s.pending := rfl
@[simp] theorem modOrder_regs (s : State) (insn cell : Nat) (f : Order → Order) : (modOrder s insn cell f).regs = s.regs := rfl
@[simp] theorem modOrder_time (s : State) (insn cell : Nat) (f : Order → Order) : (modOrder s insn cell f).time = s.time := rfl
@[simp] theorem modOrder_west (s : State) (insn cell : Nat) (f : Order → Order) : (modOrder s insn cell f).west = s.west := rfl
@[simp] theorem modOrder_east (s : State) (insn cell : Nat) (f : Order → Order) : (modOrder s insn cell f).east = s.east := rfl
@[simp] theorem modOrder_instr (s : State) (insn cell : Nat) (f : Order → Order) : (modOrder s insn cell f).instr = s.instr := rfl
@[simp] theorem modOrder_attach (s : State) (insn cell : Nat) (f : Order → Order) : (modOrder s insn cell f).attach = s.attach := rfl
@[simp] theorem modOrder_detach (s : State) (insn cell : Nat) (f : Order → Order) : (modOrder s insn cell f).detach = s.detach := rfl
@[simp] theorem modOrder_ctxs (s : State) (insn cell : Nat) (f : Order → Order) : (modOrder s insn cell f).ctxs = s.ctxs := rfl
@[simp] theorem modOrder_domains (s : State) (insn cell : Nat) (f : Order → Order) : (modOrder s insn cell f).domains = s.domains := rfl
@[simp] theorem modOrder_cells (s : State) (insn cell : Nat) (f : Order → Order) : (modOrder s insn cell f).cells = s.cells := rfl
@[simp] theorem modOrder_lines (s : State) (insn cell : Nat) (f : Order → Order) : (modOrder s insn cell f).lines = s.lines := rfl
@[simp] theorem modOrder_routes (s : State) (insn cell : Nat) (f : Order → Order) : (modOrder s insn cell f).routes = s.routes := rfl
@[simp] theorem modOrder_streams (s : State) (insn cell : Nat) (f : Order → Order) : (modOrder s insn cell f).streams = s.streams := rfl
@[simp] theorem modOrder_windows (s : State) (insn cell : Nat) (f : Order → Order) : (modOrder s insn cell f).windows = s.windows := rfl
@[simp] theorem modOrder_peerHeard (s : State) (insn cell : Nat) (f : Order → Order) : (modOrder s insn cell f).peerHeard = s.peerHeard := rfl
@[simp] theorem modOrder_seqHeard (s : State) (insn cell : Nat) (f : Order → Order) : (modOrder s insn cell f).seqHeard = s.seqHeard := rfl
@[simp] theorem modOrder_flights (s : State) (insn cell : Nat) (f : Order → Order) : (modOrder s insn cell f).flights = s.flights := rfl
@[simp] theorem modOrder_accesses (s : State) (insn cell : Nat) (f : Order → Order) : (modOrder s insn cell f).accesses = s.accesses := rfl
@[simp] theorem modOrder_regAccesses (s : State) (insn cell : Nat) (f : Order → Order) : (modOrder s insn cell f).regAccesses = s.regAccesses := rfl
@[simp] theorem modOrder_chimes (s : State) (insn cell : Nat) (f : Order → Order) : (modOrder s insn cell f).chimes = s.chimes := rfl
@[simp] theorem modOrder_distant (s : State) (insn cell : Nat) (f : Order → Order) : (modOrder s insn cell f).distant = s.distant := rfl
@[simp] theorem modOrder_hostWrites (s : State) (insn cell : Nat) (f : Order → Order) : (modOrder s insn cell f).hostWrites = s.hostWrites := rfl
@[simp] theorem modOrder_flushes (s : State) (insn cell : Nat) (f : Order → Order) : (modOrder s insn cell f).flushes = s.flushes := rfl
@[simp] theorem modOrder_granted (s : State) (insn cell : Nat) (f : Order → Order) : (modOrder s insn cell f).granted = s.granted := rfl
@[simp] theorem modOrder_errands (s : State) (insn cell : Nat) (f : Order → Order) : (modOrder s insn cell f).errands = s.errands := rfl
@[simp] theorem modOrder_slugs (s : State) (insn cell : Nat) (f : Order → Order) : (modOrder s insn cell f).slugs = s.slugs := rfl
@[simp] theorem modOrder_routers (s : State) (insn cell : Nat) (f : Order → Order) : (modOrder s insn cell f).routers = s.routers := rfl
@[simp] theorem modOrder_pools (s : State) (insn cell : Nat) (f : Order → Order) : (modOrder s insn cell f).pools = s.pools := rfl
@[simp] theorem modOrder_ctl (s : State) (insn cell : Nat) (f : Order → Order) : (modOrder s insn cell f).ctl = s.ctl := rfl
@[simp] theorem modOrder_mem (s : State) (insn cell : Nat) (f : Order → Order) : (modOrder s insn cell f).mem = s.mem := rfl
@[simp] theorem modOrder_latches (s : State) (insn cell : Nat) (f : Order → Order) : (modOrder s insn cell f).latches = s.latches := rfl
@[simp] theorem modOrder_mirror (s : State) (insn cell : Nat) (f : Order → Order) : (modOrder s insn cell f).mirror = s.mirror := rfl
@[simp] theorem modOrder_outbox (s : State) (insn cell : Nat) (f : Order → Order) : (modOrder s insn cell f).outbox = s.outbox := rfl
@[simp] theorem modOrder_seq (s : State) (insn cell : Nat) (f : Order → Order) : (modOrder s insn cell f).seq = s.seq := rfl
@[simp] theorem modOrder_fresh (s : State) (insn cell : Nat) (f : Order → Order) : (modOrder s insn cell f).fresh = s.fresh := rfl

@[simp] theorem modOrders_pending (s : State) (insn : Nat) (f : Order → Order) : (modOrders s insn f).pending = s.pending := rfl
@[simp] theorem modOrders_regs (s : State) (insn : Nat) (f : Order → Order) : (modOrders s insn f).regs = s.regs := rfl
@[simp] theorem modOrders_time (s : State) (insn : Nat) (f : Order → Order) : (modOrders s insn f).time = s.time := rfl
@[simp] theorem modOrders_west (s : State) (insn : Nat) (f : Order → Order) : (modOrders s insn f).west = s.west := rfl
@[simp] theorem modOrders_east (s : State) (insn : Nat) (f : Order → Order) : (modOrders s insn f).east = s.east := rfl
@[simp] theorem modOrders_instr (s : State) (insn : Nat) (f : Order → Order) : (modOrders s insn f).instr = s.instr := rfl
@[simp] theorem modOrders_attach (s : State) (insn : Nat) (f : Order → Order) : (modOrders s insn f).attach = s.attach := rfl
@[simp] theorem modOrders_detach (s : State) (insn : Nat) (f : Order → Order) : (modOrders s insn f).detach = s.detach := rfl
@[simp] theorem modOrders_ctxs (s : State) (insn : Nat) (f : Order → Order) : (modOrders s insn f).ctxs = s.ctxs := rfl
@[simp] theorem modOrders_domains (s : State) (insn : Nat) (f : Order → Order) : (modOrders s insn f).domains = s.domains := rfl
@[simp] theorem modOrders_cells (s : State) (insn : Nat) (f : Order → Order) : (modOrders s insn f).cells = s.cells := rfl
@[simp] theorem modOrders_lines (s : State) (insn : Nat) (f : Order → Order) : (modOrders s insn f).lines = s.lines := rfl
@[simp] theorem modOrders_routes (s : State) (insn : Nat) (f : Order → Order) : (modOrders s insn f).routes = s.routes := rfl
@[simp] theorem modOrders_streams (s : State) (insn : Nat) (f : Order → Order) : (modOrders s insn f).streams = s.streams := rfl
@[simp] theorem modOrders_windows (s : State) (insn : Nat) (f : Order → Order) : (modOrders s insn f).windows = s.windows := rfl
@[simp] theorem modOrders_peerHeard (s : State) (insn : Nat) (f : Order → Order) : (modOrders s insn f).peerHeard = s.peerHeard := rfl
@[simp] theorem modOrders_seqHeard (s : State) (insn : Nat) (f : Order → Order) : (modOrders s insn f).seqHeard = s.seqHeard := rfl
@[simp] theorem modOrders_flights (s : State) (insn : Nat) (f : Order → Order) : (modOrders s insn f).flights = s.flights := rfl
@[simp] theorem modOrders_accesses (s : State) (insn : Nat) (f : Order → Order) : (modOrders s insn f).accesses = s.accesses := rfl
@[simp] theorem modOrders_regAccesses (s : State) (insn : Nat) (f : Order → Order) : (modOrders s insn f).regAccesses = s.regAccesses := rfl
@[simp] theorem modOrders_chimes (s : State) (insn : Nat) (f : Order → Order) : (modOrders s insn f).chimes = s.chimes := rfl
@[simp] theorem modOrders_distant (s : State) (insn : Nat) (f : Order → Order) : (modOrders s insn f).distant = s.distant := rfl
@[simp] theorem modOrders_hostWrites (s : State) (insn : Nat) (f : Order → Order) : (modOrders s insn f).hostWrites = s.hostWrites := rfl
@[simp] theorem modOrders_flushes (s : State) (insn : Nat) (f : Order → Order) : (modOrders s insn f).flushes = s.flushes := rfl
@[simp] theorem modOrders_granted (s : State) (insn : Nat) (f : Order → Order) : (modOrders s insn f).granted = s.granted := rfl
@[simp] theorem modOrders_errands (s : State) (insn : Nat) (f : Order → Order) : (modOrders s insn f).errands = s.errands := rfl
@[simp] theorem modOrders_slugs (s : State) (insn : Nat) (f : Order → Order) : (modOrders s insn f).slugs = s.slugs := rfl
@[simp] theorem modOrders_routers (s : State) (insn : Nat) (f : Order → Order) : (modOrders s insn f).routers = s.routers := rfl
@[simp] theorem modOrders_pools (s : State) (insn : Nat) (f : Order → Order) : (modOrders s insn f).pools = s.pools := rfl
@[simp] theorem modOrders_ctl (s : State) (insn : Nat) (f : Order → Order) : (modOrders s insn f).ctl = s.ctl := rfl
@[simp] theorem modOrders_mem (s : State) (insn : Nat) (f : Order → Order) : (modOrders s insn f).mem = s.mem := rfl
@[simp] theorem modOrders_latches (s : State) (insn : Nat) (f : Order → Order) : (modOrders s insn f).latches = s.latches := rfl
@[simp] theorem modOrders_mirror (s : State) (insn : Nat) (f : Order → Order) : (modOrders s insn f).mirror = s.mirror := rfl
@[simp] theorem modOrders_outbox (s : State) (insn : Nat) (f : Order → Order) : (modOrders s insn f).outbox = s.outbox := rfl
@[simp] theorem modOrders_seq (s : State) (insn : Nat) (f : Order → Order) : (modOrders s insn f).seq = s.seq := rfl
@[simp] theorem modOrders_fresh (s : State) (insn : Nat) (f : Order → Order) : (modOrders s insn f).fresh = s.fresh := rfl

@[simp] theorem modPool_pending (s : State) (id : Nat) (f : Pool → Pool) : (modPool s id f).pending = s.pending := rfl
@[simp] theorem modPool_regs (s : State) (id : Nat) (f : Pool → Pool) : (modPool s id f).regs = s.regs := rfl
@[simp] theorem modPool_time (s : State) (id : Nat) (f : Pool → Pool) : (modPool s id f).time = s.time := rfl
@[simp] theorem modPool_west (s : State) (id : Nat) (f : Pool → Pool) : (modPool s id f).west = s.west := rfl
@[simp] theorem modPool_east (s : State) (id : Nat) (f : Pool → Pool) : (modPool s id f).east = s.east := rfl
@[simp] theorem modPool_instr (s : State) (id : Nat) (f : Pool → Pool) : (modPool s id f).instr = s.instr := rfl
@[simp] theorem modPool_attach (s : State) (id : Nat) (f : Pool → Pool) : (modPool s id f).attach = s.attach := rfl
@[simp] theorem modPool_detach (s : State) (id : Nat) (f : Pool → Pool) : (modPool s id f).detach = s.detach := rfl
@[simp] theorem modPool_ctxs (s : State) (id : Nat) (f : Pool → Pool) : (modPool s id f).ctxs = s.ctxs := rfl
@[simp] theorem modPool_domains (s : State) (id : Nat) (f : Pool → Pool) : (modPool s id f).domains = s.domains := rfl
@[simp] theorem modPool_cells (s : State) (id : Nat) (f : Pool → Pool) : (modPool s id f).cells = s.cells := rfl
@[simp] theorem modPool_lines (s : State) (id : Nat) (f : Pool → Pool) : (modPool s id f).lines = s.lines := rfl
@[simp] theorem modPool_routes (s : State) (id : Nat) (f : Pool → Pool) : (modPool s id f).routes = s.routes := rfl
@[simp] theorem modPool_streams (s : State) (id : Nat) (f : Pool → Pool) : (modPool s id f).streams = s.streams := rfl
@[simp] theorem modPool_windows (s : State) (id : Nat) (f : Pool → Pool) : (modPool s id f).windows = s.windows := rfl
@[simp] theorem modPool_peerHeard (s : State) (id : Nat) (f : Pool → Pool) : (modPool s id f).peerHeard = s.peerHeard := rfl
@[simp] theorem modPool_seqHeard (s : State) (id : Nat) (f : Pool → Pool) : (modPool s id f).seqHeard = s.seqHeard := rfl
@[simp] theorem modPool_flights (s : State) (id : Nat) (f : Pool → Pool) : (modPool s id f).flights = s.flights := rfl
@[simp] theorem modPool_orders (s : State) (id : Nat) (f : Pool → Pool) : (modPool s id f).orders = s.orders := rfl
@[simp] theorem modPool_accesses (s : State) (id : Nat) (f : Pool → Pool) : (modPool s id f).accesses = s.accesses := rfl
@[simp] theorem modPool_regAccesses (s : State) (id : Nat) (f : Pool → Pool) : (modPool s id f).regAccesses = s.regAccesses := rfl
@[simp] theorem modPool_chimes (s : State) (id : Nat) (f : Pool → Pool) : (modPool s id f).chimes = s.chimes := rfl
@[simp] theorem modPool_distant (s : State) (id : Nat) (f : Pool → Pool) : (modPool s id f).distant = s.distant := rfl
@[simp] theorem modPool_hostWrites (s : State) (id : Nat) (f : Pool → Pool) : (modPool s id f).hostWrites = s.hostWrites := rfl
@[simp] theorem modPool_flushes (s : State) (id : Nat) (f : Pool → Pool) : (modPool s id f).flushes = s.flushes := rfl
@[simp] theorem modPool_granted (s : State) (id : Nat) (f : Pool → Pool) : (modPool s id f).granted = s.granted := rfl
@[simp] theorem modPool_errands (s : State) (id : Nat) (f : Pool → Pool) : (modPool s id f).errands = s.errands := rfl
@[simp] theorem modPool_slugs (s : State) (id : Nat) (f : Pool → Pool) : (modPool s id f).slugs = s.slugs := rfl
@[simp] theorem modPool_routers (s : State) (id : Nat) (f : Pool → Pool) : (modPool s id f).routers = s.routers := rfl
@[simp] theorem modPool_ctl (s : State) (id : Nat) (f : Pool → Pool) : (modPool s id f).ctl = s.ctl := rfl
@[simp] theorem modPool_mem (s : State) (id : Nat) (f : Pool → Pool) : (modPool s id f).mem = s.mem := rfl
@[simp] theorem modPool_latches (s : State) (id : Nat) (f : Pool → Pool) : (modPool s id f).latches = s.latches := rfl
@[simp] theorem modPool_mirror (s : State) (id : Nat) (f : Pool → Pool) : (modPool s id f).mirror = s.mirror := rfl
@[simp] theorem modPool_outbox (s : State) (id : Nat) (f : Pool → Pool) : (modPool s id f).outbox = s.outbox := rfl
@[simp] theorem modPool_seq (s : State) (id : Nat) (f : Pool → Pool) : (modPool s id f).seq = s.seq := rfl
@[simp] theorem modPool_fresh (s : State) (id : Nat) (f : Pool → Pool) : (modPool s id f).fresh = s.fresh := rfl

@[simp] theorem send_pending (s : State) (vc src dst : Nat) (b : Body) : (send s vc src dst b).pending = s.pending := rfl
@[simp] theorem send_regs (s : State) (vc src dst : Nat) (b : Body) : (send s vc src dst b).regs = s.regs := rfl
@[simp] theorem send_time (s : State) (vc src dst : Nat) (b : Body) : (send s vc src dst b).time = s.time := rfl
@[simp] theorem send_west (s : State) (vc src dst : Nat) (b : Body) : (send s vc src dst b).west = s.west := rfl
@[simp] theorem send_east (s : State) (vc src dst : Nat) (b : Body) : (send s vc src dst b).east = s.east := rfl
@[simp] theorem send_instr (s : State) (vc src dst : Nat) (b : Body) : (send s vc src dst b).instr = s.instr := rfl
@[simp] theorem send_attach (s : State) (vc src dst : Nat) (b : Body) : (send s vc src dst b).attach = s.attach := rfl
@[simp] theorem send_detach (s : State) (vc src dst : Nat) (b : Body) : (send s vc src dst b).detach = s.detach := rfl
@[simp] theorem send_ctxs (s : State) (vc src dst : Nat) (b : Body) : (send s vc src dst b).ctxs = s.ctxs := rfl
@[simp] theorem send_domains (s : State) (vc src dst : Nat) (b : Body) : (send s vc src dst b).domains = s.domains := rfl
@[simp] theorem send_cells (s : State) (vc src dst : Nat) (b : Body) : (send s vc src dst b).cells = s.cells := rfl
@[simp] theorem send_lines (s : State) (vc src dst : Nat) (b : Body) : (send s vc src dst b).lines = s.lines := rfl
@[simp] theorem send_routes (s : State) (vc src dst : Nat) (b : Body) : (send s vc src dst b).routes = s.routes := rfl
@[simp] theorem send_streams (s : State) (vc src dst : Nat) (b : Body) : (send s vc src dst b).streams = s.streams := rfl
@[simp] theorem send_windows (s : State) (vc src dst : Nat) (b : Body) : (send s vc src dst b).windows = s.windows := rfl
@[simp] theorem send_peerHeard (s : State) (vc src dst : Nat) (b : Body) : (send s vc src dst b).peerHeard = s.peerHeard := rfl
@[simp] theorem send_seqHeard (s : State) (vc src dst : Nat) (b : Body) : (send s vc src dst b).seqHeard = s.seqHeard := rfl
@[simp] theorem send_flights (s : State) (vc src dst : Nat) (b : Body) : (send s vc src dst b).flights = s.flights := rfl
@[simp] theorem send_orders (s : State) (vc src dst : Nat) (b : Body) : (send s vc src dst b).orders = s.orders := rfl
@[simp] theorem send_accesses (s : State) (vc src dst : Nat) (b : Body) : (send s vc src dst b).accesses = s.accesses := rfl
@[simp] theorem send_regAccesses (s : State) (vc src dst : Nat) (b : Body) : (send s vc src dst b).regAccesses = s.regAccesses := rfl
@[simp] theorem send_chimes (s : State) (vc src dst : Nat) (b : Body) : (send s vc src dst b).chimes = s.chimes := rfl
@[simp] theorem send_distant (s : State) (vc src dst : Nat) (b : Body) : (send s vc src dst b).distant = s.distant := rfl
@[simp] theorem send_hostWrites (s : State) (vc src dst : Nat) (b : Body) : (send s vc src dst b).hostWrites = s.hostWrites := rfl
@[simp] theorem send_flushes (s : State) (vc src dst : Nat) (b : Body) : (send s vc src dst b).flushes = s.flushes := rfl
@[simp] theorem send_granted (s : State) (vc src dst : Nat) (b : Body) : (send s vc src dst b).granted = s.granted := rfl
@[simp] theorem send_errands (s : State) (vc src dst : Nat) (b : Body) : (send s vc src dst b).errands = s.errands := rfl
@[simp] theorem send_slugs (s : State) (vc src dst : Nat) (b : Body) : (send s vc src dst b).slugs = s.slugs := rfl
@[simp] theorem send_routers (s : State) (vc src dst : Nat) (b : Body) : (send s vc src dst b).routers = s.routers := rfl
@[simp] theorem send_pools (s : State) (vc src dst : Nat) (b : Body) : (send s vc src dst b).pools = s.pools := rfl
@[simp] theorem send_mem (s : State) (vc src dst : Nat) (b : Body) : (send s vc src dst b).mem = s.mem := rfl
@[simp] theorem send_latches (s : State) (vc src dst : Nat) (b : Body) : (send s vc src dst b).latches = s.latches := rfl
@[simp] theorem send_mirror (s : State) (vc src dst : Nat) (b : Body) : (send s vc src dst b).mirror = s.mirror := rfl
@[simp] theorem send_outbox (s : State) (vc src dst : Nat) (b : Body) : (send s vc src dst b).outbox = s.outbox := rfl
@[simp] theorem send_seq (s : State) (vc src dst : Nat) (b : Body) : (send s vc src dst b).seq = s.seq := rfl
@[simp] theorem send_fresh (s : State) (vc src dst : Nat) (b : Body) : (send s vc src dst b).fresh = s.fresh := rfl

@[simp] theorem emit_pending (s : State) (o : Out) : (emit s o).pending = s.pending := rfl
@[simp] theorem emit_regs (s : State) (o : Out) : (emit s o).regs = s.regs := rfl
@[simp] theorem emit_time (s : State) (o : Out) : (emit s o).time = s.time := rfl
@[simp] theorem emit_west (s : State) (o : Out) : (emit s o).west = s.west := rfl
@[simp] theorem emit_east (s : State) (o : Out) : (emit s o).east = s.east := rfl
@[simp] theorem emit_instr (s : State) (o : Out) : (emit s o).instr = s.instr := rfl
@[simp] theorem emit_attach (s : State) (o : Out) : (emit s o).attach = s.attach := rfl
@[simp] theorem emit_detach (s : State) (o : Out) : (emit s o).detach = s.detach := rfl
@[simp] theorem emit_ctxs (s : State) (o : Out) : (emit s o).ctxs = s.ctxs := rfl
@[simp] theorem emit_domains (s : State) (o : Out) : (emit s o).domains = s.domains := rfl
@[simp] theorem emit_cells (s : State) (o : Out) : (emit s o).cells = s.cells := rfl
@[simp] theorem emit_lines (s : State) (o : Out) : (emit s o).lines = s.lines := rfl
@[simp] theorem emit_routes (s : State) (o : Out) : (emit s o).routes = s.routes := rfl
@[simp] theorem emit_streams (s : State) (o : Out) : (emit s o).streams = s.streams := rfl
@[simp] theorem emit_windows (s : State) (o : Out) : (emit s o).windows = s.windows := rfl
@[simp] theorem emit_peerHeard (s : State) (o : Out) : (emit s o).peerHeard = s.peerHeard := rfl
@[simp] theorem emit_seqHeard (s : State) (o : Out) : (emit s o).seqHeard = s.seqHeard := rfl
@[simp] theorem emit_flights (s : State) (o : Out) : (emit s o).flights = s.flights := rfl
@[simp] theorem emit_orders (s : State) (o : Out) : (emit s o).orders = s.orders := rfl
@[simp] theorem emit_accesses (s : State) (o : Out) : (emit s o).accesses = s.accesses := rfl
@[simp] theorem emit_regAccesses (s : State) (o : Out) : (emit s o).regAccesses = s.regAccesses := rfl
@[simp] theorem emit_chimes (s : State) (o : Out) : (emit s o).chimes = s.chimes := rfl
@[simp] theorem emit_distant (s : State) (o : Out) : (emit s o).distant = s.distant := rfl
@[simp] theorem emit_hostWrites (s : State) (o : Out) : (emit s o).hostWrites = s.hostWrites := rfl
@[simp] theorem emit_flushes (s : State) (o : Out) : (emit s o).flushes = s.flushes := rfl
@[simp] theorem emit_granted (s : State) (o : Out) : (emit s o).granted = s.granted := rfl
@[simp] theorem emit_errands (s : State) (o : Out) : (emit s o).errands = s.errands := rfl
@[simp] theorem emit_slugs (s : State) (o : Out) : (emit s o).slugs = s.slugs := rfl
@[simp] theorem emit_routers (s : State) (o : Out) : (emit s o).routers = s.routers := rfl
@[simp] theorem emit_pools (s : State) (o : Out) : (emit s o).pools = s.pools := rfl
@[simp] theorem emit_ctl (s : State) (o : Out) : (emit s o).ctl = s.ctl := rfl
@[simp] theorem emit_mem (s : State) (o : Out) : (emit s o).mem = s.mem := rfl
@[simp] theorem emit_latches (s : State) (o : Out) : (emit s o).latches = s.latches := rfl
@[simp] theorem emit_mirror (s : State) (o : Out) : (emit s o).mirror = s.mirror := rfl
@[simp] theorem emit_seq (s : State) (o : Out) : (emit s o).seq = s.seq := rfl
@[simp] theorem emit_fresh (s : State) (o : Out) : (emit s o).fresh = s.fresh := rfl

@[simp] theorem dropMsg_pending (s : State) (m : Msg) : (dropMsg s m).pending = s.pending := rfl
@[simp] theorem dropMsg_regs (s : State) (m : Msg) : (dropMsg s m).regs = s.regs := rfl
@[simp] theorem dropMsg_time (s : State) (m : Msg) : (dropMsg s m).time = s.time := rfl
@[simp] theorem dropMsg_west (s : State) (m : Msg) : (dropMsg s m).west = s.west := rfl
@[simp] theorem dropMsg_east (s : State) (m : Msg) : (dropMsg s m).east = s.east := rfl
@[simp] theorem dropMsg_instr (s : State) (m : Msg) : (dropMsg s m).instr = s.instr := rfl
@[simp] theorem dropMsg_attach (s : State) (m : Msg) : (dropMsg s m).attach = s.attach := rfl
@[simp] theorem dropMsg_detach (s : State) (m : Msg) : (dropMsg s m).detach = s.detach := rfl
@[simp] theorem dropMsg_ctxs (s : State) (m : Msg) : (dropMsg s m).ctxs = s.ctxs := rfl
@[simp] theorem dropMsg_domains (s : State) (m : Msg) : (dropMsg s m).domains = s.domains := rfl
@[simp] theorem dropMsg_cells (s : State) (m : Msg) : (dropMsg s m).cells = s.cells := rfl
@[simp] theorem dropMsg_lines (s : State) (m : Msg) : (dropMsg s m).lines = s.lines := rfl
@[simp] theorem dropMsg_routes (s : State) (m : Msg) : (dropMsg s m).routes = s.routes := rfl
@[simp] theorem dropMsg_streams (s : State) (m : Msg) : (dropMsg s m).streams = s.streams := rfl
@[simp] theorem dropMsg_windows (s : State) (m : Msg) : (dropMsg s m).windows = s.windows := rfl
@[simp] theorem dropMsg_peerHeard (s : State) (m : Msg) : (dropMsg s m).peerHeard = s.peerHeard := rfl
@[simp] theorem dropMsg_seqHeard (s : State) (m : Msg) : (dropMsg s m).seqHeard = s.seqHeard := rfl
@[simp] theorem dropMsg_flights (s : State) (m : Msg) : (dropMsg s m).flights = s.flights := rfl
@[simp] theorem dropMsg_orders (s : State) (m : Msg) : (dropMsg s m).orders = s.orders := rfl
@[simp] theorem dropMsg_accesses (s : State) (m : Msg) : (dropMsg s m).accesses = s.accesses := rfl
@[simp] theorem dropMsg_regAccesses (s : State) (m : Msg) : (dropMsg s m).regAccesses = s.regAccesses := rfl
@[simp] theorem dropMsg_chimes (s : State) (m : Msg) : (dropMsg s m).chimes = s.chimes := rfl
@[simp] theorem dropMsg_distant (s : State) (m : Msg) : (dropMsg s m).distant = s.distant := rfl
@[simp] theorem dropMsg_hostWrites (s : State) (m : Msg) : (dropMsg s m).hostWrites = s.hostWrites := rfl
@[simp] theorem dropMsg_flushes (s : State) (m : Msg) : (dropMsg s m).flushes = s.flushes := rfl
@[simp] theorem dropMsg_granted (s : State) (m : Msg) : (dropMsg s m).granted = s.granted := rfl
@[simp] theorem dropMsg_errands (s : State) (m : Msg) : (dropMsg s m).errands = s.errands := rfl
@[simp] theorem dropMsg_slugs (s : State) (m : Msg) : (dropMsg s m).slugs = s.slugs := rfl
@[simp] theorem dropMsg_routers (s : State) (m : Msg) : (dropMsg s m).routers = s.routers := rfl
@[simp] theorem dropMsg_pools (s : State) (m : Msg) : (dropMsg s m).pools = s.pools := rfl
@[simp] theorem dropMsg_mem (s : State) (m : Msg) : (dropMsg s m).mem = s.mem := rfl
@[simp] theorem dropMsg_latches (s : State) (m : Msg) : (dropMsg s m).latches = s.latches := rfl
@[simp] theorem dropMsg_mirror (s : State) (m : Msg) : (dropMsg s m).mirror = s.mirror := rfl
@[simp] theorem dropMsg_outbox (s : State) (m : Msg) : (dropMsg s m).outbox = s.outbox := rfl
@[simp] theorem dropMsg_seq (s : State) (m : Msg) : (dropMsg s m).seq = s.seq := rfl
@[simp] theorem dropMsg_fresh (s : State) (m : Msg) : (dropMsg s m).fresh = s.fresh := rfl

@[simp] theorem bump_pending (s : State) : (bump s ).pending = s.pending := rfl
@[simp] theorem bump_regs (s : State) : (bump s ).regs = s.regs := rfl
@[simp] theorem bump_time (s : State) : (bump s ).time = s.time := rfl
@[simp] theorem bump_west (s : State) : (bump s ).west = s.west := rfl
@[simp] theorem bump_east (s : State) : (bump s ).east = s.east := rfl
@[simp] theorem bump_instr (s : State) : (bump s ).instr = s.instr := rfl
@[simp] theorem bump_attach (s : State) : (bump s ).attach = s.attach := rfl
@[simp] theorem bump_detach (s : State) : (bump s ).detach = s.detach := rfl
@[simp] theorem bump_ctxs (s : State) : (bump s ).ctxs = s.ctxs := rfl
@[simp] theorem bump_domains (s : State) : (bump s ).domains = s.domains := rfl
@[simp] theorem bump_cells (s : State) : (bump s ).cells = s.cells := rfl
@[simp] theorem bump_lines (s : State) : (bump s ).lines = s.lines := rfl
@[simp] theorem bump_routes (s : State) : (bump s ).routes = s.routes := rfl
@[simp] theorem bump_streams (s : State) : (bump s ).streams = s.streams := rfl
@[simp] theorem bump_windows (s : State) : (bump s ).windows = s.windows := rfl
@[simp] theorem bump_peerHeard (s : State) : (bump s ).peerHeard = s.peerHeard := rfl
@[simp] theorem bump_seqHeard (s : State) : (bump s ).seqHeard = s.seqHeard := rfl
@[simp] theorem bump_flights (s : State) : (bump s ).flights = s.flights := rfl
@[simp] theorem bump_orders (s : State) : (bump s ).orders = s.orders := rfl
@[simp] theorem bump_accesses (s : State) : (bump s ).accesses = s.accesses := rfl
@[simp] theorem bump_regAccesses (s : State) : (bump s ).regAccesses = s.regAccesses := rfl
@[simp] theorem bump_chimes (s : State) : (bump s ).chimes = s.chimes := rfl
@[simp] theorem bump_distant (s : State) : (bump s ).distant = s.distant := rfl
@[simp] theorem bump_hostWrites (s : State) : (bump s ).hostWrites = s.hostWrites := rfl
@[simp] theorem bump_flushes (s : State) : (bump s ).flushes = s.flushes := rfl
@[simp] theorem bump_granted (s : State) : (bump s ).granted = s.granted := rfl
@[simp] theorem bump_errands (s : State) : (bump s ).errands = s.errands := rfl
@[simp] theorem bump_slugs (s : State) : (bump s ).slugs = s.slugs := rfl
@[simp] theorem bump_routers (s : State) : (bump s ).routers = s.routers := rfl
@[simp] theorem bump_pools (s : State) : (bump s ).pools = s.pools := rfl
@[simp] theorem bump_ctl (s : State) : (bump s ).ctl = s.ctl := rfl
@[simp] theorem bump_mem (s : State) : (bump s ).mem = s.mem := rfl
@[simp] theorem bump_latches (s : State) : (bump s ).latches = s.latches := rfl
@[simp] theorem bump_mirror (s : State) : (bump s ).mirror = s.mirror := rfl
@[simp] theorem bump_outbox (s : State) : (bump s ).outbox = s.outbox := rfl
@[simp] theorem bump_fresh (s : State) : (bump s ).fresh = s.fresh := rfl

@[simp] theorem writeSector_pending (s : State) (d : Nat) (x : Sector) : (writeSector s d x).pending = s.pending := by simp only [writeSector]
@[simp] theorem writeSector_regs (s : State) (d : Nat) (x : Sector) : (writeSector s d x).regs = s.regs := by simp only [writeSector]
@[simp] theorem writeSector_time (s : State) (d : Nat) (x : Sector) : (writeSector s d x).time = s.time := by simp only [writeSector]
@[simp] theorem writeSector_west (s : State) (d : Nat) (x : Sector) : (writeSector s d x).west = s.west := by simp only [writeSector]
@[simp] theorem writeSector_east (s : State) (d : Nat) (x : Sector) : (writeSector s d x).east = s.east := by simp only [writeSector]
@[simp] theorem writeSector_instr (s : State) (d : Nat) (x : Sector) : (writeSector s d x).instr = s.instr := by simp only [writeSector]
@[simp] theorem writeSector_attach (s : State) (d : Nat) (x : Sector) : (writeSector s d x).attach = s.attach := by simp only [writeSector]
@[simp] theorem writeSector_detach (s : State) (d : Nat) (x : Sector) : (writeSector s d x).detach = s.detach := by simp only [writeSector]
@[simp] theorem writeSector_ctxs (s : State) (d : Nat) (x : Sector) : (writeSector s d x).ctxs = s.ctxs := by simp only [writeSector]
@[simp] theorem writeSector_domains (s : State) (d : Nat) (x : Sector) : (writeSector s d x).domains = s.domains := by simp only [writeSector]
@[simp] theorem writeSector_cells (s : State) (d : Nat) (x : Sector) : (writeSector s d x).cells = s.cells := by simp only [writeSector]
@[simp] theorem writeSector_lines (s : State) (d : Nat) (x : Sector) : (writeSector s d x).lines = s.lines := by simp only [writeSector]
@[simp] theorem writeSector_routes (s : State) (d : Nat) (x : Sector) : (writeSector s d x).routes = s.routes := by simp only [writeSector]
@[simp] theorem writeSector_streams (s : State) (d : Nat) (x : Sector) : (writeSector s d x).streams = s.streams := by simp only [writeSector]
@[simp] theorem writeSector_windows (s : State) (d : Nat) (x : Sector) : (writeSector s d x).windows = s.windows := by simp only [writeSector]
@[simp] theorem writeSector_peerHeard (s : State) (d : Nat) (x : Sector) : (writeSector s d x).peerHeard = s.peerHeard := by simp only [writeSector]
@[simp] theorem writeSector_seqHeard (s : State) (d : Nat) (x : Sector) : (writeSector s d x).seqHeard = s.seqHeard := by simp only [writeSector]
@[simp] theorem writeSector_flights (s : State) (d : Nat) (x : Sector) : (writeSector s d x).flights = s.flights := by simp only [writeSector]
@[simp] theorem writeSector_orders (s : State) (d : Nat) (x : Sector) : (writeSector s d x).orders = s.orders := by simp only [writeSector]
@[simp] theorem writeSector_accesses (s : State) (d : Nat) (x : Sector) : (writeSector s d x).accesses = s.accesses := by simp only [writeSector]
@[simp] theorem writeSector_regAccesses (s : State) (d : Nat) (x : Sector) : (writeSector s d x).regAccesses = s.regAccesses := by simp only [writeSector]
@[simp] theorem writeSector_chimes (s : State) (d : Nat) (x : Sector) : (writeSector s d x).chimes = s.chimes := by simp only [writeSector]
@[simp] theorem writeSector_distant (s : State) (d : Nat) (x : Sector) : (writeSector s d x).distant = s.distant := by simp only [writeSector]
@[simp] theorem writeSector_hostWrites (s : State) (d : Nat) (x : Sector) : (writeSector s d x).hostWrites = s.hostWrites := by simp only [writeSector]
@[simp] theorem writeSector_flushes (s : State) (d : Nat) (x : Sector) : (writeSector s d x).flushes = s.flushes := by simp only [writeSector]
@[simp] theorem writeSector_granted (s : State) (d : Nat) (x : Sector) : (writeSector s d x).granted = s.granted := by simp only [writeSector]
@[simp] theorem writeSector_errands (s : State) (d : Nat) (x : Sector) : (writeSector s d x).errands = s.errands := by simp only [writeSector]
@[simp] theorem writeSector_slugs (s : State) (d : Nat) (x : Sector) : (writeSector s d x).slugs = s.slugs := by simp only [writeSector]
@[simp] theorem writeSector_routers (s : State) (d : Nat) (x : Sector) : (writeSector s d x).routers = s.routers := by simp only [writeSector]
@[simp] theorem writeSector_pools (s : State) (d : Nat) (x : Sector) : (writeSector s d x).pools = s.pools := by simp only [writeSector]
@[simp] theorem writeSector_ctl (s : State) (d : Nat) (x : Sector) : (writeSector s d x).ctl = s.ctl := by simp only [writeSector]
@[simp] theorem writeSector_latches (s : State) (d : Nat) (x : Sector) : (writeSector s d x).latches = s.latches := by simp only [writeSector]
@[simp] theorem writeSector_mirror (s : State) (d : Nat) (x : Sector) : (writeSector s d x).mirror = s.mirror := by simp only [writeSector]
@[simp] theorem writeSector_outbox (s : State) (d : Nat) (x : Sector) : (writeSector s d x).outbox = s.outbox := by simp only [writeSector]
@[simp] theorem writeSector_seq (s : State) (d : Nat) (x : Sector) : (writeSector s d x).seq = s.seq := by simp only [writeSector]
@[simp] theorem writeSector_fresh (s : State) (d : Nat) (x : Sector) : (writeSector s d x).fresh = s.fresh := by simp only [writeSector]

@[simp] theorem writeWord32_pending (s : State) (a : Word) (v : BitVec 32) : (writeWord32 s a v).pending = s.pending := rfl
@[simp] theorem writeWord32_regs (s : State) (a : Word) (v : BitVec 32) : (writeWord32 s a v).regs = s.regs := rfl
@[simp] theorem writeWord32_time (s : State) (a : Word) (v : BitVec 32) : (writeWord32 s a v).time = s.time := rfl
@[simp] theorem writeWord32_west (s : State) (a : Word) (v : BitVec 32) : (writeWord32 s a v).west = s.west := rfl
@[simp] theorem writeWord32_east (s : State) (a : Word) (v : BitVec 32) : (writeWord32 s a v).east = s.east := rfl
@[simp] theorem writeWord32_instr (s : State) (a : Word) (v : BitVec 32) : (writeWord32 s a v).instr = s.instr := rfl
@[simp] theorem writeWord32_attach (s : State) (a : Word) (v : BitVec 32) : (writeWord32 s a v).attach = s.attach := rfl
@[simp] theorem writeWord32_detach (s : State) (a : Word) (v : BitVec 32) : (writeWord32 s a v).detach = s.detach := rfl
@[simp] theorem writeWord32_ctxs (s : State) (a : Word) (v : BitVec 32) : (writeWord32 s a v).ctxs = s.ctxs := rfl
@[simp] theorem writeWord32_domains (s : State) (a : Word) (v : BitVec 32) : (writeWord32 s a v).domains = s.domains := rfl
@[simp] theorem writeWord32_cells (s : State) (a : Word) (v : BitVec 32) : (writeWord32 s a v).cells = s.cells := rfl
@[simp] theorem writeWord32_lines (s : State) (a : Word) (v : BitVec 32) : (writeWord32 s a v).lines = s.lines := rfl
@[simp] theorem writeWord32_routes (s : State) (a : Word) (v : BitVec 32) : (writeWord32 s a v).routes = s.routes := rfl
@[simp] theorem writeWord32_streams (s : State) (a : Word) (v : BitVec 32) : (writeWord32 s a v).streams = s.streams := rfl
@[simp] theorem writeWord32_windows (s : State) (a : Word) (v : BitVec 32) : (writeWord32 s a v).windows = s.windows := rfl
@[simp] theorem writeWord32_peerHeard (s : State) (a : Word) (v : BitVec 32) : (writeWord32 s a v).peerHeard = s.peerHeard := rfl
@[simp] theorem writeWord32_seqHeard (s : State) (a : Word) (v : BitVec 32) : (writeWord32 s a v).seqHeard = s.seqHeard := rfl
@[simp] theorem writeWord32_flights (s : State) (a : Word) (v : BitVec 32) : (writeWord32 s a v).flights = s.flights := rfl
@[simp] theorem writeWord32_orders (s : State) (a : Word) (v : BitVec 32) : (writeWord32 s a v).orders = s.orders := rfl
@[simp] theorem writeWord32_accesses (s : State) (a : Word) (v : BitVec 32) : (writeWord32 s a v).accesses = s.accesses := rfl
@[simp] theorem writeWord32_regAccesses (s : State) (a : Word) (v : BitVec 32) : (writeWord32 s a v).regAccesses = s.regAccesses := rfl
@[simp] theorem writeWord32_chimes (s : State) (a : Word) (v : BitVec 32) : (writeWord32 s a v).chimes = s.chimes := rfl
@[simp] theorem writeWord32_distant (s : State) (a : Word) (v : BitVec 32) : (writeWord32 s a v).distant = s.distant := rfl
@[simp] theorem writeWord32_hostWrites (s : State) (a : Word) (v : BitVec 32) : (writeWord32 s a v).hostWrites = s.hostWrites := rfl
@[simp] theorem writeWord32_flushes (s : State) (a : Word) (v : BitVec 32) : (writeWord32 s a v).flushes = s.flushes := rfl
@[simp] theorem writeWord32_granted (s : State) (a : Word) (v : BitVec 32) : (writeWord32 s a v).granted = s.granted := rfl
@[simp] theorem writeWord32_errands (s : State) (a : Word) (v : BitVec 32) : (writeWord32 s a v).errands = s.errands := rfl
@[simp] theorem writeWord32_slugs (s : State) (a : Word) (v : BitVec 32) : (writeWord32 s a v).slugs = s.slugs := rfl
@[simp] theorem writeWord32_routers (s : State) (a : Word) (v : BitVec 32) : (writeWord32 s a v).routers = s.routers := rfl
@[simp] theorem writeWord32_pools (s : State) (a : Word) (v : BitVec 32) : (writeWord32 s a v).pools = s.pools := rfl
@[simp] theorem writeWord32_ctl (s : State) (a : Word) (v : BitVec 32) : (writeWord32 s a v).ctl = s.ctl := rfl
@[simp] theorem writeWord32_latches (s : State) (a : Word) (v : BitVec 32) : (writeWord32 s a v).latches = s.latches := rfl
@[simp] theorem writeWord32_mirror (s : State) (a : Word) (v : BitVec 32) : (writeWord32 s a v).mirror = s.mirror := rfl
@[simp] theorem writeWord32_outbox (s : State) (a : Word) (v : BitVec 32) : (writeWord32 s a v).outbox = s.outbox := rfl
@[simp] theorem writeWord32_seq (s : State) (a : Word) (v : BitVec 32) : (writeWord32 s a v).seq = s.seq := rfl
@[simp] theorem writeWord32_fresh (s : State) (a : Word) (v : BitVec 32) : (writeWord32 s a v).fresh = s.fresh := rfl

@[simp] theorem modHalf_pending (s : State) (e : Bool) (f : HalfRegs → HalfRegs) : (modHalf s e f).pending = s.pending := by cases e <;> rfl
@[simp] theorem modHalf_regs (s : State) (e : Bool) (f : HalfRegs → HalfRegs) : (modHalf s e f).regs = s.regs := by cases e <;> rfl
@[simp] theorem modHalf_time (s : State) (e : Bool) (f : HalfRegs → HalfRegs) : (modHalf s e f).time = s.time := by cases e <;> rfl
@[simp] theorem modHalf_instr (s : State) (e : Bool) (f : HalfRegs → HalfRegs) : (modHalf s e f).instr = s.instr := by cases e <;> rfl
@[simp] theorem modHalf_attach (s : State) (e : Bool) (f : HalfRegs → HalfRegs) : (modHalf s e f).attach = s.attach := by cases e <;> rfl
@[simp] theorem modHalf_detach (s : State) (e : Bool) (f : HalfRegs → HalfRegs) : (modHalf s e f).detach = s.detach := by cases e <;> rfl
@[simp] theorem modHalf_ctxs (s : State) (e : Bool) (f : HalfRegs → HalfRegs) : (modHalf s e f).ctxs = s.ctxs := by cases e <;> rfl
@[simp] theorem modHalf_domains (s : State) (e : Bool) (f : HalfRegs → HalfRegs) : (modHalf s e f).domains = s.domains := by cases e <;> rfl
@[simp] theorem modHalf_cells (s : State) (e : Bool) (f : HalfRegs → HalfRegs) : (modHalf s e f).cells = s.cells := by cases e <;> rfl
@[simp] theorem modHalf_lines (s : State) (e : Bool) (f : HalfRegs → HalfRegs) : (modHalf s e f).lines = s.lines := by cases e <;> rfl
@[simp] theorem modHalf_routes (s : State) (e : Bool) (f : HalfRegs → HalfRegs) : (modHalf s e f).routes = s.routes := by cases e <;> rfl
@[simp] theorem modHalf_streams (s : State) (e : Bool) (f : HalfRegs → HalfRegs) : (modHalf s e f).streams = s.streams := by cases e <;> rfl
@[simp] theorem modHalf_windows (s : State) (e : Bool) (f : HalfRegs → HalfRegs) : (modHalf s e f).windows = s.windows := by cases e <;> rfl
@[simp] theorem modHalf_peerHeard (s : State) (e : Bool) (f : HalfRegs → HalfRegs) : (modHalf s e f).peerHeard = s.peerHeard := by cases e <;> rfl
@[simp] theorem modHalf_seqHeard (s : State) (e : Bool) (f : HalfRegs → HalfRegs) : (modHalf s e f).seqHeard = s.seqHeard := by cases e <;> rfl
@[simp] theorem modHalf_flights (s : State) (e : Bool) (f : HalfRegs → HalfRegs) : (modHalf s e f).flights = s.flights := by cases e <;> rfl
@[simp] theorem modHalf_orders (s : State) (e : Bool) (f : HalfRegs → HalfRegs) : (modHalf s e f).orders = s.orders := by cases e <;> rfl
@[simp] theorem modHalf_accesses (s : State) (e : Bool) (f : HalfRegs → HalfRegs) : (modHalf s e f).accesses = s.accesses := by cases e <;> rfl
@[simp] theorem modHalf_regAccesses (s : State) (e : Bool) (f : HalfRegs → HalfRegs) : (modHalf s e f).regAccesses = s.regAccesses := by cases e <;> rfl
@[simp] theorem modHalf_chimes (s : State) (e : Bool) (f : HalfRegs → HalfRegs) : (modHalf s e f).chimes = s.chimes := by cases e <;> rfl
@[simp] theorem modHalf_distant (s : State) (e : Bool) (f : HalfRegs → HalfRegs) : (modHalf s e f).distant = s.distant := by cases e <;> rfl
@[simp] theorem modHalf_hostWrites (s : State) (e : Bool) (f : HalfRegs → HalfRegs) : (modHalf s e f).hostWrites = s.hostWrites := by cases e <;> rfl
@[simp] theorem modHalf_flushes (s : State) (e : Bool) (f : HalfRegs → HalfRegs) : (modHalf s e f).flushes = s.flushes := by cases e <;> rfl
@[simp] theorem modHalf_granted (s : State) (e : Bool) (f : HalfRegs → HalfRegs) : (modHalf s e f).granted = s.granted := by cases e <;> rfl
@[simp] theorem modHalf_errands (s : State) (e : Bool) (f : HalfRegs → HalfRegs) : (modHalf s e f).errands = s.errands := by cases e <;> rfl
@[simp] theorem modHalf_slugs (s : State) (e : Bool) (f : HalfRegs → HalfRegs) : (modHalf s e f).slugs = s.slugs := by cases e <;> rfl
@[simp] theorem modHalf_routers (s : State) (e : Bool) (f : HalfRegs → HalfRegs) : (modHalf s e f).routers = s.routers := by cases e <;> rfl
@[simp] theorem modHalf_pools (s : State) (e : Bool) (f : HalfRegs → HalfRegs) : (modHalf s e f).pools = s.pools := by cases e <;> rfl
@[simp] theorem modHalf_ctl (s : State) (e : Bool) (f : HalfRegs → HalfRegs) : (modHalf s e f).ctl = s.ctl := by cases e <;> rfl
@[simp] theorem modHalf_mem (s : State) (e : Bool) (f : HalfRegs → HalfRegs) : (modHalf s e f).mem = s.mem := by cases e <;> rfl
@[simp] theorem modHalf_latches (s : State) (e : Bool) (f : HalfRegs → HalfRegs) : (modHalf s e f).latches = s.latches := by cases e <;> rfl
@[simp] theorem modHalf_mirror (s : State) (e : Bool) (f : HalfRegs → HalfRegs) : (modHalf s e f).mirror = s.mirror := by cases e <;> rfl
@[simp] theorem modHalf_outbox (s : State) (e : Bool) (f : HalfRegs → HalfRegs) : (modHalf s e f).outbox = s.outbox := by cases e <;> rfl
@[simp] theorem modHalf_seq (s : State) (e : Bool) (f : HalfRegs → HalfRegs) : (modHalf s e f).seq = s.seq := by cases e <;> rfl
@[simp] theorem modHalf_fresh (s : State) (e : Bool) (f : HalfRegs → HalfRegs) : (modHalf s e f).fresh = s.fresh := by cases e <;> rfl

end Sys2Proof.Machine
end

