-- ==== Sys2Proof/Laws/Tab.lean ====
section
/-!
SUPPORT. Sparse tables and memory: a read after a write, what a write leaves, and that every write keeps the canonical
form.
-/

namespace Sys2Proof.Machine

/-! Reading after writing. -/

theorem tabFind_tabSet_same {α : Type} (t : Tab α) (k : Nat) (v : α) : tabFind (tabSet t k v) k = some v := by
  induction t with
  | nil => simp [tabSet, tabFind]
  | cons p rest ih =>
    obtain ⟨i, w⟩ := p
    unfold tabSet
    split
    · simp [tabFind]
    · split
      · simp [tabFind]
      · rename_i hne
        simp [tabFind, hne, ih]

theorem tabFind_tabSet_other {α : Type} (t : Tab α) (k j : Nat) (v : α) (h : j ≠ k) : tabFind (tabSet t k v) j = tabFind t j := by
  induction t with
  | nil => simp [tabSet, tabFind, h.symm]
  | cons p rest ih =>
    obtain ⟨i, w⟩ := p
    unfold tabSet
    split
    · simp [tabFind, h.symm]
    · split
      · rename_i hik
        subst hik
        simp [tabFind, h.symm]
      · simp [tabFind, ih]

@[simp] theorem tabGet_tabSet {α : Type} (d : α) (t : Tab α) (k j : Nat) (v : α) :
    tabGet d (tabSet t k v) j = if j = k then v else tabGet d t j := by
  by_cases h : j = k
  · subst h; simp [tabGet, tabFind_tabSet_same]
  · simp [tabGet, tabFind_tabSet_other, h]

theorem tabFind_map {α : Type} (l : List Nat) (f : Nat → α) (k : Nat) (h : k ∈ l) :
    tabFind (l.map fun o => (o, f o)) k = some (f k) := by
  induction l with
  | nil => simp at h
  | cons a rest ih =>
    by_cases e : a = k
    · simp [tabFind, e]
    · have hk : k ∈ rest := by simpa [Ne.symm e] using h
      simp [tabFind, e, ih hk]

/-! The canonical form. -/

theorem tabAbove_weaken {α : Type} (t : Tab α) (lo : Option Nat) (h : tabAbove lo t = true) : tabAbove none t = true := by
  cases t with
  | nil => rfl
  | cons p rest => obtain ⟨i, w⟩ := p; simp [tabAbove] at h ⊢; exact h.2

theorem tabAbove_tabSet {α : Type} (t : Tab α) (lo : Option Nat) (k : Nat) (v : α) (h : tabAbove lo t = true)
    (hk : ∀ l, lo = some l → l < k) : tabAbove lo (tabSet t k v) = true := by
  induction t generalizing lo with
  | nil => cases lo <;> simp_all [tabSet, tabAbove]
  | cons p rest ih =>
    obtain ⟨i, w⟩ := p
    simp only [tabAbove, Bool.and_eq_true] at h
    unfold tabSet
    split
    · rename_i hlt
      simp only [tabAbove, Bool.and_eq_true]
      exact ⟨by cases lo <;> simp_all, by simpa using hlt, h.2⟩
    · split
      · rename_i hik
        subst hik
        simp only [tabAbove, Bool.and_eq_true]
        exact ⟨h.1, h.2⟩
      · simp only [tabAbove, Bool.and_eq_true]
        exact ⟨h.1, ih (some i) h.2 (by intro l hl; injection hl with hl; omega)⟩

theorem tabWf_tabSet {α : Type} (t : Tab α) (k : Nat) (v : α) (h : tabWf t = true) : tabWf (tabSet t k v) = true :=
  tabAbove_tabSet t none k v h (by simp)

theorem memPut_eq_tabSet (m : List Host.Cell) (a : Nat) (b : Byte) : memPut m a b = tabSet m a b := by
  induction m with
  | nil => rfl
  | cons p rest ih => obtain ⟨i, w⟩ := p; simp [memPut, tabSet, ih]

/-- Writing a byte keeps memory's canonical form. -/
theorem memPut_wf (m : List Host.Cell) (a : Nat) (b : Byte) (h : Memory.wf m = true) : Memory.wf (memPut m a b) = true := by
  rw [memPut_eq_tabSet]; exact tabWf_tabSet m a b h

/-- Writing bytes keeps memory's canonical form. -/
theorem memPutBytes_wf (m : List Host.Cell) (a : Nat) (bs : List Byte) (h : Memory.wf m = true) :
    Memory.wf (memPutBytes m a bs) = true := by
  induction bs generalizing m a with
  | nil => exact h
  | cons b bs ih => exact ih _ _ (memPut_wf m a b h)

/-- A byte written reads back; every other byte reads as before. -/
theorem memRead_memPut (m : List Host.Cell) (a c : Nat) (b : Byte) :
    memRead (memPut m a b) c = if c = a then some b else memRead m c := by
  unfold memRead
  rw [memPut_eq_tabSet]
  by_cases h : c = a
  · subst h; simp [tabFind_tabSet_same]
  · simp [tabFind_tabSet_other, h]

/-- Bytes outside those written read as before. -/
theorem memRead_memPutBytes_outside (m : List Host.Cell) (a c : Nat) (bs : List Byte) (h : c < a ∨ a + bs.length ≤ c) :
    memRead (memPutBytes m a bs) c = memRead m c := by
  induction bs generalizing m a with
  | nil => rfl
  | cons b bs ih =>
    simp only [List.length_cons] at h
    rw [memPutBytes, ih _ _ (by omega), memRead_memPut, if_neg (by omega)]

/-- Byte `i` of those written reads back. -/
theorem memRead_memPutBytes_inside (m : List Host.Cell) (a i : Nat) (bs : List Byte) (h : i < bs.length) :
    memRead (memPutBytes m a bs) (a + i) = bs[i]? := by
  induction bs generalizing m a i with
  | nil => simp at h
  | cons b bs ih =>
    rw [memPutBytes]
    cases i with
    | zero =>
      rw [memRead_memPutBytes_outside _ _ _ _ (by omega), memRead_memPut]
      simp
    | succ i =>
      have := ih (memPut m a b) (a + 1) i (by simpa using h)
      rw [show a + (i + 1) = a + 1 + i by omega, this]
      simp

end Sys2Proof.Machine
end

