-- ==== Sys2Proof/Laws/Edlum.lean ====
section
/-!
SUPPORT. What decoding, retiring and faulting an instruction do: one lemma for each shared operation of the Edlum rows.
-/

namespace Sys2Proof.Machine

theorem tabSet_tabSet {α : Type} (t : Tab α) (k : Nat) (v w : α) : tabSet (tabSet t k v) k w = tabSet t k w := by
  induction t with
  | nil => simp [tabSet]
  | cons p rest ih =>
    obtain ⟨i, u⟩ := p
    rw [tabSet]
    split
    · rename_i h; simp [tabSet, h]
    · split
      · rename_i h; simp [tabSet, h]
      · rename_i h h'; simp [tabSet, h, h', ih]

@[simp] theorem getCtx_putCtx (s : State) (c k : Nat) (x : Ctx) : getCtx (putCtx s c x) k = if k = c then x else getCtx s k := by
  simp [getCtx, putCtx]

@[simp] theorem putCtx_putCtx (s : State) (c : Nat) (x y : Ctx) : putCtx (putCtx s c x) c y = putCtx s c y := by
  simp [putCtx, tabSet_tabSet]

theorem modCtx_eq (s : State) (c : Nat) (f : Ctx → Ctx) : modCtx s c f = putCtx s c (f (getCtx s c)) := rfl

@[simp] theorem getCtx_modCtx (s : State) (c k : Nat) (f : Ctx → Ctx) :
    getCtx (modCtx s c f) k = if k = c then f (getCtx s c) else getCtx s k := by simp [modCtx]

@[simp] theorem getCtx_useTurn (s : State) (c k : Nat) : getCtx (useTurn s c) k = getCtx s k := rfl

/-- A row that accepts the word at the program counter runs it on the state with the turn used. -/
theorem decodeRow_at {s : State} {c : Nat} {w : Insn} (h : AtWord s c w) (p : Insn → Bool) (k : State → Insn → State)
    (hp : p w = true) : decodeRow s c p k = .next (k (useTurn s c) w) := by
  obtain ⟨hc, ht, ⟨b, hb, hbad⟩, hw⟩ := h
  simp [decodeRow, need, needSome, hc, ht, hb, hbad, hw, hp]

/-- A word that passes the first four steps of R188 reaches the instruction's own work. -/
theorem decodeChecked_accepted {s : State} {c : Nat} {w : Insn} (h : AtWord s c w) (ha : Accepted s c w) (p : Insn → Bool)
    (k : State → Insn → State) (hp : p w = true) : decodeChecked s c p k = .next (k (useTurn s c) w) := by
  obtain ⟨hok, hch⟩ := ha
  rw [decodeChecked, decodeRow_at h p _ hp]
  have hcfg : configOf (useTurn s c) c = configOf s c := rfl
  simp only [hok, Bool.not_true, Bool.false_eq_true, if_false, hcfg]
  by_cases hn : namesChannel w = true
  · simp [hn, hch hn]
  · simp [hn]

/-- A word that breaks an encoding rule faults with ILLEGAL_INSTR. -/
theorem decodeChecked_illegal {s : State} {c : Nat} {w : Insn} (h : AtWord s c w) (ha : wordOk w = false) (p : Insn → Bool)
    (k : State → Insn → State) (hp : p w = true) :
    decodeChecked s c p k = .next (refuse (useTurn s c) c ILLEGAL_INSTR 0) := by
  rw [decodeChecked, decodeRow_at h p _ hp]; simp [ha]

/-- A context that has its turn is RUNNING, waits for nothing, and its next instruction is in its list. -/
theorem hasTurn_running {s : State} {c : Nat} (h : hasTurn s c = true) :
    (getCtx s c).regs.state = .running ∧ (getCtx s c).wait = .none := by
  simp only [hasTurn, stateOf, Bool.and_eq_true] at h
  exact ⟨of_decide_eq_true h.1.1.1.1.1.1, of_decide_eq_true h.1.1.1.1.1.2⟩

/-! Faults. -/

/-- `t` differs from `s` in the Belfries' own registers alone. -/
def SameButHalves (s t : State) : Prop := t = { s with west := t.west, east := t.east }

theorem SameButHalves.trans {s t u : State} (h : SameButHalves s t) (k : SameButHalves t u) : SameButHalves s u := by
  unfold SameButHalves at *; rw [k, h]

theorem modHalf_rest (s : State) (e : Bool) (f : HalfRegs → HalfRegs) : SameButHalves s (modHalf s e f) := by
  cases e <;> rfl

theorem countHalf_rest (s : State) (e : Bool) (v n : Nat) (c d : Option Nat) : SameButHalves s (countHalf s e v n c d) := by
  unfold countHalf; split
  · rfl
  · exact modHalf_rest _ _ _

theorem getHalf_modHalf (s : State) (e : Bool) (f : HalfRegs → HalfRegs) : getHalf (modHalf s e f) e = f (getHalf s e) := by
  cases e <;> rfl

theorem countHalf_flog (s : State) (e : Bool) (v n : Nat) (c d : Option Nat) :
    (getHalf (countHalf s e v n c d) e).flog = (getHalf s e).flog := by
  unfold countHalf; split
  · rfl
  · rw [getHalf_modHalf]

theorem logTo_rest (s : State) (e : Bool) (l : LogEntry) : SameButHalves s (logTo s e l) := by
  unfold logTo; exact (modHalf_rest _ _ _).trans (countHalf_rest _ _ _ _ _ _)

theorem logTo_count (s : State) (e : Bool) (l : LogEntry) :
    (getHalf (logTo s e l) e).flog.count = (getHalf s e).flog.count + 1 := by
  unfold logTo; rw [countHalf_flog, getHalf_modHalf]

/-- Raising a fault in a RUNNING or WAITING context that has none latches it and pauses the context; ARRIVE, ABANDON and
SUB have more to do. -/
theorem raise_faulted (u : State) (c : Nat) (r : Raise) (hby : r.byInsn = true)
    (hs : (getCtx u c).regs.state = .running ∨ (getCtx u c).regs.state = .waiting) (hw : (getCtx u c).wait ≠ .peal)
    (hab : ∀ l, (getCtx u c).wait ≠ .abandonReports l) (hsub : (getCtx u c).wait ≠ .subResult)
    (hf : (getCtx u c).regs.fault = 0) : Faulted u (raise u c r) c r.code r.kind r.pc := by
  simp only [raise]
  generalize hu : (if r.code = FRAME_OVERRUN then u else logEvent u false _) = v
  have hv : SameButHalves u v := by
    rw [← hu]; split
    · rfl
    · exact logTo_rest _ _ _
  have hc : v.ctxs = u.ctxs := by rw [hv]
  have hg : getCtx v = getCtx u := by funext k; simp [getCtx, hc]
  rw [if_neg (by rcases hs with h | h <;> simp [h, hf]), if_pos hs]
  have hp : withdrawArrive (modRegs v c fun g => { g with
      fault := r.code, faultKind := r.kind, faultByInsn := r.byInsn
      faultPc := (r.pc &&& ~~~(0xF : Word)) ||| (g.faultPc &&& 1) }) c = modRegs v c fun g => { g with
      fault := r.code, faultKind := r.kind, faultByInsn := r.byInsn
      faultPc := (r.pc &&& ~~~(0xF : Word)) ||| (g.faultPc &&& 1) } := by
    unfold withdrawArrive; simp [modRegs, hg, hw]
  unfold enterPaused
  rw [hp]
  refine ⟨?_, ?_, ?_⟩
  · simp only [modRegs, getCtx_modCtx, if_true, hg, hby]
  · intro k hk; simp [modRegs, hk, hg]
  · rw [hv]; rfl

/-- Going on at an address, in a RUNNING context. -/
theorem goTo_goesOn (u : State) (c : Nat) (pc : Word) (hs : (getCtx u c).regs.state = .running) (hw : (getCtx u c).wait = .none) :
    GoesOn u (goTo u c pc) c pc := by
  unfold GoesOn goTo atListEnd
  simp only [getCtx_modCtx, if_true, listEnded, listEnd, pendingEntries, ringSize]
  by_cases h1 : pc = (getCtx u c).listBase + BitVec.ofNat 64 (16 * (getCtx u c).listCount)
  · simp only [h1, ne_eq, not_true_eq_false, if_false, beq_self_eq_true, Bool.not_true, Bool.false_eq_true]
    by_cases h2 : (getCtx u c).calls = []
    · simp only [h2, List.isEmpty_nil, Bool.not_true, Bool.false_eq_true, if_false, not_true_eq_false, hs, true_or, and_true]
      split
      · simp [modCtx, dropBursts, h2]
      · rename_i h; simp [modCtx, dropBursts, h2, h]
    · have h3 : (getCtx u c).calls.isEmpty = false := by simpa using h2
      simp only [h2, h3, Bool.not_false, if_true, not_false_eq_true]
      intro hf
      have hr := raise_faulted (modCtx (modCtx u c fun x => { x with pc := pc }) c fun x => { x with pc := (getCtx u c).pc }) c
        { code := ILLEGAL_INSTR, kind := .issue, pc := (getCtx u c).pc } rfl (by simp [hs]) (by simp [hw]) (by simp [hw]) (by simp [hw])
        (by simp [hf])
      unfold Faulted at hr ⊢
      refine ⟨?_, fun k hk => ?_, ?_⟩
      · simpa [h1] using hr.1
      · simpa [hk, h1] using hr.2.1 k hk
      · simpa [modCtx, putCtx, h1] using hr.2.2
  · simp [h1, modCtx]

/-- Retiring an instruction goes on at the next one. -/
theorem retire_goesOn (u : State) (c : Nat) (hs : (getCtx u c).regs.state = .running) (hw : (getCtx u c).wait = .none) :
    GoesOn u (retire u c) c ((getCtx u c).pc + 16) := goTo_goesOn u c _ hs hw

/-- Refusing the instruction at the program counter. -/
theorem refuse_faulted (u : State) (c : Nat) (code : Code) (addr : Word)
    (hs : (getCtx u c).regs.state = .running) (hw : (getCtx u c).wait = .none) (hf : (getCtx u c).regs.fault = 0) :
    Faulted u (refuse u c code addr) c code .issue (getCtx u c).pc :=
  raise_faulted u c _ rfl (.inl hs) (by simp [hw]) (by simp [hw]) (by simp [hw]) hf

end Sys2Proof.Machine
end

