-- ==== Sys2Proof/Laws/Kept.lean ====
section
/-!
SUPPORT. What almost every operation keeps: the queue of commands, memory, the key slots and locks of the domains,
the Toll's period and the attach in progress.
-/

namespace Sys2Proof.Machine

/-- A domain's key slot and lock in a table of domains. -/
def keyIn (ds : Tab Domain) (d : Nat) : Option (BitVec 256) × Bool := ((tabGet {} ds d).key, (tabGet {} ds d).lock)

theorem keyIn_ite (c : Prop) [Decidable c] (a b : Tab Domain) (d : Nat) :
    keyIn (if c then a else b) d = if c then keyIn a d else keyIn b d := by split <;> rfl

/-- `t` keeps what `s` has of the queue, memory, keys and locks, the Toll's period and the attach. -/
abbrev Kept (s t : State) : Prop :=
  t.pending = s.pending ∧ t.mem = s.mem ∧ t.time.periodUs = s.time.periodUs ∧
  t.time.pendingPeriod = s.time.pendingPeriod ∧ t.attach = s.attach ∧ ∀ d, keyIn t.domains d = keyIn s.domains d

theorem Kept.refl (s : State) : Kept s s := ⟨rfl, rfl, rfl, rfl, rfl, fun _ => rfl⟩

theorem Kept.trans {s t u : State} (h : Kept s t) (k : Kept t u) : Kept s u := by
  obtain ⟨a, b, c, d, e, f⟩ := h
  obtain ⟨a', b', c', d', e', f'⟩ := k
  exact ⟨a'.trans a, b'.trans b, c'.trans c, d'.trans d, e'.trans e, fun i => (f' i).trans (f i)⟩

/-- A row that goes on has met its condition. -/
theorem need_next {b : Bool} {f : Fault} {r : Res} {t : State} (h : need b f r = .next t) : b = true ∧ r = .next t := by
  unfold need at h
  split at h
  · exact ⟨‹_›, h⟩
  · cases h

/-- A row that goes on has found what it names. -/
theorem needSome_next {α : Type} {x : Option α} {f : Fault} {k : α → Res} {t : State} (h : needSome x f k = .next t) :
    ∃ a, x = some a ∧ k a = .next t := by
  unfold needSome at h
  split at h
  · exact ⟨_, rfl, h⟩
  · cases h

@[simp] theorem each_kept {α : Type} (xs : List α) (f : State → α → State) (s : State) (h : ∀ s x, Kept s (f s x)) :
    Kept s (each xs f s) := by
  unfold each
  induction xs generalizing s with
  | nil => simp [Kept]
  | cons x xs ih => exact Kept.trans (h s x) (ih (f s x))

@[simp] theorem each_kept_if {α : Type} (xs : List α) (p : State → α → Prop) [∀ s x, Decidable (p s x)] (f : State → α → State)
    (s : State) (h : ∀ s x, Kept s (f s x)) : Kept s (each xs (fun s x => if p s x then f s x else s) s) :=
  each_kept _ _ s fun s x => by split <;> simp [Kept, h]

@[simp] theorem modDom_kept (s : State) (d : Nat) (f : Domain → Domain) (h : ∀ x, (f x).key = x.key ∧ (f x).lock = x.lock) :
    Kept s (modDom s d f) := by
  refine ⟨rfl, rfl, rfl, rfl, rfl, fun i => ?_⟩
  simp only [keyIn, modDom, tabGet_tabSet]
  split
  · rename_i hi; subst hi; simp [getDom, h]
  · rfl

end Sys2Proof.Machine
end

