-- ==== Sys2Proof/Laws/KeptCore.lean ====
section
/-!
SUPPORT. What the shared operations (Machine/Ops.lean to Machine/Sync.lean) keep: the queue, memory, keys and locks, the Toll's period and the attach in progress.
-/

namespace Sys2Proof.Machine

/-! Machine/Ops.lean. -/

@[simp] theorem putCtx_kept (s : State) (c : Nat) (x : Ctx) : Kept s (putCtx s c x) := by simp [Kept, putCtx]
@[simp] theorem modCtx_kept (s : State) (c : Nat) (f : Ctx → Ctx) : Kept s (modCtx s c f) := by simp [Kept, modCtx]
@[simp] theorem modRegs_kept (s : State) (c : Nat) (f : CtxRegs → CtxRegs) : Kept s (modRegs s c f) := by simp [Kept, modRegs]
@[simp] theorem putCell_kept (s : State) (n : Nat) (x : Cell) : Kept s (putCell s n x) := by simp [Kept, putCell]
@[simp] theorem modCell_kept (s : State) (n : Nat) (f : Cell → Cell) : Kept s (modCell s n f) := by simp [Kept, modCell]
@[simp] theorem modChan_kept (s : State) (n ch : Nat) (f : Chan → Chan) : Kept s (modChan s n ch f) := by simp [Kept, modChan]
@[simp] theorem modLine_kept (s : State) (n : Nat) (f : Line → Line) : Kept s (modLine s n f) := by simp [Kept, modLine]
@[simp] theorem modRoute_kept (s : State) (c : Nat) (f : Route → Route) : Kept s (modRoute s c f) := by simp [Kept, modRoute]
@[simp] theorem modStream_kept (s : State) (c : Nat) (f : OutStream → OutStream) : Kept s (modStream s c f) := by simp [Kept, modStream]
@[simp] theorem modHalf_kept (s : State) (east : Bool) (f : HalfRegs → HalfRegs) : Kept s (modHalf s east f) := by
  unfold modHalf; (repeat' split) <;> simp [Kept]
@[simp] theorem modFlight_kept (s : State) (id : Nat) (f : Flight → Flight) : Kept s (modFlight s id f) := by simp [Kept, modFlight]
@[simp] theorem modOrder_kept (s : State) (insn cell : Nat) (f : Order → Order) : Kept s (modOrder s insn cell f) := by simp [Kept, modOrder]
@[simp] theorem modOrders_kept (s : State) (insn : Nat) (f : Order → Order) : Kept s (modOrders s insn f) := by simp [Kept, modOrders]
@[simp] theorem send_kept (s : State) (vc src dst : Nat) (b : Body) : Kept s (send s vc src dst b) := by simp [Kept, send]
@[simp] theorem emit_kept (s : State) (o : Out) : Kept s (emit s o) := by simp [Kept, emit]
@[simp] theorem dropMsg_kept (s : State) (m : Msg) : Kept s (dropMsg s m) := by simp [Kept, dropMsg]
@[simp] theorem bump_kept (s : State) : Kept s (bump s) := by simp [Kept, bump]
@[simp] theorem countCell_kept (s : State) (cell event units : Nat) (ctx dom : Option Nat) : Kept s (countCell s cell event units ctx dom) := by
  unfold countCell; (repeat' split) <;> simp [Kept]
@[simp] theorem countHalf_kept (s : State) (east : Bool) (event units : Nat) (ctx dom : Option Nat) : Kept s (countHalf s east event units ctx dom) := by
  unfold countHalf; (repeat' split) <;> simp [Kept]
@[simp] theorem logTo_kept (s : State) (east : Bool) (e : LogEntry) : Kept s (logTo s east e) := by simp [Kept, logTo]
@[simp] theorem logEvent_kept (s : State) (detector : Bool) (e : LogEntry) : Kept s (logEvent s detector e) := by simp [Kept, logEvent]
@[simp] theorem modPool_kept (s : State) (id : Nat) (f : Pool → Pool) : Kept s (modPool s id f) := by simp [Kept, modPool]
@[simp] theorem returnCredit_kept (s : State) (pool : Option Nat) : Kept s (returnCredit s pool) := by
  unfold returnCredit; (repeat' split) <;> simp [Kept]
@[simp] theorem work_kept (s : State) (cell : Nat) (tag : BitVec 32) (w : Work) (n : Nat) (event : Nat) (ctx dom : Option Nat) : Kept s (work s cell tag w n event ctx dom) := by simp [Kept, work]
@[simp] theorem countGalley_kept (s : State) (cell : Nat) (j : Job) (n : Nat) : Kept s (countGalley s cell j n) := by simp [Kept, countGalley]

/-! Machine/Sources.lean. -/

theorem takeCredit_kept {s t : State} {f : Flight} {o : Order} {rank cell a id : Nat} (h : takeCredit s f o rank cell a = some (t, id)) : Kept s t := by
  unfold takeCredit at h
  split at h
  · simp only [Option.map_eq_some_iff, Prod.mk.injEq] at h
    obtain ⟨p, -, rfl, -⟩ := h
    simp [Kept]
  · cases h
theorem openPiece_kept {s t : State} {f : Flight} {o x : Order} {rank a : Nat} (h : openPiece s f o rank a = some (t, x)) : Kept s t := by
  have fold : ∀ (cells : List (Nat × Nat)) (acc : Option (State × Order)), (∀ q, acc = some q → Kept s q.1) →
      ∀ q, cells.foldl (fun acc (r, m) => acc.bind fun (t, x) => (takeCredit t f x rank m a).map fun (t, id) =>
        (t, { x with opened := x.opened ++ [{ rank := r, start := a, cell := m, pool := some id }] })) acc = some q → Kept s q.1 := by
    intro cells
    induction cells with
    | nil => intro acc ha q hq; exact ha q hq
    | cons m ms ih =>
      intro acc ha q hq
      refine ih _ ?_ q hq
      intro p hp
      simp only [Option.bind_eq_some_iff, Option.map_eq_some_iff] at hp
      obtain ⟨y, hy, z, hz, rfl⟩ := hp
      exact Kept.trans (ha y hy) (takeCredit_kept hz)
  unfold openPiece at h
  dsimp only at h
  split at h
  · split at h
    · cases h; simp [Kept]
    · cases h
  · exact fold _ _ (by intro q hq; cases hq; simp [Kept]) _ h

theorem openPiece_getD (s : State) (f : Flight) (o : Order) (r a : Nat) :
    Kept s (if isOpen o r a then (s, o) else (openPiece s f o r a).getD (s, o)).1 := by
  split
  · simp [Kept]
  · cases h : openPiece s f o r a with
    | none => simp [Kept]
    | some q => exact openPiece_kept (t := q.1) (x := q.2) h

theorem openPieces_kept {s t : State} {f : Flight} {o x : Order} {rank : Nat} {as : List Nat} (h : openPieces s f o rank as = some (t, x)) : Kept s t := by
  have fold : ∀ (as : List Nat) (acc : Option (State × Order)), (∀ q, acc = some q → Kept s q.1) →
      ∀ q, as.foldl (fun acc a => acc.bind fun (t, x) => if isOpen x rank a then some (t, x) else openPiece t f x rank a) acc = some q → Kept s q.1 := by
    intro as
    induction as with
    | nil => intro acc ha q hq; exact ha q hq
    | cons m ms ih =>
      intro acc ha q hq
      refine ih _ ?_ q hq
      intro p hp
      simp only [Option.bind_eq_some_iff] at hp
      obtain ⟨y, hy, hz⟩ := hp
      split at hz
      · cases hz; exact ha y hy
      · exact Kept.trans (ha y hy) (openPiece_kept (t := p.1) (x := p.2) hz)
  exact fold as (some (s, o)) (by intro q hq; cases hq; simp [Kept]) _ h
theorem planRank_kept {s t : State} {f : Flight} {o x : Order} {r : Nat} {p : ReadPlan} (h : (planRank s f o r).1 = some (t, x, p)) : Kept s t := by
  unfold planRank at h
  dsimp only at h
  split at h
  · cases h
  · split at h
    · cases h
    · rename_i hs
      simp only [Option.some.injEq, Prod.mk.injEq] at h
      obtain ⟨rfl, -, -⟩ := h
      split at hs
      · cases hs; simp [Kept]
      · exact openPieces_kept hs
theorem planReread_kept {s t : State} {f : Flight} {o x : Order} {g : ReadAgain} (h : planReread s f o g = some (t, x)) : Kept s t := by
  have fold : ∀ (us : List (Nat × Nat)) (acc : Option (State × Order)), (∀ q, acc = some q → Kept s q.1) →
      ∀ q, us.foldl (fun acc (r, u) => acc.bind fun (t, x) => openPieces t f x r (unitPieces f r u)) acc = some q → Kept s q.1 := by
    intro us
    induction us with
    | nil => intro acc ha q hq; exact ha q hq
    | cons m ms ih =>
      intro acc ha q hq
      refine ih _ ?_ q hq
      intro p hp
      simp only [Option.bind_eq_some_iff] at hp
      obtain ⟨y, hy, hz⟩ := hp
      exact Kept.trans (ha y hy) (openPieces_kept (t := p.1) (x := p.2) hz)
  exact fold _ (some (s, o)) (by intro q hq; cases hq; simp [Kept]) _ h
theorem planRead_kept {s t : State} {f : Flight} {o x : Order} {p : ReadPlan} (h : planRead s f o = some (t, x, p)) : Kept s t := by
  unfold planRead at h
  split at h
  · cases h
  · obtain ⟨r, -, hr⟩ := List.exists_of_findSome?_eq_some h
    exact planRank_kept hr
@[simp] theorem storeScales_kept (s : State) (cell ch dom : Nat) (xs : List (Nat × BitVec 16)) : Kept s (storeScales s cell ch dom xs) := by simp [Kept, storeScales]
@[simp] theorem countCasts_kept (s : State) (f : Flight) (cell : Nat) (cs : List Cast) : Kept s (countCasts s f cell cs) := by simp [Kept, countCasts]
@[simp] theorem makePiece_kept (s : State) (f : Flight) (o : Order) (r a b : Nat) : Kept s (makePiece s f o r a b) := by
  have h := openPiece_getD s f o r a
  unfold makePiece; dsimp only
  generalize (if isOpen o r a then (s, o) else (openPiece s f o r a).getD (s, o)) = q at h
  refine Kept.trans h ?_
  refine Kept.trans ?_ (modOrder_kept _ _ _ _)
  refine Kept.trans ?_ (work_kept _ _ _ _ _ _ _ _)
  refine Kept.trans ?_ (countCasts_kept _ _ _ _)
  (repeat' split) <;> simp [Kept]
@[simp] theorem endFirstPass_kept (s : State) (f : Flight) (o : Order) : Kept s (endFirstPass s f o) := by
  unfold endFirstPass; dsimp only; (repeat' split) <;> simp [Kept]

/-! Machine/Items.lean. -/

@[simp] theorem sendControl_kept (s : State) (link chip kind : Nat) (v : BitVec 32) : Kept s (sendControl s link chip kind v) := by simp [Kept, sendControl]
@[simp] theorem sendOpen_kept (s : State) (chip : Nat) : Kept s (sendOpen s chip) := by simp [Kept, sendOpen]
@[simp] theorem heardFrom_kept (s : State) (chip : Nat) : Kept s (heardFrom s chip) := by simp [Kept, heardFrom]
@[simp] theorem freeHeld_kept (s : State) (hs : List Held) : Kept s (freeHeld s hs) := by simp [Kept, freeHeld]
@[simp] theorem queueHeld_kept (s : State) (chip dom ctx : Nat) (epoch : BitVec 32) (p : Payload) (insn : Option Nat) (credits : List Nat) : Kept s (queueHeld s chip dom ctx epoch p insn credits) := by
  unfold queueHeld; dsimp only; (repeat' split) <;> simp [Kept]
@[simp] theorem queueItem_kept (s : State) (chip dom ctx : Nat) (epoch : BitVec 32) (p : Payload) (insn : Option Nat) : Kept s (queueItem s chip dom ctx epoch p insn) := by simp [Kept, queueItem]
@[simp] theorem queueReport_kept (s : State) (chip dom ctx : Nat) (epoch : BitVec 32) (p : Payload) : Kept s (queueReport s chip dom ctx epoch p) := by
  unfold queueReport; (repeat' split) <;> simp [Kept]
@[simp] theorem transmit_kept (s : State) (chip : Nat) (hs : List Held) : Kept s (transmit s chip hs) := by simp [Kept, transmit]
@[simp] theorem sendGroup_kept (s : State) (chip : Nat) (key : Option (BitVec 256)) (n : Nat) (g : List Held) : Kept s (sendGroup s chip key n g) := by simp [Kept, sendGroup]

/-! Machine/Sinks.lean. -/

@[simp] theorem takeSlug_kept (s : State) (f : Flight) (o : Order) : Kept s (takeSlug s f o) := by
  unfold takeSlug; dsimp only; (repeat' split) <;> simp [Kept]
@[simp] theorem freeSlots_kept (s : State) (f : Flight) (o : Order) : Kept s (freeSlots s f o) := by
  unfold freeSlots; dsimp only; (repeat' split) <;> simp [Kept]
theorem sealOne_kept {s t : State} {f : Flight} {o : Order} {b : Nat} (h : sealOne s f o b = some t) : Kept s t := by
  unfold sealOne at h; dsimp only at h
  (repeat' split at h) <;> first | (cases h; done) | (injection h with h; subst h; simp [Kept])
@[simp] theorem makeClosing_kept (s : State) (f : Flight) (o : Order) : Kept s (makeClosing s f o) := by simp [Kept, makeClosing]

/-! Machine/Rounds.lean. -/

@[simp] theorem modParty_kept (s : State) (n : Nat) (p : Party) (f : Participant → Participant) : Kept s (modParty s n p f) := by simp [Kept, modParty]
@[simp] theorem pealOut_kept (s : State) (link n : Nat) (odd : Bool) (k : PealFlit) : Kept s (pealOut s link n odd k) := by simp [Kept, pealOut]
@[simp] theorem tellCore_kept (n : Nat) (s : State) (p : Participant) : Kept s (tellCore n s p) := by
  unfold tellCore; (repeat' split) <;> simp [Kept]
@[simp] theorem passArrive_kept (s : State) (c : Nat) : Kept s (passArrive s c) := by simp [Kept, passArrive]
@[simp] theorem passWithdrawn_kept (n : Nat) (r : BitVec 32) (s : State) (p : Participant) : Kept s (passWithdrawn n r s p) := by
  unfold passWithdrawn; dsimp only; (repeat' split) <;> simp [Kept]
@[simp] theorem tellLeft_kept (s : State) (n : Nat) (r : BitVec 32) : Kept s (tellLeft s n r) := by
  unfold tellLeft; dsimp only; (repeat' split) <;> simp [Kept]
@[simp] theorem releaseRound_kept (s : State) (n : Nat) : Kept s (releaseRound s n) := by simp [Kept, releaseRound]
@[simp] theorem settleOnce_kept (s : State) (n : Nat) : Kept s (settleOnce s n) := by
  unfold settleOnce; dsimp only; (repeat' split) <;> simp [Kept]
@[simp] theorem settleRound_kept (s : State) (n : Nat) : Kept s (settleRound s n) := by simp [Kept, settleRound]
@[simp] theorem countHeld_kept (s : State) (p : Party) : Kept s (countHeld s p) := by cases p <;> simp [Kept, countHeld]
@[simp] theorem enterRound_kept (s : State) (n : Nat) (p : Participant) : Kept s (enterRound s n p) := by
  unfold enterRound; dsimp only; (repeat' split) <;> simp [Kept]
@[simp] theorem settleHeld_kept (s : State) (n : Nat) : Kept s (settleHeld s n) := by
  unfold settleHeld
  refine each_kept _ _ s fun s p => ?_
  split <;> simp [Kept]
@[simp] theorem leaveRound_kept (s : State) (n : Nat) (party : Party) (r : BitVec 32) : Kept s (leaveRound s n party r) := by simp [Kept, leaveRound]
@[simp] theorem enrol_kept (s : State) (n : Nat) (p : Party) : Kept s (enrol s n p) := by
  unfold enrol; dsimp only; (repeat' split) <;> simp [Kept]
@[simp] theorem clearEnrolled_kept (s : State) (c n : Nat) : Kept s (clearEnrolled s c n) := by simp [Kept, clearEnrolled]
@[simp] theorem resign_kept (s : State) (n : Nat) (p : Party) : Kept s (resign s n p) := by
  unfold resign
  cases p <;> dsimp only <;> (repeat' split) <;> simp [Kept]
@[simp] theorem resignAll_kept (s : State) (c : Nat) : Kept s (resignAll s c) := by simp [Kept, resignAll]
@[simp] theorem withdrawArrive_kept (s : State) (c : Nat) : Kept s (withdrawArrive s c) := by
  unfold withdrawArrive; dsimp only; (repeat' split) <;> simp [Kept]
@[simp] theorem enterPaused_kept (s : State) (c : Nat) : Kept s (enterPaused s c) := by simp [Kept, enterPaused]
@[simp] theorem raise_kept (s : State) (c : Nat) (r : Raise) : Kept s (raise s c r) := by
  unfold raise; dsimp only; (repeat' split) <;> simp [Kept]

/-! Machine/Program.lean. -/

@[simp] theorem raiseHere_kept (s : State) (c : Nat) (code : Code) (kind : FaultKind) (addr : Word) (ch : Option Nat) : Kept s (raiseHere s c code kind addr ch) := by simp [Kept, raiseHere]
@[simp] theorem atListEnd_kept (s : State) (c : Nat) (last : Word) : Kept s (atListEnd s c last) := by
  unfold atListEnd; dsimp only; (repeat' split) <;> simp [Kept]
@[simp] theorem settleList_kept (s : State) (c : Nat) : Kept s (settleList s c) := by
  unfold settleList; (repeat' split) <;> simp [Kept]
@[simp] theorem goTo_kept (s : State) (c : Nat) (pc : Word) : Kept s (goTo s c pc) := by simp [Kept, goTo]
@[simp] theorem retire_kept (s : State) (c : Nat) : Kept s (retire s c) := by simp [Kept, retire]
@[simp] theorem endWait_kept (s : State) (c : Nat) : Kept s (endWait s c) := by simp [Kept, endWait]
@[simp] theorem retireWait_kept (s : State) (c : Nat) : Kept s (retireWait s c) := by simp [Kept, retireWait]
@[simp] theorem startWait_kept (s : State) (c : Nat) (w : Wait) : Kept s (startWait s c w) := by simp [Kept, startWait]

/-! Machine/Transfers.lean. -/

@[simp] theorem returnStaged_kept (s : State) (o : Order) : Kept s (returnStaged s o) := by simp [Kept, returnStaged]
@[simp] theorem returnCredits_kept (s : State) (o : Order) : Kept s (returnCredits s o) := by simp [Kept, returnCredits]
@[simp] theorem removeOrder_kept (s : State) (o : Order) : Kept s (removeOrder s o) := by simp [Kept, removeOrder]
@[simp] theorem removeFlight_kept (s : State) (insn : Nat) : Kept s (removeFlight s insn) := by simp [Kept, removeFlight]
@[simp] theorem dropOrder_kept (s : State) (o : Order) : Kept s (dropOrder s o) := by
  unfold dropOrder; (repeat' split) <;> simp [Kept]
@[simp] theorem endGhost_kept (s : State) (f : Flight) : Kept s (endGhost s f) := by
  unfold endGhost; dsimp only; (repeat' split) <;> simp [Kept]
@[simp] theorem sweepGhosts_kept (s : State) : Kept s (sweepGhosts s) := by simp [Kept, sweepGhosts]
@[simp] theorem startChime_kept (s : State) (c : ChimePend) : Kept s (startChime s c) := by simp [Kept, startChime]
@[simp] theorem strike_kept (s : State) (cell ctx : Nat) (dom : Nat) : Kept s (strike s cell ctx dom) := by simp [Kept, strike]
@[simp] theorem forgetLate_kept (s : State) (insn : Nat) : Kept s (forgetLate s insn) := by simp [Kept, forgetLate]
@[simp] theorem clearLate_kept (s : State) (f : Flight) : Kept s (clearLate s f) := by
  unfold clearLate; (repeat' split) <;> simp [Kept]
@[simp] theorem finishImpression_kept (s : State) (f : Flight) (ended : Bool) : Kept s (finishImpression s f ended) := by
  unfold finishImpression; dsimp only; (repeat' split) <;> simp [Kept]
@[simp] theorem settleComplete_kept (s : State) (insn : Nat) : Kept s (settleComplete s insn) := by
  unfold settleComplete; (repeat' split) <;> simp [Kept]
@[simp] theorem checkComplete_kept (s : State) (insn : Nat) : Kept s (checkComplete s insn) := by
  unfold checkComplete; dsimp only; (repeat' split) <;> simp [Kept]
@[simp] theorem learnPart_kept (s : State) (insn cell : Nat) : Kept s (learnPart s insn cell) := by simp [Kept, learnPart]
@[simp] theorem settleOrigin_kept (s : State) (insn : Nat) : Kept s (settleOrigin s insn) := by
  unfold settleOrigin; dsimp only; (repeat' split) <;> simp [Kept]
@[simp] theorem tellOrigin_kept (s : State) (insn : Nat) (skipped : Bool) : Kept s (tellOrigin s insn skipped) := by
  unfold tellOrigin; dsimp only; (repeat' split) <;> simp [Kept]
@[simp] theorem tellHome_kept (s : State) (f : Flight) (cell : Nat) (skipped : Bool) : Kept s (tellHome s f cell skipped) := by
  unfold tellHome; (repeat' split) <;> simp [Kept]
@[simp] theorem spendScales_kept (s : State) (f : Flight) (o : Order) : Kept s (spendScales s f o) := by simp [Kept, spendScales]
@[simp] theorem spendAtDst_kept (s : State) (f : Flight) (o : Order) : Kept s (spendAtDst s f o) := by
  unfold spendAtDst; (repeat' split) <;> simp [Kept]
@[simp] theorem spendAtSrc_kept (s : State) (f : Flight) : Kept s (spendAtSrc s f) := by
  unfold spendAtSrc; (repeat' split) <;> simp [Kept]
@[simp] theorem completeAt_kept (s : State) (f : Flight) (o : Order) : Kept s (completeAt s f o) := by simp [Kept, completeAt]
@[simp] theorem leaveChannel_kept (s : State) (o : Order) : Kept s (leaveChannel s o) := by
  unfold leaveChannel; dsimp only; (repeat' split) <;> simp [Kept]
@[simp] theorem leaveIfDone_kept (s : State) (insn cell : Nat) : Kept s (leaveIfDone s insn cell) := by
  unfold leaveIfDone; (repeat' split) <;> simp [Kept]
@[simp] theorem clearHalts_kept (s : State) (insn : Nat) : Kept s (clearHalts s insn) := by simp [Kept, clearHalts]
@[simp] theorem learnHalt_kept (s : State) (f : Flight) (cell : Nat) : Kept s (learnHalt s f cell) := by
  unfold learnHalt; dsimp only; (repeat' split) <;> simp [Kept]
@[simp] theorem latchHalt_kept (s : State) (f : Flight) (cell : Nat) (code : Code) (isWrite : Bool) (addr : Word) : Kept s (latchHalt s f cell code isWrite addr) := by
  unfold latchHalt; dsimp only; (repeat' split) <;> simp [Kept]
@[simp] theorem takeHalt_kept (s : State) (f : Flight) : Kept s (takeHalt s f) := by
  unfold takeHalt; dsimp only; (repeat' split) <;> simp [Kept]
@[simp] theorem takeHalts_kept (s : State) : Kept s (takeHalts s) := by simp [Kept, takeHalts]
@[simp] theorem tellOver_kept (s : State) (f : Flight) : Kept s (tellOver s f) := by
  unfold tellOver; dsimp only; (repeat' split) <;> simp [Kept]
@[simp] theorem giveUp_kept (s : State) (f : Flight) : Kept s (giveUp s f) := by simp [Kept, giveUp]
@[simp] theorem endFlight_kept (s : State) (f : Flight) (code : Code) (cell : Option Nat) (addr : Word) : Kept s (endFlight s f code cell addr) := by
  unfold endFlight; dsimp only; (repeat' split) <;> simp [Kept]
@[simp] theorem skipFlight_kept (s : State) (f : Flight) : Kept s (skipFlight s f) := by
  unfold skipFlight; (repeat' split) <;> simp [Kept]
@[simp] theorem stopFlight_kept (s : State) (f : Flight) (reason : ParkReason) (n : Nat) : Kept s (stopFlight s f reason n) := by simp [Kept, stopFlight]
@[simp] theorem settleChannel_kept (s : State) (cell ch : Nat) : Kept s (settleChannel s cell ch) := by
  unfold settleChannel; (repeat' split) <;> simp [Kept]
@[simp] theorem settlePause_kept (s : State) (c : Nat) : Kept s (settlePause s c) := by
  unfold settlePause; (repeat' split) <;> simp [Kept]
@[simp] theorem parkFlight_kept (s : State) (f : Flight) : Kept s (parkFlight s f) := by
  unfold parkFlight; dsimp only; (repeat' split) <;> simp [Kept]
@[simp] theorem parkIfReady_kept (s : State) (insn : Nat) : Kept s (parkIfReady s insn) := by
  unfold parkIfReady; (repeat' split) <;> simp [Kept]
@[simp] theorem parkAll_kept (s : State) : Kept s (parkAll s) := by simp [Kept, parkAll]
@[simp] theorem unpark_kept (s : State) (insn : Nat) : Kept s (unpark s insn) := by
  unfold unpark; dsimp only; (repeat' split) <;> simp [Kept]
@[simp] theorem pauseFlight_kept (s : State) (reason : ParkReason) (f : Flight) : Kept s (pauseFlight s reason f) := by
  unfold pauseFlight; (repeat' split) <;> simp [Kept]
@[simp] theorem haltFlight_kept (s : State) (f : Flight) (cell : Nat) (code : Code) (isWrite : Bool) (addr : Word) (n : Nat) : Kept s (haltFlight s f cell code isWrite addr n) := by
  unfold haltFlight; dsimp only; (repeat' split) <;> simp [Kept]
@[simp] theorem wakeDrain_kept (s : State) (c : Nat) : Kept s (wakeDrain s c) := by
  unfold wakeDrain; (repeat' split) <;> simp [Kept]
@[simp] theorem wakeDrains_kept (s : State) : Kept s (wakeDrains s) := by simp [Kept, wakeDrains]

/-! Machine/Issue.lean. -/

@[simp] theorem useTurn_kept (s : State) (c : Nat) : Kept s (useTurn s c) := by simp [Kept, useTurn]
@[simp] theorem refuse_kept (s : State) (c : Nat) (code : Code) (addr : Word) : Kept s (refuse s c code addr) := by simp [Kept, refuse]
@[simp] theorem sendOrders_kept (s : State) (f : Flight) : Kept s (sendOrders s f) := by simp [Kept, sendOrders]
@[simp] theorem issueFlight_kept (s : State) (c : Nat) (f : Flight) : Kept s (issueFlight s c f) := by simp [Kept, issueFlight]
@[simp] theorem issueOrHold_kept (s : State) (c : Nat) (w : Insn) (check : Flight → Option Code) : Kept s (issueOrHold s c w check) := by
  unfold issueOrHold; dsimp only; (repeat' split) <;> simp [Kept]

/-! Machine/Control.lean. -/

@[simp] theorem setSlot_kept (s : State) (c k : Nat) (x : Slot) : Kept s (setSlot s c k x) := by simp [Kept, setSlot]
@[simp] theorem failForme_kept (s : State) (c k : Nat) (code : Code) (addr : Word) : Kept s (failForme s c k code addr) := by simp [Kept, failForme]
@[simp] theorem setLoop_kept (s : State) (c k : Nat) (v : BitVec 32) : Kept s (setLoop s c k v) := by simp [Kept, setLoop]
@[simp] theorem transfer_kept (s : State) (c : Nat) (w : Insn) (k : State → Word → State) (h : ∀ s t, Kept s (k s t)): Kept s (transfer s c w k) := by
  unfold transfer; dsimp only; split <;> simp [Kept, h]
@[simp] theorem startAbandon_kept (s : State) (c : Nat) : Kept s (startAbandon s c) := by simp [Kept, startAbandon]

/-! Machine/Peals.lean. -/

@[simp] theorem beginDump_kept (s : State) (ts : List Trigger) : Kept s (beginDump s ts) := by simp [Kept, beginDump]
@[simp] theorem triggerDump_kept (s : State) (t : Trigger) : Kept s (triggerDump s t) := by
  unfold triggerDump; dsimp only; (repeat' split) <;> simp [Kept]
@[simp] theorem clearParties_kept (s : State) (n : Nat) : Kept s (clearParties s n) := by simp [Kept, clearParties]
@[simp] theorem finishWait_kept (s : State) (c : Nat) : Kept s (finishWait s c) := by simp [Kept, finishWait]
@[simp] theorem finishArrive_kept (n : Nat) (s : State) (c : Nat) : Kept s (finishArrive n s c) := by simp [Kept, finishArrive]
@[simp] theorem faultWaiters_kept (s : State) (n : Nat) (code : Code) : Kept s (faultWaiters s n code) := by simp [Kept, faultWaiters]
@[simp] theorem failHere_kept (s : State) (n : Nat) : Kept s (failHere s n) := by simp [Kept, failHere]
@[simp] theorem failLine_kept (s : State) (n : Nat) : Kept s (failLine s n) := by simp [Kept, failLine]

/-! Machine/Sync.lean. -/

@[simp] theorem sendSignal_kept (s : State) (c : Nat) (w : Insn) (op : ChimeOp) : Kept s (sendSignal s c w op) := by simp [Kept, sendSignal]
@[simp] theorem sendPoll_kept (s : State) (c : Nat) : Kept s (sendPoll s c) := by
  unfold sendPoll; dsimp only; (repeat' split) <;> simp [Kept]
@[simp] theorem startWaitChime_kept (s : State) (c : Nat) (w : Insn) (op : Nat) (t : BitVec 32) : Kept s (startWaitChime s c w op t) := by simp [Kept, startWaitChime]
@[simp] theorem changeStrobe_kept (s : State) (a : Word) : Kept s (changeStrobe s a) := by simp [Kept, changeStrobe]
@[simp] theorem answerPoll_kept (s : State) (m : Msg) (ask c : Nat) (epoch : BitVec 32) (value : BitVec 32) (took : Bool) (fault : Code) : Kept s (answerPoll s m ask c epoch value took fault) := by
  unfold answerPoll; (repeat' split) <;> simp [Kept]
@[simp] theorem answerChime_kept (s : State) (cell : Nat) (u : ChimePend) (code : Code) (bus : Bool) : Kept s (answerChime s cell u code bus) := by
  unfold answerChime; dsimp only; (repeat' split) <;> simp [Kept]
@[simp] theorem takePollResult_kept (s : State) (c id : Nat) (value : BitVec 32) (took : Bool) (fault : Code) : Kept s (takePollResult s c id value took fault) := by
  unfold takePollResult; dsimp only; (repeat' split) <;> simp [Kept]
@[simp] theorem endSub_kept (s : State) (c : Nat) (fault : Code) : Kept s (endSub s c fault) := by
  unfold endSub; (repeat' split) <;> simp [Kept]

end Sys2Proof.Machine
end

