-- ==== Sys2Proof/Laws/KeptEvents.lean ====
section
/-!
SUPPORT. What the operations of streams, contexts, channels, domains, modes, time, arrivals and responses keep: the queue, memory, keys and locks, the Toll's period and the attach in progress.
-/

namespace Sys2Proof.Machine

/-! Machine/Remote.lean. -/

@[simp] theorem retireWindow_kept (s : State) (chip : Nat) : Kept s (retireWindow s chip) := by
  unfold retireWindow; dsimp only; (repeat' split) <;> simp [Kept]
@[simp] theorem dropUpdates_kept (s : State) (insn : Nat) : Kept s (dropUpdates s insn) := by simp [Kept, dropUpdates]
@[simp] theorem clearDue_kept (s : State) (chip insn : Nat) : Kept s (clearDue s chip insn) := by simp [Kept, clearDue]
@[simp] theorem endItems_kept (s : State) (chip insn : Nat) (code : Code) : Kept s (endItems s chip insn code) := by
  unfold endItems; (repeat' split) <;> simp [Kept]
@[simp] theorem failHeld_kept (s : State) (chip : Nat) (code : Code) (h : Held) : Kept s (failHeld s chip code h) := by
  unfold failHeld; (repeat' split) <;> simp [Kept]
@[simp] theorem faultFences_kept (s : State) (chip : Nat) : Kept s (faultFences s chip) := by simp [Kept, faultFences]
@[simp] theorem faultPolls_kept (s : State) (chip : Nat) : Kept s (faultPolls s chip) := by
  unfold faultPolls
  refine each_kept _ _ s fun s p => ?_
  dsimp only; (repeat' split) <;> simp [Kept]
@[simp] theorem endStream_kept (s : State) (chip : Nat) (peer : Peer) : Kept s (endStream s chip peer) := by
  unfold endStream; (repeat' split) <;> simp [Kept]
@[simp] theorem failTrees_kept (s : State) (link : Nat) : Kept s (failTrees s link) := by simp [Kept, failTrees]
@[simp] theorem loseStream_kept (s : State) (chip : Nat) : Kept s (loseStream s chip) := by simp [Kept, loseStream]
@[simp] theorem refuseItem_kept (s : State) (cell : Nat) (it : Item) (insn : Option Nat) (addr : Word) (code : Code) (ends : Bool) : Kept s (refuseItem s cell it insn addr code ends) := by
  unfold refuseItem; dsimp only; (repeat' split) <;> simp [Kept]
@[simp] theorem acceptOrder_kept (s : State) (it : Item) (cell k : Nat) (j : Job) (index : List Nat) (reads : Bool) : Kept s (acceptOrder s it cell k j index reads) := by simp [Kept, acceptOrder]
@[simp] theorem refuseOrder_kept (s : State) (cell : Nat) (it : Item) (i : Nat) (j : Job) : Kept s (refuseOrder s cell it i j) := by simp [Kept, refuseOrder]
@[simp] theorem feed_kept (s : State) (f : Flight) (cell r : Nat) (es : List (Nat × Nat)) (scales : List (Nat × Nat)) (taken : Bool) : Kept s (feed s f cell r es scales taken) := by simp [Kept, feed]
@[simp] theorem noteRefused_kept (s : State) (insn : Nat) (es : List (Nat × Nat)) : Kept s (noteRefused s insn es) := by simp [Kept, noteRefused]
@[simp] theorem handData_kept (s : State) (cell : Nat) (it : Item) (k r : Nat) (es scales : List (Nat × Nat)) : Kept s (handData s cell it k r es scales) := by
  unfold handData; dsimp only; (repeat' split) <;> simp [Kept]
@[simp] theorem notePerformed_kept (s : State) (chip k : Nat) : Kept s (notePerformed s chip k) := by
  unfold notePerformed; (repeat' split) <;> simp [Kept]
@[simp] theorem noteCompletion_kept (s : State) (cell chip k : Nat) (at_ : Word) : Kept s (noteCompletion s cell chip k at_) := by
  unfold noteCompletion; (repeat' split) <;> simp [Kept]
@[simp] theorem handOn_kept (cell : Nat) (s : State) (it : Item) : Kept s (handOn cell s it) := by
  unfold handOn; dsimp only; (repeat' split) <;> simp [Kept]
@[simp] theorem sendAck_kept (s : State) (chip : Nat) (w : Window) : Kept s (sendAck s chip w) := by simp [Kept, sendAck]
@[simp] theorem failItem_kept (s : State) (cell : Nat) (it : Item) (code : Code) : Kept s (failItem s cell it code) := by
  unfold failItem; dsimp only; (repeat' split) <;> simp [Kept]
@[simp] theorem failGroup_kept (s : State) (w : Window) (g : List Item) (code : Code) : Kept s (failGroup s w g code) := by
  unfold failGroup; dsimp only; (repeat' split) <;> simp [Kept]
@[simp] theorem advance_kept (s : State) (chip : Nat) (w : Window) (n : Nat) : Kept s (advance s chip w n) := by simp [Kept, advance]
@[simp] theorem openGroup_kept (s : State) (chip : Nat) (w : Window) : Kept s (openGroup s chip w) := by
  unfold openGroup; dsimp only; (repeat' split) <;> simp [Kept]
@[simp] theorem ackIfDue_kept (s : State) (chip : Nat) : Kept s (ackIfDue s chip) := by
  unfold ackIfDue; (repeat' split) <;> simp [Kept]
@[simp] theorem pump_kept (chip fuel : Nat) (s : State) : Kept s (pump chip fuel s) := by
  induction fuel generalizing s with
  | zero => simp [Kept, pump]
  | succ n ih =>
    unfold pump
    (repeat' split) <;> first | (simp [Kept]; done) | exact Kept.trans (by simp [Kept]) (ih _)
@[simp] theorem pumpWindow_kept (s : State) (chip : Nat) : Kept s (pumpWindow s chip) := by
  unfold pumpWindow; (repeat' split) <;> simp [Kept]
@[simp] theorem resend_kept (s : State) (chip : Nat) (timer : Bool) : Kept s (resend s chip timer) := by simp [Kept, resend]
@[simp] theorem reroute_kept (s : State) (chip : Nat) : Kept s (reroute s chip) := by
  unfold reroute; dsimp only; (repeat' split) <;> simp [Kept]
@[simp] theorem linkFails_kept (s : State) (cell : Nat) : Kept s (linkFails s cell) := by simp [Kept, linkFails]
@[simp] theorem takeRefusal_kept (s : State) (c : Nat) (i : Option Nat) (code : Code) (ends : Bool) (pc : Word) : Kept s (takeRefusal s c i code ends pc) := by
  unfold takeRefusal; (repeat' split) <;> simp [Kept]

/-! Machine/Contexts.lean. -/

@[simp] theorem takeSlices_kept (s : State) (n c ch dom : Nat) (pre : Bool) (ks : List Nat) : Kept s (takeSlices s n c ch dom pre ks) := by simp [Kept, takeSlices]
@[simp] theorem grantPools_kept (s : State) (n c : Nat) (lead : Bool) (g : Grant) : Kept s (grantPools s n c lead g) := by
  unfold grantPools; dsimp only; (repeat' split) <;> simp [Kept]
@[simp] theorem reserveAt_kept (s : State) (c dom : Nat) (lead : Bool) (g : Grant) (n : Nat) : Kept s (reserveAt s c dom lead g n) := by simp [Kept, reserveAt]
@[simp] theorem reserveAll_kept (s : State) (c dom : Nat) (lead : Bool) (gs : List Grant) : Kept s (reserveAll s c dom lead gs) := by simp [Kept, reserveAll]
@[simp] theorem endCmd_kept (s : State) (c : Nat) (r : BitVec 8) : Kept s (endCmd s c r) := by simp [Kept, endCmd]
@[simp] theorem ignoreCmd_kept (s : State) (c : Nat) : Kept s (ignoreCmd s c) := by simp [Kept, ignoreCmd]
@[simp] theorem finishLoad_kept (s : State) (c : Nat) : Kept s (finishLoad s c) := by simp [Kept, finishLoad]
@[simp] theorem occupy_kept (s : State) (c : Nat) (ws : List Word) (cmd : CtxCmd) (fill : State → State) (h : ∀ s, Kept s (fill s)) : Kept s (occupy s c ws cmd fill) := by
  unfold occupy; dsimp only; split <;> simp [Kept, h]
@[simp] theorem fillImage_kept (img : List Byte) (c : Nat) (s : State) : Kept s (fillImage img c s) := by simp [Kept, fillImage]
@[simp] theorem enrolImage_kept (img : List Byte) (c : Nat) (s : State) : Kept s (enrolImage img c s) := by simp [Kept, enrolImage]
@[simp] theorem neverLate_kept (s : State) (insn : Nat) : Kept s (neverLate s insn) := by simp [Kept, neverLate]
@[simp] theorem dropFlight_kept (s : State) (f : Flight) : Kept s (dropFlight s f) := by simp [Kept, dropFlight]
@[simp] theorem settleAbandon_kept (s : State) (c : Nat) : Kept s (settleAbandon s c) := by
  unfold settleAbandon; dsimp only; (repeat' split) <;> simp [Kept]
@[simp] theorem enterStopping_kept (s : State) (c : Nat) : Kept s (enterStopping s c) := by
  unfold enterStopping; dsimp only; (repeat' split) <;> simp [Kept]
@[simp] theorem abortCtx_kept (s : State) (c : Nat) : Kept s (abortCtx s c) := by
  unfold abortCtx; (repeat' split) <;> simp [Kept]
@[simp] theorem pauseCtx_kept (s : State) (c : Nat) : Kept s (pauseCtx s c) := by simp [Kept, pauseCtx]
@[simp] theorem freeHoldings_kept (s : State) (c : Nat) : Kept s (freeHoldings s c) := by simp [Kept, freeHoldings]
@[simp] theorem startCtx_kept (s : State) (c : Nat) : Kept s (startCtx s c) := by
  unfold startCtx; dsimp only; (repeat' split) <;> simp [Kept]

/-! Machine/Channels.lean. -/

@[simp] theorem ignoreChannel_kept (s : State) (cell ch : Nat) : Kept s (ignoreChannel s cell ch) := by simp [Kept, ignoreChannel]
@[simp] theorem endPause_kept (s : State) (cell ch : Nat) : Kept s (endPause s cell ch) := by simp [Kept, endPause]
@[simp] theorem endStopped_kept (s : State) (cell ch insn : Nat) : Kept s (endStopped s cell ch insn) := by
  unfold endStopped; (repeat' split) <;> simp [Kept]
@[simp] theorem stopChannel_kept (s : State) (cell ch : Nat) : Kept s (stopChannel s cell ch) := by
  unfold stopChannel; dsimp only; (repeat' split) <;> simp [Kept]
@[simp] theorem endLoading_kept (s : State) (c : Nat) : Kept s (endLoading s c) := by
  unfold endLoading; dsimp only; (repeat' split) <;> simp [Kept]
@[simp] theorem abortHomed_kept (s : State) (c : Nat) : Kept s (abortHomed s c) := by
  unfold abortHomed; (repeat' split) <;> simp [Kept]
@[simp] theorem endForeign_kept (s : State) (cell : Nat) : Kept s (endForeign s cell) := by
  refine each_kept _ _ s fun s f => ?_
  split <;> simp [Kept]
@[simp] theorem stopCell_kept (s : State) (n : Nat) : Kept s (stopCell s n) := by
  unfold stopCell; dsimp only; (repeat' split) <;> simp [Kept]
@[simp] theorem staleServed_kept (s : State) (n : Nat) : Kept s (staleServed s n) := by simp [Kept, staleServed]
@[simp] theorem disableCores_kept (s : State) (n : Nat) : Kept s (disableCores s n) := by simp [Kept, disableCores]
@[simp] theorem retireCell_kept (s : State) (n : Nat) : Kept s (retireCell s n) := by
  unfold retireCell; dsimp only; (repeat' split) <;> simp [Kept]
@[simp] theorem markDegraded_kept (s : State) (n : Nat) : Kept s (markDegraded s n) := by
  unfold markDegraded; (repeat' split) <;> simp [Kept]
@[simp] theorem addEvent_kept (s : State) (n : Nat) : Kept s (addEvent s n) := by
  unfold addEvent; dsimp only; (repeat' split) <;> simp [Kept]
@[simp] theorem stopLine_kept (s : State) (n : Nat) : Kept s (stopLine s n) := by
  unfold stopLine; (repeat' split) <;> simp [Kept]

/-! Machine/Domains.lean. -/

@[simp] theorem rejectDom_kept (s : State) (d cause : Nat) : Kept s (rejectDom s d cause) := by simp [Kept, rejectDom]
@[simp] theorem staleDomain_kept (s : State) (d : Nat) : Kept s (staleDomain s d) := by simp [Kept, staleDomain]

/-! Machine/Modes.lean. -/

@[simp] theorem modChip_kept (s : State) (f : Regs → Regs) : Kept s (modChip s f) := by simp [Kept, modChip]
@[simp] theorem ignoreMode_kept (s : State) : Kept s (ignoreMode s) := by simp [Kept, ignoreMode]
@[simp] theorem refuseMode_kept (s : State) (e : ModeResult) : Kept s (refuseMode s e) := by simp [Kept, refuseMode]
@[simp] theorem newIncarnation_kept (s : State) : Kept s (newIncarnation s) := by simp [Kept, newIncarnation]
@[simp] theorem wakeToll_kept (s : State) (c : Nat) : Kept s (wakeToll s c) := by
  unfold wakeToll; (repeat' split) <;> simp [Kept]
@[simp] theorem overrunCtx_kept (s : State) (ls : List Late) (c : Nat) : Kept s (overrunCtx s ls c) := by
  unfold overrunCtx; dsimp only; (repeat' split) <;> simp [Kept]
@[simp] theorem pulseCtx_kept (s : State) (c : Nat) : Kept s (pulseCtx s c) := by
  unfold pulseCtx
  extract_lets x t
  have ht : Kept s t := modCtx_kept _ _ _
  clear_value t x
  refine ht.trans ?_
  cases x.wait with
  | toll _ => exact wakeToll_kept _ _
  | guarded => exact modCtx_kept _ _ _
  | firstToll =>
    dsimp only
    split
    · exact (modCtx_kept _ _ _).trans ((endWait_kept _ _).trans (settleList_kept _ _))
    · exact modCtx_kept _ _ _
  | _ => exact Kept.refl _
@[simp] theorem settleOverruns_kept (s : State) : Kept s (settleOverruns s) := by
  unfold settleOverruns; dsimp only; (repeat' split) <;> simp [Kept]
@[simp] theorem startAhead_kept (s : State) (c : Nat) : Kept s (startAhead s c) := by
  unfold startAhead; dsimp only; (repeat' split) <;> simp [Kept]
@[simp] theorem pauseWorking_kept (s : State) (c : Nat) : Kept s (pauseWorking s c) := by
  unfold pauseWorking; (repeat' split) <;> simp [Kept]
@[simp] theorem restartTimers_kept (s : State) (now : Word) : Kept s (restartTimers s now) := by simp [Kept, restartTimers]
@[simp] theorem detachStop_kept (s : State) : Kept s (detachStop s) := by
  unfold detachStop; dsimp only; (repeat' split) <;> simp [Kept]
@[simp] theorem goodbye_kept (s : State) (chip : Nat) : Kept s (goodbye s chip) := by
  unfold goodbye; dsimp only; (repeat' split) <;> simp [Kept]
@[simp] theorem offByFuse_kept (s : State) : Kept s (offByFuse s) := by simp [Kept, offByFuse]
@[simp] theorem correctAt_kept (s : State) (cell : Nat) (kind : CorrKind) : Kept s (correctAt s cell kind) := by simp [Kept, correctAt]
@[simp] theorem galleyLost_kept (s : State) (cell : Nat) (insn : Option Nat) : Kept s (galleyLost s cell insn) := by
  unfold galleyLost; dsimp only; (repeat' split) <;> simp [Kept]
@[simp] theorem loseContext_kept (s : State) (c : Nat) : Kept s (loseContext s c) := by simp [Kept, loseContext]
@[simp] theorem endLost_kept (s : State) (f : Flight) : Kept s (endLost s f) := by
  unfold endLost; (repeat' split) <;> simp [Kept]
@[simp] theorem endLostSub_kept (s : State) (c : Nat) : Kept s (endLostSub s c) := by
  unfold endLostSub; (repeat' split) <;> simp [Kept]
@[simp] theorem endLostChime_kept (s : State) (u : ChimePend) : Kept s (endLostChime s u) := by
  unfold endLostChime; (repeat' split) <;> simp [Kept]
@[simp] theorem endLostPoll_kept (s : State) (c : Nat) : Kept s (endLostPoll s c) := by
  unfold endLostPoll; dsimp only; (repeat' split) <;> simp [Kept]
@[simp] theorem endLostWait_kept (s : State) (c : Nat) : Kept s (endLostWait s c) := by
  unfold endLostWait; dsimp only; (repeat' split) <;> simp [Kept]
@[simp] theorem endLostMsg_kept (s : State) (m : Msg) : Kept s (endLostMsg s m) := by
  unfold endLostMsg; (repeat' split) <;> simp [Kept]
@[simp] theorem loseEast_kept (s : State) : Kept s (loseEast s) := by simp [Kept, loseEast]

/-! Machine/RegWrites.lean. -/

@[simp] theorem allCells_kept (s : State) (f : Cell → Cell) : Kept s (allCells s f) := by simp [Kept, allCells]
@[simp] theorem damperActs_kept (s : State) (d : Damper) : Kept s (damperActs s d) := by
  unfold damperActs; dsimp only; (repeat' split) <;> simp [Kept]
@[simp] theorem damperCmd_kept (s : State) (op : Nat) (now : Bool) : Kept s (damperCmd s op now) := by
  unfold damperCmd; dsimp only; (repeat' split) <;> simp [Kept]
@[simp] theorem modCounter_kept (s : State) (owner : CounterOwner) (k : Nat) (f : Counter → Counter) : Kept s (modCounter s owner k f) := by
  unfold modCounter; dsimp only; (repeat' split) <;> simp [Kept]
@[simp] theorem writeSystem_kept (s : State) (v : Word) : Kept s (writeSystem s v) := by
  unfold writeSystem; (repeat' split) <;> simp [Kept]
@[simp] theorem writeRemote_kept (s : State) (v : Word) : Kept s (writeRemote s v) := by simp [Kept, writeRemote]
@[simp] theorem writeTree_kept (s : State) (n : Nat) (v : Word) : Kept s (writeTree s n v) := by
  unfold writeTree; (repeat' split) <;> simp [Kept]
@[simp] theorem writeRange_kept (s : State) (d reg : Nat) (v : Word) : Kept s (writeRange s d reg v) := by
  unfold writeRange; dsimp only; (repeat' split) <;> simp [Kept]
@[simp] theorem restoreWear_kept (s : State) (n : Nat) (f : Wear → Wear) : Kept s (restoreWear s n f) := by simp [Kept, restoreWear]

/-! Machine/TimePower.lean. -/

@[simp] theorem modClock_kept (s : State) (east : Bool) (f : Clock → Clock) : Kept s (modClock s east f) := by simp [Kept, modClock]
@[simp] theorem setFloor_kept (s : State) (east ok : Bool) : Kept s (setFloor s east ok) := by
  unfold setFloor; dsimp only; (repeat' split) <;> simp [Kept]
@[simp] theorem startHeldStep_kept (east : Bool) (s : State) : Kept s (startHeldStep east s) := by
  unfold startHeldStep; dsimp only; (repeat' split) <;> simp [Kept]
@[simp] theorem judgeLock_kept (s : State) (offset : Int) : Kept s (judgeLock s offset) := by
  unfold judgeLock; dsimp only; (repeat' split) <;> simp [Kept]
@[simp] theorem reportActivity_kept (s : State) (cell : Nat) (endTime : Word) : Kept s (reportActivity s cell endTime) := by simp [Kept, reportActivity]
@[simp] theorem pulseOrHold_kept (s : State) (c : Nat) : Kept s (pulseOrHold s c) := by
  unfold pulseOrHold; dsimp only; (repeat' split) <;> simp [Kept]
@[simp] theorem dropLend_kept (s : State) (cell : Nat) : Kept s (dropLend s cell) := by
  unfold dropLend; (repeat' split) <;> simp [Kept]

/-! Machine/Arrivals.lean. -/

@[simp] theorem sweepOrders_kept (s : State) : Kept s (sweepOrders s) := by simp [Kept, sweepOrders]
@[simp] theorem afterEnd_kept (s : State) (c : Nat) : Kept s (afterEnd s c) := by simp [Kept, afterEnd]
@[simp] theorem endWith_kept (s : State) (f : Flight) (code : Code) (cell : Nat) (addr : Word) : Kept s (endWith s f code cell addr) := by simp [Kept, endWith]
@[simp] theorem failForeign_kept (s : State) (cell : Nat) (f : Flight) (chip k : Nat) (code : Code) : Kept s (failForeign s cell f chip k code) := by simp [Kept, failForeign]
@[simp] theorem queueOrders_kept (s : State) (f : Flight) (cell : Nat) : Kept s (queueOrders s f cell) := by
  unfold queueOrders; dsimp only; (repeat' split) <;> simp [Kept]
@[simp] theorem dropSlug_kept (s : State) (id : Nat) : Kept s (dropSlug s id) := by simp [Kept, dropSlug]
@[simp] theorem landChime_kept (s : State) (id : Nat) : Kept s (landChime s id) := by simp [Kept, landChime]
@[simp] theorem allDone_kept (s : State) (insn : Nat) : Kept s (allDone s insn) := by
  unfold allDone; (repeat' split) <;> simp [Kept]
@[simp] theorem countService_kept (s : State) (cell : Nat) (u : ChimePend) : Kept s (countService s cell u) := by simp [Kept, countService]
@[simp] theorem forwardChime_kept (s : State) (u : ChimePend) : Kept s (forwardChime s u) := by
  unfold forwardChime; dsimp only; (repeat' split) <;> simp [Kept]

/-! Machine/Responses.lean. -/

@[simp] theorem failAt_kept (s : State) (f : Flight) (cell : Nat) (code : Code) (addr : Word) (n : Nat) : Kept s (failAt s f cell code addr n) := by simp [Kept, failAt]
@[simp] theorem endFailed_kept (s : State) (f : Flight) : Kept s (endFailed s f) := by
  unfold endFailed; (repeat' split) <;> simp [Kept]
@[simp] theorem verifyBlock_kept (insn cell : Nat) (s : State) (b : Nat) : Kept s (verifyBlock insn cell s b) := by
  unfold verifyBlock; dsimp only; (repeat' split) <;> simp [Kept]
@[simp] theorem verifyBlocks_kept (s : State) (insn cell : Nat) : Kept s (verifyBlocks s insn cell) := by
  unfold verifyBlocks; (repeat' split) <;> simp [Kept]
@[simp] theorem takeIndex_kept (s : State) (f : Flight) (a : Access) (data : List Sector) : Kept s (takeIndex s f a data) := by
  unfold takeIndex; dsimp only; (repeat' split) <;> simp [Kept]
@[simp] theorem takeRead_kept (s : State) (a : Access) (data : List Sector) : Kept s (takeRead s a data) := by
  unfold takeRead; dsimp only; (repeat' split) <;> simp [Kept]
@[simp] theorem failRead_kept (s : State) (a : Access) (code : Code) : Kept s (failRead s a code) := by
  unfold failRead; dsimp only; (repeat' split) <;> simp [Kept]
@[simp] theorem dropAccess_kept (s : State) (tag : Nat) : Kept s (dropAccess s tag) := by simp [Kept, dropAccess]
@[simp] theorem useInjected_kept (s : State) (cell : Nat) : Kept s (useInjected s cell) := by
  unfold useInjected; (repeat' split) <;> simp [Kept]
@[simp] theorem finishWrite_kept (s : State) (insn tag : Nat) : Kept s (finishWrite s insn tag) := by
  unfold finishWrite; dsimp only; (repeat' split) <;> simp [Kept]
@[simp] theorem failWrite_kept (s : State) (a : Access) (code : Code) : Kept s (failWrite s a code) := by
  unfold failWrite; dsimp only; (repeat' split) <;> simp [Kept]
@[simp] theorem faultFence_kept (s : State) (h : Flush) (code : Code) : Kept s (faultFence s h code) := by
  unfold faultFence; (repeat' split) <;> simp [Kept]
@[simp] theorem faultChimes_kept (s : State) (h : Flush) (code : Code) : Kept s (faultChimes s h code) := by simp [Kept, faultChimes]
@[simp] theorem endFlush_kept (s : State) (h : Flush) (code : Option Code) : Kept s (endFlush s h code) := by
  unfold endFlush; dsimp only; (repeat' split) <;> simp [Kept]
@[simp] theorem retryRead_kept (s : State) (a : Access) : Kept s (retryRead s a) := by simp [Kept, retryRead]
@[simp] theorem retryFlush_kept (s : State) (h : Flush) : Kept s (retryFlush s h) := by simp [Kept, retryFlush]

end Sys2Proof.Machine
end

