-- ==== Sys2Proof/Laws/KeptCycle.lean ====
section
/-!
SUPPORT. What the stages and the engine cycle keep: the queue, memory, keys and locks, the Toll's period and the attach in progress.
-/

namespace Sys2Proof.Machine

/-! Machine/Stages.lean. -/

@[simp] theorem noteGrant_kept {α : Type} (s : State) (cell : Nat) (g : Stage) (r : Ask α) : Kept s (noteGrant s cell g r) := by
  unfold noteGrant; dsimp only; (repeat' split) <;> simp [Kept]
@[simp] theorem noteWait_kept (s : State) (east : Bool) (insn key : Nat) : Kept s (noteWait s east insn key) := by simp [Kept, noteWait]
@[simp] theorem notePreempted_kept (s : State) (insn : Nat) : Kept s (notePreempted s insn) := by simp [Kept, notePreempted]
theorem rereadWork_kept {s : State} {f : Flight} {o : Order} {w : ReadWork} (h : rereadWork s f o = some w) : Kept s w.state := by
  unfold rereadWork at h
  split at h
  · cases h
  · split at h
    · simp only [Option.map_eq_some_iff] at h
      obtain ⟨⟨t, x⟩, hp, rfl⟩ := h
      split at hp
      · cases hp; exact Kept.refl _
      · exact planReread_kept hp
    · cases h; exact Kept.refl _
    · cases h; exact Kept.refl _
    · cases h
theorem readWork_kept {s : State} {f : Flight} {o : Order} {w : ReadWork} (h : readWork s f o = some w) : Kept s w.state := by
  unfold readWork at h
  split at h
  · cases h
  · split at h
    · rename_i hw; cases h; exact rereadWork_kept hw
    · split at h
      · cases h; simp [Kept]
      · split at h
        · cases h; simp [Kept]
        · simp only [Option.map_eq_some_iff] at h
          obtain ⟨⟨t, x, p⟩, hp, rfl⟩ := h
          exact planRead_kept hp
@[simp] theorem countAccess_kept (s : State) (cell : Nat) (f : Flight) (w : Work) : Kept s (countAccess s cell f w) := by
  unfold countAccess; dsimp only; (repeat' split) <;> simp [Kept]
@[simp] theorem issueRead_kept (s : State) (f : Flight) (cell : Nat) (k : AccessKind) (secs : List Nat) : Kept s (issueRead s f cell k secs) := by
  unfold issueRead; dsimp only; (repeat' split) <;> simp [Kept]
@[simp] theorem readWords_kept (s : State) (f : Flight) (cell key sector : Nat) : Kept s (readWords s f cell key sector) := by simp [Kept, readWords]
@[simp] theorem readRegs_kept (s : State) (f : Flight) (o : Order) : Kept s (readRegs s f o) := by
  unfold readRegs
  split
  · rename_i w hw
    have := readWork_kept hw
    split
    · refine Kept.trans this ?_
      dsimp only; (repeat' split) <;> simp [Kept]
    · exact Kept.refl _
  · exact Kept.refl _
@[simp] theorem grantRead_kept (s : State) (f : Flight) (o : Order) : Kept s (grantRead s f o) := by
  unfold grantRead
  split
  · rename_i w hw
    have := readWork_kept hw
    refine Kept.trans this ?_
    simp [Kept]
  · exact Kept.refl _
@[simp] theorem countCast_kept (s : State) (f : Flight) (o : Order) (l : Nat) : Kept s (countCast s f o l) := by simp [Kept, countCast]
@[simp] theorem issueWrite_kept (s : State) (f : Flight) (cell : Nat) (ws : List AuxWrite) : Kept s (issueWrite s f cell ws) := by simp [Kept, issueWrite]
@[simp] theorem writeWords_kept (s : State) (f : Flight) (cell key : Nat) (ws : List AuxWrite) : Kept s (writeWords s f cell key ws) := by simp [Kept, writeWords]
@[simp] theorem passItem_kept (s : State) (f : Flight) (o : Order) (l : Nat) (next : WritePos) (es : List (Nat × Nat)) : Kept s (passItem s f o l next es) := by simp [Kept, passItem]
@[simp] theorem doData_kept (s : State) (f : Flight) (o : Order) (l : Nat) (next : WritePos) (ws fetch : List AuxWrite) : Kept s (doData s f o l next ws fetch) := by
  unfold doData; dsimp only; (repeat' split) <;> simp [Kept]
@[simp] theorem doWrite_kept (s : State) (f : Flight) (o : Order) (p : WritePlan) : Kept s (doWrite s f o p) := by
  unfold doWrite; dsimp only; (repeat' split) <;> simp [Kept]
@[simp] theorem grantWrite_kept (s : State) (f : Flight) (o : Order) : Kept s (grantWrite s f o) := by
  unfold grantWrite; (repeat' split) <;> simp [Kept]
@[simp] theorem sealNext_kept (s : State) (f : Flight) (o : Order) : Kept s (sealNext s f o) := by
  unfold sealNext
  split
  · cases hs : sealOne s f o _ with
    | none => exact endWith_kept _ _ _ _ _
    | some t => exact sealOne_kept hs
  · exact Kept.refl _
@[simp] theorem withOrder_kept (s : State) (insn cell : Nat) (k : State → Flight → Order → State) (h : ∀ s f o, Kept s (k s f o)) : Kept s (withOrder s insn cell k) := by
  unfold withOrder; (repeat' split) <;> simp [Kept, h]
@[simp] theorem claimScales_kept (s : State) (f : Flight) (o : Order) : Kept s (claimScales s f o) := by
  unfold claimScales; (repeat' split) <;> simp [Kept]
@[simp] theorem noteHeld_kept (s : State) (f : Flight) (o : Order) : Kept s (noteHeld s f o) := by
  unfold noteHeld; (repeat' split) <;> simp [Kept]
@[simp] theorem freeWork_kept (cell : Nat) (s : State) (insn : Nat) : Kept s (freeWork cell s insn) := by
  have act (k : State → Flight → Order → State) (hk : ∀ s f o, Kept s (k s f o)) (s : State) :
      Kept s (withOrder s insn cell fun s f o => if works s f o then k s f o else s) :=
    withOrder_kept _ _ _ _ fun s f o => by split <;> simp [Kept, hk]
  unfold freeWork; dsimp only
  refine Kept.trans ?_ (leaveIfDone_kept _ _ _)
  refine Kept.trans ?_ (act _ (fun s f o => noteHeld_kept _ _ _) _)
  refine Kept.trans ?_ (act _ (fun s f o => freeSlots_kept _ _ _) _)
  refine Kept.trans ?_ (act _ (fun s f o => by split <;> simp [Kept]) _)
  refine Kept.trans ?_ (act _ (fun s f o => by split <;> simp [Kept]) _)
  refine Kept.trans ?_ (act _ (fun s f o => by split <;> simp [Kept]) _)
  refine Kept.trans ?_ (act _ (fun s f o => by (repeat' split) <;> simp [Kept]) _)
  refine Kept.trans ?_ (act _ (fun s f o => claimScales_kept _ _ _) _)
  exact act _ (fun s f o => readRegs_kept _ _ _) _
@[simp] theorem issueFlush_kept (s : State) (cell c : Nat) (chime : Option Nat) : Kept s (issueFlush s cell c chime) := by simp [Kept, issueFlush]
@[simp] theorem grantFetch_kept (s : State) (cell : Nat) (job : PortJob) : Kept s (grantFetch s cell job) := by
  unfold grantFetch; (repeat' split) <;> simp [Kept]
@[simp] theorem grantService_kept (s : State) (cell : Nat) (job : PortJob) : Kept s (grantService s cell job) := by
  cases job <;> unfold grantService <;> dsimp only <;> (repeat' split) <;> simp [Kept]
@[simp] theorem portWaits_kept (cell : Nat) (cls : PortClass) (s : State) (a : Ask PortJob) : Kept s (portWaits cell cls s a) := by
  unfold portWaits; (repeat' split) <;> simp [Kept]
@[simp] theorem grantErrand_kept (s : State) (cell id : Nat) : Kept s (grantErrand s cell id) := by
  unfold grantErrand; (repeat' split) <;> simp [Kept]
@[simp] theorem grantPort_kept (cell : Nat) (s : State) (job : PortJob) : Kept s (grantPort cell s job) := by
  cases job <;> unfold grantPort <;> dsimp only <;> (repeat' split) <;> simp [Kept]
@[simp] theorem servePort_kept (t : Nat) (s : State) (cell : Nat) : Kept s (servePort t s cell) := by
  have losers (as : List (Ask PortJob)) (cls : PortClass) : Kept s (each as (portWaits cell cls) s) := each_kept _ _ _ fun s x => portWaits_kept _ _ _ _
  unfold servePort; dsimp only
  split
  · exact (losers _ _).trans ((noteGrant_kept _ _ _ _).trans (grantPort_kept _ _ _))
  · exact losers _ _
theorem creditFor_kept {s t : State} {f : Flight} {o : Order} {e : Staged} {id : Nat} (h : creditFor s f o e = some (t, id)) : Kept s t := by
  unfold creditFor at h
  split at h
  · cases h; simp [Kept]
  · split at h
    · cases h
    · exact takeCredit_kept h
@[simp] theorem moveLocal_kept (cell : Nat) (s : State) (insn : Nat) : Kept s (moveLocal cell s insn) := by
  unfold moveLocal
  refine withOrder_kept _ _ _ _ fun s f o => ?_
  split
  · split
    · rename_i h; refine Kept.trans (creditFor_kept h) ?_; split <;> simp [Kept]
    · exact Kept.refl _
  · exact Kept.refl _
@[simp] theorem enterMesh_kept (s : State) (p : Nat) (g : Slug) (ctx dom : Option Nat) : Kept s (enterMesh s p g ctx dom) := by simp [Kept, enterMesh]
@[simp] theorem grantSend_kept (s : State) (cell p : Nat) (a : Ask SendJob) : Kept s (grantSend s cell p a) := by
  unfold grantSend
  split
  · split <;> simp [Kept]
  · refine withOrder_kept _ _ _ _ fun s f o => ?_
    split
    · rename_i h; refine Kept.trans (creditFor_kept h) ?_; simp [Kept]
    · exact Kept.refl _
  · refine withOrder_kept _ _ _ _ fun s f o => ?_
    dsimp only; (repeat' split) <;> simp [Kept]
@[simp] theorem sendWaits_kept (cell p : Nat) (s : State) (i : Nat) : Kept s (sendWaits cell p s i) := by simp [Kept, sendWaits]
@[simp] theorem serveInject_kept (cell : Nat) (s : State) (p : Nat) : Kept s (serveInject cell s p) := by
  have losers (is : List Nat) : Kept s (each is (sendWaits cell p) s) := each_kept _ _ _ fun s x => sendWaits_kept _ _ _ _
  unfold serveInject; dsimp only
  split
  · exact (losers _).trans ((noteGrant_kept _ _ _ _).trans (grantSend_kept _ _ _ _))
  · exact losers _
@[simp] theorem linkWaits_kept (s : State) (east : Bool) (key : Nat) (gs : List Slug) (served : Option Nat) : Kept s (linkWaits s east key gs served) := by simp [Kept, linkWaits]
@[simp] theorem leaveBuffer_kept (s : State) (id : Nat) : Kept s (leaveBuffer s id) := by simp [Kept, leaveBuffer]
@[simp] theorem serveEject_kept (cell : Nat) (s : State) (p : Nat) : Kept s (serveEject cell s p) := by
  unfold serveEject; dsimp only; (repeat' split) <;> simp [Kept]
@[simp] theorem portBeats_kept (s : State) (cell : Nat) : Kept s (portBeats s cell) := by simp [Kept, portBeats]
@[simp] theorem crossLink_kept (s : State) (id : Nat) (l : Link) : Kept s (crossLink s id l) := by
  unfold crossLink; (repeat' split) <;> simp [Kept]
@[simp] theorem serveLink_kept (s : State) (l : Link) : Kept s (serveLink s l) := by
  unfold serveLink; dsimp only; (repeat' split) <;> simp [Kept]
@[simp] theorem endPath_kept (s : State) (f : Flight) (o : Order) (dst : Bool) : Kept s (endPath s f o dst) := by
  unfold endPath; (repeat' split) <;> simp [Kept]
@[simp] theorem pathBeat_kept (s : State) (cell : Nat) (p : Ask PathReq) : Kept s (pathBeat s cell p) := by
  unfold pathBeat; dsimp only
  refine Kept.trans ?_ (withOrder_kept _ _ _ _ fun s f o => by split <;> simp [Kept])
  exact modCell_kept s cell _
@[simp] theorem pathWaits_kept (cell : Nat) (s : State) (i : Nat) : Kept s (pathWaits cell s i) := by simp [Kept, pathWaits]
@[simp] theorem serveDatapath_kept (s : State) (cell : Nat) : Kept s (serveDatapath s cell) := by
  have losers (is : List Nat) : Kept s (each is (pathWaits cell) s) := each_kept _ _ _ fun s x => pathWaits_kept _ _ _
  unfold serveDatapath; dsimp only
  split
  · exact Kept.refl _
  · rename_i p _
    refine Kept.trans ?_ (pathBeat_kept _ _ _)
    refine Kept.trans (losers (((pathAsks s cell).map fun q => q.job.insn).eraseDups.filter fun i => i ≠ p.job.insn)) ?_
    (repeat' split) <;> simp [Kept]
@[simp] theorem endTile_kept (s : State) (cell key : Nat) : Kept s (endTile s cell key) := by
  unfold endTile
  refine withOrder_kept _ _ _ _ fun s f o => ?_
  dsimp only; (repeat' split) <;> simp [Kept]
@[simp] theorem tileWaits_kept (cell : Nat) (s : State) (i : Nat) : Kept s (tileWaits cell s i) := by simp [Kept, tileWaits]
@[simp] theorem serveImpose_kept (s : State) (cell : Nat) : Kept s (serveImpose s cell) := by
  have losers (is : List Nat) (s : State) : Kept s (each is (tileWaits cell) s) := each_kept _ _ _ fun s x => tileWaits_kept _ _ _
  have set (s : State) (f : Cell → Cell) : Kept s (modCell s cell f) := modCell_kept _ _ _
  unfold serveImpose
  extract_lets ts arb wanted now parked low preempt parked' a next run b c u set'
  have ha : Kept s a := by simp only [a]; (repeat' split) <;> simp [Kept]
  have hb : Kept a b := by simp only [b]; generalize next = z; cases z <;> simp [Kept]
  have hu : Kept s u := ha.trans (hb.trans (losers _ _))
  clear_value u run
  refine hu.trans ?_
  have hs (i : Option (Nat × Nat)) (t : State) : Kept t (set' i t) := modCell_kept _ _ _
  cases run with
  | none => dsimp only; split <;> simp [Kept, hs]
  | some k => dsimp only; split <;> simp [Kept, hs]

/-! Machine/Cycle.lean. -/

@[simp] theorem rearmLines_kept (s : State) : Kept s (rearmLines s) := by simp [Kept, rearmLines]
@[simp] theorem rearm_kept (east : Bool) (s : State) : Kept s (rearm east s) := by
  unfold rearm; split <;> simp [Kept]
@[simp] theorem moveUpAll_kept (east : Bool) (s : State) : Kept s (moveUpAll east s) := by simp [Kept, moveUpAll]
@[simp] theorem refill_kept (east : Bool) (s : State) : Kept s (refill east s) := by simp [Kept, refill]
@[simp] theorem grantRemote_kept (cell : Nat) (s : State) (q : Nat × Nat) : Kept s (grantRemote cell s q) := by
  unfold grantRemote; dsimp only; (repeat' split) <;> simp [Kept]
@[simp] theorem releaseRemote_kept (s : State) (p : Pool) : Kept s (releaseRemote s p) := by
  unfold releaseRemote; dsimp only; (repeat' split) <;> simp [Kept]
@[simp] theorem keepRemote_kept (cells : List Nat) (s : State) : Kept s (keepRemote cells s) := by simp [Kept, keepRemote]
@[simp] theorem dropOrphans_kept (s : State) : Kept s (dropOrphans s) := by simp [Kept, dropOrphans]
@[simp] theorem clearRouters_kept (s : State) : Kept s (clearRouters s) := by simp [Kept, clearRouters]
@[simp] theorem beginFetch_kept (s : State) (c : Nat) : Kept s (beginFetch s c) := by
  unfold beginFetch; dsimp only; (repeat' split) <;> simp [Kept]
@[simp] theorem giveTurn_kept (s : State) (cell : Nat) : Kept s (giveTurn s cell) := by simp [Kept, giveTurn]
@[simp] theorem gateCell_kept (t : Nat) (s : State) (cell : Nat) : Kept s (gateCell t s cell) := by
  unfold gateCell; dsimp only; (repeat' split) <;> simp [Kept]
theorem holdItem_kept {s t : State} {chip : Nat} {h k : Held} (e : holdItem s chip h = some (t, k)) : Kept s t := by
  have take {p : Option Pool} {q : State × Held} {g : Pool → Pool} {k : Pool → Held}
      (e : p.map (fun p => (modPool s p.id g, k p)) = some q) : Kept s q.1 := by
    simp only [Option.map_eq_some_iff] at e
    obtain ⟨p, -, rfl⟩ := e
    exact modPool_kept _ _ _
  unfold holdItem at e
  dsimp only at e
  split at e
  · cases e; exact Kept.refl _
  · split at e
    · simp only [Option.some.injEq] at e
      rw [Option.getD_eq_iff] at e
      rcases e with e | ⟨-, e⟩
      · simp only [Option.bind_eq_some_iff] at e
        obtain ⟨o, -, e⟩ := e
        exact take e
      · cases e; exact Kept.refl _
    · exact take e
@[simp] theorem serveStream_kept (s : State) (chip : Nat) : Kept s (serveStream s chip) := by
  unfold serveStream; dsimp only
  split
  · exact Kept.refl _
  · rename_i t h e
    simp only [Option.bind_eq_some_iff] at e
    obtain ⟨k, -, e⟩ := e
    refine (holdItem_kept e).trans ?_
    (repeat' split) <;> simp [Kept]
@[simp] theorem cellCycle_kept (t : Nat) (s : State) (cell : Nat) : Kept s (cellCycle t s cell) := by
  unfold cellCycle; (repeat' split) <;> simp [Kept]
@[simp] theorem settleAll_kept (s : State) : Kept s (settleAll s) := by
  unfold settleAll; dsimp only
  refine Kept.trans ?_ (each_kept _ _ _ fun s k => settleChannel_kept _ _ _)
  refine Kept.trans ?_ (each_kept _ _ _ fun s c => settlePause_kept _ _)
  refine Kept.trans ?_ (takeHalts_kept _)
  refine Kept.trans (parkAll_kept s) (each_kept _ _ _ fun s i => ?_)
  split <;> simp [Kept]
@[simp] theorem dropLends_kept (east : Bool) (s : State) : Kept s (dropLends east s) := by simp [Kept, dropLends]
@[simp] theorem sweepGranted_kept (s : State) : Kept s (sweepGranted s) := by simp [Kept, sweepGranted]
@[simp] theorem beginCycle_kept (east : Bool) (s : State) : Kept s (beginCycle east s) := by simp [Kept, beginCycle]

end Sys2Proof.Machine
end

