-- ==== Sys2Proof/Laws/KeptCommands.lean ====
section
/-!
SUPPORT. The commands that keep the queue, memory, keys and locks, the Toll's period and the attach in progress, each in a
lemma of its own.
-/

namespace Sys2Proof.Machine

/-! Machine/Issue.lean. -/

theorem decodeRow_kept (s : State) (c : Nat) (p : Insn → Bool) (k : State → Insn → State) {t : State} (hk : ∀ s w, Kept s (k s w)) (h : decodeRow s c p k = .next t) : Kept s t := by
  unfold decodeRow at h; dsimp only [need, needSome] at h
  (repeat' split at h) <;> first | (cases h; done) | (injection h with h; subst h; simp [Kept, hk])
theorem decodeChecked_kept (s : State) (c : Nat) (p : Insn → Bool) (k : State → Insn → State) {t : State} (hk : ∀ s w, Kept s (k s w)) (h : decodeChecked s c p k = .next t) : Kept s t := by
  refine decodeRow_kept s c p _ (fun s w => ?_) h
  (try dsimp only); (repeat' split) <;> simp [Kept, hk]
theorem movementRow_kept (s : State) (c op : Nat) {t : State} (h : movementRow s c op = .next t) : Kept s t := by
  refine decodeRow_kept s c _ _ (fun s w => ?_) h
  (try dsimp only); (repeat' split) <;> simp [Kept]

/-! Machine/Control.lean. -/

theorem execForme_kept (c : Nat) (s : State) {t : State} (h : execForme c s = .next t) : Kept s t := by
  refine decodeChecked_kept _ _ _ _ (fun s w => ?_) h
  (try dsimp only); (repeat' split) <;> simp [Kept]
theorem execFormeImageReturn_kept (c : Nat) (status : AttStatus) (image : List Word) (s : State) {t : State} (h : execFormeImageReturn c status image s = .next t) : Kept s t := by
  simp only [execFormeImageReturn, need] at h
  (repeat' split at h) <;> first | (cases h; done) | (injection h with h; subst h; simp [Kept])
theorem execUnforme_kept (c : Nat) (s : State) {t : State} (h : execUnforme c s = .next t) : Kept s t := by
  refine decodeChecked_kept _ _ _ _ (fun s w => ?_) h
  (try dsimp only); (repeat' split) <;> simp [Kept]
theorem execLdscale_kept (c : Nat) (s : State) {t : State} (h : execLdscale c s = .next t) : Kept s t := by
  refine decodeChecked_kept _ _ _ _ (fun s w => ?_) h
  (try dsimp only); (repeat' split) <;> simp [Kept]
theorem execStscale_kept (c : Nat) (s : State) {t : State} (h : execStscale c s = .next t) : Kept s t := by
  refine decodeChecked_kept _ _ _ _ (fun s w => ?_) h
  (try dsimp only); (repeat' split) <;> simp [Kept]
theorem execSetcast_kept (c : Nat) (s : State) {t : State} (h : execSetcast c s = .next t) : Kept s t := by
  refine decodeChecked_kept _ _ _ _ (fun s w => ?_) h
  (try dsimp only); (repeat' split) <;> simp [Kept]
theorem execSetrate_kept (c : Nat) (s : State) {t : State} (h : execSetrate c s = .next t) : Kept s t := by
  refine decodeChecked_kept _ _ _ _ (fun s w => ?_) h
  (try dsimp only); (repeat' split) <;> simp [Kept]
theorem execPhase_kept (c : Nat) (s : State) {t : State} (h : execPhase c s = .next t) : Kept s t := by
  refine decodeChecked_kept _ _ _ _ (fun s w => ?_) h
  (try dsimp only); (repeat' split) <;> simp [Kept]
theorem execAdvance_kept (c : Nat) (s : State) {t : State} (h : execAdvance c s = .next t) : Kept s t := by
  refine decodeChecked_kept _ _ _ _ (fun s w => ?_) h
  (try dsimp only); (repeat' split) <;> simp [Kept]
theorem execLoop_kept (c : Nat) (s : State) {t : State} (h : execLoop c s = .next t) : Kept s t := by
  refine decodeChecked_kept _ _ _ _ (fun s w => ?_) h
  (try dsimp only); (repeat' split) <;> simp [Kept]
theorem execCall_kept (c : Nat) (s : State) {t : State} (h : execCall c s = .next t) : Kept s t := by
  refine decodeChecked_kept _ _ _ _ (fun s w => ?_) h
  (try dsimp only); (repeat' split) <;> simp [Kept]
theorem execRet_kept (c : Nat) (s : State) {t : State} (h : execRet c s = .next t) : Kept s t := by
  refine decodeChecked_kept _ _ _ _ (fun s w => ?_) h
  (try dsimp only); (repeat' split) <;> simp [Kept]
theorem execToll_kept (c : Nat) (s : State) {t : State} (h : execToll c s = .next t) : Kept s t := by
  refine decodeChecked_kept _ _ _ _ (fun s w => ?_) h
  (try dsimp only); (repeat' split) <;> simp [Kept]
theorem execHalt_kept (c : Nat) (s : State) {t : State} (h : execHalt c s = .next t) : Kept s t := by
  refine decodeChecked_kept _ _ _ _ (fun s w => ?_) h
  (try dsimp only); (repeat' split) <;> simp [Kept]
theorem execNop_kept (c : Nat) (s : State) {t : State} (h : execNop c s = .next t) : Kept s t := by
  refine decodeRow_kept _ _ _ _ (fun s w => ?_) h
  (try dsimp only); (repeat' split) <;> simp [Kept]
theorem execAbandon_kept (c : Nat) (s : State) {t : State} (h : execAbandon c s = .next t) : Kept s t := by
  refine decodeChecked_kept _ _ _ _ (fun s w => ?_) h
  (try dsimp only); (repeat' split) <;> simp [Kept]
theorem execSwap_kept (c : Nat) (s : State) {t : State} (h : execSwap c s = .next t) : Kept s t := by
  refine decodeChecked_kept _ _ _ _ (fun s w => ?_) h
  (try dsimp only); (repeat' split) <;> simp [Kept]
theorem execDrain_kept (c : Nat) (s : State) {t : State} (h : execDrain c s = .next t) : Kept s t := by
  refine decodeChecked_kept _ _ _ _ (fun s w => ?_) h
  (try dsimp only); (repeat' split) <;> simp [Kept]
theorem execIllegalOpcode_kept (c : Nat) (s : State) {t : State} (h : execIllegalOpcode c s = .next t) : Kept s t := by
  refine decodeRow_kept _ _ _ _ (fun s w => ?_) h
  (try dsimp only); (repeat' split) <;> simp [Kept]

/-! Machine/Movement.lean. -/

theorem execMove_kept (c : Nat) (s : State) {t : State} (h : execMove c s = .next t) : Kept s t := by
  unfold execMove at h; exact movementRow_kept _ _ _ h
theorem execGather_kept (c : Nat) (s : State) {t : State} (h : execGather c s = .next t) : Kept s t := by
  unfold execGather at h; exact movementRow_kept _ _ _ h
theorem execScatter_kept (c : Nat) (s : State) {t : State} (h : execScatter c s = .next t) : Kept s t := by
  unfold execScatter at h; exact movementRow_kept _ _ _ h
theorem execFill_kept (c : Nat) (s : State) {t : State} (h : execFill c s = .next t) : Kept s t := by
  unfold execFill at h; exact movementRow_kept _ _ _ h
theorem execMcast_kept (c : Nat) (s : State) {t : State} (h : execMcast c s = .next t) : Kept s t := by
  unfold execMcast at h; exact movementRow_kept _ _ _ h
theorem execReduce_kept (c : Nat) (s : State) {t : State} (h : execReduce c s = .next t) : Kept s t := by
  unfold execReduce at h; exact movementRow_kept _ _ _ h
theorem execAmoadd_kept (c : Nat) (s : State) {t : State} (h : execAmoadd c s = .next t) : Kept s t := by
  unfold execAmoadd at h; exact movementRow_kept _ _ _ h
theorem execCheck_kept (c : Nat) (s : State) {t : State} (h : execCheck c s = .next t) : Kept s t := by
  unfold execCheck at h; exact movementRow_kept _ _ _ h

/-! Machine/Sync.lean. -/

theorem execSignalAdd_kept (c : Nat) (s : State) {t : State} (h : execSignalAdd c s = .next t) : Kept s t := by
  refine decodeChecked_kept _ _ _ _ (fun s w => ?_) h
  (try dsimp only); (repeat' split) <;> simp [Kept]
theorem execSignalGive_kept (c : Nat) (s : State) {t : State} (h : execSignalGive c s = .next t) : Kept s t := by
  refine decodeChecked_kept _ _ _ _ (fun s w => ?_) h
  (try dsimp only); (repeat' split) <;> simp [Kept]
theorem execSignalSub_kept (c : Nat) (s : State) {t : State} (h : execSignalSub c s = .next t) : Kept s t := by
  refine decodeChecked_kept _ _ _ _ (fun s w => ?_) h
  (try dsimp only); (repeat' split) <;> simp [Kept]
theorem execWaitGe_kept (c : Nat) (s : State) {t : State} (h : execWaitGe c s = .next t) : Kept s t := by
  refine decodeChecked_kept _ _ _ _ (fun s w => ?_) h
  (try dsimp only); (repeat' split) <;> simp [Kept]
theorem execWaitTake_kept (c : Nat) (s : State) {t : State} (h : execWaitTake c s = .next t) : Kept s t := by
  refine decodeChecked_kept _ _ _ _ (fun s w => ?_) h
  (try dsimp only); (repeat' split) <;> simp [Kept]
theorem execPealArrive_kept (c : Nat) (s : State) {t : State} (h : execPealArrive c s = .next t) : Kept s t := by
  refine decodeChecked_kept _ _ _ _ (fun s w => ?_) h
  (try dsimp only); (repeat' split) <;> simp [Kept]
theorem execPealEnrol_kept (c : Nat) (s : State) {t : State} (h : execPealEnrol c s = .next t) : Kept s t := by
  refine decodeChecked_kept _ _ _ _ (fun s w => ?_) h
  (try dsimp only); (repeat' split) <;> simp [Kept]
theorem execPealResign_kept (c : Nat) (s : State) {t : State} (h : execPealResign c s = .next t) : Kept s t := by
  refine decodeChecked_kept _ _ _ _ (fun s w => ?_) h
  (try dsimp only); (repeat' split) <;> simp [Kept]
theorem execFence_kept (c : Nat) (s : State) {t : State} (h : execFence c s = .next t) : Kept s t := by
  refine decodeChecked_kept _ _ _ _ (fun s w => ?_) h
  (try dsimp only); (repeat' split) <;> simp [Kept]
theorem execMark_kept (c : Nat) (s : State) {t : State} (h : execMark c s = .next t) : Kept s t := by
  refine decodeChecked_kept _ _ _ _ (fun s w => ?_) h
  (try dsimp only); (repeat' split) <;> simp [Kept]
theorem execPollTimer_kept (c : Nat) (s : State) {t : State} (h : execPollTimer c s = .next t) : Kept s t := by
  simp only [execPollTimer, need] at h
  (repeat' split at h) <;> first | (cases h; done) | (injection h with h; subst h; simp [Kept])
theorem execPollResult_kept (c : Nat) (s : State) {t : State} (h : execPollResult c s = .next t) : Kept s t := by
  simp only [execPollResult, need, needSome] at h
  (repeat' split at h) <;> first | (cases h; done) | (injection h with h; subst h; simp [Kept])
theorem execSubResult_kept (c : Nat) (s : State) {t : State} (h : execSubResult c s = .next t) : Kept s t := by
  simp only [execSubResult, need, needSome] at h
  (repeat' split at h) <;> first | (cases h; done) | (injection h with h; subst h; simp [Kept])
theorem execWaitTimeout_kept (c : Nat) (s : State) {t : State} (h : execWaitTimeout c s = .next t) : Kept s t := by
  simp only [execWaitTimeout, need] at h
  (repeat' split at h) <;> first | (cases h; done) | (injection h with h; subst h; simp [Kept])
theorem execCorePealArrive_kept (core line : Nat) (s : State) {t : State} (h : execCorePealArrive core line s = .next t) : Kept s t := by
  simp only [execCorePealArrive, need, needSome] at h
  (repeat' split at h) <;> first | (cases h; done) | (injection h with h; subst h; simp [Kept])
theorem execPealLeave_kept (party : Party) (line : Nat) (s : State) {t : State} (h : execPealLeave party line s = .next t) : Kept s t := by
  simp only [execPealLeave, need] at h
  (repeat' split at h) <;> first | (cases h; done) | (injection h with h; subst h; simp [Kept])
theorem execPealRelease_kept (cell line : Nat) (s : State) {t : State} (h : execPealRelease cell line s = .next t) : Kept s t := by
  simp only [execPealRelease, need] at h
  (repeat' split at h) <;> first | (cases h; done) | (injection h with h; subst h; simp [Kept])
theorem execPealTimeout_kept (line : Nat) (s : State) {t : State} (h : execPealTimeout line s = .next t) : Kept s t := by
  obtain ⟨-, h⟩ := need_next h
  obtain ⟨-, h⟩ := need_next h
  obtain ⟨_, -, h⟩ := needSome_next h
  obtain ⟨-, h⟩ := need_next h
  injection h with h; subst h; exact failLine_kept _ _
theorem execPealFlit_kept (cell line : Nat) (odd : Bool) (kind : PealFlit) (s : State) {t : State} (h : execPealFlit cell line odd kind s = .next t) : Kept s t := by
  obtain ⟨-, h⟩ := need_next h
  extract_lets l i child parent named at h
  split at h
  · injection h with h; subst h; exact Kept.refl _
  · cases kind with
    | arrival up => injection h with h; subst h; simp [Kept]
    | leave _ =>
      injection h with h; subst h
      exact (modLine_kept _ _ _).trans ((tellLeft_kept _ _ _).trans (settleHeld_kept _ _))
    | release => injection h with h; subst h; split <;> simp [Kept]
    | failure => injection h with h; subst h; simp [Kept]
theorem execPerformedReport_kept (c cell : Nat) (s : State) {t : State} (h : execPerformedReport c cell s = .next t) : Kept s t := by
  simp only [execPerformedReport, need] at h
  (repeat' split at h) <;> first | (cases h; done) | (injection h with h; subst h; simp [Kept])

/-! Machine/Remote.lean. -/

theorem execStreamOpen_kept (link chip : Nat) (incarnation : BitVec 16) (first : BitVec 32) (s : State) {t : State} (h : execStreamOpen link chip incarnation first s = .next t) : Kept s t := by
  simp only [execStreamOpen, need] at h
  (repeat' split at h) <;> first | (cases h; done) | (injection h with h; subst h; simp [Kept])
theorem execItemArrival_kept (link : Nat) (item : Item) (s : State) {t : State} (h : execItemArrival link item s = .next t) : Kept s t := by
  simp only [execItemArrival, need] at h
  (repeat' split at h) <;> first | (cases h; done) | (injection h with h; subst h; simp [Kept])
theorem execAckTimer_kept (chip : Nat) (s : State) {t : State} (h : execAckTimer chip s = .next t) : Kept s t := by
  simp only [execAckTimer, need, needSome] at h
  (repeat' split at h) <;> first | (cases h; done) | (injection h with h; subst h; simp [Kept])
theorem execRemoteAck_kept (chip : Nat) (h : BitVec 32) (s : State) {t : State} (h : execRemoteAck chip h s = .next t) : Kept s t := by
  simp only [execRemoteAck, need] at h
  (repeat' split at h) <;> first | (cases h; done) | (injection h with h; subst h; simp [Kept])
theorem execResendTimer_kept (chip : Nat) (s : State) {t : State} (h : execResendTimer chip s = .next t) : Kept s t := by
  simp only [execResendTimer, need] at h
  (repeat' split at h) <;> first | (cases h; done) | (injection h with h; subst h; simp [Kept])
theorem execStreamLostTimer_kept (chip : Nat) (s : State) {t : State} (h : execStreamLostTimer chip s = .next t) : Kept s t := by
  simp only [execStreamLostTimer, need] at h
  (repeat' split at h) <;> first | (cases h; done) | (injection h with h; subst h; simp [Kept])
theorem execOpenReply_kept (chip : Nat) (window : Option Nat) (s : State) {t : State} (h : execOpenReply chip window s = .next t) : Kept s t := by
  simp only [execOpenReply, need] at h
  (repeat' split at h) <;> first | (cases h; done) | (injection h with h; subst h; simp [Kept])
theorem execOpenRetry_kept (chip : Nat) (s : State) {t : State} (h : execOpenRetry chip s = .next t) : Kept s t := by
  simp only [execOpenRetry, need] at h
  (repeat' split at h) <;> first | (cases h; done) | (injection h with h; subst h; simp [Kept])
theorem execStreamIdle_kept (chip : Nat) (s : State) {t : State} (h : execStreamIdle chip s = .next t) : Kept s t := by
  simp only [execStreamIdle, need] at h
  (repeat' split at h) <;> first | (cases h; done) | (injection h with h; subst h; simp [Kept])
theorem execClose_kept (chip : Nat) (incarnation : BitVec 16) (s : State) {t : State} (h : execClose chip incarnation s = .next t) : Kept s t := by
  simp only [execClose, need] at h
  (repeat' split at h) <;> first | (cases h; done) | (injection h with h; subst h; simp [Kept])
theorem execGoodbye_kept (chip : Nat) (incarnation : BitVec 16) (s : State) {t : State} (h : execGoodbye chip incarnation s = .next t) : Kept s t := by
  simp only [execGoodbye, need] at h
  split at h
  · injection h with h
    subst h
    exact Kept.trans (by split <;> simp [Kept]) (endStream_kept _ chip .gone)
  · cases h
theorem execPeerSilence_kept (chip : Nat) (s : State) {t : State} (h : execPeerSilence chip s = .next t) : Kept s t := by
  simp only [execPeerSilence, need] at h
  (repeat' split at h) <;> first | (cases h; done) | (injection h with h; subst h; simp [Kept])
theorem execLinkDown_kept (cell : Nat) (s : State) {t : State} (h : execLinkDown cell s = .next t) : Kept s t := by
  simp only [execLinkDown, need] at h
  (repeat' split at h) <;> first | (cases h; done) | (injection h with h; subst h; simp [Kept])
theorem execLinkUp_kept (cell : Nat) (s : State) {t : State} (h : execLinkUp cell s = .next t) : Kept s t := by
  simp only [execLinkUp, need] at h
  (repeat' split at h) <;> first | (cases h; done) | (injection h with h; subst h; simp [Kept])
theorem execRefusalReport_kept (c : Nat) (s : State) {t : State} (h : execRefusalReport c s = .next t) : Kept s t := by
  simp only [execRefusalReport, need, needSome] at h
  (repeat' split at h) <;> first | (cases h; done) | (injection h with h; subst h; simp [Kept])

/-! Machine/Contexts.lean. -/

theorem execQueueEntryTake_kept (c : Nat) (entry : Insn) (s : State) {t : State} (h : execQueueEntryTake c entry s = .next t) : Kept s t := by
  simp only [execQueueEntryTake, need] at h
  (repeat' split at h) <;> first | (cases h; done) | (injection h with h; subst h; simp [Kept])
theorem execFetchBurstReturn_kept (c : Nat) (addr : Word) (status : AttStatus) (words : List Insn) (s : State) {t : State} (h : execFetchBurstReturn c addr status words s = .next t) : Kept s t := by
  simp only [execFetchBurstReturn, need, needSome] at h
  (repeat' split at h) <;> first | (cases h; done) | (injection h with h; subst h; simp [Kept])
theorem execLoad_kept (c : Nat) (agent : Agent) (grants : List Word) (s : State) {t : State} (h : execLoad c agent grants s = .next t) : Kept s t := by
  simp only [execLoad, need] at h
  (repeat' split at h) <;> first | (cases h; done) | (injection h with h; subst h; simp [Kept])
theorem execRestore_kept (c : Nat) (agent : Agent) (grants : List Word) (image : List Byte) (s : State) {t : State} (h : execRestore c agent grants image s = .next t) : Kept s t := by
  simp only [execRestore, need] at h
  (repeat' split at h) <;> first | (cases h; done) | (injection h with h; subst h; simp [Kept])
theorem execGalleyScrubDone_kept (c : Nat) (s : State) {t : State} (h : execGalleyScrubDone c s = .next t) : Kept s t := by
  simp only [execGalleyScrubDone, need] at h
  (repeat' split at h) <;> first | (cases h; done) | (injection h with h; subst h; simp [Kept])
theorem execPause_kept (c : Nat) (s : State) {t : State} (h : execPause c s = .next t) : Kept s t := by
  simp only [execPause, need] at h
  (repeat' split at h) <;> first | (cases h; done) | (injection h with h; subst h; simp [Kept])
theorem execBadOp_kept (c : Nat) (op : Nat) (s : State) {t : State} (h : execBadOp c op s = .next t) : Kept s t := by
  simp only [execBadOp, need] at h
  (repeat' split at h) <;> first | (cases h; done) | (injection h with h; subst h; simp [Kept])
theorem execContextFreed_kept (c : Nat) (s : State) {t : State} (h : execContextFreed c s = .next t) : Kept s t := by
  simp only [execContextFreed, need] at h
  (repeat' split at h) <;> first | (cases h; done) | (injection h with h; subst h; simp [Kept])
theorem execDoorbell_kept (c : Nat) (value : Word) (s : State) {t : State} (h : execDoorbell c value s = .next t) : Kept s t := by
  simp only [execDoorbell, need] at h
  (repeat' split at h) <;> first | (cases h; done) | (injection h with h; subst h; simp [Kept])
theorem execCtxConfigWrite_kept (c : Nat) (agent : Agent) (value : Word) (s : State) {t : State} (h : execCtxConfigWrite c agent value s = .next t) : Kept s t := by
  simp only [execCtxConfigWrite, need] at h
  (repeat' split at h) <;> first | (cases h; done) | (injection h with h; subst h; simp [Kept])
theorem execAbandonFlit_kept (cell c : Nat) (s : State) {t : State} (h : execAbandonFlit cell c s = .next t) : Kept s t := by
  simp only [execAbandonFlit, need, needSome] at h
  (repeat' split at h) <;> first | (cases h; done) | (injection h with h; subst h; simp [Kept])
theorem execAbandonReport_kept (cell c : Nat) (s : State) {t : State} (h : execAbandonReport cell c s = .next t) : Kept s t := by
  simp only [execAbandonReport, need, needSome] at h
  (repeat' split at h) <;> first | (cases h; done) | (injection h with h; subst h; simp [Kept])

/-! Machine/Channels.lean. -/

theorem execChannelStopped_kept (cell ch : Nat) (s : State) {t : State} (h : execChannelStopped cell ch s = .next t) : Kept s t := by
  simp only [execChannelStopped, need] at h
  (repeat' split at h) <;> first | (cases h; done) | (injection h with h; subst h; simp [Kept])
theorem execCellStopped_kept (cell : Nat) (s : State) {t : State} (h : execCellStopped cell s = .next t) : Kept s t := by
  simp only [execCellStopped, need] at h
  (repeat' split at h) <;> first | (cases h; done) | (injection h with h; subst h; simp [Kept])
theorem execDegradedClear_kept (cell : Nat) (s : State) {t : State} (h : execDegradedClear cell s = .next t) : Kept s t := by
  simp only [execDegradedClear, need] at h
  (repeat' split at h) <;> first | (cases h; done) | (injection h with h; subst h; simp [Kept])
theorem execHealthConfigWrite_kept (value : Word) (s : State) {t : State} (h : execHealthConfigWrite value s = .next t) : Kept s t := by
  simp only [execHealthConfigWrite] at h
  (repeat' split at h) <;> first | (cases h; done) | (injection h with h; subst h; simp [Kept])
theorem execPealEnable_kept (line : Nat) (s : State) {t : State} (h : execPealEnable line s = .next t) : Kept s t := by
  simp only [execPealEnable, need] at h
  (repeat' split at h) <;> first | (cases h; done) | (injection h with h; subst h; simp [Kept])
theorem execPealDisable_kept (line : Nat) (s : State) {t : State} (h : execPealDisable line s = .next t) : Kept s t := by
  simp only [execPealDisable, need] at h
  (repeat' split at h) <;> first | (cases h; done) | (injection h with h; subst h; simp [Kept])
theorem execPealLineStopped_kept (line : Nat) (s : State) {t : State} (h : execPealLineStopped line s = .next t) : Kept s t := by
  simp only [execPealLineStopped, need] at h
  (repeat' split at h) <;> first | (cases h; done) | (injection h with h; subst h; simp [Kept])

theorem cellRow_kept (n : Nat) (s k : State) {t : State} (hk : Kept s k) (h : cellRow n s k = .next t) : Kept s t := by
  unfold cellRow need at h
  split at h
  · injection h with h; subst h; split
    · simp [Kept]
    · exact hk
  · cases h
theorem channelRow_kept (cell ch : Nat) (s k : State) {t : State} (hk : Kept s k) (h : channelRow cell ch s k = .next t) : Kept s t := by
  unfold channelRow need at h
  split at h
  · injection h with h; subst h; split
    · simp [Kept]
    · exact hk
  · cases h
theorem execChannelPause_kept (cell ch : Nat) (s : State) {t : State} (h : execChannelPause cell ch s = .next t) : Kept s t := by
  refine channelRow_kept _ _ _ _ ?_ h
  split <;> simp [Kept]
theorem execChannelResume_kept (cell ch : Nat) (s : State) {t : State} (h : execChannelResume cell ch s = .next t) : Kept s t := by
  refine channelRow_kept _ _ _ _ ?_ h
  split <;> simp [Kept]
theorem execChannelAbort_kept (cell ch : Nat) (s : State) {t : State} (h : execChannelAbort cell ch s = .next t) : Kept s t := by
  refine channelRow_kept _ _ _ _ ?_ h
  split <;> simp [Kept]
theorem execCellEnable_kept (cell : Nat) (s : State) {t : State} (h : execCellEnable cell s = .next t) : Kept s t := by
  refine cellRow_kept _ _ _ ?_ h
  split <;> simp [Kept]
theorem execCellDisable_kept (cell : Nat) (s : State) {t : State} (h : execCellDisable cell s = .next t) : Kept s t :=
  cellRow_kept _ _ _ (by simp [Kept]) h
theorem execRetire_kept (cell : Nat) (s : State) {t : State} (h : execRetire cell s = .next t) : Kept s t := by
  refine cellRow_kept _ _ _ ?_ h
  split <;> simp [Kept]

/-! Machine/Domains.lean. -/

theorem execCommit_kept (d : Nat) (agent : Agent) (s : State) {t : State} (h : execCommit d agent s = .next t) : Kept s t := by
  simp only [execCommit, need] at h
  (repeat' split at h) <;> first | (cases h; done) | (injection h with h; subst h; simp [Kept])
theorem keyDone_kept (s : State) {t : State} (h : keyDone s = .next t) : Kept s t := by
  simp only [keyDone] at h
  (repeat' split at h) <;> first | (cases h; done) | (injection h with h; subst h; simp [Kept])

/-! Machine/Modes.lean. -/

theorem execDetach_kept (s : State) {t : State} (h : execDetach s = .next t) : Kept s t := by
  simp only [execDetach] at h
  (repeat' split at h) <;> first | (cases h; done) | (injection h with h; subst h; (repeat' split) <;> simp [Kept])
theorem execPowerGood_kept (fuses : Fuses) (s : State) {t : State} (h : execPowerGood fuses s = .next t) : Kept s t := by
  simp only [execPowerGood, need] at h
  (repeat' split at h) <;> first | (cases h; done) | (injection h with h; subst h; simp [Kept])
theorem execMbistRun_kept (cell : Nat) (s : State) {t : State} (h : execMbistRun cell s = .next t) : Kept s t := by
  simp only [execMbistRun, need] at h
  (repeat' split at h) <;> first | (cases h; done) | (injection h with h; subst h; simp [Kept])
theorem execFaultInject_kept (cell : Nat) (kind : Inject) (s : State) {t : State} (h : execFaultInject cell kind s = .next t) : Kept s t := by
  simp only [execFaultInject, need] at h
  (repeat' split at h) <;> first | (cases h; done) | (injection h with h; subst h; simp [Kept])
theorem execHeartbeat_kept (east : Bool) (s : State) {t : State} (h : execHeartbeat east s = .next t) : Kept s t := by
  simp only [execHeartbeat] at h
  (repeat' split at h) <;> first | (cases h; done) | (injection h with h; subst h; simp [Kept])

/-! Machine/RegWrites.lean. -/

theorem execAttSplitWrite_kept (cell : Nat) (value : Word) (s : State) {t : State} (h : execAttSplitWrite cell value s = .next t) : Kept s t := by
  simp only [execAttSplitWrite, need] at h
  (repeat' split at h) <;> first | (cases h; done) | (injection h with h; subst h; simp [Kept])
theorem execArbConfigWrite_kept (value : Word) (s : State) {t : State} (h : execArbConfigWrite value s = .next t) : Kept s t := by
  simp only [execArbConfigWrite] at h
  (repeat' split at h) <;> first | (cases h; done) | (injection h with h; subst h; simp [Kept])
theorem execRouteWrite_kept (chip : Nat) (value : Word) (s : State) {t : State} (h : execRouteWrite chip value s = .next t) : Kept s t := by
  simp only [execRouteWrite, need] at h
  (repeat' split at h) <;> first | (cases h; done) | (injection h with h; subst h; simp [Kept])
theorem execDumpTrigger_kept (s : State) {t : State} (h : execDumpTrigger s = .next t) : Kept s t := by
  simp only [execDumpTrigger] at h
  (repeat' split at h) <;> first | (cases h; done) | (injection h with h; subst h; simp [Kept])
theorem execFreeze_kept (now : Bool) (s : State) {t : State} (h : execFreeze now s = .next t) : Kept s t := by
  simp only [execFreeze] at h
  (repeat' split at h) <;> first | (cases h; done) | (injection h with h; subst h; simp [Kept])
theorem execThaw_kept (now : Bool) (s : State) {t : State} (h : execThaw now s = .next t) : Kept s t := by
  simp only [execThaw] at h
  (repeat' split at h) <;> first | (cases h; done) | (injection h with h; subst h; simp [Kept])
theorem execSnapshot_kept (now : Bool) (s : State) {t : State} (h : execSnapshot now s = .next t) : Kept s t := by
  simp only [execSnapshot] at h
  (repeat' split at h) <;> first | (cases h; done) | (injection h with h; subst h; simp [Kept])
theorem execDamperCancel_kept (s : State) {t : State} (h : execDamperCancel s = .next t) : Kept s t := by
  simp only [execDamperCancel] at h
  (repeat' split at h) <;> first | (cases h; done) | (injection h with h; subst h; simp [Kept])
theorem execDamperAction_kept (s : State) {t : State} (h : execDamperAction s = .next t) : Kept s t := by
  simp only [execDamperAction, need, needSome] at h
  (repeat' split at h) <;> first | (cases h; done) | (injection h with h; subst h; simp [Kept])
theorem execEvselWrite_kept (owner : CounterOwner) (k : Nat) (value : Word) (s : State) {t : State} (h : execEvselWrite owner k value s = .next t) : Kept s t := by
  simp only [execEvselWrite, need] at h
  (repeat' split at h) <;> first | (cases h; done) | (injection h with h; subst h; simp [Kept])
theorem execEvcntWrite_kept (owner : CounterOwner) (k : Nat) (value : Word) (units : Nat) (s : State) {t : State} (h : execEvcntWrite owner k value units s = .next t) : Kept s t := by
  simp only [execEvcntWrite, need] at h
  (repeat' split at h) <;> first | (cases h; done) | (injection h with h; subst h; simp [Kept])
theorem execImpConfigWrite_kept (cell : Nat) (value : Word) (s : State) {t : State} (h : execImpConfigWrite cell value s = .next t) : Kept s t := by
  simp only [execImpConfigWrite, need] at h
  (repeat' split at h) <;> first | (cases h; done) | (injection h with h; subst h; simp [Kept])
theorem execLowerWordRead_kept (offset : Nat) (s : State) {t : State} (h : execLowerWordRead offset s = .next t) : Kept s t := by
  simp only [execLowerWordRead] at h
  (repeat' split at h) <;> first | (cases h; done) | (injection h with h; subst h; simp [Kept])

/-! Machine/TimePower.lean. -/

theorem execRefTick_kept (s : State) {t : State} (h : execRefTick s = .next t) : Kept s t := by
  simp only [execRefTick, need] at h
  (repeat' split at h) <;> first | (cases h; done) | (injection h with h; subst h; simp [Kept])
theorem execGuardInstant_kept (cell : Nat) (s : State) {t : State} (h : execGuardInstant cell s = .next t) : Kept s t := by
  simp only [execGuardInstant, need] at h
  (repeat' split at h) <;> first | (cases h; done) | (injection h with h; subst h; simp [Kept])
theorem execOverrunReport_kept (cell : Nat) (s : State) {t : State} (h : execOverrunReport cell s = .next t) : Kept s t := by
  simp only [execOverrunReport, needSome] at h
  (repeat' split at h) <;> first | (cases h; done) | (injection h with h; subst h; simp [Kept])
theorem execStoppedInterval_kept (cell : Nat) (s : State) {t : State} (h : execStoppedInterval cell s = .next t) : Kept s t := by
  simp only [execStoppedInterval, need] at h
  (repeat' split at h) <;> first | (cases h; done) | (injection h with h; subst h; simp [Kept])
theorem execCueWake_kept (cell insn : Nat) (s : State) {t : State} (h : execCueWake cell insn s = .next t) : Kept s t := by
  simp only [execCueWake, need, needSome] at h
  (repeat' split at h) <;> first | (cases h; done) | (injection h with h; subst h; simp [Kept])
theorem execLendThreshold_kept (cell : Nat) (s : State) {t : State} (h : execLendThreshold cell s = .next t) : Kept s t := by
  simp only [execLendThreshold, need] at h
  (repeat' split at h) <;> first | (cases h; done) | (injection h with h; subst h; simp [Kept])
theorem execFloorLost_kept (east : Bool) (s : State) {t : State} (h : execFloorLost east s = .next t) : Kept s t := by
  injection h with h; subst h; simp [Kept]
theorem execStepNotice_kept (east starts lower floorOk : Bool) (s : State) {t : State} (h : execStepNotice east starts lower floorOk s = .next t) : Kept s t := by
  simp only [execStepNotice, need] at h
  (repeat' split at h) <;> first | (cases h; done) | (injection h with h; subst h; simp [Kept])
theorem execStretchChange_kept (east high : Bool) (s : State) {t : State} (h : execStretchChange east high s = .next t) : Kept s t := by
  injection h with h; subst h; split <;> simp [Kept]
theorem execCorrectableError_kept (cell : Nat) (kind : CorrKind) (s : State) {t : State} (h : execCorrectableError cell kind s = .next t) : Kept s t := by
  simp only [execCorrectableError, need] at h
  (repeat' split at h) <;> first | (cases h; done) | (injection h with h; subst h; simp [Kept])
theorem execUncorrectableGalleyError_kept (cell insn : Nat) (s : State) {t : State} (h : execUncorrectableGalleyError cell insn s = .next t) : Kept s t := by
  simp only [execUncorrectableGalleyError, need] at h
  (repeat' split at h) <;> first | (cases h; done) | (injection h with h; subst h; simp [Kept])
theorem execWearMeasure_kept (cell : Nat) (drift : List Nat) (emStress ttSeconds : Nat) (s : State) {t : State} (h : execWearMeasure cell drift emStress ttSeconds s = .next t) : Kept s t := by
  simp only [execWearMeasure, need] at h
  (repeat' split at h) <;> first | (cases h; done) | (injection h with h; subst h; simp [Kept])

/-! Machine/Arrivals.lean. -/

theorem execOrderArrival_kept (cell insn : Nat) (s : State) {t : State} (h : execOrderArrival cell insn s = .next t) : Kept s t := by
  simp only [execOrderArrival, need, needSome] at h
  (repeat' split at h) <;> first | (cases h; done) | (injection h with h; subst h; simp [Kept])
theorem execIndexDelivery_kept (cell insn : Nat) (s : State) {t : State} (h : execIndexDelivery cell insn s = .next t) : Kept s t := by
  simp only [execIndexDelivery, need, needSome] at h
  (repeat' split at h) <;> first | (cases h; done) | (injection h with h; subst h; simp [Kept])
theorem execHaltFlit_kept (cell insn : Nat) (s : State) {t : State} (h : execHaltFlit cell insn s = .next t) : Kept s t := by
  simp only [execHaltFlit, needSome] at h
  (repeat' split at h) <;> first | (cases h; done) | (injection h with h; subst h; simp [Kept])
theorem execSlugArrival_kept (cell id : Nat) (s : State) {t : State} (h : execSlugArrival cell id s = .next t) : Kept s t := by
  simp only [execSlugArrival, need, needSome] at h
  (repeat' split at h) <;> first | (cases h; done) | (injection h with h; subst h; simp [Kept])
theorem execCreditReturn_kept (id : Nat) (s : State) {t : State} (h : execCreditReturn id s = .next t) : Kept s t := by
  simp only [execCreditReturn, need, needSome] at h
  (repeat' split at h) <;> first | (cases h; done) | (injection h with h; subst h; simp [Kept])
theorem execSlugReplayFail_kept (id : Nat) (s : State) {t : State} (h : execSlugReplayFail id s = .next t) : Kept s t := by
  simp only [execSlugReplayFail, need, needSome] at h
  (repeat' split at h) <;> first | (cases h; done) | (injection h with h; subst h; simp [Kept])
theorem execDestinationComplete_kept (cell insn : Nat) (s : State) {t : State} (h : execDestinationComplete cell insn s = .next t) : Kept s t := by
  simp only [execDestinationComplete, need, needSome] at h
  (repeat' split at h) <;> first | (cases h; done) | (injection h with h; subst h; simp [Kept])
theorem execCompletionFlit_kept (insn cell : Nat) (s : State) {t : State} (h : execCompletionFlit insn cell s = .next t) : Kept s t := by
  simp only [execCompletionFlit, needSome] at h
  (repeat' split at h) <;> first | (cases h; done) | (injection h with h; subst h; simp [Kept])

/-! Machine/Responses.lean. -/

theorem execReadResponse_kept (cell tag : Nat) (status : AttStatus) (data : List Byte) (s : State) {t : State} (h : execReadResponse cell tag status data s = .next t) : Kept s t := by
  simp only [execReadResponse, need] at h
  (repeat' split at h) <;> first | (cases h; done) | (injection h with h; subst h; simp [Kept])
theorem execHostLinkState_kept (cell : Nat) (up : Bool) (s : State) {t : State} (h : execHostLinkState cell up s = .next t) : Kept s t := by
  simp only [execHostLinkState, need] at h
  (repeat' split at h) <;> first | (cases h; done) | (injection h with h; subst h; simp [Kept])
theorem execFlushComplete_kept (cell id : Nat) (status : AttStatus) (s : State) {t : State} (h : execFlushComplete cell id status s = .next t) : Kept s t := by
  simp only [execFlushComplete, need] at h
  (repeat' split at h) <;> first | (cases h; done) | (injection h with h; subst h; simp [Kept])
theorem execHostReadTimeout_kept (cell tag : Nat) (s : State) {t : State} (h : execHostReadTimeout cell tag s = .next t) : Kept s t := by
  simp only [execHostReadTimeout, need, needSome] at h
  (repeat' split at h) <;> first | (cases h; done) | (injection h with h; subst h; simp [Kept])

/-! Machine/Cycle.lean. -/

theorem execEngineCycle_kept (east : Bool) (s : State) {t : State} (h : execEngineCycle east s = .next t) : Kept s t := by
  unfold execEngineCycle need at h
  split at h
  · injection h with h
    subst h
    refine Kept.trans ?_ (dropLends_kept _ _)
    refine Kept.trans ?_ (settleAll_kept _)
    refine Kept.trans ?_ (wakeDrains_kept _)
    refine Kept.trans ?_ (each_kept _ _ _ fun s x => serveStream_kept _ _)
    refine Kept.trans ?_ (each_kept _ _ _ fun s x => serveLink_kept _ _)
    refine Kept.trans ?_ (each_kept _ _ _ fun s x => cellCycle_kept _ _ _)
    refine Kept.trans ?_ (beginCycle_kept _ _)
    simp [Kept]
  · cases h

end Sys2Proof.Machine
end

