-- ==== Sys2Proof/Machine/Bound.lean ====
section
/-!
DEFINITION. The latency bound and the frame-fit test: the formulas that software evaluates before a job runs
(R95, R190, R239, R244, R245, R294, R311-R319, R321, R337). The engine checks none of them (R317), so that no command calls
them.
-/

namespace Sys2Proof.Machine

/-- A time in reference ns as a fraction: the link terms of R315 are no whole number of ns. -/
structure Ns where
  num : Nat
  den : Nat := 1
  deriving DecidableEq, Repr

/-- D / F_floor, the ns one engine cycle may take: 1.125 / 1.10 = 45 / 44 (R311, R369). -/
def cyclesNs (cycles : Nat) : Ns := ⟨cycles * 45, 44⟩

/-- The sum of two times. -/
def Ns.add (a b : Ns) : Ns := ⟨a.num * b.den + b.num * a.den, a.den * b.den⟩

/-- R311: T is rounded to the nearest ns. DESIGN CHOICE (log 124): half a ns is rounded up. -/
def Ns.nearest (a : Ns) : Nat := (2 * a.num + a.den) / (2 * a.den)

/-- A budgeted time is rounded up to a whole ns, as the worked examples of R190 and R245 round it. -/
def Ns.ceil (a : Ns) : Nat := ceilDiv a.num a.den

/-- What a transfer ends at; `off` is a host or remote end, whose time R315 gives. -/
inductive EndKind where
  | core | hbm | off
  deriving DecidableEq, Repr

/-- C_src of R311. -/
def EndKind.cSrc : EndKind → Nat
  | .core => 60 | .hbm => 520 | .off => 0

/-- C_dst of R311. -/
def EndKind.cDst : EndKind → Nat
  | .core => 30 | .hbm => 40 | .off => 0

/-- A stage of R312: its bytes, its width, and ρ as `RATE` / 256 × share / 256. -/
structure BoundStage where
  bytes : Nat
  width : Nat
  rate  : Nat := 256
  share : Nat := 256
  deriving DecidableEq, Repr

/-- The count of a stage (R312). -/
def BoundStage.count (g : BoundStage) : Nat := ceilDiv (g.bytes * 65536) (g.width * g.rate * g.share)

/-- The source or destination attachment stage of R312; `rate` and `share` are the class's. -/
def attachmentStage (bytes rate share : Nat) : BoundStage := { bytes := bytes, width := 512, rate := rate, share := share }

/-- A mesh port's stage of R312: a source's injection port, or the destination's ejection port. -/
def meshStage (bytes rate : Nat) : BoundStage := { bytes := bytes, width := 128, rate := rate }

/-- The impose unit's stage of a corner turn whose elements have a type: a class whose rate is below 512 bytes per engine
cycle has a stage of that width, 256 or 32 × `PLANES`, and every other class, plane splits and joins among them, none
(R95, R312). -/
def imposeStage (bytes : Nat) (t : Ty) : Option BoundStage :=
  if imposeRate t < 512 then some { bytes := bytes, width := imposeRate t } else none

/-- The Caster's stage for stochastic rounding into FP4 (R148). -/
def stochasticStage (bytes : Nat) : BoundStage := { bytes := bytes, width := 256 }

/-- The distances of one path, from the distance table (R25, R26). -/
structure BoundPath where
  hops      : Nat
  /-- H_ctl of C_issue: from the home cell to the farther of source and destination. -/
  issueHops : Nat
  /-- H_ctl of the credit loop: between source and destination. -/
  loopHops  : Nat
  seam      : Bool
  deriving DecidableEq, Repr

/-- The path of a transfer of a context homed on `home` (R26, R311, R317 condition 1). -/
def boundPath (home src dst : Nat) : BoundPath :=
  { hops := hops src dst, issueHops := max (ctlHops home src) (ctlHops home dst), loopHops := ctlHops src dst,
    seam := crossesSeam src dst }

/-- H × C_hop + S × C_seam of R311. -/
def BoundPath.wire (p : BoundPath) : Nat := 3 * p.hops + if p.seam then 24 else 0

/-- C_issue of R311. -/
def BoundPath.issue (p : BoundPath) : Nat := 40 + 2 * p.issueHops

/-- L_cr of R312. -/
def BoundPath.loop (p : BoundPath) (src dst : EndKind) : Nat := src.cSrc + dst.cDst + p.wire + 2 * p.loopHops + 8

/-- Q of R312 for an ordinary instruction: the credits of one half in Pair mode, of all slices in Lead mode. -/
def boundCredits (pair : Bool) (work : Nat) : Nat := if pair then 32 * work else 64 * work

/-- The credits of one rank of an ordered REDUCE of `k` ranks (R228, R312). -/
def rankCredits (q k : Nat) : Nat := q / k

/-- The count of the credit loop (R312). -/
def creditLoop (bytes q loop : Nat) : Nat := ceilDiv bytes (512 * q) * loop

/-- N_beats: the largest count on the path (R312). -/
def nBeats (counts : List Nat) : Nat := counts.foldl max 0

/-- The one attachment stage of an IN_PLACE MOVE (R116, R312). -/
def inPlaceCount (src dst : BoundStage) : Nat := src.count + dst.count

/-- W_arb over the stages of R313, each by its own number of requesters; `tile` is the longest tile time of another
channel's corner turn, for a corner turn of priority 0-2, and 0 otherwise. -/
def wArb (waitLimit : Nat) (requesters : List Nat) (tile : Nat) : Nat :=
  (requesters.map fun n => waitLimit + n - 1).sum + tile

/-- P_prio of R314: for each instruction of a higher priority, its counts at the shared stages with `RATE` at 256; the
largest of each are added. -/
def pPrio (priority : Nat) (higher : List (List Nat)) : Nat :=
  if priority = 3 then 0 else (higher.map nBeats).sum

/-- The count of a datapath that another instruction passes through (R314). -/
def datapathCount (bytes : Nat) : Nat := ceilDiv bytes 512

/-- P_svc of R314: ⌈256 / read share⌉ for each scheduled fetch access and image read. -/
def pSvc (readShare accesses : Nat) : Nat := accesses * ceilDiv 256 readShare

/-- The chip hops to another chip: the route entry's `HOPS`, or `ALT_HOPS` while `USE_ALT` is 1 (R321, R337). -/
def routeHops (s : State) (chip : Nat) : Nat :=
  let r := getRoute s chip
  if r.useAlt then field r.bits 12 4 else field r.bits 4 4

/-- The mesh path from the owner to the alternate L-cell, which the bound of an instruction on the stream adds while
`USE_ALT` is 1 (R337). -/
def detour (s : State) (chip : Nat) : Nat :=
  let owner := ownerCell s chip
  if (getRoute s chip).useAlt then (boundPath owner owner (336 + currentLink s chip)).wire else 0

/-- The far chip's segment, inside the brackets: from its L-cell to the memory or from the memory to its L-cell, its
attachment in the REMOTE class with its W_arb term (R315). Its counts join those of `nBeats`. -/
def farSegment (waitLimit requesters lCell cell : Nat) (mem : EndKind) (isSource : Bool) : Nat :=
  (if isSource then mem.cSrc else mem.cDst) + (boundPath lCell lCell cell).wire + waitLimit + requesters - 1

/-- X_ext of a link: 650 ns a chip hop, and the bytes at 200 GB/s × `RATE` / 256 (R315). Sealed traffic adds 16 bytes
for each slug group to `bytes`. -/
def linkExt (chipHops bytes rate : Nat) : Ns := (Ns.mk (650 * chipHops) 1).add ⟨bytes * 256, 200 * rate⟩

/-- X_ext of the host: 1,800 ns, and the bytes at 121 GB/s × `RATE` / 256 (R315). -/
def hostExt (bytes rate : Nat) : Ns := (Ns.mk 1800 1).add ⟨bytes * 256, 121 * rate⟩

/-- The index bytes of a GATHER: cycles beyond C_src of the index memory (R316). -/
def gatherIndexCycles (index : EndKind) (bytes : Nat) : Nat := index.cSrc + (ceilDiv bytes 8 - 16)

/-- What REDUCE adds: the destination memory's C_src, except for ordered REDUCE with `INIT` = 1 (R316). -/
def reduceCycles (ordered init : Bool) (dst : EndKind) : Nat := if ordered && init then 0 else dst.cSrc

/-- The destination attachment bytes of AMOADD (R316). -/
def amoBytes (b : Nat) (fetch : Bool) : Nat := if fetch then 3 * b else 2 * b

/-- What MCAST adds to its largest branch for retention (R316). -/
def mcastCycles (n : Nat) : Nat := 8 * (n + 1)

/-- The terms of R311 for one instruction. `extra` is what R316 adds in engine cycles. -/
structure BoundTerms where
  path  : BoundPath
  src   : EndKind
  dst   : EndKind
  beats : Nat
  arb   : Nat
  pre   : Nat := 0
  extra : Nat := 0
  ext   : Ns := ⟨0, 1⟩
  deriving DecidableEq, Repr

/-- The sum inside the brackets of R311. -/
def BoundTerms.cycles (t : BoundTerms) : Nat :=
  t.path.issue + t.src.cSrc + t.dst.cDst + t.path.wire + t.beats + t.arb + t.pre + t.extra

/-- T: the most reference ns from issue to completion (R311). -/
def BoundTerms.bound (t : BoundTerms) : Nat := (t.ext.add (cyclesNs t.cycles)).nearest

/-- The terms of an instruction one of whose ends lies on another chip: the link's time over the chip's route as it stands,
the detour to the alternate L-cell, and the far chip's segment (R315, R321, R337). -/
def BoundTerms.remote (t : BoundTerms) (s : State) (chip bytes rate far : Nat) : BoundTerms :=
  { t with ext := t.ext.add (linkExt (routeHops s chip) bytes rate), extra := t.extra + detour s chip + far }

/-- Conditions 3 and 4 of R317 at one stage or router output: the `RATE` values of the paths that may be active there
sum to 256 or less. -/
def ratesFit (rates : List Nat) : Bool := rates.sum ≤ 256

/-- How long an instruction other than a movement keeps its context from issuing the next (R190, R239). -/
inductive HoldKind where
  /-- FORME, whose image a cell `hops` control hops away serves with `requesters` at its read stage. -/
  | forme (hops requesters : Nat) (image : EndKind)
  | advance
  /-- Taking the next queue entry at the end of a command list (R164, R201). -/
  | nextEntry (requesters : Nat) (ring : EndKind)
  /-- SIGNAL SUB of a word of this chip. -/
  | signalSub (hops requesters : Nat)
  /-- Every other setup, control and synchronisation instruction; time spent waiting comes on top (R39). -/
  | other
  /-- The issue of a movement instruction (R319). -/
  | movement
  deriving DecidableEq, Repr

/-- The engine cycles of a hold (R190, R239, R319). -/
def HoldKind.cycles (waitLimit : Nat) : HoldKind → Nat
  | .forme h n m => 184 + 4 * h + m.cSrc + waitLimit + n - 1
  | .advance => 128
  | .nextEntry n m => 2 * (40 + m.cSrc + waitLimit + n - 1)
  | .signalSub h n => 48 + 4 * h + EndKind.core.cSrc + EndKind.core.cDst + 2 * (waitLimit + n - 1)
  | .other => 32
  | .movement => 1

/-- A hold in ns (R190, R239). `chips` is how many chip hops away the word of a SIGNAL SUB lies, which adds two link
terms of no bytes; 0 on this chip and for every other instruction. -/
def HoldKind.time (waitLimit : Nat) (k : HoldKind) (chips : Nat) : Ns :=
  (cyclesNs (k.cycles waitLimit)).add (if chips = 0 then ⟨0, 1⟩ else (linkExt chips 0 256).add (linkExt chips 0 256))

/-- The bound of a WAIT GE once the instruction it waits for has completed (R244). -/
def waitBound (poll hops requesters waitLimit : Nat) (word : EndKind) : Ns :=
  (Ns.mk (64 * (poll + 1)) 1).add (cyclesNs (48 + 4 * hops + word.cSrc + word.cDst + 3 * (waitLimit + requesters - 1)))

/-- What the last effect that a FENCE covers was (R294). -/
inductive FenceEnd where
  | inside (mem : EndKind)
  | host (requesters : Nat)
  /-- Another chip's memory, so many chip hops away, within SYSTEM. -/
  | chip (mem : EndKind) (chipHops : Nat)
  | outside
  deriving DecidableEq, Repr

/-- How long a FENCE may wait once the last effect it covers has completed, the cell that serves that effect's memory
`hops` control hops from the home cell (R294). -/
def fenceWait (waitLimit hops : Nat) : FenceEnd → Ns
  | .inside m => cyclesNs (m.cDst + 16 + 2 * hops)
  | .host n => (cyclesNs (EndKind.off.cDst + 16 + 2 * hops + waitLimit + n - 1)).add (hostExt 32 256)
  | .chip m c => ((cyclesNs (m.cDst + 16 + 2 * hops)).add (linkExt c 0 256)).add (linkExt c 0 256)
  | .outside => cyclesNs (16 + 2 * hops)

/-- R319 for one channel at one cell: `js` holds the latest issue offset and the bound of each instruction, in ns. -/
def frameFits (period : Nat) (js : List (Nat × Nat)) : Bool :=
  (js.map Prod.fst).foldl max 0 + (js.map Prod.snd).sum ≤ period - 1000

/-- The recurrence of R319 for one context's instructions in program order: each E_j after the last. -/
def frameEnds : Nat → List (Nat × Nat) → List Nat
  | _, [] => []
  | prev, (a, t) :: js => (max a prev + t) :: frameEnds (max a prev + t) js

/-- The frame fits by the recurrence of R319. -/
def frameFitsInOrder (period : Nat) (js : List (Nat × Nat)) : Bool := (frameEnds 0 js).all (· ≤ period - 1000)

/-- R245: the pulse, the TOLL that opens the frame, the largest bound of each step and each wait with its WAIT, in ns. -/
def chainFits (period toll : Nat) (steps waits : List Nat) : Bool := 8 + toll + steps.sum + waits.sum ≤ period - 1000

end Sys2Proof.Machine
end

