-- ==== Sys2Proof/Machine/Headers.lean ====
section
/-!
DEFINITION. Slug headers, link envelopes and the first flits of control messages as the ports carry them (R323, R425, R428, R430). The state
holds their fields apart, and no command reads the bits.
-/

namespace Sys2Proof.Machine

/-- 255 bits with the bit that makes their parity even (R428). -/
def withParity (w : Nat) : Nat := w % 2 ^ 255 + place (flag (parityOf w 255)) 255
/-- The kind of a slug of the mesh (R428): a chime update, scales alone, or data. -/
def slugKind (g : Slug) : Nat :=
  if g.chime.isSome then 2 else if g.data.elems.isEmpty && !g.data.scales.isEmpty then 1 else 0
/-- The kind of a stream item (R428). -/
def itemKind : Payload → Nat
  | .data _ _ elems scales _ => if elems.isEmpty && !scales.isEmpty then 1 else 0
  | .chime _ _ _ _ _ => 2
  | .signal _ _ _ _ _ => 3
  | .poll _ _ _ => 4
  | .pollResult _ _ _ _ | .subResult _ => 5
  | .completion _ _ _ => 6
  | .performed _ => 7
  | .refusal _ _ _ _ => 8
  | .abandon _ => 9
  | .order _ _ _ _ => 11
/-- The stream position of a slug's first element. -/
def slugStart (g : Slug) : Nat := (g.data.elems.head?.map Prod.fst).getD 0
/-- The first source sector of a slug of data, which is bits [63:5] of its address (R428). -/
def slugSector (f : Flight) (g : Slug) : Nat := ((srcUnit f g.data.rank (slugStart g / srcPer f g.data.rank)).getD []).headD 0
/-- The bytes of a slug's payload (R428). -/
def slugBytes (f : Flight) (g : Slug) : Nat :=
  ceilDiv (g.data.elems.length * tyWidth (streamF f g.data.rank) + g.data.scales.length * (if profSfmt f.job.profile = 2 then 16 else 8)) 8
/-- A slug carries the end of what its source cell sends for its order (R428). -/
def slugLast (s : State) (f : Flight) (g : Slug) : Bool :=
  let after := (g.data.elems.getLast?.map fun e => e.1 + 1).getD (totalF f)
  (List.range (totalF f - after)).all fun i => srcCellOf s f g.data.rank ((after + i) / srcPer f g.data.rank) ≠ g.src
/-- A slug's place in the stream of its order, in slugs of 512 bytes, by which a destination restores the order of several sources (R223, R428;
log 144). -/
def slugSequence (f : Flight) (g : Slug) : Nat := slugStart g * tyWidth (streamF f g.data.rank) / 4096
/-- What a header says that depends on the kind of the slug: the last mark, the address, the sequence, the sector mask and the operand (R428). -/
def slugContent (s : State) (g : Slug) : Nat :=
  let fields (last : Bool) (addr sequence sectors operand : Nat) : Nat :=
    place (flag last) 98 + place (addr % 2 ^ 59) 100 + place (sequence % 2 ^ 32) 159 + place (2 ^ sectors - 1) 191 + place operand 207
  match g.chime with
  | some id =>
    (match s.chimes.find? fun u => u.id == id with
     | some u => fields true (u.addr.toNat / 32) 0 0 u.amount.toNat
     | none => 0)
  | none =>
    match getFlight s g.insn with
    | some f => fields (slugLast s f g) (slugSector f g) (slugSequence f g) (min 16 (ceilDiv (slugBytes f g) 32)) 0
    | none => 0
/-- The 256-bit header of a slug (R428). The context of another chip's work is its number there (log 17). -/
def slugHeader (s : State) (g : Slug) : BitVec 256 :=
  let ctx := if g.ctx < ctxCount then g.ctx else (foreignParts g.ctx).2.2
  BitVec.ofNat 256 (withParity (g.dst + place g.src 9 + place g.ch 18 + place ctx 22 + place ((slugOwner s g).2.getD 0) 32 +
    place g.epoch.toNat 40 + place (slugDeadline s g) 72 + place (g.beats - 1) 92 + place (slugKind g) 94 + slugContent s g))
/-- The sideband of a slug's later beats: even parity over the beat's data at bit 255 (R427). -/
def beatSideband (data : Nat) : BitVec 256 := BitVec.ofNat 256 (place (flag (parityOf data 1024)) 255)

/-- The envelope of a frame outside the sequence: its kind, and f, the choice, h or the Peal state in the sequence field (R425). -/
def controlEnvelope (s : State) (kind : Nat) (value : BitVec 32) : BitVec 128 :=
  BitVec.ofNat 128 (s.regs.chipId + place s.regs.incarnation.toNat 14 + place value.toNat 30 + place kind 69)
/-- The 128-bit envelope of a stream item (R323, R425). -/
def itemEnvelope (it : Item) : BitVec 128 :=
  BitVec.ofNat 128 (it.chip + place it.incarnation.toNat 14 + place it.seq.toNat 30 + place it.window 62 +
    place (flag it.first) 66 + place (flag it.last) 67 + place (flag it.isSealed) 68)
/-- The first flit of a control message of so many flits (R430). The numbers of the message types are not in the spec. -/
def firstFlit (m : Msg) (type_ flits tag : Nat) : Word :=
  BitVec.ofNat 64 (m.dst + place (type_ % 128) 9 + place ((flits - 1) % 32) 16 + place (tag % 2048) 21)

end Sys2Proof.Machine
end

