-- ==== Sys2Proof/WellFormed.lean ====
section
/-!
DEFINITION. Which commands are well formed: every operand names something that exists and fits the width the manual gives
it.
-/

namespace Sys2Proof

open Sys2Proof.Machine

/-- A context number (R149). -/
def ctxOk (c : Nat) : Bool := decide (c < ctxCount)
/-- A cell number (R11). -/
def cellOk (n : Nat) : Bool := decide (n < cellCount)
/-- An L-cell's number (R11). -/
def linkCellOk (n : Nat) : Bool := decide (336 ≤ n ∧ n < 352)
/-- An H-cell's number (R11). -/
def hostCellOk (n : Nat) : Bool := decide (352 ≤ n ∧ n < 354)
/-- A channel number (R171). -/
def chOk (ch : Nat) : Bool := decide (ch < channelCount)
/-- A domain number (R341). -/
def domOk (d : Nat) : Bool := decide (d < domainCount)
/-- A Peal line (R266). -/
def lineOk (n : Nat) : Bool := decide (n < lineCount)
/-- A chip ID (R320). -/
def chipOk (c : Nat) : Bool := decide (c < chipCount)
/-- A core's number (R12). -/
def coreOk (k : Nat) : Bool := decide (k < coreCount)
/-- A Peal participant (R266). -/
def partyOk : Party → Bool
  | .context c => ctxOk c
  | .core k => coreOk k
/-- A counter's owner (R400). -/
def counterOk (o : CounterOwner) (k : Nat) : Bool := (match o with | .cell n => cellOk n | .belfry _ => true) && decide (k < 8)
/-- An agent of a register access (R455). -/
def agentOk : Agent → Bool
  | .context c => ctxOk c
  | _ => true
/-- An item's envelope and header fields (R323, R425). -/
def itemOk (x : Item) : Bool := chipOk x.chip && domOk x.domain && ctxOk x.ctx
/-- An answer's words: one 128-byte image, or the instructions of at most one burst (R56, R167). -/
def wordsOk (status : AttStatus) (n limit : Nat) : Bool := decide (status ≠ .ok ∨ n ≤ limit)
/-- What the fuses hold (R459). -/
def fusesOk (f : Fuses) : Bool := decide (f.grade < 3)

/-- A command is well formed. -/
def Instr.wf : Instr → Bool
  | .forme c | .unforme c | .ldscale c | .stscale c | .setcast c | .setrate c | .phase c | .advance c | .loop c | .endloop c
  | .branch c | .call c | .ret c | .toll c | .halt c | .nop c | .abandon c | .swap c | .drain c | .move c | .gather c | .scatter c
  | .fill c | .mcast c | .reduce c | .amoadd c | .check c | .signalAdd c | .signalGive c | .signalSub c | .waitGe c | .waitTake c
  | .pealArrive c | .pealEnrol c | .pealResign c | .fence c | .mark c | .illegalOpcode c => ctxOk c
  | .formeImageReturn c status image => ctxOk c && wordsOk status image.length 16
  | .queueEntryTake c _ => ctxOk c
  | .fetchBurstReturn c addr status words => ctxOk c && decide (addr.toNat % 1024 = 0) && wordsOk status words.length 64
  | .load c agent grants => ctxOk c && agentOk agent && decide (grants.length < 64)
  | .restore c agent grants image => ctxOk c && agentOk agent && decide (grants.length < 64) && decide (image.length = 8192)
  | .unload c | .save c | .pause c | .resume c | .abort c | .galleyScrubDone c | .contextFreed c => ctxOk c
  | .badOp c op => ctxOk c && decide (op < 16) && !decide (1 ≤ op ∧ op ≤ 7)
  | .doorbell c _ => ctxOk c
  | .ctxConfigWrite c agent _ => ctxOk c && agentOk agent
  | .channelPause cell ch | .channelResume cell ch | .channelSkip cell ch | .channelAbort cell ch | .channelEnable cell ch
  | .channelDisable cell ch | .channelStopped cell ch => cellOk cell && chOk ch
  | .cellEnable cell | .cellDisable cell | .cellStopped cell | .retire cell | .degradedClear cell => cellOk cell
  | .healthConfigWrite _ | .modeTest | .modeInit | .modeRun | .modeRecovery | .attach | .attachEnterRun | .attachTimeout | .detach
  | .detachDrained | .detachTimeout => true
  | .commit d agent | .release d agent => domOk d && agentOk agent
  | .loadKey d _ _ | .zeroise d _ | .lock d _ | .unlock d _ | .keyRelease d _ => domOk d
  | .write _ _ _ | .zeroiseAll _ | .tamper | .tollPeriodWrite _ => true
  | .attSplitWrite cell _ => cellOk cell
  | .arbConfigWrite _ => true
  | .routeWrite chip _ => chipOk chip
  | .pealEnable line | .pealDisable line | .pealLineStopped line => lineOk line
  | .dumpTrigger | .freeze _ | .thaw _ | .snapshot _ | .damperCancel | .damperAction => true
  | .dumpDone consumed => consumed.all domOk
  | .evselWrite o k _ => counterOk o k
  | .evcntWrite o k _ _ => counterOk o k
  | .impConfigWrite cell _ => cellOk cell
  | .lowerWordRead offset => decide (offset < 2 ^ 48)
  | .registerWrite agent offset width _ => agentOk agent && decide (offset < 2 ^ 48) && decide (width = 32 ∨ width = 64)
  | .powerGood fuses => fusesOk fuses
  | .mbistDone fails => fails.all cellOk
  | .mbistRun cell | .faultInject cell _ => cellOk cell
  | .scanEntry | .refTick | .tollTick => true
  | .syncOffset cell _ _ _ period => linkCellOk cell && decide (4 ≤ period ∧ period ≤ 1024)
  | .tollPulse cell | .guardInstant cell | .overrunReport cell | .stoppedInterval cell => cellOk cell
  | .heartbeat _ | .heartbeatLoss _ => true
  | .orderArrival cell _ | .indexDelivery cell _ | .haltFlit cell _ | .slugArrival cell _ | .destinationComplete cell _ => cellOk cell
  | .readResponse cell _ status data => cellOk cell && wordsOk status data.length 512
  | .writeResponse cell _ _ => cellOk cell
  | .creditReturn _ | .slugReplayFail _ | .registerAccessResponse _ => true
  | .completionFlit _ cell => cellOk cell
  | .performedReport c cell => ctxOk c && cellOk cell
  | .flushComplete cell _ _ => cellOk cell
  | .hostReadTimeout cell _ => cellOk cell
  | .hostLinkState cell _ => hostCellOk cell
  | .chimeUpdate cell _ _ _ _ => cellOk cell
  | .pollTimer c | .pollResult c | .subResult c | .waitTimeout c => ctxOk c
  | .pollRequest _ _ _ => true
  | .corePealArrive core line => coreOk core && lineOk line
  | .pealLeave party line => partyOk party && lineOk line
  | .pealRelease cell line => cellOk cell && lineOk line
  | .pealTimeout line => lineOk line
  | .pealFlit cell line _ _ => linkCellOk cell && decide (8 ≤ line) && lineOk line
  | .abandonFlit cell c | .abandonReport cell c => cellOk cell && ctxOk c
  | .itemArrival link item => decide (link < 16) && itemOk item
  | .refusalReport c => ctxOk c
  | .ackTimer chip | .remoteAck chip _ | .resendTimer chip | .streamLostTimer chip | .openRetry chip | .streamIdle chip
  | .close chip _ | .goodbye chip _ | .peerSilence chip => chipOk chip
  | .openReply chip window => chipOk chip && (match window with | some n => decide (n < 16) | none => true)
  | .streamOpen link chip _ _ => decide (link < 16) && chipOk chip
  | .linkDown cell | .linkUp cell => linkCellOk cell
  | .correctableError cell kind => cellOk cell && (decide (kind ≠ .linkCrc) || linkCellOk cell)
  | .cueWake cell _ | .lendThreshold cell => cellOk cell
  | .floorLost _ | .stepNotice _ _ _ _ | .stretchChange _ _ | .engineCycle _ => true
  | .wearMeasure cell drift _ _ => cellOk cell && decide (drift.length = 4)
  | .uncorrectableGalleyError cell _ => cellOk cell

end Sys2Proof
end

