-- ==== Sys2Proof/Tests/Slice0.lean ====
section
/-!
SUPPORT. The model's own tests: ill-formed commands, one step of each command on a small state, and a concrete state for
every hypothesis of the statements. Expected values come from the rules cited beside each group.
-/

namespace Sys2Proof.Tests

set_option Elab.async false

open Sys2Proof Sys2Proof.Machine

/-! Ill-formed commands. -/

/-- R149, R11, R171, R341, R266, R320: an operand beyond the last context, cell, channel, domain, line, chip or core. -/
theorem test_wf_numbers :
    (Instr.nop 1024).wf = false ∧ (Instr.nop 1023).wf = true ∧ (Instr.cellEnable 354).wf = false ∧ (Instr.cellEnable 353).wf = true ∧
    (Instr.channelPause 0 16).wf = false ∧ (Instr.channelPause 0 15).wf = true ∧ (Instr.commit 256 .host).wf = false ∧
    (Instr.pealEnable 16).wf = false ∧ (Instr.routeWrite 16384 0).wf = false ∧ (Instr.corePealArrive 4608 0).wf = false ∧
    (Instr.corePealArrive 4607 15).wf = true ∧ (Instr.pealLeave (.core 4608) 0).wf = false ∧ (Instr.pealLeave (.context 1024) 0).wf = false := by
  decide +kernel
/-- R11: a link event at a cell that is no L-cell, a host link at one that is no H-cell, a mesh link beyond 15. -/
theorem test_wf_roles :
    (Instr.linkDown 335).wf = false ∧ (Instr.linkDown 336).wf = true ∧ (Instr.linkUp 352).wf = false ∧
    (Instr.hostLinkState 351 true).wf = false ∧ (Instr.hostLinkState 353 true).wf = true ∧ (Instr.syncOffset 0 0 0 0 50).wf = false ∧
    (Instr.itemArrival 16 { payload := .performed 0 }).wf = false ∧ (Instr.streamOpen 16 0 0 0).wf = false ∧
    (Instr.openReply 0 (some 16)).wf = false ∧ (Instr.correctableError 0 .linkCrc).wf = false ∧ (Instr.correctableError 336 .linkCrc).wf = true := by
  decide +kernel
/-- R323, R341, R149: an item whose envelope names no chip, domain or context. -/
theorem test_wf_items :
    (Instr.itemArrival 0 { chip := 16384, payload := .performed 0 }).wf = false ∧
    (Instr.itemArrival 0 { domain := 256, payload := .performed 0 }).wf = false ∧
    (Instr.itemArrival 0 { ctx := 1024, payload := .performed 0 }).wf = false ∧
    (Instr.itemArrival 0 { payload := .performed 0 }).wf = true := by
  decide +kernel
/-- R56, R160, R167, R174, R416: an image, burst, grant list or answer that is too long, a burst that is not aligned. -/
theorem test_wf_answers :
    (Instr.formeImageReturn 0 .ok (List.replicate 17 0)).wf = false ∧ (Instr.formeImageReturn 0 .ok (List.replicate 16 0)).wf = true ∧
    (Instr.fetchBurstReturn 0 1024 .ok (List.replicate 65 0)).wf = false ∧ (Instr.fetchBurstReturn 0 512 .ok []).wf = false ∧
    (Instr.load 0 .host (List.replicate 64 0)).wf = false ∧ (Instr.restore 0 .host [] []).wf = false ∧
    (Instr.readResponse 0 0 .ok (List.replicate 513 0)).wf = false ∧ (Instr.wearMeasure 0 [0] 0 0).wf = false := by
  decide +kernel
/-- R153, R157, R341, R400, R450, R30, R459, R455: a listed command number sent as a bad one, a consumed domain, a counter, a
register width, a Toll period, a grade and an agent that do not exist; a Peal flit on a line of one chip. -/
theorem test_wf_values :
    (Instr.badOp 0 1).wf = false ∧ (Instr.badOp 0 7).wf = false ∧ (Instr.badOp 0 0).wf = true ∧ (Instr.badOp 0 16).wf = false ∧
    (Instr.dumpDone [256]).wf = false ∧ (Instr.evselWrite (.cell 354) 0 0).wf = false ∧ (Instr.evcntWrite (.belfry true) 8 0 0).wf = false ∧
    (Instr.registerWrite .host 0 16 0).wf = false ∧ (Instr.registerWrite .host (2 ^ 48) 64 0).wf = false ∧
    (Instr.registerWrite (.context 1024) 0 64 0).wf = false ∧ (Instr.lowerWordRead (2 ^ 48)).wf = false ∧
    (Instr.syncOffset 336 0 0 0 3).wf = false ∧ (Instr.syncOffset 336 0 0 0 1024).wf = true ∧
    (Instr.powerGood { grade := 3 }).wf = false ∧ (Instr.pealFlit 336 7 false .release).wf = false ∧ (Instr.mbistDone [354]).wf = false := by
  decide +kernel

/-! Helpers. -/

/-- A command answers a next state that passes a check. -/
def answers (r : Res) (p : State → Bool) : Bool := match r with | .next t => p t | _ => false
/-- A chip in RUN mode, every core enabled, the Toll running and Toll 1 next. -/
def chip : State :=
  { regs := { mode := .run, busy := false, powered := true, fuseOk := true, mbistDone := true, good := BitVec.allOnes 4608, fusedGood := BitVec.allOnes 4608 }
    time := { running := true, next := 1 } }
/-- CONFIG of the tests' context: a SYSTEM context of domain 2 at cell 16, every channel, half and mode bit as given. -/
def cfg (deadline lead : Bool) : Word :=
  BitVec.ofNat 64 (1 + place 2 2 + place 16 10 + place (flag deadline) 19 + place 3 20 + place (flag lead) 24 + place 0xFFFF 25)
/-- An instruction word: opcode, channel, source, destination, auxiliary slot, profile, chime, flags, immediate (R184). -/
def word (op : Nat) (ch src dst aux prof : Nat := 0) (chime : Nat := 63) (flags imm : Nat := 0) : Insn :=
  BitVec.ofNat 128 (place op 120 + place ch 116 + place src 110 + place dst 104 + place aux 98 + place prof 94 + place chime 88 + place flags 64 + imm)
/-- Context 1 RUNNING at 0x1000, in a list of 4 instructions whose word there is `w`. -/
def body (w : Insn) : Ctx :=
  { regs := { state := .running, config := cfg false false }, pc := 0x1000, listBase := 0x1000, listCount := 4
    bursts := [{ addr := 0x1000, words := [w, w, w, w] }]
    grants := [{ first := 0, last := 353, channel := 0, work := 4, prefetch := 0 }] }
/-- A context with its turn. -/
def turn (x : Ctx) : State := { chip with ctxs := [(1, x)], cells := [(16, { decode := some 1 })] }
/-- The word `w` at its turn. -/
def at0 (w : Insn) : State := turn (body w)
/-- A state's context 1. -/
abbrev c1 (s : State) : Ctx := getCtx s 1
/-- The hypotheses `AtWord` and `Accepted`, as one check. -/
def ready (s : State) (c : Nat) (w : Insn) : Bool :=
  decide (c < ctxCount) && hasTurn s c && (match burstOf (getCtx s c) with | some b => b.bad.isNone | none => false) &&
    decide (currentWord (getCtx s c) = some w)
/-- A word that passes its encoding and `CHMASK` checks, as one check. -/
def accepted (s : State) (c : Nat) (w : Insn) : Bool := wordOk w && (!namesChannel w || cfgChannel (configOf s c) (chOf w))
/-- `ready` says `AtWord`. -/
theorem atWord_of {s : State} {c : Nat} {w : Insn} (h : ready s c w = true) : AtWord s c w := by
  simp only [ready, Bool.and_eq_true, decide_eq_true_eq] at h
  obtain ⟨⟨⟨h1, h2⟩, h3⟩, h4⟩ := h
  refine ⟨h1, h2, ?_, h4⟩
  cases hb : burstOf (getCtx s c) with
  | none => rw [hb] at h3; cases h3
  | some b => rw [hb] at h3; exact ⟨b, rfl, Option.isNone_iff_eq_none.mp h3⟩
/-- `accepted` says `Accepted`. -/
theorem accepted_of {s : State} {c : Nat} {w : Insn} (h : accepted s c w = true) : Accepted s c w := by
  simp only [accepted, Bool.and_eq_true, Bool.or_eq_true, Bool.not_eq_true'] at h
  exact ⟨h.1, fun hn => h.2.resolve_left (by simp [hn])⟩
/-- The two hypotheses that most statements about instructions share. -/
theorem at_accepted {s : State} {c : Nat} {w : Insn} (h : (ready s c w && accepted s c w) = true) : AtWord s c w ∧ Accepted s c w :=
  ⟨atWord_of (by simp_all), accepted_of (by simp_all)⟩
/-- A command answers a next state in which the context has no fault and stands at `pc`. -/
def goes (r : Res) (pc : Word) (p : State → Bool := fun _ => true) : Bool :=
  answers r fun t => decide ((c1 t).pc = pc) && decide ((c1 t).regs.fault = 0) && p t
/-- A command answers a next state in which the context is PAUSED with a fault at its program counter. -/
def faults (r : Res) (code : Code) : Bool :=
  answers r fun t => decide ((c1 t).regs.fault = code) && decide ((c1 t).regs.state = .paused) && decide ((c1 t).pc = 0x1000)

/-! The queue and the invariants. -/

/-- The queue: the front command runs on the rest; an empty queue idles (log 1). -/
theorem witness_TheFrontCommandRuns :
    ({ chip with pending := [.heartbeat true, .tamper] } : State).pending = .heartbeat true :: [.tamper] ∧
    answers (step { chip with pending := [.heartbeat true, .tamper] }) (fun t => decide (t.pending = [.tamper])) = true ∧
    chip.pending = [] ∧ step chip = .next chip := by
  refine ⟨rfl, by decide +kernel, rfl, rfl⟩
/-- A sound state, here and after reset, whose step answers a next state. -/
theorem witness_SoundIsKept : chip.Sound ∧ State.reset.Sound ∧
    ∃ t, step { chip with pending := [.tollPeriodWrite 1024] } = .next t ∧ t.time.pendingPeriod = some 1024 := by
  refine ⟨?_, ?_, _, rfl, by decide +kernel⟩ <;>
    exact ⟨by decide +kernel, ⟨by decide +kernel, by decide +kernel⟩, fun _ h => (by cases h), fun _ _ h => (by cases h)⟩
/-- A command that answers a next state and leaves the queue. -/
theorem witness_TheQueueIsUntouched :
    ∃ t, exec (.heartbeat true) { chip with pending := [.tamper] } = .next t ∧ t.pending = [.tamper] := ⟨_, rfl, rfl⟩
/-- R346, R349, R350: the commands that the statement names do what it lets them. -/
theorem witness_KeysComeOnlyThroughTheKeyPort :
    answers (exec (.loadKey 2 7 true) chip) (fun t => decide ((getDom t 2).key = some 7)) = true ∧
    answers (exec (.lock 255 true) chip) (fun t => (getDom t 255).lock) = true ∧
    answers (exec (.unlock 0 true) { chip with domains := [(0, { lock := true })] }) (fun t => !(getDom t 0).lock) = true ∧
    answers (exec (.keyRelease 0 true) { chip with domains := [(0, { lock := true, key := some 1 })] })
      (fun t => !(getDom t 0).lock && decide ((getDom t 0).key = none)) = true := by decide +kernel

/-! Setup and control (R188-R213). -/

/-- The hypotheses that the statements about an instruction share. -/
def Shows (s : State) (w : Insn) : Prop := AtWord s 1 w ∧ Accepted s 1 w
/-- R206: a NOP with every other bit set. -/
abbrev wNop : Insn := word 0x17 (ch := 15) (src := 63) (flags := 0xFFFFFF) (imm := 0xFFFFFFFFFFFFFFFF)
/-- A VALID slot. -/
def valid : Slot := { state := .valid }
/-- R193: UNFORME of slots 0 and 63. -/
abbrev wUnforme : Insn := word 0x02 (imm := 2 ^ 63 + 1)
/-- Context 1 with slots 0, 1 and 63 VALID. -/
abbrev sUnforme : State := turn { body wUnforme with slots := [(0, valid), (1, valid), (63, valid)] }
/-- NOP and UNFORME; the end of the list with a call open, an entry pending, and neither (R201). -/
theorem witness_NopAndUnformeRetire :
    (AtWord (at0 wNop) 1 wNop ∧ opOf wNop = 0x17 ∧ goes (exec (.nop 1) (at0 wNop)) 0x1010 = true) ∧
    (Shows sUnforme wUnforme ∧ opOf wUnforme = 0x02 ∧ goes (exec (.unforme 1) sUnforme) 0x1010
      (fun t => decide ((slotOf t 1 0).state = .empty ∧ (slotOf t 1 1).state = .valid ∧ (slotOf t 1 63).state = .empty)) = true) ∧
    (AtWord (turn { body wNop with listCount := 1 }) 1 wNop ∧
      goes (exec (.nop 1) (turn { body wNop with listCount := 1 })) 0x1010 (fun t => decide ((c1 t).regs.state = .waiting ∧ (c1 t).wait = .doorbell)) = true) ∧
    (AtWord (turn { body wNop with listCount := 1, calls := [0] }) 1 wNop ∧
      answers (exec (.nop 1) (turn { body wNop with listCount := 1, calls := [0] })) (fun t => decide ((c1 t).regs.fault = ILLEGAL_INSTR)) = true) ∧
    (let x := { body wNop with listCount := 1, regs := { (body wNop).regs with queue := 1, tail := 1 } }
     AtWord (turn x) 1 wNop ∧ goes (exec (.nop 1) (turn x)) 0x1010 (fun t => decide ((c1 t).regs.state = .running ∧ (c1 t).listCount = 0)) = true) := by
  refine ⟨⟨atWord_of ?_, ?_, ?_⟩, ⟨at_accepted ?_, ?_, ?_⟩, ⟨atWord_of ?_, ?_⟩, ⟨atWord_of ?_, ?_⟩, atWord_of ?_, ?_⟩ <;> decide +kernel

abbrev wSetcast : Insn := word 0x05 (prof := 15) (imm := 2 ^ 31)
abbrev wSetrate : Insn := word 0x06 (ch := 15) (imm := 256 + (2 ^ 20 - 1) * 512)
abbrev wPhase : Insn := word 0x07 (imm := 0xFFFFFFFF)
abbrev wMark : Insn := word 0x3F (imm := 9)
abbrev wSwap : Insn := word 0x19 (ch := 15)
abbrev wSwapAll : Insn := word 0x19 (flags := 1)
/-- R197, R198, R199, R209, R238. -/
theorem witness_SetupInstructionsWriteTheirRegister :
    (Shows (at0 wSetcast) wSetcast ∧ goes (exec (.setcast 1) (at0 wSetcast)) 0x1010 (fun t => decide (tabGet 0 (c1 t).profiles 15 = 2 ^ 31)) = true) ∧
    (Shows (at0 wSetrate) wSetrate ∧ goes (exec (.setrate 1) (at0 wSetrate)) 0x1010
      (fun t => decide (tabGet {} (c1 t).rates 15 = { rate := 256, budget := 0xFFFFF })) = true) ∧
    (Shows (at0 wPhase) wPhase ∧ goes (exec (.phase 1) (at0 wPhase)) 0x1010 (fun t => decide ((c1 t).phase = 0xFFFFFFFF)) = true) ∧
    (Shows (at0 wMark) wMark ∧ goes (exec (.mark 1) (at0 wMark)) 0x1010 (fun t => decide ((c1 t).mark = some 9)) = true) ∧
    (Shows (at0 wSwap) wSwap ∧ isLead (at0 wSwap) 1 = false ∧ goes (exec (.swap 1) (at0 wSwap)) 0x1010 (fun t => decide ((c1 t).halves = 0x8000)) = true) ∧
    (Shows (at0 wSwapAll) wSwapAll ∧ goes (exec (.swap 1) (at0 wSwapAll)) 0x1010 (fun t => decide ((c1 t).halves = 0xFFFF)) = true) ∧
    (let s := turn { body wSwap with regs := { (body wSwap).regs with config := cfg false true } }
     Shows s wSwap ∧ isLead s 1 = true ∧ goes (exec (.swap 1) s) 0x1010 (fun t => decide ((c1 t).halves = 0)) = true) := by
  refine ⟨⟨at_accepted ?_, ?_⟩, ⟨at_accepted ?_, ?_⟩, ⟨at_accepted ?_, ?_⟩, ⟨at_accepted ?_, ?_⟩, ⟨at_accepted ?_, ?_, ?_⟩, ⟨at_accepted ?_, ?_⟩,
    at_accepted ?_, ?_, ?_⟩ <;> decide +kernel

/-- A control word with its register, displacement in two's complement, other flags and low immediate. -/
def jump (op lreg disp : Nat) (flags imm : Nat := 0) : Insn := word op (flags := lreg + flags) (imm := place disp 32 + imm)
abbrev minus (n : Nat) : Nat := 2 ^ 32 - n
/-- A word at its turn with loop register 7 given. -/
def withLoop (w : Insn) (v : BitVec 32) : State := turn { body w with loops := [(7, v)] }
/-- R202: a LOOP of count 5 and of count 0, its displacement the least and the furthest that are allowed, and 0. -/
theorem witness_LoopAndEndloopCount :
    (let w := jump 0x10 7 1 0 5
     Shows (at0 w) w ∧ InList (c1 (at0 w)) 0x1010 ∧ goes (exec (.loop 1) (at0 w)) 0x1010 (fun t => decide (tabGet 0 (c1 t).loops 7 = 5)) = true) ∧
    (let w := jump 0x10 7 3
     Shows (at0 w) w ∧ InList (c1 (at0 w)) 0x1030 ∧ goes (exec (.loop 1) (at0 w)) 0x1030 (fun t => decide ((c1 t).loops = [])) = true) ∧
    (let w := jump 0x10 7 0
     AtWord (at0 w) 1 w ∧ dispOf w < 1 ∧ (c1 (at0 w)).regs.fault = 0 ∧ faults (exec (.loop 1) (at0 w)) ILLEGAL_INSTR = true) := by
  refine ⟨⟨at_accepted ?_, ?_, ?_⟩, ⟨at_accepted ?_, ?_, ?_⟩, atWord_of ?_, ?_, ?_, ?_⟩ <;> decide +kernel
/-- R203: an ENDLOOP whose register is 1, 2 and 0, and one of displacement 1. -/
theorem witness_LoopAndEndloopCount_endloop :
    (let w := jump 0x11 7 0
     Shows (withLoop w 1) w ∧ InList (c1 (withLoop w 1)) 0x1000 ∧
     goes (exec (.endloop 1) (withLoop w 1)) 0x1010 (fun t => decide (tabGet 0 (c1 t).loops 7 = 0)) = true ∧
     goes (exec (.endloop 1) (withLoop w 2)) 0x1000 (fun t => decide (tabGet 0 (c1 t).loops 7 = 1)) = true ∧
     goes (exec (.endloop 1) (withLoop w 0)) 0x1000 (fun t => decide (tabGet 0 (c1 t).loops 7 = 0xFFFFFFFF)) = true) ∧
    (let w := jump 0x11 7 1
     AtWord (at0 w) 1 w ∧ 0 < dispOf w ∧ faults (exec (.endloop 1) (at0 w)) ILLEGAL_INSTR = true) := by
  refine ⟨⟨at_accepted ?_, ?_, ?_, ?_, ?_⟩, atWord_of ?_, ?_, ?_⟩ <;> decide +kernel
/-- R204: BRANCH always, when equal, when unequal, taken and not, and with `ENDLIST`. -/
theorem witness_BranchCallAndRetTransfer_branch :
    (let w := jump 0x12 7 2
     Shows (at0 w) w ∧ InList (c1 (at0 w)) 0x1020 ∧ goes (exec (.branch 1) (at0 w)) 0x1020 = true) ∧
    (let w := jump 0x12 7 2 0x10 9
     Shows (withLoop w 9) w ∧ goes (exec (.branch 1) (withLoop w 9)) 0x1020 = true ∧ goes (exec (.branch 1) (withLoop w 8)) 0x1010 = true) ∧
    (let w := jump 0x12 7 2 0x20 9
     Shows (withLoop w 9) w ∧ goes (exec (.branch 1) (withLoop w 9)) 0x1010 = true ∧ goes (exec (.branch 1) (withLoop w 8)) 0x1020 = true) ∧
    (let w := jump 0x12 7 0 0x100
     Shows (at0 w) w ∧ goes (exec (.branch 1) (at0 w)) 0x1040 (fun t => decide ((c1 t).wait = .doorbell)) = true) ∧
    (let w := jump 0x12 7 1 0x100
     AtWord (at0 w) 1 w ∧ endlistOf w = true ∧ dispOf w ≠ 0 ∧ faults (exec (.branch 1) (at0 w)) ILLEGAL_INSTR = true) := by
  refine ⟨⟨at_accepted ?_, ?_, ?_⟩, ⟨at_accepted ?_, ?_, ?_⟩, ⟨at_accepted ?_, ?_, ?_⟩, ⟨at_accepted ?_, ?_⟩, atWord_of ?_, ?_, ?_, ?_⟩ <;>
    decide +kernel
abbrev wCall : Insn := jump 0x13 0 3
abbrev wRet : Insn := word 0x14
/-- R205: CALL at depth 7 and 8, RET at depth 8 and 0. -/
theorem witness_BranchCallAndRetTransfer :
    (let s := turn { body wCall with calls := [1, 2, 3, 4, 5, 6, 7] }
     Shows s wCall ∧ InList (c1 s) 0x1030 ∧ (c1 s).calls.length < 8 ∧
     goes (exec (.call 1) s) 0x1030 (fun t => decide ((c1 t).calls = [1, 2, 3, 4, 5, 6, 7, 0x1010])) = true) ∧
    (let s := turn { body wCall with calls := [1, 2, 3, 4, 5, 6, 7, 8] }
     AtWord s 1 wCall ∧ 8 ≤ (c1 s).calls.length ∧ faults (exec (.call 1) s) ILLEGAL_INSTR = true) ∧
    (let s := turn { body wRet with calls := [1, 2, 3, 4, 5, 6, 7, 0x1020] }
     Shows s wRet ∧ (c1 s).calls = [1, 2, 3, 4, 5, 6, 7] ++ [0x1020] ∧
     goes (exec (.ret 1) s) 0x1020 (fun t => decide ((c1 t).calls = [1, 2, 3, 4, 5, 6, 7])) = true) ∧
    (AtWord (at0 wRet) 1 wRet ∧ (c1 (at0 wRet)).calls = [] ∧ faults (exec (.ret 1) (at0 wRet)) ILLEGAL_INSTR = true) := by
  refine ⟨⟨at_accepted ?_, ?_, ?_, ?_⟩, ⟨atWord_of ?_, ?_, ?_⟩, ⟨at_accepted ?_, ?_, ?_⟩, atWord_of ?_, ?_, ?_⟩ <;> decide +kernel

abbrev wToll : Insn := word 0x15 (imm := 5)
abbrev wTollRel : Insn := word 0x15 (flags := 1) (imm := 0x7FFF)
/-- The word at its turn, its home's Toll count given. -/
def atToll (w : Insn) (count : Nat) : State := { at0 w with cells := [(16, { decode := some 1, tollCount := count })] }
abbrev wHalt : Insn := word 0x16
abbrev wDrain : Insn := word 0x1A
abbrev wDrainAll : Insn := word 0x1A (flags := 1)
/-- An issued MOVE of context 1 with its only part at cell 20. -/
def flight (w : Insn) : Flight := { id := 3, job := { ctx := 1, word := w, home := 16, pc := 0xFF0 }, srcCells := [16], parts := [{ cell := 20 }] }
abbrev wPrefetch : Insn := word 0x20 (dst := 1) (flags := 1)
/-- R207: a target reached exactly, half a circle on, and not yet; a relative one; the Toll stopped. R208. R210: nothing
open, a PREFETCH-marked instruction open, and a chime write. -/
theorem witness_TollHaltAndDrainHoldTheContext :
    (Shows (atToll wToll 5) wToll ∧ goes (exec (.toll 1) (atToll wToll 5)) 0x1010 = true ∧
      goes (exec (.toll 1) (atToll wToll (5 + 0x7FFF))) 0x1010 = true ∧
      goes (exec (.toll 1) (atToll wToll (5 + 0x8000))) 0x1000 (fun t => decide ((c1 t).wait = .toll 5)) = true ∧
      goes (exec (.toll 1) (atToll wToll 4)) 0x1000 (fun t => decide (ctxStatus t 1 / 8 % 8 = 4)) = true ∧
      goes (exec (.toll 1) { atToll wToll 4 with time := {} }) 0x1010 = true) ∧
    (Shows (atToll wTollRel 0xFFFF) wTollRel ∧ goes (exec (.toll 1) (atToll wTollRel 0xFFFF)) 0x1000 (fun t => decide ((c1 t).wait = .toll 0x7FFE)) = true) ∧
    (Shows (at0 wHalt) wHalt ∧ goes (exec (.halt 1) (at0 wHalt)) 0x1010 (fun t => decide ((c1 t).regs.state = .halted ∧ (c1 t).bursts = [])) = true) ∧
    (Shows (at0 wDrain) wDrain ∧ goes (exec (.drain 1) { at0 wDrain with flights := [flight wPrefetch] }) 0x1010 = true) ∧
    (Shows (at0 wDrainAll) wDrainAll ∧
      goes (exec (.drain 1) { at0 wDrainAll with flights := [flight wPrefetch] }) 0x1000 (fun t => decide (ctxStatus t 1 / 8 % 8 = 5)) = true) ∧
    goes (exec (.drain 1) { at0 wDrain with chimes := [{ id := 1, addr := 0, op := .add, amount := 1, ctx := 1, cell := 16, guard := 0 }] }) 0x1000 = true := by
  refine ⟨⟨at_accepted ?_, ?_, ?_, ?_, ?_, ?_⟩, ⟨at_accepted ?_, ?_⟩, ⟨at_accepted ?_, ?_⟩, ⟨at_accepted ?_, ?_⟩, ⟨at_accepted ?_, ?_⟩, ?_⟩ <;>
    decide +kernel

abbrev wAbandon : Insn := word 0x18
/-- R211: ABANDON with nothing in flight, and with an instruction at two cells. -/
theorem witness_AbandonSendsItsFlits :
    (Shows (at0 wAbandon) wAbandon ∧ goes (exec (.abandon 1) (at0 wAbandon)) 0x1010 (fun t => decide ((c1 t).epoch = 1)) = true) ∧
    goes (exec (.abandon 1) { at0 wAbandon with flights := [flight wPrefetch] }) 0x1000
      (fun t => decide ((c1 t).wait = .abandonReports [16, 20] ∧ t.ctl.map Msg.dst = [16, 20] ∧ t.ctl.map Msg.src = [16, 16])) = true := by
  refine ⟨⟨at_accepted ?_, ?_⟩, ?_⟩ <;> decide +kernel

/-! Formes (R56-R81, R191, R194). -/

/-- Domain 2 with one entry over the chip's core local memory, readable and writable as given. -/
def table (rd wr : Bool) : Tab Domain := [(2, { current := [(0, { base := 0, last := 0xFFFFFFFFFFE0, rd := rd, wr := wr, valid := true })] })]
/-- A state whose domain 2 may read and write core local memory. -/
def granted (s : State) : State := { s with domains := table true true }
/-- The image of eight readable FP32 elements at an address: R56's fields word by word. -/
def image (base : Word) : List Word := [base, 0x01000110, 0, 0, 0x100000008, 0x100000001, 0x100000001, 0x100000001, 0, 0, 0, 0, 0, 0, 0, 0]
/-- The forme of that image. -/
def fp32 (base : Word) (rd : Bool := true) (wr : Bool := false) : Forme :=
  { base := base, ty := .fp32, rd := rd, wr := wr, counts := [8, 1, 1, 1, 1, 1, 1, 1] }
abbrev wForme (a : Nat) : Insn := word 0x01 (dst := 63) (imm := a)
/-- Context 1 waiting for the image of slot 63. -/
def waitsImage : State := granted (turn { body (wForme 0x80) with wait := .formeImage 63 0x80 9 0 })
/-- Context 1 about to FORME slot 63, which is VALID, from an address of core local memory that its domain may not read. -/
def emptying (a : Nat) : State := turn { body (wForme a) with slots := [(63, valid)] }
/-- R191: an aligned readable image, a misaligned one and one that no entry holds. R69, R75: an image that passes, one whose
read failed, one of a reserved type and one that is misaligned. -/
theorem witness_FormeFetchesAndValidates :
    (let s := granted (at0 (wForme 0x80))
     Shows s (wForme 0x80) ∧ imageReachable s 1 0x80 = true ∧ goes (exec (.forme 1) s) 0x1000 (fun t => decide ((c1 t).wait = .formeImage 63 0x80 0 1)) = true) ∧
    (let s := emptying 0x90; Shows s (wForme 0x90) ∧ faults (exec (.forme 1) s) ALIGN = true ∧
      answers (exec (.forme 1) s) (fun t => decide ((slotOf t 1 63).state = .empty)) = true) ∧
    (let s := emptying 0x80; Shows s (wForme 0x80) ∧ imageReachable s 1 0x80 = false ∧ faults (exec (.forme 1) s) RANGE = true ∧
      answers (exec (.forme 1) s) (fun t => decide ((slotOf t 1 63).state = .empty)) = true) ∧
    ((c1 waitsImage).wait = .formeImage 63 0x80 9 0 ∧ (c1 waitsImage).regs.state = .running ∧
     parseForme (image 0x40) = some (fp32 0x40) ∧ checkForme waitsImage 1 (fp32 0x40) = none ∧
     goes (exec (.formeImageReturn 1 .ok (image 0x40)) waitsImage) 0x1010 (fun t => decide (slotOf t 1 63 = { state := .valid, forme := fp32 0x40 })) = true) ∧
    (statusCode .uncorr = some ECC_UNCORR ∧ faults (exec (.formeImageReturn 1 .uncorr []) waitsImage) ECC_UNCORR = true) ∧
    (parseForme (List.replicate 16 0) = none ∧ faults (exec (.formeImageReturn 1 .ok (List.replicate 16 0)) waitsImage) BAD_FORME = true) ∧
    (parseForme (image 0x41) = some (fp32 0x41) ∧ checkForme waitsImage 1 (fp32 0x41) = some ALIGN ∧
     faults (exec (.formeImageReturn 1 .ok (image 0x41)) waitsImage) ALIGN = true) := by
  refine ⟨⟨at_accepted ?_, ?_, ?_⟩, ⟨at_accepted ?_, ?_⟩, ⟨at_accepted ?_, ?_, ?_⟩, ?_, ?_, ?_, ?_⟩ <;> decide +kernel

/-- ADVANCE of slot 1 along dimension 0 by a multiple in two's complement. -/
abbrev wAdvance (m : Nat) : Insn := word 0x08 (dst := 1) (imm := place m 8)
/-- The word at its turn with slot 1 given. -/
def withSlot (w : Insn) (x : Slot) : State := granted (turn { body w with slots := [(1, x)] })
/-- A VALID slot of a forme. -/
def holds (f : Forme) : Slot := { state := .valid, forme := f }
/-- R81, R194: forward, back below the space's first byte, out of alignment, EMPTY and STALE. -/
theorem witness_AdvanceMovesTheBase :
    (let s := withSlot (wAdvance 8) (holds (fp32 0x40)); Shows s (wAdvance 8) ∧ advancedBase (fp32 0x40) 0 8 = some 0x60 ∧
      checkForme s 1 (fp32 0x60) = none ∧ goes (exec (.advance 1) s) 0x1010 (fun t => decide (slotOf t 1 1 = holds (fp32 0x60))) = true) ∧
    (let w := wAdvance (2 ^ 40 - 17); let s := withSlot w (holds (fp32 0x40)); Shows s w ∧ advancedBase (fp32 0x40) 0 (-17) = some (-4) ∧
      faults (exec (.advance 1) s) RANGE = true) ∧
    (let w := wAdvance 1; let s := withSlot w (holds (fp32 0x40)); Shows s w ∧ checkForme s 1 (fp32 0x44) = some ALIGN ∧
      faults (exec (.advance 1) s) ALIGN = true) ∧
    (Shows (at0 (wAdvance 1)) (wAdvance 1) ∧ (slotOf (at0 (wAdvance 1)) 1 1).state = .empty ∧ faults (exec (.advance 1) (at0 (wAdvance 1))) BAD_FORME = true) ∧
    (let s := withSlot (wAdvance 8) { state := .stale }; Shows s (wAdvance 8) ∧ faults (exec (.advance 1) s) RANGE = true) := by
  refine ⟨⟨at_accepted ?_, ?_, ?_, ?_⟩, ⟨at_accepted ?_, ?_, ?_⟩, ⟨at_accepted ?_, ?_, ?_⟩, ⟨at_accepted ?_, ?_, ?_⟩, at_accepted ?_, ?_⟩ <;>
    decide +kernel

/-- R185, R188, R200: an unlisted opcode, a word with an unused field set, one whose channel is not allowed, and a target one
instruction past the list. -/
theorem witness_RejectedWordsAndTargetsFault :
    (let w := word 0x09; AtWord (at0 w) 1 w ∧ opListed (opOf w) = false ∧ wordOk w = false ∧ faults (exec (.illegalOpcode 1) (at0 w)) ILLEGAL_INSTR = true) ∧
    (let w := word 0x14 (imm := 1); AtWord (at0 w) 1 w ∧ wordOk w = false ∧ faults (exec (rowOf 1 w) (at0 w)) ILLEGAL_INSTR = true) ∧
    (let s := turn { body wSwap with regs := { (body wSwap).regs with config := BitVec.ofNat 64 (1 + place 16 10 + place 0x7FFF 25) } }
     AtWord s 1 wSwap ∧ wordOk wSwap = true ∧ opOf wSwap < 0x20 ∧ namesChannel wSwap = true ∧ cfgChannel (configOf s 1) (chOf wSwap) = false ∧
     faults (exec (rowOf 1 wSwap) s) CLASS_PRIV = true) ∧
    (let w := jump 0x13 0 4; AtWord (at0 w) 1 w ∧ opOf w = 0x13 ∧ ¬InList (c1 (at0 w)) ((c1 (at0 w)).pc + BitVec.ofInt 64 (16 * dispOf w)) ∧
     faults (exec (rowOf 1 w) (at0 w)) ILLEGAL_INSTR = true) ∧
    (let w := jump 0x12 0 (minus 1) 0x10 5; AtWord (at0 w) 1 w ∧ opOf w = 0x12 ∧ ¬InList (c1 (at0 w)) ((c1 (at0 w)).pc + BitVec.ofInt 64 (16 * dispOf w)) ∧
     faults (exec (rowOf 1 w) (at0 w)) ILLEGAL_INSTR = true) := by
  refine ⟨⟨atWord_of ?_, ?_⟩, ⟨atWord_of ?_, ?_⟩, ⟨atWord_of ?_, ?_⟩, ⟨atWord_of ?_, ?_⟩, atWord_of ?_, ?_⟩ <;> decide +kernel
/-- R185: a word of a listed opcode and one of an unlisted opcode each have their row. -/
theorem witness_EveryWordHasItsRow :
    (AtWord (at0 wNop) 1 wNop ∧ rowOf 1 wNop = .nop 1) ∧ (AtWord (at0 (word 0xFF)) 1 (word 0xFF) ∧ rowOf 1 (word 0xFF) = .illegalOpcode 1) ∧
    (AtWord (at0 (word 0x30 (flags := 0x30))) 1 (word 0x30 (flags := 0x30)) ∧ rowOf 1 (word 0x30 (flags := 0x30)) = .illegalOpcode 1) := by
  refine ⟨⟨atWord_of ?_, ?_⟩, ⟨atWord_of ?_, ?_⟩, atWord_of ?_, ?_⟩ <;> decide +kernel

/-! Movement (R214-R238). -/

/-- The slots of the movement tests: a source, two destinations, an index forme, a scale forme, and two of rank 2. -/
def slots : Tab Slot :=
  [(0, holds (fp32 0x40)), (1, holds (fp32 0x80 true true)), (2, holds (fp32 0xC0 true true)),
    (3, holds { base := 0x100, ty := .u16, rd := true, counts := [8, 1, 1, 1, 1, 1, 1, 1] }),
    (4, holds { base := 0x140, ty := .bf16, rd := true, wr := true, counts := [16, 1, 1, 1, 1, 1, 1, 1] }),
    (5, holds { base := 0x400, ty := .fp32, rank := 2, rd := true, wr := true, counts := [8, 4, 1, 1, 1, 1, 1, 1], strides := [32, 0, 0, 0, 0, 0, 0] }),
    (6, holds { base := 0x800, ty := .fp32, rank := 2, rd := true, wr := true, counts := [8, 8, 1, 1, 1, 1, 1, 1], strides := [32, 0, 0, 0, 0, 0, 0] })]
/-- A movement word at its turn, slots and grants in place. -/
def moving (w : Insn) : State := granted (turn { body w with slots := slots, phase := 7, mark := some 5 })
/-- A movement word issues one order, at cell 0, and retires. -/
def issues (i : Instr) (w : Insn) (mark : Option (BitVec 32)) : Bool :=
  goes (exec i (moving w)) 0x1010 fun t =>
    decide (t.orders.map Order.cell = [0] ∧ t.flights.map (fun f => f.job.phase) = [7] ∧ t.flights.map (fun f => f.job.mark) = [mark])
/-- The hypotheses of the statement about issue. -/
def Issues (w : Insn) : Prop :=
  Shows (moving w) w ∧ SendsOrders w ∧ heldByGuard (moving w) 1 = false ∧ issueCheck (useTurn (moving w) 1) 1 w = none
abbrev walk : Nat := 0o76543210
abbrev wMoveId : Insn := word 0x20 (dst := 1) (imm := walk)
abbrev wFill : Insn := word 0x23 (dst := 1) (imm := 0x3F800000)
/-- R144, R196, R214, R216, R225-R231: one word of each movement, reduction, integrity and scale opcode issues. -/
theorem witness_TransfersIssueTheirOrders :
    (Issues wMoveId ∧ issues (.move 1) wMoveId (some 5) = true) ∧
    (let w := word 0x24 (aux := 1) (flags := 8) (imm := walk + place 1 28); Issues w ∧ issues (.mcast 1) w (some 5) = true) ∧
    (let w := word 0x25 (dst := 2) (imm := walk); Issues w ∧ issues (.reduce 1) w (some 5) = true) ∧
    (Issues wFill ∧ issues (.fill 1) wFill (some 5) = true) ∧
    (let w := word 0x34 (dst := 1) (imm := walk); Issues w ∧ issues (.amoadd 1) w (some 5) = true) ∧
    (let w := word 0x26; Issues w ∧ issues (.check 1) w (some 5) = true) ∧
    (let w := word 0x04 (dst := 4); Issues w ∧ issues (.stscale 1) w none = true) ∧
    (let w := word 0x03 (src := 4); Issues w ∧ issues (.ldscale 1) w none = true) ∧
    (let w := word 0x21 (src := 5) (dst := 6) (aux := 3) (flags := 8) (imm := walk + place 1 24); Issues w ∧ issues (.gather 1) w (some 5) = true) ∧
    (let w := word 0x22 (src := 6) (dst := 5) (aux := 3) (flags := 8) (imm := walk + place 1 24); Issues w ∧ issues (.scatter 1) w (some 5) = true) := by
  refine ⟨⟨⟨at_accepted ?_, ?_⟩, ?_⟩, ⟨⟨at_accepted ?_, ?_⟩, ?_⟩, ⟨⟨at_accepted ?_, ?_⟩, ?_⟩, ⟨⟨at_accepted ?_, ?_⟩, ?_⟩, ⟨⟨at_accepted ?_, ?_⟩, ?_⟩,
    ⟨⟨at_accepted ?_, ?_⟩, ?_⟩, ⟨⟨at_accepted ?_, ?_⟩, ?_⟩, ⟨⟨at_accepted ?_, ?_⟩, ?_⟩, ⟨⟨at_accepted ?_, ?_⟩, ?_⟩, ⟨at_accepted ?_, ?_⟩, ?_⟩ <;> decide +kernel
/-- A deadline-bound context at a movement word, reference time given. -/
def atTime (w : Insn) (ref : Word) : State :=
  let x := c1 (moving w)
  { moving w with ctxs := [(1, { x with regs := { x.regs with config := cfg true false } })], time := { running := true, next := 1, ref := ref } }
/-- R37: held from 1 us before the next Toll, and not 1 ns earlier. R75, R79, R216: a failing check latches its fault; an EMPTY slot
comes before a STALE one. -/
theorem witness_TransfersAreHeldOrFault :
    (Shows (atTime wMoveId 49000) wMoveId ∧ heldByGuard (atTime wMoveId 49000) 1 = true ∧
      goes (exec (.move 1) (atTime wMoveId 49000)) 0x1000 (fun t => decide ((c1 t).wait = .guarded ∧ t.orders = [])) = true) ∧
    (heldByGuard (atTime wMoveId 48999) 1 = false ∧
      goes (exec (.move 1) (atTime wMoveId 48999)) 0x1010 (fun t => decide (t.flights.map (fun f => f.job.deadline) = [49000])) = true) ∧
    (let w := word 0x20 (dst := 0) (imm := walk); Shows (moving w) w ∧ SendsOrders w ∧ heldByGuard (moving w) 1 = false ∧
      issueCheck (useTurn (moving w) 1) 1 w = some RANGE ∧ faults (exec (.move 1) (moving w)) RANGE = true) ∧
    (let w := word 0x20 (src := 9) (dst := 1) (imm := walk); Shows (moving w) w ∧ opOf w = 0x20 ∧ auxFlagOf w = false ∧ heldByGuard (moving w) 1 = false ∧
      step1Ok (useTurn (moving w) 1) 1 w = true ∧ step3Ok (useTurn (moving w) 1) 1 w = true ∧ (slotOf (moving w) 1 9).state = .empty ∧
      faults (exec (.move 1) (moving w)) BAD_FORME = true) ∧
    (let w := word 0x20 (src := 9) (dst := 1) (imm := walk); let s := { moving w with ctxs := [(1, { c1 (moving w) with slots := slots ++ [(9, { state := .stale })] })] }
     Shows s w ∧ step1Ok (useTurn s 1) 1 w = true ∧ step3Ok (useTurn s 1) 1 w = true ∧ (slotOf s 1 9).state = .stale ∧ (slotOf s 1 1).state = .valid ∧
     faults (exec (.move 1) s) RANGE = true) := by
  refine ⟨⟨at_accepted ?_, ?_⟩, ?_, ⟨at_accepted ?_, ?_⟩, ⟨at_accepted ?_, ?_⟩, at_accepted ?_, ?_⟩ <;> decide +kernel

/-! Chimes (R219, R233-R235, R258-R265). -/

/-- A SIGNAL or WAIT of chime 47 of core 0 of this chip, its sub-operation and low immediate given. -/
abbrev wSignal (op sub : Nat) (amount : Nat) (flags : Nat := 0) (core : Nat := 0) : Insn :=
  word op (chime := 47) (flags := place sub 4 + flags) (imm := place core 37 + amount)
/-- Chime 47 of core 0 lies at this byte (R219). -/
abbrev chime47 : Word := 0xBFFFBC
/-- Context 1 waiting for the result of a SUB. -/
def waitsSub (fault : BitVec 8) : State :=
  { turn { body wNop with wait := .subResult } with ctl := [{ vc := 1, src := 0, dst := 16, body := .subResult 1 fault }] }
/-- R219, R233: an ADD, a GIVE and a SUB of chime 47; one of a core that does not exist; the results of a SUB. -/
theorem witness_SignalsSendTheirUpdate :
    (let w := wSignal 0x30 0 5; Shows (granted (at0 w)) w ∧ signalFault (useTurn (granted (at0 w)) 1) 1 w false true = none ∧
      goes (exec (.signalAdd 1) (granted (at0 w))) 0x1010 (fun t => decide (t.chimes.map ChimePend.addr = [chime47] ∧ t.chimes.map ChimePend.cell = [0])) = true) ∧
    (let w := wSignal 0x30 1 5; Shows (granted (at0 w)) w ∧ goes (exec (.signalGive 1) (granted (at0 w))) 0x1010 (fun t => decide (t.chimes.map ChimePend.op = [.give])) = true) ∧
    (let w := wSignal 0x30 2 5; Shows (granted (at0 w)) w ∧ goes (exec (.signalSub 1) (granted (at0 w))) 0x1000 (fun t => decide ((c1 t).wait = .subResult)) = true) ∧
    (let w := wSignal 0x30 0 5 0 4608; Shows (granted (at0 w)) w ∧ signalFault (useTurn (granted (at0 w)) 1) 1 w false true = some RANGE ∧
      faults (exec (.signalAdd 1) (granted (at0 w))) RANGE = true) ∧
    (findMsg (waitsSub 0) (isSubResult 1) = some { vc := 1, src := 0, dst := 16, body := .subResult 1 0 } ∧ (c1 (waitsSub 0)).wait = .subResult ∧
      goes (exec (.subResult 1) (waitsSub 0)) 0x1010 = true) ∧
    (findMsg (waitsSub 0x1A) (isSubResult 1) = some { vc := 1, src := 0, dst := 16, body := .subResult 1 0x1A } ∧
      faults (exec (.subResult 1) (waitsSub 0x1A)) CHIME_UNDERFLOW = true) ∧
    ((c1 (waitsSub ECC_UNCORR)).pc + 16 ≠ listEnd (c1 (waitsSub ECC_UNCORR)) ∧ answers (exec (.subResult 1) (waitsSub ECC_UNCORR)) (fun t =>
      decide ((c1 t).regs.fault = ECC_UNCORR ∧ (c1 t).regs.faultKind = .ending ∧ (c1 t).regs.state = .paused ∧ (c1 t).pc = 0x1010)) = true) := by
  refine ⟨⟨at_accepted ?_, ?_, ?_⟩, ⟨at_accepted ?_, ?_⟩, ⟨at_accepted ?_, ?_⟩, ⟨at_accepted ?_, ?_, ?_⟩, ?_, ?_, ?_⟩ <;> decide +kernel
/-- R234, R235: a WAIT GE whose target its register and `STEP` lower, a TAKE of the largest amount, and one of 1 more. -/
theorem witness_WaitsSendTheirFirstPoll :
    (let w := wSignal 0x31 0 100 (7 + place 3 8); let s := granted (withLoop w 2)
     Shows s w ∧ signalFault (useTurn s 1) 1 w true false = none ∧ goes (exec (.waitGe 1) s) 0x1000 (fun t =>
       decide ((c1 t).sync.target = 94 ∧ ctxStatus t 1 / 8 % 8 = 2 ∧ t.ctl = [{ vc := 0, src := 16, dst := 0, body := .poll 0 0 1 chime47 none 0 }])) = true) ∧
    (let w := wSignal 0x31 1 0x7FFFFFFF; let s := granted (at0 w)
     Shows s w ∧ signalFault (useTurn s 1) 1 w true true = none ∧ goes (exec (.waitTake 1) s) 0x1000 (fun t =>
       decide (t.ctl = [{ vc := 0, src := 16, dst := 0, body := .poll 0 0 1 chime47 (some 0x7FFFFFFF) 0 }])) = true) ∧
    (let w := wSignal 0x31 1 0x80000000; let s := granted (at0 w)
     Shows s w ∧ chimeWordOk (useTurn s 1) 1 (signalAddr w) (chimeCoreOf w) true true = true ∧ faults (exec (.waitTake 1) s) ILLEGAL_INSTR = true) := by
  refine ⟨⟨at_accepted ?_, ?_, ?_⟩, ⟨at_accepted ?_, ?_, ?_⟩, at_accepted ?_, ?_, ?_⟩ <;> decide +kernel
/-- A poll of context 1 at cell 0. -/
abbrev poll (take : Option (BitVec 32)) : Msg := { vc := 0, src := 16, dst := 0, body := .poll 6 8 1 chime47 take 0 }
/-- Context 1 waiting for its poll's result. -/
def waitsPoll (op : Nat) (target v : BitVec 32) (took : Bool) (fault : BitVec 8 := 0) (id : Nat := 8) : State :=
  let x := body wNop
  { turn { x with wait := .chime, sync := { op := op, addr := chime47, target := target, outstanding := some 8 }, regs := { x.regs with state := .waiting } } with
    ctl := [{ vc := 1, src := 0, dst := 16, body := .pollResult id 1 v took fault }] }
/-- The poll at cell 0, whose port has granted it its slot. -/
def polled (take : Option (BitVec 32)) : State := { chip with ctl := [poll take], granted := [6] }
/-- R235, R258, R263: a TAKE that finds exactly its amount and one that finds 1 less; R234, R262: a target reached exactly, one not
reached, one half a circle on; a TAKE's two results; a failed poll. R264: the result of a poll that nobody waits for. -/
theorem witness_PollsReadTakeAndEndTheWait :
    (findMsg (polled (some 3)) (isPoll 1) = some (poll (some 3)) ∧ (polled (some 3)).granted.contains 6 = true ∧ addrChip chime47 = chip.regs.chipId ∧
     answers (exec (.pollRequest 1 .ok 3) (polled (some 3))) (fun t => decide (memRead t.mem 0xBFFFBC = some 0 ∧
       t.ctl = [{ vc := 1, src := 0, dst := 16, body := .pollResult 8 1 3 true 0 }])) = true ∧
     answers (exec (.pollRequest 1 .ok 2) (polled (some 3))) (fun t => decide (t.mem = [] ∧
       t.ctl = [{ vc := 1, src := 0, dst := 16, body := .pollResult 8 1 2 false 0 }])) = true) ∧
    (findMsg (waitsPoll 1 9 9 false 0 7) (isPollResult 1) = some { vc := 1, src := 0, dst := 16, body := .pollResult 7 1 9 false 0 } ∧
     (c1 (waitsPoll 1 9 9 false 0 7)).sync.outstanding ≠ some 7 ∧ goes (exec (.pollResult 1) (waitsPoll 1 9 9 false 0 7)) 0x1000 (fun t => decide ((c1 t).wait = .chime)) = true) ∧
    (findMsg (waitsPoll 1 9 9 false) (isPollResult 1) = some { vc := 1, src := 0, dst := 16, body := .pollResult 8 1 9 false 0 } ∧
     (c1 (waitsPoll 1 9 9 false)).wait = .chime ∧ (c1 (waitsPoll 1 9 9 false)).sync.outstanding = some 8 ∧
     goes (exec (.pollResult 1) (waitsPoll 1 9 9 false)) 0x1010 (fun t => decide ((c1 t).regs.state = .running)) = true ∧
     goes (exec (.pollResult 1) (waitsPoll 1 9 8 false)) 0x1000 (fun t => decide ((c1 t).wait = .chime)) = true ∧
     goes (exec (.pollResult 1) (waitsPoll 1 9 (9 + 0x7FFFFFFF) false)) 0x1010 = true ∧
     faults (exec (.pollResult 1) (waitsPoll 1 9 (9 + 0x80000000) false)) CHIME_FAR = true ∧
     goes (exec (.pollResult 1) (waitsPoll 2 9 9 true)) 0x1010 = true ∧ goes (exec (.pollResult 1) (waitsPoll 2 9 8 false)) 0x1000 = true ∧
     faults (exec (.pollResult 1) (waitsPoll 2 9 0 false 0x10)) BUS_ERROR = true) := by
  decide +kernel
/-- A WAIT under way since `since`, its last poll's result in. -/
def waits (ref : Word) : State :=
  let x := body (wSignal 0x31 0 9)
  { turn { x with wait := .chime, sync := { op := 1, addr := chime47, target := 9 }, regs := { x.regs with state := .waiting } } with
    time := { running := true, next := 1, ref := ref } }
/-- R234: the next poll is due after exactly 64 ns. R264: the timeout after exactly 10,000 us. -/
theorem witness_WaitTimersPollAndTimeOut :
    ((c1 (waits 64)).wait = .chime ∧ (c1 (waits 64)).sync.outstanding = none ∧ pollNs (c1 (waits 64)) ≤ (timeAt (waits 64) (homeOf (waits 64) 1) - (c1 (waits 64)).sync.lastPoll).toNat ∧
      goes (exec (.pollTimer 1) (waits 64)) 0x1000 (fun t => (c1 t).sync.outstanding.isSome) = true ∧ answers (exec (.pollTimer 1) (waits 63)) (fun _ => true) = false) ∧
    ((waits 10000000).regs.waitUs ≠ 0 ∧ (waits 10000000).regs.waitUs * 1000 ≤ (timeAt (waits 10000000) (homeOf (waits 10000000) 1) - (c1 (waits 10000000)).sync.since).toNat ∧
      faults (exec (.waitTimeout 1) (waits 10000000)) WAIT_TIMEOUT = true ∧ answers (exec (.waitTimeout 1) (waits 9999999)) (fun _ => true) = false) := by
  decide +kernel

/-! Peal lines (R236, R266-R274). -/

/-- Line 5 of domain 2, ON in round 1, with the given participants. -/
def line (ps : List Participant) : Line := { domain := 2, state := .on, enable := true, round := 1, parties := ps }
/-- Context 1 enrolled, about to enter round 1. -/
abbrev p1 : Participant := { party := .context 1, firstRound := 0, next := 1 }
/-- Core 7 enrolled, about to enter round 1. -/
abbrev pCore : Participant := { party := .core 7, firstRound := 0, next := 1 }
/-- A word at its turn with line 5 given. -/
def withLine (w : Insn) (l : Line) : State := { at0 w with lines := [(5, l)] }
abbrev wPeal (pop : Nat) (n : Nat := 5) : Insn := word 0x32 (flags := n + place pop 4)
/-- R236, R266, R269, R270: ARRIVE with another participant missing, and held since that one still has its input of round -1 high; on
a line of another domain, on one that is OFF, not enrolled; ENROL, on a line of one chip and on a system line after its arrival has gone up; ENROL of a
participant; RESIGN; ENROL on another domain's line. -/
theorem witness_PealParticipationAndArrival :
    (let s := withLine (wPeal 0) (line [p1, pCore]); Shows s (wPeal 0) ∧ partyOf (getLine s 5) (.context 1) = some p1 ∧
      goes (exec (.pealArrive 1) s) 0x1000 (fun t => decide ((c1 t).wait = .peal ∧ (c1 t).sync.round = 1 ∧ ctxStatus t 1 / 8 % 8 = 3)) = true) ∧
    (let s := withLine (wPeal 0) (line [p1, { pCore with odd := some (-1) }]); Shows s (wPeal 0) ∧ entryHeld (getLine s 5) 1 = true ∧
      goes (exec (.pealArrive 1) s) 0x1000 (fun t => decide ((getLine t 5).stalls = 1 ∧ (getLine t 5).round = 1)) = true) ∧
    (let s := withLine (wPeal 0) { line [p1] with domain := 3 }; Shows s (wPeal 0) ∧ faults (exec (.pealArrive 1) s) CLASS_PRIV = true) ∧
    (let s := withLine (wPeal 0) { line [p1] with state := .off }; Shows s (wPeal 0) ∧ faults (exec (.pealArrive 1) s) PEAL_NOT_ENROLLED = true) ∧
    (let s := withLine (wPeal 0) (line [pCore]); Shows s (wPeal 0) ∧ faults (exec (.pealArrive 1) s) PEAL_NOT_ENROLLED = true) ∧
    (let s := withLine (wPeal 1) (line [pCore]); Shows s (wPeal 1) ∧ partyOf (getLine s 5) (.context 1) = none ∧
      goes (exec (.pealEnrol 1) s) 0x1010 (fun t => decide ((c1 t).sync.enrolled = 0x20 ∧ (getLine t 5).parties = [pCore, { p1 with firstRound := 1 }])) = true) ∧
    (let s := { at0 (wPeal 1 8) with lines := [(8, { line [pCore] with system := true, sentUp := true })] }; Shows s (wPeal 1 8) ∧ partyOf (getLine s 8) (.context 1) = none ∧
      goes (exec (.pealEnrol 1) s) 0x1010 (fun t => decide ((getLine t 8).parties = [pCore, { p1 with firstRound := 2, next := 2 }])) = true) ∧
    (let s := withLine (wPeal 1) (line [p1]); Shows s (wPeal 1) ∧ (partyOf (getLine s 5) (.context 1)).isSome = true ∧
      goes (exec (.pealEnrol 1) s) 0x1010 (fun t => decide (getLine t 5 = line [p1])) = true) ∧
    (let s := withLine (wPeal 2) (line [p1, pCore]); Shows s (wPeal 2) ∧
      goes (exec (.pealResign 1) s) 0x1010 (fun t => decide ((getLine t 5).parties = [pCore])) = true) ∧
    (let s := withLine (wPeal 1) { line [] with state := .off }; Shows s (wPeal 1) ∧ faults (exec (rowOf 1 (wPeal 1)) s) PEAL_NOT_ENROLLED = true) ∧
    (let s := withLine (wPeal 2) (line [pCore]); Shows s (wPeal 2) ∧ faults (exec (rowOf 1 (wPeal 2)) s) PEAL_NOT_ENROLLED = true) ∧
    (let s := withLine (wPeal 1) { line [] with domain := 3 }; Shows s (wPeal 1) ∧ faults (exec (rowOf 1 (wPeal 1)) s) CLASS_PRIV = true) := by
  refine ⟨⟨at_accepted ?_, ?_⟩, ⟨at_accepted ?_, ?_⟩, ⟨at_accepted ?_, ?_⟩, ⟨at_accepted ?_, ?_⟩, ⟨at_accepted ?_, ?_⟩, ⟨at_accepted ?_, ?_⟩, ⟨at_accepted ?_, ?_⟩, ⟨at_accepted ?_, ?_⟩,
    ⟨at_accepted ?_, ?_⟩, ⟨at_accepted ?_, ?_⟩, ⟨at_accepted ?_, ?_⟩, at_accepted ?_, ?_⟩ <;> decide +kernel
/-- Context 1 waiting in ARRIVE on line 5 for round 0, its input up. -/
def arrived (l : Line) : State :=
  let x := body (wPeal 0)
  { turn { x with wait := .peal, sync := { op := 3, index := 5 }, regs := { x.regs with state := .waiting } } with lines := [(5, l)] }
/-- R266, R268: the last missing core releases the round, another does not; a release reaches context 1's cell; a core leaves. -/
theorem witness_RoundsReleaseAndAreLeft :
    (let s := arrived { line [{ p1 with even := some 0 }, { pCore with next := 0 }] with round := 0 }
     coreGood s 7 = true ∧ (getLine s 5).state = .on ∧ partyOf (getLine s 5) (.core 7) = some { pCore with next := 0 } ∧ entryHeld (getLine s 5) 0 = false ∧
     roundComplete { getLine s 5 with parties := (getLine s 5).parties.map fun x => if x.party = .core 7 then raiseWire { pCore with next := 0 } 0 else x } = true ∧
     answers (exec (.corePealArrive 7 5) s) (fun t => decide ((getLine t 5).round = 1 ∧ (getLine t 5).deliver = [16])) = true) ∧
    (let s := arrived { line [{ p1 with next := 0 }, { pCore with next := 0 }] with round := 0 }
     answers (exec (.corePealArrive 7 5) s) (fun t => decide ((getLine t 5).round = 0)) = true) ∧
    ((let s := { chip with lines := [(5, { line [] with state := .off })] }
      answers (exec (.corePealArrive 7 5) s) (fun t => decide (t = s)) = true) ∧
     answers (exec (.corePealArrive 7 5) { chip with lines := [(5, line [p1])] }) (fun t =>
       decide ((partyOf (getLine t 5) (.core 7)).map (fun q => (q.odd, q.next)) = some (some 1, 2))) = true ∧
     (let s := { chip with lines := [(5, line [{ p1 with odd := some (-1) }, pCore])] }
      entryHeld (getLine s 5) 1 = true ∧ answers (exec (.corePealArrive 7 5) s) (fun t =>
        decide ((getLine t 5).stalls = 1 ∧ (partyOf (getLine t 5) (.core 7)).map Participant.held = some true)) = true)) ∧
    (let s := { chip with lines := [(5, { line [] with deliver := [16] })] }
     releasedHere s 16 5 = [] ∧ answers (exec (.pealRelease 16 5) s) (fun t => decide ((getLine t 5).deliver = [])) = true) ∧
    (let s := arrived { line [{ p1 with even := some 0 }] with deliver := [16] }
     (getLine s 5).deliver.contains 16 = true ∧ releasedHere s 16 5 = [1] ∧ goes (exec (.pealRelease 16 5) s) 0x1010 (fun t => decide ((c1 t).regs.state = .running)) = true) ∧
    (let s := { chip with lines := [(5, line [p1, { pCore with even := some 0 }])] }
     partyOf (getLine s 5) (.core 7) = some { pCore with even := some 0 } ∧ oldestHeld { pCore with even := some 0 } = some 0 ∧
     isReleased (getLine s 5) 0 = true ∧
     answers (exec (.pealLeave (.core 7) 5) s) (fun t => decide ((getLine t 5).parties = [p1, pCore])) = true ∧
     partyOf (getLine s 5) (.core 8) = none ∧ answers (exec (.pealLeave (.core 8) 5) s) (fun t => decide (t = s)) = true) := by
  decide +kernel
/-- R272, R274, R340: a line times out after exactly `PEAL_US`; a flit for an OFF line; a failure, the open round's release and a
repeated one from the parent. -/
theorem witness_PealFailureAndTreeFlits :
    (let s := { arrived { line [{ p1 with even := some 0 }] with firstArrival := some 0, round := 0 } with time := { running := true, next := 1, ref := 10000000 } }
     (getLine s 5).state = .on ∧ (getLine s 5).firstArrival = some 0 ∧ elapsedUs s 0 s.regs.pealUs = true ∧ s.regs.pealUs ≠ 0 ∧
     faults (exec (.pealTimeout 5) s) PEAL_TIMEOUT = true ∧
     answers (exec (.pealTimeout 5) { s with time := { s.time with ref := 9999999 } }) (fun _ => true) = false) ∧
    exec (.pealFlit 336 8 true .release) chip = .next chip ∧
    (let s := { chip with lines := [(8, { line [p1] with system := true, parent := 0 })] }
     (getLine s 8).system = true ∧ roleOf 336 = .l ∧ answers (exec (.pealFlit 336 8 false .failure) s) (fun t => decide ((getLine t 8).state = .failed)) = true ∧
     answers (exec (.pealFlit 336 8 true .release) s) (fun t => decide ((getLine t 8).round = 2)) = true ∧
     answers (exec (.pealFlit 336 8 false .release) s) (fun t => decide (t = s)) = true) ∧
    (let s := { chip with lines := [(8, { line [pCore] with system := true, parent := 0, children := 0x8000 })] }
     (getLine s 8).children.getLsbD (351 - 336) = true ∧ roleOf 351 = .l ∧
     answers (exec (.pealFlit 351 8 true (.arrival true)) s) (fun t => decide ((getLine t 8).childOdd = 0x8000 ∧ (getLine t 8).state = .on)) = true ∧
     answers (exec (.pealFlit 351 8 false (.leave true)) { s with lines := [(8, { getLine s 8 with staleEven := 0x8000 })] })
       (fun t => decide ((getLine t 8).state = .on ∧ (getLine t 8).staleEven = 0)) = true ∧
     answers (exec (.pealFlit 351 8 true (.arrival false)) { s with lines := [(8, { getLine s 8 with childOdd := 0x8000 })] })
       (fun t => decide ((getLine t 8).childOdd = 0)) = true ∧
     answers (exec (.pealFlit 350 8 true (.arrival true)) s) (fun t => decide (t = s)) = true) := by
  refine ⟨by decide +kernel, rfl, by decide +kernel, by decide +kernel⟩
/-- A FENCE of CHIP scope. -/
abbrev wFence : Insn := word 0x33 (flags := 2)
/-- Context 1 waiting for the reports of some cells. -/
def fencing (cells : List Nat) : State :=
  let x := body wFence
  turn { x with wait := .fence 2 false cells, regs := { x.regs with state := .waiting } }
/-- R237, R293: nothing to wait for; an instruction at cell 20; the last report and one of two. -/
theorem witness_FenceWaitsForItsReports :
    (Shows (at0 wFence) wFence ∧ fenceCells (at0 wFence) 1 false = [] ∧ goes (exec (.fence 1) (at0 wFence)) 0x1010 = true) ∧
    (let s := { at0 wFence with flights := [flight wMoveId] }; fenceCells s 1 false = [20] ∧
      goes (exec (.fence 1) s) 0x1000 (fun t => decide ((c1 t).wait = .fence 2 false [20] ∧ ctxStatus t 1 / 8 % 8 = 6)) = true) ∧
    ((c1 (fencing [20])).wait = .fence 2 false [20] ∧ fenceEvidence (fencing [20]) 1 20 2 false = true ∧
      goes (exec (.performedReport 1 20) (fencing [20])) 0x1010 = true ∧
      goes (exec (.performedReport 1 20) (fencing [20, 353])) 0x1000 (fun t => decide ((c1 t).wait = .fence 2 false [353])) = true) := by
  refine ⟨⟨at_accepted ?_, ?_, ?_⟩, ?_, ?_⟩ <;> decide +kernel

/-! Contexts (R149-R168, R385-R387). -/

/-- Context 1 between lists with one entry pending, in a ring of two. -/
def queued : State :=
  let x := body wNop
  granted (turn { x with pc := 0x2000, listBase := 0x2000, listCount := 0, bursts := [], regs := { x.regs with queue := 1, head := 1, tail := 0 } })
/-- R163, R164: an entry of three instructions, one of none, one of a reserved bit, one that is misaligned. R167, R380: the burst at
the program counter, the furthest ahead, and a failed one; one that the port has not granted, one asked for under an older list, and one too far ahead. -/
theorem witness_QueueEntriesAndBurstsArrive :
    (betweenLists (c1 queued) = true ∧ pendingEntries (c1 queued) = 1 ∧
     (entryFault queued 1 (BitVec.ofNat 128 (0x3000 + place 3 64)) = none ∧
      goes (exec (.queueEntryTake 1 (BitVec.ofNat 128 (0x3000 + place 3 64))) queued) 0x3000 (fun t => decide ((c1 t).listCount = 3 ∧ (c1 t).regs.head = 0)) = true) ∧
     goes (exec (.queueEntryTake 1 0x3000) queued) 0x2000 (fun t => decide ((c1 t).wait = .doorbell ∧ (c1 t).regs.head = 0)) = true ∧
     (entryFault queued 1 (BitVec.ofNat 128 (place 1 88)) = some ILLEGAL_INSTR ∧
      answers (exec (.queueEntryTake 1 (BitVec.ofNat 128 (place 1 88))) queued) (fun t => decide ((c1 t).regs.fault = ILLEGAL_INSTR)) = true) ∧
     answers (exec (.queueEntryTake 1 (BitVec.ofNat 128 (0x3008 + place 3 64))) queued) (fun t => decide ((c1 t).regs.fault = ALIGN)) = true) ∧
    (let s (addr : Word) (granted : Nat := 2) (stale : Bool := false) : State :=
       turn { body wNop with bursts := [], listCount := 256, fetches := [{ id := 3, addr := addr, granted := granted, stale := stale }] }
     burstWanted (c1 (s 0x1800)) 0x1800 = true ∧ min 64 ((listEnd (c1 (s 0x1800)) - 0x1800).toNat / 16) = 64 ∧
     goes (exec (.fetchBurstReturn 1 0x1000 .ok (List.replicate 64 wNop)) (s 0x1000)) 0x1000 (fun t => decide ((c1 t).bursts.map (fun b => b.words.length) = [64] ∧ (c1 t).fetches = [])) = true ∧
     goes (exec (.fetchBurstReturn 1 0x1800 .ok (List.replicate 64 wNop)) (s 0x1800)) 0x1000 (fun t => decide ((c1 t).bursts.map Burst.addr = [0x1800])) = true ∧
     goes (exec (.fetchBurstReturn 1 0x1000 .err []) (s 0x1000)) 0x1000 (fun t => decide ((c1 t).bursts.map Burst.bad = [some BUS_ERROR])) = true ∧
     answers (exec (.fetchBurstReturn 1 0x1000 .err []) (s 0x1000 1)) (fun _ => true) = false ∧
     goes (exec (.fetchBurstReturn 1 0x1000 .err []) (s 0x1000 2 true)) 0x1000 (fun t => decide ((c1 t).bursts = [])) = true ∧
     burstWanted (c1 (s 0x1C00)) 0x1C00 = false ∧ goes (exec (.fetchBurstReturn 1 0x1C00 .err []) (s 0x1C00)) 0x1000 (fun t => decide ((c1 t).bursts = [])) = true) := by
  decide +kernel
/-- Context 1 FREE, its registers ready for LOAD with one grant. -/
def unloaded (dead : Nat := 0) : State :=
  granted { chip with
    ctxs := [(1, { epoch := 9, regs := { config := cfg false false + BitVec.ofNat 64 (place 1 41), queue := 1, seed := 77, galleyList := 0x20 } })]
    cells := [(20, { slices := [(dead, { lastDomain := some 200 })] })] }
/-- The grant of two slices of cell 20 to channel 3. -/
abbrev grant20 (last : Nat := 20) (n : Nat := 2) : Word := BitVec.ofNat 64 (20 + place last 9 + place 3 18 + place n 22)
/-- R154, R155, R175, R361: LOAD at once, after a scrub, with too few slices, with a bad grant, and in no mode of its class. -/
theorem witness_LoadMakesAContext :
    (windowDead unloaded (ctxEast 1) = false ∧ (c1 unloaded).regs.state = .free ∧ (c1 unloaded).regs.cmd = .none ∧ lockedAgainst unloaded (domOf unloaded 1) .host = false ∧ loadFault unloaded 1 = none ∧
     [grant20].length = cfgGrants (configOf unloaded 1) ∧ grantFault unloaded 1 [grant20] = none ∧
     answers (exec (.load 1 .host [grant20]) (unloaded 5)) (fun t => decide ((c1 t).regs.state = .loaded ∧ (c1 t).epoch = 10 ∧ (c1 t).seed = 77 ∧
       t.pools.map (fun p => (p.cell, p.ch, p.size)) = [(20, 3, 64), (20, 3, 64)])) = true ∧
     grantFault unloaded 1 [grant20 19] = some 0x05 ∧
     answers (exec (.load 1 .host [grant20 19]) unloaded) (fun t => decide ((c1 t).regs.state = .free ∧ (c1 t).regs.cmdResult = 0x05)) = true) ∧
    (let s := { unloaded with cells := [(20, { slices := (List.range 64).map fun k => (k, { lastDomain := some 200 }) })] }
     answers (exec (.load 1 .host [grant20]) s) (fun t => decide ((c1 t).regs.state = .free ∧ (c1 t).regs.cmd = .load) && scrubPending t 1) = true) ∧
    (let s := { unloaded with cells := [(20, { slices := (List.range 61).map fun k => (k, { owner := some (2, 0) }) })] }
     grantFault s 1 [grant20] = some 0x04 ∧ answers (exec (.load 1 .host [grant20]) s) (fun t => decide ((c1 t).regs.cmdResult = 0x04)) = true) ∧
    (let s := { unloaded with regs := { chip.regs with mode := .test } }
     loadFault s 1 = some 0x05 ∧ answers (exec (.load 1 .host [grant20]) s) (fun t => decide ((c1 t).regs.cmdResult = 0x05)) = true) ∧
    (let s := { unloaded with ctxs := [(1, { c1 unloaded with regs := { (c1 unloaded).regs with cmd := .load } })] }
     answers (exec (.galleyScrubDone 1) s) (fun t => decide ((c1 t).regs.state = .loaded ∧ (c1 t).regs.cmd = .none)) = true) := by
  decide +kernel
/-- Context 1 PAUSED, its image to go to an address. -/
def saved (a : Word) : State :=
  let x := body wNop
  granted (turn { x with regs := { x.regs with state := .paused, imageAddr := a } })
/-- R159-R161: a PAUSED context that may write its image, at the least address and at the last of core 0. -/
theorem witness_SaveWritesTheImage :
    (windowDead (saved 0) (ctxEast 1) = false ∧ cmdBusy (c1 (saved 0)) = false ∧ ctxIdle (saved 0) 1 = true ∧ (c1 (saved 0)).regs.imageAddr.toNat % 32 = 0 ∧
      (c1 (saved 0)).regs.state = .paused ∧ imageAllowed (saved 0) 1 false true = true) ∧
    imageAllowed (saved 0xBFE000) 1 false true = true ∧ imageAllowed (saved 0xBFE020) 1 false true = false := by
  decide +kernel
/-- The image of a head of 508 bytes and the slots' bytes, its CRC in place (R160). -/
def imageOf (head slots : List Byte) : List Byte := head ++ (toBytes 4 (crc32c (head ++ toBytes 4 0 ++ slots)).toNat ++ slots)
/-- An image whose CRC is right is judged by its class, domain, mode and format alone (R162). -/
theorem imageFault_imageOf (s : State) (c : Nat) (head slots : List Byte) (h : head.length = 508) :
    imageFault s c (imageOf head slots) =
      (let cfg := configOf s c
       let old : Word := BitVec.ofNat 64 (bytesAt (imageOf head slots) 0 8)
       if bytesAt (imageOf head slots) 0x91 1 ≠ 2 ∨ cfgClass old ≠ cfgClass cfg ∨ cfgDomain old ≠ cfgDomain cfg ∨ cfgLead old ≠ cfgLead cfg
       then some resImageMismatch else none) := by
  have h1 : (imageOf head slots).take 0x1FC = head := by simp [imageOf, ← h]
  have h2 : (imageOf head slots).drop 0x200 = slots := by
    have : (0x200 : Nat) = head.length + 4 := by omega
    rw [this, ← List.drop_drop, imageOf, List.drop_left]
    exact List.drop_left' (by simp [toBytes])
  have h3 : bytesAt (imageOf head slots) 0x1FC 4 = (crc32c (head ++ toBytes 4 0 ++ slots)).toNat := by
    have h4 : (imageOf head slots).drop 0x1FC = toBytes 4 (crc32c (head ++ toBytes 4 0 ++ slots)).toNat ++ slots := by
      rw [imageOf, ← h]; exact List.drop_left
    rw [bytesAt, h4, List.take_left' (by simp [toBytes])]
    have := (crc32c (head ++ toBytes 4 0 ++ slots)).isLt
    simp only [toBytes, List.range, List.range.loop, List.map, fromBytes, BitVec.toNat_ofNat, Nat.shiftRight_eq_div_pow]
    omega
  rw [imageFault, h1, h2, h3]
  simp
/-- The context that RESTORE finds FREE. -/
def restoring : State := { unloaded with ctxs := [(1, { (c1 unloaded) with regs := { (c1 unloaded).regs with imageAddr := 0x4000 } })] }
/-- The head of an image of a SYSTEM context of domain 2 at 0x1000, of a format. -/
def imageTop (fmt : Byte) : List Byte := [9] ++ List.replicate 7 0 ++ toBytes 8 0x1000 ++ List.replicate 129 0 ++ [fmt] ++ List.replicate 362 0
/-- R162: a FREE context whose image passes, and one whose image is of another format. -/
theorem witness_LoadAndRestoreMakeAContext :
    (windowDead restoring (ctxEast 1) = false ∧ (c1 restoring).regs.state = .free ∧ (c1 restoring).regs.cmd = .none ∧ (c1 restoring).regs.imageAddr.toNat % 32 = 0 ∧ loadFault restoring 1 = none ∧
      imageAllowed restoring 1 true false = true ∧ [grant20].length = cfgGrants (configOf restoring 1) ∧ grantFault restoring 1 [grant20] = none) ∧
    (imageOf (imageTop 2) (List.replicate 7680 0)).length = 8192 ∧
    imageFault restoring 1 (imageOf (imageTop 2) (List.replicate 7680 0)) = none ∧
    imageFault restoring 1 (imageOf (imageTop 1) (List.replicate 7680 0)) = some 0x08 := by
  refine ⟨by decide +kernel, ?_, ?_, ?_⟩
  · have h : (imageTop 2).length = 508 := by decide +kernel
    rw [imageOf, List.length_append, List.length_append, List.length_replicate, h]; rfl
  · rw [imageFault_imageOf _ _ _ _ (by decide +kernel)]; decide +kernel
  · rw [imageFault_imageOf _ _ _ _ (by decide +kernel)]; decide +kernel
/-- Context 1 in a state, with other registers as given. -/
def inState (st : CtxState) (r : CtxRegs := {}) : State := turn { body wNop with regs := { r with state := st, config := cfg false false } }
/-- A command answers a next state in which the context is in a state. -/
def becomes (r : Res) (st : CtxState) : Bool := answers r fun t => decide ((c1 t).regs.state = st)
/-- A command of the context ends with a result, its state unchanged. -/
def results (i : Instr) (s : State) (v : BitVec 8) : Bool := answers (exec i s) fun t => decide ((c1 t).regs.cmdResult = v ∧ (c1 t).regs.state = (c1 s).regs.state)
/-- R157, R158: each state that UNLOAD and ABORT stop, each that they do not; a context with everything back is freed, one with an order is not. -/
theorem witness_UnloadAndAbortFreeTheContext :
    (windowDead (inState .loaded) (ctxEast 1) = false ∧ cmdBusy (c1 (inState .loaded)) = false ∧ becomes (exec (.unload 1) (inState .loaded)) .stopping = true ∧ becomes (exec (.unload 1) (inState .paused)) .stopping = true ∧
      becomes (exec (.unload 1) (inState .halted)) .stopping = true ∧ results (.unload 1) (inState .running) 2 = true ∧ results (.unload 1) (inState .waiting) 2 = true ∧
      results (.unload 1) (inState .free) 2 = true) ∧
    (becomes (exec (.abort 1) (inState .running)) .stopping = true ∧ becomes (exec (.abort 1) (inState .waiting)) .stopping = true ∧
      becomes (exec (.abort 1) (inState .paused)) .stopping = true ∧ becomes (exec (.abort 1) (inState .halted)) .stopping = true ∧
      results (.abort 1) (inState .loaded) 2 = true ∧ results (.abort 1) (inState .free) 2 = true) ∧
    ((c1 (inState .stopping)).regs.state = .stopping ∧ released (inState .stopping) 1 = true ∧ becomes (exec (.contextFreed 1) (inState .stopping)) .free = true ∧
      answers (exec (.contextFreed 1) { inState .stopping with flights := [flight wMoveId] }) (fun _ => true) = false) := by
  decide +kernel
/-- A PAUSED context with a latched Issue fault, its SKIP bit as given. -/
def faulted (skip : Nat) (deadline : Bool := false) : State :=
  turn { body wNop with regs := { state := .paused, config := cfg deadline false, fault := RANGE, faultPc := BitVec.ofNat 64 (0x1000 + skip) } }
/-- R153, R385, R386: PAUSE of a RUNNING and of a WAITING context; RESUME with and without SKIP, and of a deadline-bound context; PAUSE of an
ARRIVE whose round is released and of one whose round is not; a bad command number; any command while one executes. -/
theorem witness_PauseAndResumeHoldTheContext :
    (windowDead (inState .running) (ctxEast 1) = false ∧ (c1 (inState .running)).wait ≠ .peal ∧ becomes (exec (.pause 1) (inState .running)) .paused = true ∧ becomes (exec (.pause 1) (inState .waiting)) .paused = true) ∧
    (windowDead (faulted 0) (ctxEast 1) = false ∧ haltedOrders (faulted 0) 1 = false ∧ (c1 (faulted 0)).regs.state = .paused ∧ InList (c1 (faulted 0)) 0x1000 ∧ goes (exec (.resume 1) (faulted 0)) 0x1000 = true ∧
      (c1 (faulted 1)).regs.faultPc.getLsbD 0 = true ∧ InList (c1 (faulted 1)) 0x1010 ∧ goes (exec (.resume 1) (faulted 1)) 0x1010 = true ∧
      goes (exec (.resume 1) (faulted 0 true)) 0x1000 (fun t => (c1 t).tollHold) = true) ∧
    (let s (round : BitVec 32) : State := { arrived { line [{ p1 with even := some 0 }, pCore] with round := round } with cells := [] }
     (c1 (s 0)).wait = .peal ∧ isReleased (getLine (s 1) 5) (c1 (s 1)).sync.round = true ∧ isReleased (getLine (s 0) 5) (c1 (s 0)).sync.round = false ∧
     answers (exec (.pause 1) (s 1)) (fun t => decide ((c1 t).pc = 0x1010 ∧ (c1 t).regs.state = .paused)) = true ∧
     answers (exec (.pause 1) (s 0)) (fun t => decide ((c1 t).pc = 0x1000 ∧ (c1 t).regs.state = .paused)) = true) ∧
    (results (.badOp 1 0) (inState .running) 0x0A = true ∧ results (.badOp 1 15) (inState .running) 0x0A = true) ∧
    (cmdBusy (c1 (inState .stopping)) = true ∧ answers (exec (.save 1) (inState .stopping)) (fun t => (c1 t).regs.cmdIgnored) = true ∧
      (let s := inState .free { cmd := .load }
       cmdBusy (c1 s) = true ∧ (c1 s).regs.cmd ≠ .askedLoad .host ∧ answers (exec (.load 1 .host []) s) (fun t => (c1 t).regs.cmdIgnored) = true ∧
       (c1 s).regs.cmd ≠ .askedRestore .host ∧ answers (exec (.restore 1 .host [] []) s) (fun t => (c1 t).regs.cmdIgnored) = true)) := by
  decide +kernel
/-- R150, R166, R346, R370, R441: a doorbell in each state, at the ring's last entry and past it; CONFIG while FREE, while LOADED, and of a locked domain. -/
theorem witness_DoorbellAndConfigWrites :
    (let ring (st : CtxState) : State := inState st { queue := 1 }
     windowDead (ring .free) (ctxEast 1) = false ∧ windowDead (ring .loaded) (ctxEast 1) = false ∧ exec (.doorbell 1 1) (ring .free) = .next (ring .free) ∧ exec (.doorbell 1 1) (ring .stopping) = .next (ring .stopping) ∧
     ringSize (c1 (ring .loaded)) = 2 ∧ answers (exec (.doorbell 1 2) (ring .loaded)) (fun t => (c1 t).regs.doorbellReject) = true ∧
     becomes (exec (.doorbell 1 1) (ring .loaded)) .running = true ∧
     becomes (exec (.doorbell 1 1) { ring .loaded with ctxs := [(1, { body wNop with regs := { queue := 1, state := .loaded, config := cfg true false } })] }) .waiting = true ∧
     becomes (exec (.doorbell 1 1) { ring .loaded with regs := { chip.regs with mode := .recovery }, ctxs := [(1, { regs := { queue := 1, state := .loaded } })] }) .loaded = true ∧
     becomes (exec (.doorbell 1 1) { ring .waiting with ctxs := [(1, { body wNop with wait := .doorbell, regs := { queue := 1, state := .waiting } })] }) .running = true ∧
     (let s := turn { body wNop with pc := 0x2000, listBase := 0x2000, listCount := 0, regs := { (body wNop).regs with queue := 1, tail := 1 } }
      betweenLists (c1 s) = true ∧ (c1 s).regs.head = 0 ∧ becomes (exec (.doorbell 1 0) s) .waiting = true)) ∧
    (answers (exec (.ctxConfigWrite 1 .host 0xFFFFFFFFFFFFFFFF) (inState .free)) (fun t => decide ((c1 t).regs.config = 0x7FFFFFFFFFFF)) = true ∧
     answers (exec (.ctxConfigWrite 1 .host 0) (inState .loaded)) (fun t => (c1 t).regs.cmdIgnored && decide ((c1 t).regs.config = cfg false false)) = true ∧
     (let s := { inState .free with domains := [(2, { lock := true })] }
      lockedAgainst s (domOf s 1) .host = true ∧ lockedAgainst s (domOf s 1) .key = false ∧ answers (exec (.ctxConfigWrite 1 .host 0) s) (fun t => (c1 t).regs.cmdIgnored) = true ∧
      answers (exec (.ctxConfigWrite 1 .key 0) s) (fun t => decide ((c1 t).regs.config = 0)) = true)) := by
  refine ⟨⟨rfl, rfl, rfl, rfl, ?_⟩, ?_⟩ <;> decide +kernel
/-- The order of instruction 3 at a cell. -/
def order (cell : Nat) (place : Place) : Order := { insn := 3, cell := cell, ch := 0, ctx := 1, isSrc := decide (cell = 16), isDst := decide (cell ≠ 16), place := place }
/-- Context 1 abandoning under epoch 1, instruction 3 issued under epoch 0, with an order at each cell. -/
def abandoning (begun : Bool) : State :=
  { turn { body wAbandon with epoch := 1, wait := .abandonReports [16, 20] } with
    flights := [flight wMoveId], orders := [order 16 .active, { order 20 .active with begun := begun }]
    ctl := [{ vc := 0, src := 16, dst := 20, body := .abandon 1 1 }, { vc := 1, src := 16, dst := 16, body := .abandonReport 1 1 [] }] }
/-- The same with one report to come. -/
def lastReport (begun : List Nat) : State :=
  { abandoning false with
    ctxs := [(1, { body wAbandon with epoch := 1, wait := .abandonReports [20] })]
    ctl := [{ vc := 1, src := 20, dst := 16, body := .abandonReport 1 1 begun }] }
/-- R211: a flit at a cell that has not begun and at one that has; a report before the last; the last one, dropping and keeping. -/
theorem witness_AbandonFlitsAndReportsDrop :
    (findMsg (abandoning false) (isAbandon 1 20) = some { vc := 0, src := 16, dst := 20, body := .abandon 1 1 } ∧ (affected (abandoning false) 1).map Flight.id = [3] ∧
     answers (exec (.abandonFlit 20 1) (abandoning false)) (fun t => decide ((getOrder t 3 20).map Order.stopped = some true)) = true ∧
     answers (exec (.abandonFlit 20 1) (abandoning true)) (fun t => decide ((getOrder t 3 20).map Order.stopped = some false ∧
       t.ctl.map Msg.body = [.abandonReport 1 1 [], .abandonReport 1 1 [3]])) = true) ∧
    (findMsg (abandoning false) (isAbandonReport 1 16) = some { vc := 1, src := 16, dst := 16, body := .abandonReport 1 1 [] } ∧
     answers (exec (.abandonReport 16 1) (abandoning false)) (fun t => decide ((c1 t).wait = .abandonReports [20])) = true) ∧
    (findMsg (lastReport []) (isAbandonReport 1 20) = some { vc := 1, src := 20, dst := 16, body := .abandonReport 1 1 [] } ∧
     goes (exec (.abandonReport 20 1) (lastReport [])) 0x1010 (fun t => decide (t.flights = [] ∧ (c1 t).regs.lastDropped = 1)) = true ∧
     goes (exec (.abandonReport 20 1) (lastReport [3])) 0x1010 (fun t => decide (t.flights.map Flight.id = [3])) = true) := by
  decide +kernel

/-! Stoppable functions (R382-R397). -/

/-- The chip with one channel of cell 20 given. -/
def withChan (c : Chan) : State := { chip with cells := [(20, { chans := [(15, c)] })] }
/-- Channel 15 of cell 20 halted by instruction 3 of context 1. -/
def haltedChan : State :=
  { withChan { chanReset 15 with halted := true, haltedInsn := some 3 } with
    ctxs := [(1, body wNop)], flights := [{ flight wMoveId with job := { (flight wMoveId).job with word := wMoveId ||| BitVec.ofNat 128 (place 15 116) }, stop := some { reason := .halt 20, limit := 0, progress := 0, parked := true } }]
    orders := [{ order 20 .active with ch := 15 }] }
/-- A command's channel bit is set. -/
def ignoredAt (i : Instr) (s : State) : Bool := answers (exec i s) fun t => (getChan t 20 15).cmdIgnored
/-- R382, R387: PAUSE of a quiet channel, of one that is OFF and of a halted one; RESUME and SKIP of a paused and of an idle one; ABORT of a halted one
and of another; a cell disabled by fuse. -/
theorem witness_ChannelCommandsResolve :
    (blockDead chip 20 = false ∧ (getChan chip 20 15).state = .on ∧ heldOrders chip 20 15 = [] ∧
      answers (exec (.channelPause 20 15) chip) (fun t => (getChan t 20 15).paused) = true ∧ ignoredAt (.channelPause 20 15) (withChan { state := .off }) = true ∧
      ignoredAt (.channelPause 20 15) haltedChan = true) ∧
    (resolvable (withChan { chanReset 15 with paused := true }) 20 15 = true ∧
      answers (exec (.channelResume 20 15) (withChan { chanReset 15 with paused := true })) (fun t => !(getChan t 20 15).paused) = true ∧
      answers (exec (.channelSkip 20 15) (withChan { chanReset 15 with paused := true })) (fun t => !(getChan t 20 15).paused) = true ∧
      resolvable chip 20 15 = false ∧ ignoredAt (.channelResume 20 15) chip = true ∧ ignoredAt (.channelSkip 20 15) chip = true) ∧
    (haltedHere haltedChan 20 15 = some 3 ∧ (getFlight haltedChan 3).isSome = true ∧ (c1 haltedChan).regs.state = .running ∧
      becomes (exec (.channelAbort 20 15) haltedChan) .stopping = true ∧ ignoredAt (.channelAbort 20 15) chip = true) ∧
    (blockDead { chip with regs := { chip.regs with fusedGood := 0 } } 20 = true ∧
      answers (exec (.channelPause 20 15) { chip with regs := { chip.regs with fusedGood := 0 } }) (fun t => decide (t.cells = [])) = true) := by
  decide +kernel
/-- R390-R396: a channel and a cell enabled from OFF and while STOPPING, disabled, stopped; a retired cell; RETIRE in RUN and in INIT. -/
theorem witness_ChannelsAndCellsStopAndStart :
    (let off := withChan { chanReset 15 with state := .off, enable := false }
     let stopping := withChan { chanReset 15 with state := .stopping, enable := false, prio := 2 }
     cellOn off 20 = true ∧ answers (exec (.channelEnable 20 15) off) (fun t => decide ((getChan t 20 15).state = .on)) = true ∧
     answers (exec (.channelEnable 20 15) stopping) (fun t => (getChan t 20 15).rearm) = true ∧
     answers (exec (.channelDisable 20 15) chip) (fun t => decide ((getChan t 20 15).state = .stopping)) = true ∧
     heldOrders stopping 20 15 = [] ∧ answers (exec (.channelStopped 20 15) stopping) (fun t => decide ((getChan t 20 15).state = .off ∧ (getChan t 20 15).prio = 2)) = true) ∧
    (let cell (x : Cell) : State := { chip with cells := [(353, x)] }
     answers (exec (.cellEnable 353) (cell { state := .off })) (fun t => decide ((getCell t 353).state = .on)) = true ∧
     answers (exec (.cellEnable 353) (cell { state := .stopping })) (fun t => (getCell t 353).rearm) = true ∧
     answers (exec (.cellEnable 353) (cell { state := .off, retired := true })) (fun t => decide (t = cell { state := .off, retired := true })) = true ∧
     answers (exec (.cellDisable 353) chip) (fun t => decide ((getCell t 353).state = .stopping)) = true ∧
     cellQuiet (cell { state := .stopping, corrGalley := 4 }) 353 = true ∧
     answers (exec (.cellStopped 353) (cell { state := .stopping, corrGalley := 4 })) (fun t => decide ((getCell t 353).state = .off ∧ (getCell t 353).corrGalley = 4)) = true ∧
     answers (exec (.retire 353) chip) (fun t => (getCell t 353).retired && !(getCell t 353).enable) = true ∧
     answers (exec (.retire 353) State.reset) (fun t => !(getCell t 353).retired) = true) := by
  decide +kernel
/-- R272, R273, R390: a line enabled from OFF, while STOPPING and FAILED, with no such parent, and a leaf of a system tree; disabled with context 1 waiting on it; stopped. -/
theorem witness_PealLinesStopAndStart :
    (let with15 (l : Line) : State := { chip with lines := [(15, l)] }
     windowDead chip false = false ∧ answers (exec (.pealEnable 15) chip) (fun t => decide ((getLine t 15).state = .on)) = true ∧ (getLine chip 15).parent = 31 ∧
     answers (exec (.pealEnable 15) (with15 { state := .stopping })) (fun t => (getLine t 15).rearm) = true ∧
     answers (exec (.pealEnable 15) (with15 { state := .failed })) (fun t => decide ((getLine t 15).state = .failed)) = true ∧
     answers (exec (.pealEnable 15) (with15 { parent := 16 })) (fun t => decide (getLine t 15 = { parent := 16, enable := true })) = true ∧
     answers (exec (.pealEnable 15) (with15 { system := true, parent := 15, round := 4 })) (fun t => decide (t.outbox = [.peal 15 15 false (.arrival true)] ∧
       getLine t 15 = { system := true, parent := 15, enable := true, state := .on, sentUp := true })) = true ∧
     answers (exec (.pealLineStopped 15) (with15 { state := .stopping, round := 9 })) (fun t => decide ((getLine t 15).state = .off ∧ (getLine t 15).round = 0)) = true) ∧
    (let s := arrived { line [p1] with round := 0 }; (c1 s).wait = .peal ∧ (c1 s).sync.index = 5 ∧ isReleased (getLine s 5) (c1 s).sync.round = false ∧
      faults (exec (.pealDisable 5) s) PEAL_NOT_ENROLLED = true) := by
  decide +kernel

/-! Domains and keys (R341-R350, R433). -/

/-- Domain 2 with a current and a staged table of one entry each, as given, and domain 3 with an exclusive one. -/
def staged (x : Range) : State :=
  let old : Range := { base := 0x1000, last := 0x1FE0, rd := true, valid := true }
  { turn { body wNop with slots := [(0, valid)] } with
    domains := [(2, { current := [(0, old)], staged := [(63, x)] }), (3, { current := [(0, { base := 0x8000, last := 0x8FE0, excl := true, valid := true })] })] }
/-- R343-R346, R350: a staged table that narrows, one whose last is below its base, one that meets domain 3's exclusive entry at its first byte, one that
ends just before; a locked domain; RELEASE with a context at work and without. -/
theorem witness_CommitAndReleaseRangeTables :
    (windowDead (staged {}) false = false ∧ answers (exec (.commit 2 .host) (staged { base := 0x1000, last := 0x1FE0, valid := true })) (fun t => decide ((slotOf t 1 0).state = .stale)) = true ∧
     tableNarrows (getDom (staged {}) 2).current (getDom (staged {}) 2).staged = true ∧
     rangeBad { base := 0x1020, last := 0x1000, valid := true } = true ∧
     answers (exec (.commit 2 .host) (staged { base := 0x1020, last := 0x1000, valid := true })) (fun t => decide ((getDom t 2).rejectCause = 1)) = true ∧
     exclusionBroken [(63, { base := 0x7000, last := 0x7FE1, valid := true })] (getDom (staged {}) 3).current = true ∧
     answers (exec (.commit 2 .host) (staged { base := 0x7000, last := 0x7FE1, valid := true })) (fun t => decide ((getDom t 2).rejectCause = 2)) = true ∧
     answers (exec (.commit 2 .host) (staged { base := 0x7000, last := 0x7FE0, valid := true })) (fun t => decide ((getDom t 2).current = (getDom t 2).staged)) = true) ∧
    (let s := { chip with domains := [(2, { lock := true, keyGen := 5, dumpAddr := 64 })] }
     lockedAgainst s 2 .host = true ∧ answers (exec (.commit 2 .host) s) (fun t => decide ((getDom t 2).rejectCause = 3)) = true ∧
     answers (exec (.release 2 .host) s) (fun t => decide ((getDom t 2).rejectCause = 3)) = true ∧
     lockedAgainst s 2 .key = false ∧ domainFree s 2 = true ∧ answers (exec (.release 2 .key) s) (fun t => decide (getDom t 2 = { keyGen := 5 })) = true ∧
     domainFree (at0 wNop) 2 = false ∧ answers (exec (.release 2 .host) (at0 wNop)) (fun t => decide ((getDom t 2).rejectCause = 4)) = true) := by
  decide +kernel
/-- R433: each frame of the key port, a malformed one, one that names domain 256, and a release of a domain at work. -/
theorem witness_KeyPortCommands :
    windowDead chip false = false ∧ answers (exec (.loadKey 255 7 true) chip) (fun t => decide ((getDom t 255).keyGen = 1 ∧ t.outbox = [.keyAnswer false 0])) = true ∧
    answers (exec (.zeroise 2 true) { chip with domains := [(2, { key := some 1 })] }) (fun t => decide ((getDom t 2).key = none)) = true ∧
    answers (exec .tamper { chip with domains := [(2, { key := some 1, lock := true })] }) (fun t => decide (getDom t 2 = { lock := true })) = true ∧
    domainFree chip 0 = true ∧ answers (exec (.keyRelease 0 true) { chip with domains := [(0, { lock := true, keyGen := 5 })] }) (fun t => decide (getDom t 0 = { keyGen := 5 })) = true ∧
    answers (exec (.lock 0 false) chip) (fun t => decide (t = { chip with outbox := [.keyAnswer true 1] })) = true ∧
    answers (exec (.lock 256 true) chip) (fun t => decide (t = { chip with outbox := [.keyAnswer true 1] })) = true ∧
    domainFree (at0 wNop) 2 = false ∧ answers (exec (.keyRelease 2 true) (at0 wNop)) (fun t => decide ((getDom t 2).rejectCause = 4 ∧ t.outbox = [.keyAnswer true 3])) = true := by
  decide +kernel

/-! Modes (R434-R446, R18). -/

/-- The chip in a mode with a context of a class RUNNING. -/
def inMode (m : Mode) (cls : Nat := 3) : State :=
  { chip with regs := { chip.regs with mode := m }, time := { ref := 1001 }, ctxs := [(1, { regs := { config := BitVec.ofNat 64 cls, state := .running } })] }
/-- The same chip with no context. -/
def empty (m : Mode) : State := { inMode m with ctxs := [] }
/-- A mode command ends with a result, the mode unchanged. -/
def refusedWith (i : Instr) (s : State) (e : ModeResult) : Bool := answers (exec i s) fun t => decide (t.regs.result = e ∧ t.regs.mode = s.regs.mode)
/-- A mode command enters a mode. -/
def enters (i : Instr) (s : State) (m : Mode) : Bool := answers (exec i s) fun t => decide (t.regs.mode = m ∧ t.regs.busy = false ∧ t.regs.result = .done)
/-- R31, R436, R437, R441, R442: the command table: each listed change, each refusal; Toll 0 from 1,001 ns is at 3,000 ns. -/
theorem witness_ModeCommandsFollowTheTable :
    (let s := { chip with regs := { chip.regs with busy := true } }
     s.regs.busy = true ∧ answers (exec .modeTest s) (fun t => t.regs.modeIgnored) = true ∧ answers (exec .detach s) (fun t => t.regs.modeIgnored) = true) ∧
    (classFree (empty .init) 3 = true ∧ enters .modeTest (empty .init) .test = true ∧ enters .modeRun (empty .init) .run = true ∧
      answers (exec .modeRun (empty .init)) (fun t => decide (t.time.base = 3000 ∧ t.time.running = true)) = true ∧
      classFree (inMode .init) 3 = false ∧ refusedWith .modeTest (inMode .init) .notFree = true ∧ refusedWith .modeRun (inMode .init) .notFree = true ∧
      refusedWith .modeTest (empty .run) .badMode = true) ∧
    (classFree (empty .test) 2 = true ∧ enters .modeInit (empty .test) .init = true ∧ classFree (inMode .test 2) 2 = false ∧
      refusedWith .modeInit (inMode .test 2) .notFree = true ∧ enters .modeInit (empty .detached) .init = true ∧ refusedWith .modeInit (empty .run) .badMode = true ∧
      refusedWith .modeRun (empty .test) .badMode = true) ∧
    (let master : State := { empty .detached with regs := { (empty .detached).regs with master := true } }
     allFree master = true ∧ enters .modeRun master .run = true ∧ refusedWith .modeRun (empty .detached) .badMode = true ∧
     westFailed (empty .recovery) = false ∧ enters .modeRun (empty .recovery) .run = true ∧
     westFailed { empty .recovery with east := { seesWestFailed := true } } = true ∧
     refusedWith .modeRun { empty .recovery with east := { seesWestFailed := true } } .belfryFailed = true) ∧
    (refusedWith .modeRecovery (empty .init) .badMode = true ∧ enters .modeRecovery (inMode .run 0) .recovery = true ∧
      becomes (exec .modeRecovery (inMode .run 0)) .paused = true ∧ becomes (exec .modeRecovery (inMode .run 1)) .running = true) := by
  decide +kernel
/-- A chip that joins, locked to a master whose Toll 7 is at 8,000 ns. -/
def joining (entry : Option (Nat × Word)) : State :=
  { empty .init with regs := { (empty .init).regs with busy := true }, time := { ref := 8000 }, attach := some { fromMode := .init, limit := 8000, period := 1024, base := 1000, entry := entry } }
/-- R443, R445: ATTACH; entry at exactly the entry Toll, timeout at exactly the limit; DETACH; its end when quiet and at its limit. -/
theorem witness_AttachAndDetach :
    (allFree (empty .init) = true ∧ ((empty .init).regs.master || (empty .init).regs.standalone) = false ∧
      answers (exec .attach (empty .init)) (fun t => t.regs.busy && t.attach.isSome) = true) ∧
    (notBefore (joining (some (7, 8000))).time.ref 8000 = true ∧
      answers (exec .attachEnterRun (joining (some (7, 8000)))) (fun t => decide (t.regs.mode = .run ∧ t.time.count = 7 ∧ t.time.periodUs = 1024)) = true ∧
      answers (exec .attachEnterRun (joining (some (7, 8001)))) (fun _ => true) = false) ∧
    (answers (exec .attachTimeout (joining none)) (fun t => decide (t.regs.result = .syncFail ∧ t.regs.mode = .init)) = true) ∧
    (westFailed chip = false ∧ answers (exec .detach chip) (fun t => t.regs.busy && decide (t.detach = some {})) = true) ∧
    (let s := { chip with detach := some { stopped := true, limit := 0 }, domains := [(2, { key := some 1 })] }
     detachQuiet s = true ∧ answers (exec .detachDrained s) (fun t => decide (t.regs.mode = .detached ∧ (getDom t 2).key = none ∧ t.time.running = false)) = true ∧
     answers (exec .detachTimeout s) (fun t => decide (t.regs.mode = .detached)) = true) := by
  decide +kernel
/-- R4, R434, R438, R439: fuses read, one cluster off; a failed read; a failing cell; the test port in and out of its modes. -/
theorem witness_PowerGoodAndTheTestPort :
    (let f : Fuses := { grade := 2, good := ~~~BitVec.ofNat 4608 (0xF0 * (1 + 2 ^ 48 + 2 ^ 96 + 2 ^ 144)) }
     State.reset.regs.powered = false ∧ answers (exec (.powerGood f) State.reset) (fun t => t.regs.fuseOk && decide (t.regs.grade = 2) &&
       fusedOff t 1 && decide ((getCell t 1).state = .off ∧ (getCell t 0).state = .on)) = true ∧
     answers (exec (.powerGood { f with readOk := false }) State.reset) (fun t => !t.regs.fuseOk && t.regs.busy) = true) ∧
    (let s := { chip with regs := { chip.regs with mbistDone := false, busy := true, mode := .init } }
     fusedOff s 353 = false ∧ answers (exec (.mbistDone [353]) s) (fun t => !t.regs.busy && (getCell t 353).retired && t.regs.mbistDone) = true) ∧
    (answers (exec (.mbistRun 20) { empty .test with cells := [(20, { slices := [(0, { lastDomain := some 4 })] })] })
        (fun t => decide ((getSlice (getCell t 20) 0).lastDomain = none)) = true ∧
      answers (exec (.mbistRun 20) chip) (fun t => decide (t.cells = [])) = true ∧ answers (exec (.faultInject 20 .attErr) chip) (fun t => decide (t.cells = [])) = true ∧
      answers (exec (.faultInject 20 .attErr) (empty .test)) (fun t => decide ((getCell t 20).injected = some .attErr)) = true ∧
      answers (exec (.faultInject 20 .galleySingle) (empty .test)) (fun t => decide ((getCell t 20).corrGalley = 1)) = true ∧
      answers (exec (.faultInject 20 .galleyDouble) (empty .test)) (fun t => (getCell t 20).degraded) = true) ∧
    (answers (exec .scanEntry { empty .init with domains := [(2, { key := some 1 })] }) (fun t => t.regs.scan && decide ((getDom t 2).key = none)) = true ∧
      answers (exec .scanEntry chip) (fun t => !t.regs.scan) = true) := by
  decide +kernel
/-- R18: a heartbeat; the West Belfry lost after exactly 4 us; the East one. -/
theorem witness_HeartbeatsWatchTheBelfries :
    (let s := { chip with time := { running := true, next := 1, ref := 4000 }, ctxs := [(512, { regs := { state := .running, config := BitVec.ofNat 64 (place 144 10) } })] }
     answers (exec (.heartbeat true) s) (fun t => decide (t.east.lastBeat = 4000 ∧ t.west.lastBeat = 0)) = true ∧
     elapsedUs s s.east.lastBeat 4 = true ∧ s.east.seesWestFailed = false ∧
     answers (exec (.heartbeatLoss true) s) (fun t => decide (t.regs.mode = .recovery ∧ t.time.running = false ∧ readReg t 0x20 = 0 ∧ readReg t 0x800020 = 50)) = true ∧
     s.mirror = none ∧ isMirror 0x20 = true ∧ isMirror 0x3F8 = true ∧
     elapsedUs s s.west.lastBeat 4 = true ∧ s.west.seesEastFailed = false ∧ ctxEast 512 = true ∧
     answers (exec (.heartbeatLoss false) s) (fun t => decide (stateOf t 512 = .free)) = true) ∧
    answers (exec (.heartbeatLoss true) { chip with time := { ref := 3999 } }) (fun _ => true) = false := by
  decide +kernel

/-! Registers and instruments (R34, R35, R277-R282, R303, R305, R320, R402-R409, R448-R468). -/

/-- The value of ATT_SPLIT with three shares. -/
abbrev split (r w m : Nat) : Word := BitVec.ofNat 64 (r + place w 9 + place m 18)
/-- R34, R35: 3, 4, 1,024 and 1,025 us, in INIT and RUN, with a deadline-bound context at work, locked, DETACHED. R303: shares of 16, one of 15, a sum of
255, out of INIT. R305: WAIT_LIMIT in and out of INIT and 0. R320: a route that is refused and one that is not. -/
theorem witness_PeriodShareAndRouteWrites :
    (let rejected (s : State) (v : Word) : Bool := answers (exec (.tollPeriodWrite v) s) fun t => t.time.periodReject
     windowDead chip false = false ∧ rejected chip 3 = true ∧ rejected chip 1025 = true ∧ answers (exec (.tollPeriodWrite 4) (empty .init)) (fun t => decide (t.time.periodUs = 4)) = true ∧
     answers (exec (.tollPeriodWrite 1024) chip) (fun t => decide (t.time.pendingPeriod = some 1024)) = true ∧
     rejected { chip with time := { syncLocked := true } } 4 = true ∧ rejected (empty .detached) 4 = true ∧
     rejected { chip with ctxs := [(1, { regs := { config := cfg true false, state := .waiting } })] } 4 = true) ∧
    (let shares (t : State) : Nat × Nat × Nat := ((getCell t 353).shareRead, (getCell t 353).shareWrite, (getCell t 353).shareRemote)
     answers (exec (.attSplitWrite 353 (split 16 16 224)) (empty .init)) (fun t => decide (shares t = (16, 16, 224))) = true ∧
     answers (exec (.attSplitWrite 353 (split 15 16 225)) (empty .init)) (fun t => (getCell t 353).splitReject) = true ∧
     answers (exec (.attSplitWrite 353 (split 16 16 223)) (empty .init)) (fun t => (getCell t 353).splitReject) = true ∧
     answers (exec (.attSplitWrite 353 (split 16 16 224)) chip) (fun t => (getCell t 353).splitReject) = true) ∧
    (answers (exec (.arbConfigWrite 0x1FF) (empty .init)) (fun t => decide (t.regs.waitLimit = 255) && t.regs.cueGate) = true ∧
     answers (exec (.arbConfigWrite 0) (empty .init)) (fun t => decide (t.regs.waitLimit = 32) && !t.regs.cueGate) = true ∧
     answers (exec (.arbConfigWrite 9) chip) (fun t => decide (t.regs.waitLimit = 32)) = true) ∧
    (routeBad chip 16383 0x10000 = true ∧ answers (exec (.routeWrite 16383 0x10000) chip) (fun t => t.regs.routeReject) = true ∧
     routeBad chip 16383 0x10010 = false ∧ answers (exec (.routeWrite 16383 0x10010) chip) (fun t => decide ((getRoute t 16383).bits = 0x10010)) = true) := by
  decide +kernel
/-- R402, R450: a count that wraps and one that clears `OVF`. R408: the ring. R452: a latching read and another. R448-R456: writes of the wrong width and
place, of SYNC_TIMEOUT, of the last context's IMAGE_ADDR; the key port's write and a malformed one. -/
theorem witness_CounterLatchAndRegisterWrites :
    (let one (t : State) : Counter := tabGet {} (getCell t 20).counters 7
     ownerOk (.cell 20) = true ∧ ownerDead chip (.cell 20) = false ∧ ownerDead chip (.belfry true) = false ∧
     answers (exec (.evcntWrite (.cell 20) 7 0xFFFFFFFFFFFF 1) chip) (fun t => decide ((one t).count = 0) && (one t).ovf) = true ∧
     answers (exec (.evcntWrite (.cell 20) 7 0x8000000000000005 0) { chip with cells := [(20, { counters := [(7, { ovf := true })] })] })
       (fun t => decide ((one t).count = 5) && !(one t).ovf) = true ∧
     answers (exec (.evselWrite (.belfry true) 0 0xFFFFFFFF) chip) (fun t => decide ((tabGet {} t.east.counters 0).select = 0xFFFFFFF)) = true) ∧
    (answers (exec (.impConfigWrite 20 0x2FFFF) { chip with cells := [(20, { imp := { full := true, since := 4 } })] })
       (fun t => decide ((getCell t 20).imp = { interval := 65535 })) = true) ∧
    (latching 0x40 = true ∧ answers (exec (.lowerWordRead 0x40) { chip with time := { ref := 0x500000001 } }) (fun t => decide (tabGet 0 t.latches 0x40 = 5)) = true ∧
     latching 0x50 = false ∧ answers (exec (.lowerWordRead 0x50) chip) (fun t => decide (t = chip)) = true) ∧
    (answers (exec (.registerWrite .host 0x50 32 7) chip) (fun t => decide (t = chip)) = true ∧
     answers (exec (.registerWrite .host (0x1000000 + 354 * 0x10000) 64 7) chip) (fun t => decide (t = chip)) = true ∧
     westFailed chip = false ∧ answers (exec (.registerWrite .host 0x50 64 0x300000007) chip) (fun t => decide (t.regs.waitUs = 7 ∧ t.regs.pealUs = 3)) = true ∧
     answers (exec (.registerWrite .host (0x100018 + 0x80 * 511) 64 64) chip) (fun t => decide ((getCtx t 511).regs.imageAddr = 64)) = true ∧
     keyOffset chip 0x50 = some 0x50 ∧ answers (exec (.write 0x50 7 true) chip) (fun t => decide (t.regs.waitUs = 7 ∧ t.outbox = [.keyAnswer false 0])) = true ∧
     keyOffset chip 0x0001000000000050 = none ∧ answers (exec (.write 0x50 7 false) chip) (fun t => decide (t.outbox = [.keyAnswer true 1])) = true ∧
     windowDead { chip with west := { seesEastFailed := true } } (ctxEast 512) = true ∧ windowDead { chip with east := { seesWestFailed := true } } (ctxEast 511) = true) := by
  decide +kernel
/-- A dump of domain 2 under way, its buffer at 0x1000, with one record byte. -/
def dumping (written : Bool) : State :=
  { granted chip with
    domains := [(2, { (getDom (granted chip) 2) with dumpAddr := 0x1000, dumpWritten := written })]
    instr := { dumpSeq := 4, dump := some { seq := 4, triggers := [.command], parts := [(2, [7], List.replicate 256 9)] } } }
/-- R277-R280: a trigger, one that is merged, a dump written, one whose buffer is not consumed. R405-R407: each command now, at its instant and before. -/
theorem witness_DumpsAndDamper :
    (windowDead chip false = false ∧ windowDead (dumping true) false = false ∧ chip.instr.dump = none ∧ answers (exec .dumpTrigger chip) (fun t => decide (t.instr.dump = some { seq := 1, triggers := [.command], parts := [] })) = true ∧
     (dumping true).instr.dump ≠ none ∧ answers (exec .dumpTrigger (dumping true)) (fun t => decide (t.instr.merged = [.command])) = true) ∧
    ((dumping false).instr.merged = [] ∧ dumpAllowed (dumping false) 2 = true ∧
     answers (exec (.dumpDone []) (dumping false)) (fun t => decide (memRead t.mem 0x1000 = some 9 ∧ memRead t.mem 0x1100 = some 7 ∧ memRead t.mem 0x1101 = none)) = true ∧
     answers (exec (.dumpDone []) (dumping true)) (fun t => decide (t.mem = [])) = true) ∧
    (answers (exec (.freeze true) chip) (fun t => t.instr.frozen) = true ∧ answers (exec (.thaw true) { chip with instr := { frozen := true } }) (fun t => !t.instr.frozen) = true ∧
     answers (exec (.snapshot true) { chip with cells := [(20, { counters := [(7, { count := 3 })] })] }) (fun t => decide ((tabGet {} (getCell t 20).counters 7).snap = 3)) = true ∧
     notBefore chip.time.ref chip.instr.damperAt = true ∧ answers (exec (.thaw false) { chip with instr := { frozen := true } }) (fun t => !t.instr.frozen) = true ∧
     notBefore chip.time.ref 1 = false ∧ answers (exec (.freeze false) { chip with instr := { damperAt := 1 } }) (fun t => decide (t.instr.damper = some { op := 1, instant := 1 })) = true ∧
     answers (exec .damperCancel { chip with instr := { damper := some { op := 1, instant := 1 } } }) (fun t => decide (t.instr.damper = none)) = true ∧
     answers (exec .damperAction { chip with instr := { frozen := true, damper := some { op := 2, instant := 0 } } }) (fun t => !t.instr.frozen && decide (t.instr.damper = none)) = true) := by
  decide +kernel

/-! Time, power and wear (R27-R51, R310, R365-R373, R394, R395, R411-R415). -/

/-- The chip as a follower with a link up, its time and attach given. -/
def follower (t : Time) (a : Option Attach := none) : State := { chip with time := t, attach := a, cells := [(336, { linkUp := true })] }
/-- R27, R28: a plain tick, a correction of each sign after 9,999 cycles and none after 9,998, nor at a master. R28, R49, R50, R443: reports of 40, 41 and -40 ns, at a master, and
the step of a chip that joins. -/
theorem witness_ReferenceTimeAdvancesAndFollows :
    (chip.regs.powered = true ∧ answers (exec .refTick chip) (fun t => decide (t.time.ref = 1)) = true ∧
     answers (exec .refTick { chip with time := { offset := some 5, sinceCorrection := 9999 } }) (fun t => decide (t.time.ref = 0 ∧ t.time.offset = some 4)) = true ∧
     answers (exec .refTick { chip with time := { offset := some (-5), sinceCorrection := 9999 } }) (fun t => decide (t.time.ref = 2 ∧ t.time.offset = some (-4))) = true ∧
     answers (exec .refTick { chip with time := { offset := some 5, sinceCorrection := 9998 } }) (fun t => decide (t.time.ref = 1 ∧ t.time.offset = some 5)) = true ∧
     (let master : State := { chip with regs := { chip.regs with master := true }, time := { offset := some 5, sinceCorrection := 9999 } }
      follows master = false ∧ answers (exec .refTick master) (fun t => decide (t.time.ref = 1)) = true)) ∧
    (follows (follower { running := true }) = true ∧ roleOf 336 = .l ∧ (getCell (follower {}) 336).linkUp = true ∧
     answers (exec (.syncOffset 336 40 9 100 1024) (follower { running := true })) (fun t => t.time.syncLocked && decide (t.time.base = 100 ∧ t.time.periodUs = 1024)) = true ∧
     answers (exec (.syncOffset 336 (-40) 9 100 4) (follower { running := true })) (fun t => t.time.syncLocked) = true ∧
     answers (exec (.syncOffset 336 41 9 100 4) (follower { running := true, syncLocked := true })) (fun t => !t.time.syncLocked && t.time.syncLost) = true ∧
     follows { follower {} with regs := { chip.regs with master := true } } = false ∧
     answers (exec (.syncOffset 336 0 9 100 4) { follower {} with regs := { chip.regs with master := true } }) (fun t => decide (t.time.offset = none)) = true ∧
     answers (exec (.syncOffset 336 0 9 100 4) { follower {} with cells := [] }) (fun t => decide (t.time.offset = none)) = true) ∧
    (let a : Attach := { fromMode := .init, limit := 5 }
     follows (follower {} (some a)) = true ∧ a.stepped = false ∧
     answers (exec (.syncOffset 336 7 9000 0 50) (follower {} (some a))) (fun t => decide (t.time.ref = 9000 ∧ (t.attach.map Attach.stepped) = some true)) = true) := by
  decide +kernel
/-- The chip at an instant of its first frame, with a context and a cell of its home. -/
def tolling (ref : Word) (pulses : List Nat := []) (p : Option Nat := none) : State :=
  { chip with
    time := { running := true, next := 1 + flag (!pulses.isEmpty), ref := ref, pulses := pulses, pendingPeriod := p, count := flag (!pulses.isEmpty) }
    ctxs := [(1, { body wNop with wait := .guarded })], cells := [(16, { guardList := [], activity := [{ tag := 4 }] })] }
/-- R30, R34: Toll 1 at exactly 50,000 ns, with and without a pending period. R32, R33, R37, R365: its pulse at the home cell; at the
home of a context with a late instruction, one other cell's pulse still to come. -/
theorem witness_TollsAndTheirPulses :
    (notBefore (tolling 50000).time.ref (tollAt (tolling 50000) 1) = true ∧ answers (exec .tollTick (tolling 49999)) (fun _ => true) = false ∧
     answers (exec .tollTick (tolling 50000)) (fun t => decide (t.time.count = 1 ∧ t.time.next = 2 ∧ t.time.pulses.length = 354)) = true ∧
     answers (exec .tollTick (tolling 50000 [] (some 4))) (fun t => decide (t.time.periodUs = 4 ∧ tollAt t 1 = 50000 ∧ tollAt t 2 = 54000)) = true) ∧
    (homeOf (tolling 50000 [16]) 1 = 16 ∧ answers (exec (.tollPulse 16) (tolling 50000 [16])) (fun t => decide ((getCell t 16).tollCount = 1 ∧ (c1 t).wait = .none ∧
      (c1 t).tollHold = false ∧ t.outbox = [.activity 16 50000 [{ tag := 4 }]])) = true) ∧
    (let s := { tolling 50000 [16, 20] with time := { (tolling 50000 [16, 20]).time with lates := [{ insn := 3, ctx := 1, pc := 0xFF0, ch := 0 }] } }
     s.time.pulses.erase 16 = [20] ∧ answers (exec (.tollPulse 16) s) (fun t => decide ((c1 t).wait = .guarded)) = true) := by
  decide +kernel
/-- An instruction of context 1 in frame 0, deadline-bound, with its order at cell 20. -/
def lateState (ref : Word) (pulses : List Nat := []) : State :=
  { chip with
    time := { running := true, next := 1, ref := ref, pulses := pulses }
    ctxs := [(1, body wNop)]
    flights := [{ flight wMoveId with job := { (flight wMoveId).job with deadlineBound := true } }], orders := [order 20 .active]
    ctl := [{ vc := 2, src := 20, dst := 354, body := .overrun [{ insn := 3, ctx := 1, pc := 0xFF0, ch := 0 }] }] }
/-- R37, R45: the guard instant; a report while another cell waits for its pulse, and the last. R365: a stopped interval. -/
theorem witness_OverrunsAndReports :
    (inGuard (lateState 49000) (timeAt (lateState 49000) 20) = true ∧
     answers (exec (.guardInstant 20) (lateState 49000)) (fun t => decide ((getCell t 20).guardList = [{ insn := 3, ctx := 1, pc := 0xFF0, ch := 0 }])) = true ∧
     answers (exec (.guardInstant 20) (lateState 48999)) (fun _ => true) = false) ∧
    ((findMsg (lateState 50000) fun m => isOverrun m && m.src == 20) = some { vc := 2, src := 20, dst := 354, body := .overrun [{ insn := 3, ctx := 1, pc := 0xFF0, ch := 0 }] } ∧
     answers (exec (.overrunReport 20) (lateState 50000 [21])) (fun t => decide (t.time.lates.map Late.insn = [3])) = true ∧
     stateOf (lateState 50000) 1 = .running ∧ (c1 (lateState 50000)).regs.fault = 0) ∧
    ((timeAt { chip with time := { ref := 100000 } } 353).toNat / 50000 ≠ (getCell { chip with time := { ref := 100000 } } 353).reported ∧
     answers (exec (.stoppedInterval 353) { chip with time := { ref := 100000 } }) (fun t => decide (t.outbox = [.activity 353 100000 []])) = true) := by
  decide +kernel
/-- R310: a gated order wakes 8 ns before its cue and not 9. R368: the lend hint after exactly 2 us. R370-R373: FLOOR_OK, a step, its end, the stretch. -/
theorem witness_PowerAndClockEvents :
    (let s (ref : Word) : State := { chip with time := { ref := ref }, orders := [{ order 20 .shadow with gated := some 100 }] }
     (getOrder (s 92) 3 20).map Order.gated = some (some 100) ∧ notBefore (timeAt (s 92) 20 + 8) 100 = true ∧
     answers (exec (.cueWake 20 3) (s 92)) (fun t => decide ((getOrder t 3 20).map Order.gated = some none)) = true ∧
     answers (exec (.cueWake 20 3) (s 91)) (fun _ => true) = false) ∧
    (let s (ref : Word) : State := { waits ref with ctxs := [(1, { c1 (waits ref) with lendSince := some 0 })] }
     lendsNow (s 2000) 16 = true ∧ lendsNow (s 1999) 16 = false ∧ answers (exec (.lendThreshold 16) (s 2000)) (fun t => (getCell t 16).lend) = true ∧
     (let t : State := { s 2000 with cells := [(16, { lend := true })] }
      lendsNow t 16 = true ∧ answers (exec (.lendThreshold 16) t) (fun u => decide (u = t)) = true)) ∧
    (let with_ (c : Clock) : State := { chip with east := { clock := c } }
     answers (exec (.floorLost true) chip) (fun t => !t.east.clock.floorOk) = true ∧
     answers (exec (.stepNotice true true true true) chip) (fun t => t.east.clock.stepping && !t.east.clock.floorOk) = true ∧
     answers (exec (.stepNotice true true false true) (with_ { stretch := true })) (fun t => t.east.clock.stepHeld && !t.east.clock.stepping) = true ∧
     answers (exec (.stepNotice true false false true) (with_ { stepping := true, cycles := 4 })) (fun t => decide (t.east.clock.measure = some (0, 4)) && !t.east.clock.stepping) = true ∧
     answers (exec (.stretchChange true true) chip) (fun t => t.east.clock.stretch) = true ∧
     answers (exec (.stretchChange true false) chip) (fun t => decide (t = chip)) = true) := by
  decide +kernel
/-- R412's worked example: U is a quarter and rose by 0.0006 over the last day. -/
theorem test_wear_example :
    daysNowOf (1, 4) (BitVec.ofNat 64 (2 * dayNs)) [(BitVec.ofNat 64 dayNs, 2494, 10000)] = 1250 ∧ daysRatedOf (1, 4) = 1642 := by decide +kernel
/-- R394, R395: an error of each kind at its limit; an uncorrectable one; R411-R415: a measurement after exactly 60 s that raises the alarm; DEGRADED and
HEALTH_CONFIG. -/
theorem witness_HealthAndWearAreCounted :
    (let s := { chip with cells := [(336, { corrGalley := 65535, corrLink := 65534 })] }
     answers (exec (.correctableError 336 .galley) s) (fun t => decide ((getCell t 336).corrGalley = 65535)) = true ∧
     (let s := { chip with cells := [(20, { events := [0, 0, 0] })], regs := { chip.regs with threshold := 4 } }
      recentEvents s (getCell s 20) = [0, 0, 0] ∧ answers (exec (.correctableError 20 .ctlCrc) s) (fun t => (getCell t 20).degraded && decide ((getCell t 20).corrCtl = 1)) = true ∧
      answers (exec (.correctableError 20 .ctlCrc) { s with regs := { s.regs with threshold := 5 } }) (fun t => !(getCell t 20).degraded) = true) ∧
     answers (exec (.correctableError 336 .linkCrc) s) (fun t => decide ((getCell t 336).corrLink = 65535)) = true ∧ roleOf 336 = .l ∧
     answers (exec (.uncorrectableGalleyError 353 3) chip) (fun t => (getCell t 353).degraded) = true ∧
     answers (exec (.uncorrectableGalleyError 20 3) { lateState 0 with ctl := [] }) (fun t => (getCell t 20).degraded) = true) ∧
    (let s := { chip with time := { ref := 60000000000 }, west := { usedMax := 0 } }
     60000000000 ≤ (s.time.ref - (getCell s 20).wear.last.getD 0).toNat ∧
     answers (exec (.wearMeasure 20 [0, 0, 0, 9] 5 3153600) s) (fun t => t.west.alarm && decide (t.west.alarmCell = 20 ∧ (getCell t 20).wear.em = 5 ∧ (getCell t 20).wear.tt = 3153600)) = true) ∧
    (fusedOff chip 336 = false ∧ eastLost chip 336 = false ∧ answers (exec (.degradedClear 336) { chip with cells := [(336, { degraded := true, events := [4] })] })
       (fun t => !(getCell t 336).degraded && decide ((getCell t 336).events = [])) = true ∧
     (let s := { chip with regs := { chip.regs with fusedGood := 0 } }
      fusedOff s 20 = true ∧ answers (exec (.degradedClear 20) s) (fun t => decide (t = s)) = true) ∧
     (let s := { chip with west := { seesEastFailed := true } }
      eastLost s 344 = true ∧ answers (exec (.degradedClear 344) s) (fun t => decide (t = s)) = true) ∧
     windowDead chip false = false ∧ answers (exec (.healthConfigWrite (BitVec.ofNat 64 (5 + place 7 24))) chip) (fun t => decide (t.regs.window = 5 ∧ t.regs.threshold = 7)) = true ∧
     answers (exec (.healthConfigWrite 0) chip) (fun t => decide (t.regs.window = 1048576 ∧ t.regs.threshold = 16)) = true) := by
  decide +kernel

/-! Arrivals (R19, R21, R109-R111, R173, R177, R212, R381, R416-R423, R429, R468). -/

/-- The state that a command answers. -/
def after (r : Res) : State := match r with | .next t => t | _ => {}
/-- A FILL that sends chime 47 of core 0, and a CHECK of a wrong CRC. -/
abbrev wFillChime : Insn := word 0x23 (dst := 1) (chime := 47) (imm := 0)
abbrev wCheckCrc : Insn := word 0x26 (imm := 1)
/-- The word issued, its one order at cell 0 in a place, with more of the order given. -/
def sent (i : Instr) (w : Insn) (f : Order → Order := id) : State :=
  let s := after (exec i (moving w))
  { s with orders := s.orders.map f }
/-- R21, R173, R392: an order at an ON channel, behind one held in its shadow set, and at a channel that is OFF. R109-R111: index values at the last of four
rows and one past it. -/
theorem witness_OrdersAndIndexValuesArrive :
    (let s := sent (.move 1) wMoveId
     (getOrder s 0 0).map Order.place = some .sent ∧ (getFlight s 0).isSome = true ∧ (s.orders.all fun o => firstSent s o) = true ∧ cellOn s 0 = true ∧
     answers (exec (.orderArrival 0 0) s) (fun t => decide ((getOrder t 0 0).map Order.place = some .shadow)) = true ∧
     answers (exec (.orderArrival 0 0) { s with orders := s.orders ++ [{ order 0 .shadow with ctx := 2 }] }) (fun t => decide ((getOrder t 0 0).map Order.place = some .held)) = true ∧
     stateOf s 1 = .running ∧ answers (exec (.orderArrival 0 0) { s with cells := [(0, { chans := [(0, { state := .off })] })] })
       (fun t => decide ((c1 t).regs.fault = INTERNAL ∧ (c1 t).regs.state = .paused)) = true) ∧
    (let w := word 0x21 (src := 5) (dst := 6) (aux := 3) (flags := 8) (imm := walk + place 1 24)
     let s (x : Nat) : State :=
       let t := sent (.gather 1) w fun o => { o with place := .shadow }
       { t with flights := t.flights.map fun f => { f with index := some [0, 0, 0, 0, 0, 0, 0, x] }, ctl := [{ vc := 0, src := 0, dst := 0, body := .index 0 }] }
     findMsg (s 3) (isIndex 0 0) = some { vc := 0, src := 0, dst := 0, body := .index 0 } ∧ ((getFlight (s 3) 0).map fun f => indexOk f 3) = some true ∧
     ((getFlight (s 4) 0).map fun f => indexOk f 4) = some false ∧
     answers (exec (.indexDelivery 0 0) (s 3)) (fun t => decide ((getFlight t 0).map Flight.indexCells = some [0])) = true ∧
     (let pooled (free : Nat) : State := { s 3 with pools := [{ id := 4, cell := 0, ctx := 1, ch := 0, queue := 0, size := 64, free := free }] }
      ((getFlight (pooled 64) 0).map fun f => (queueOf f.job, indexSlots f)) = some (0, 1) ∧
      ((getFlight (pooled 64) 0).bind fun f => (getOrder (pooled 64) 0 0).map fun o => firstInQueue (pooled 64) f o) = some true ∧
      answers (exec (.indexDelivery 0 0) (pooled 1)) (fun t => decide ((getFlight t 0).map Flight.indexCells = some [0] ∧ t.pools.map Pool.free = [0])) = true ∧
      answers (exec (.indexDelivery 0 0) (pooled 0)) (fun _ => true) = false) ∧
     answers (exec (.indexDelivery 0 0) (s 4)) (fun t => decide ((c1 t).regs.fault = INDEX_RANGE ∧ t.flights = [])) = true) := by
  decide +kernel
/-- A slug of instruction 3 on its way from cell 16 to cell 20. -/
def slug (ejected : Bool) : Slug :=
  { id := 9, insn := 3, src := 16, dst := 20, ch := 0, ctx := 1, epoch := 0, deadline := 0, beats := 1, data := { elems := [(0, 5)] }, pool := 4, ejected := ejected }
/-- Instruction 3 in flight with its orders, that slug and its pool. -/
def slugged (ejected : Bool) : State :=
  { turn (body wNop) with
    flights := [flight wMoveId], orders := [order 16 .active, order 20 .active], slugs := [slug ejected]
    pools := [{ id := 4, cell := 20, ctx := 1, ch := 0, queue := 0, size := 64, free := 62, returning := 1 }] }
/-- The same with that slug replaced and chime update 2 under way to cell 20. -/
def carrying (g : Slug) : State :=
  { slugged true with slugs := [g], chimes := [{ id := 2, addr := chime47, op := .add, amount := 1, ctx := 1, cell := 20, guard := 0 }] }
/-- R177, R212, R220, R232, R381, R429: a slug of an order that goes on and of one that is gone; one that carries a chime update, which arrives and
which is lost; one that carries a CRC record; a credit; a failed replay; a halt flit at the home and elsewhere. -/
theorem witness_SlugsCreditsAndHaltFlitsArrive :
    ((slugged true).slugs.find? (fun g => g.id == 9 && g.dst == 20) = some (slug true) ∧ (getOrder (slugged true) 3 20) = some (order 20 .active) ∧
     stillF (flight wMoveId) = false ∧ answers (exec (.slugArrival 20 9) (slugged true)) (fun t => decide ((getOrder t 3 20).map Order.arrived = some [({ elems := [(0, 5)] }, 4)] ∧ t.slugs = [])) = true ∧
     getFlight { slugged true with flights := [] } 3 = none ∧
     answers (exec (.slugArrival 20 9) { slugged true with flights := [], orders := [] }) (fun t => decide (t.pools.map Pool.returning = [2])) = true) ∧
    (let s := carrying { slug true with chime := some 2 }
     s.slugs.find? (fun g => g.id == 9 && g.dst == 20) = some { slug true with chime := some 2 } ∧
     answers (exec (.slugArrival 20 9) s) (fun t => decide (t.chimes.map ChimePend.here = [true] ∧ t.slugs = [])) = true ∧
     (let failing := carrying { slug false with chime := some 2 }
      failing.slugs.find? (fun g => g.id == 9) = some { slug false with chime := some 2 } ∧ (failing.chimes.find? fun u => u.id == 2).isSome = true ∧
      answers (exec (.slugReplayFail 9) failing) (fun t => decide ((c1 t).regs.fault = INTERNAL ∧ t.chimes = [])) = true)) ∧
    (let g := { slug true with record := [{ sector := 4, data := 0xAB }] }
     (carrying g).slugs.find? (fun g => g.id == 9 && g.dst == 20) = some g ∧ g.record ≠ [] ∧ (getFlight (carrying g) 3).isSome = true ∧
     answers (exec (.slugArrival 20 9) (carrying g)) (fun t => decide (t.errands.map (fun e => (e.insn, e.cell, e.ws)) = [(3, 20, g.record)] ∧ t.slugs = [])) = true) ∧
    ((slugged true).pools.find? (fun p => p.id == 4) ≠ none ∧ answers (exec (.creditReturn 4) (slugged true)) (fun t => decide (t.pools.map Pool.free = [63])) = true) ∧
    ((slugged false).slugs.find? (fun g => g.id == 9) = some (slug false) ∧ stateOf (slugged false) 1 = .running ∧
     answers (exec (.slugReplayFail 9) (slugged false)) (fun t => decide ((c1 t).regs.fault = INTERNAL ∧ t.flights = [])) = true) ∧
    (let halted (dst : Nat) : State :=
       { slugged false with
         flights := [{ flight wMoveId with stop := some { reason := .halt 16, limit := 0, progress := 0 } }]
         ctl := [{ vc := 0, src := 16, dst := dst, body := .haltNotice { insn := 3, ctx := 1, pc := 0xFF0, ch := 0 } 16 0x10 0x40 }] }
     findMsg (halted 16) (isHalt 16 3) = some { vc := 0, src := 16, dst := 16, body := .haltNotice { insn := 3, ctx := 1, pc := 0xFF0, ch := 0 } 16 0x10 0x40 } ∧
     homeOf (halted 16) 1 = 16 ∧ answers (exec (.haltFlit 16 3) (halted 16)) (fun t => decide ((c1 t).regs.fault = BUS_ERROR ∧ (c1 t).regs.faultKind = .halt)) = true ∧
     (getOrder (halted 20) 3 20).isSome = true ∧ answers (exec (.haltFlit 20 3) (halted 20)) (fun t => decide ((getChan t 20 0).haltedInsn = some 3)) = true) := by
  decide +kernel
/-- A MOVE at work at cell 0 with its first read out, and the write of sector 4 out. -/
def reading (sectors : List Nat) (write : Bool) : State :=
  let s := sent (.move 1) wMoveId fun o => { o with place := .active }
  { s with accesses := [{ tag := 7, cell := 0, kind := if write then .put 0 else .source 0 [0], ctx := 1, isWrite := write, sectors := sectors, data := if write then [0xAB] else [] }] }
/-- R284, R381, R417, R418: read data, a failed read, a write's data at its sector's first and last byte, a failed write. -/
theorem witness_AttachmentResponses :
    ((reading [2] false).accesses.find? (fun a => a.tag == 7 && a.cell == 0 && !a.isWrite) ≠ none ∧ ((reading [2] false).accesses.all fun a => inOrder (reading [2] false) a) = true ∧
     statusAt (reading [2] false) 0 7 .ok = none ∧ ((getFlight (reading [2] false) 0).map fun f => (srcF f 0).sealed) = some false ∧ [0].Nodup ∧
     (getOrder (reading [2] false) 0 0).isSome = true ∧
     answers (exec (.readResponse 0 7 .ok (5 :: List.replicate 31 0)) (reading [2] false)) (fun t => decide ((getOrder t 0 0).map (fun o => tabFind o.sectors 0) = some (some 5))) = true ∧
     statusAt (reading [2] false) 0 7 .err = some BUS_ERROR ∧
     answers (exec (.readResponse 0 7 .err []) (reading [2] false)) (fun t => decide ((getChan t 0 0).fault = BUS_ERROR ∧ (getChan t 0 0).faultAddr = 64 ∧ (getChan t 0 0).haltedInsn = some 0)) = true) ∧
    ((reading [4] true).accesses.find? (fun a => a.tag == 7 && a.cell == 0 && a.isWrite) ≠ none ∧ [4].Nodup ∧
     answers (exec (.writeResponse 0 7 .ok) (reading [4] true)) (fun t => decide (memRead t.mem 128 = some 0xAB ∧ memRead t.mem 159 = some 0 ∧ memRead t.mem 160 = none ∧ memRead t.mem 127 = none)) = true ∧
     (let shared := { reading [4] true with accesses := (reading [4] true).accesses.map fun a => { a with units := [some 0] } }
      shared.accesses.map Access.units = [[some 0]] ∧ answers (exec (.writeResponse 0 7 .ok) shared) (fun t => decide (memRead t.mem 160 = none ∧ t.accesses = [])) = true) ∧
     statusAt (reading [4] true) 0 7 .uncorr = some ECC_UNCORR ∧ answers (exec (.writeResponse 0 7 .uncorr) (reading [4] true)) (fun t => decide (t.mem = [])) = true) ∧
    (let last (place : Place) (finished : Bool) : State :=
       { reading [4] true with orders := (reading [4] true).orders.map fun o => { o with writing := some { tag := 7 }, place := place, finished := finished } }
     (writerOf (last .active false) 0 7).isSome = true ∧ (getChan (last .left true) 0 0).state = .on ∧ cellOn (last .left true) 0 = true ∧
     answers (exec (.writeResponse 0 7 .uncorr) (last .active false)) (fun t => (getChan t 0 0).dir && decide ((getChan t 0 0).haltedInsn = some 0)) = true ∧
     answers (exec (.writeResponse 0 7 .uncorr) (last .left true)) (fun t => decide ((getChan t 0 0).fault = ECC_UNCORR ∧ (getChan t 0 0).faultAddr = 128 ∧
       (getOrder t 0 0).map (fun o => o.failed.map FailedWrite.ws) = some (some [{ sector := 4, data := 0xAB }]))) = true) := by
  decide +kernel
/-- A flushing read of context 1 at H-cell 352, two host writes, a FENCE of SYSTEM scope and a host read there. -/
def hosted (tries : Nat := 0) : State :=
  let x := body wFence
  { turn { x with wait := .fence 3 false [352], regs := { x.regs with state := .waiting } } with
    time := { running := true, next := 1, ref := 20000 }, cells := [(352, { linkUp := true })]
    flushes := [{ id := 5, cell := 352, ctx := 1, sector := 9, upto := 4 }]
    hostWrites := [{ id := 3, cell := 352, ctx := 1, sector := 8 }, { id := 4, cell := 352, ctx := 1, sector := 8 }]
    accesses := [{ tag := 6, cell := 352, kind := .discard, ctx := 1, sectors := [1], tries := tries }] }
/-- R288, R293, R423: a flushing read that ends well and one that fails; a host read after exactly 20 us, with a retry left and with none; the host link. -/
theorem witness_HostPortResponses :
    ((hosted).flushes.find? (fun h => h.id == 5 && h.cell == 352) = some { id := 5, cell := 352, ctx := 1, sector := 9, upto := 4 } ∧ hostDown hosted 352 5 = false ∧
     answers (exec (.flushComplete 352 5 .ok) hosted) (fun t => decide (t.flushes = [] ∧ t.hostWrites.map HostWrite.id = [4])) = true ∧
     (c1 hosted).wait = .fence 3 false [352] ∧ faults (exec (.flushComplete 352 5 .err) hosted) BUS_ERROR = true) ∧
    (roleOf 352 = .h ∧ elapsedUs hosted 0 (getCell hosted 352).readTimeoutUs = true ∧
     answers (exec (.hostReadTimeout 352 6) hosted) (fun t => decide (t.accesses.map Access.tries = [1] ∧ t.accesses.map Access.tag = [0])) = true ∧
     answers (exec (.hostReadTimeout 352 6) (hosted 2)) (fun t => decide (t.accesses = [])) = true ∧
     answers (exec (.hostReadTimeout 352 6) { hosted with time := { ref := 19999 } }) (fun _ => true) = false) ∧
    (let s := { (hosted) with seq := 8 }
     answers (exec (.readResponse 352 7 .ok []) s) (fun t => decide (t = s)) = true ∧ answers (exec (.flushComplete 352 7 .ok) s) (fun t => decide (t = s)) = true ∧
     answers (exec (.readResponse 352 8 .ok []) s) (fun _ => true) = false) ∧
    (roleOf 353 = .h ∧ answers (exec (.hostLinkState 353 true) chip) (fun t => (getCell t 353).linkUp) = true ∧
     (let s := { hosted with cells := [], seq := 7 }
      answers (exec (.hostLinkState 352 true) s) (fun t => decide (statusAt t 352 6 .ok = some BUS_ERROR ∧ statusAt t 352 7 .ok = none)) = true ∧
      answers (exec (.hostLinkState 352 false) hosted) (fun t => decide (statusAt t 352 6 .ok = some BUS_ERROR)) = true)) := by
  decide +kernel
/-- The last write of a destination granted and answered. -/
def written (o : Order) : Order := { o with place := .active, auxMade := true, lanes := [(0, { n := 8 })] }
/-- R19, R220, R221, R231: a FILL completes at core 0's cell, with a chime; a CHECK fails; a completion flit, and one of another chip's report. -/
theorem witness_CompletionStrikesAndChimes :
    (let s := sent (.fill 1) wFillChime written
     (getOrder s 0 0).map (fun o => (decide (o.place = .active), o.finished, o.stopped)) = some (true, false, false) ∧
     ((getFlight s 0).bind fun f => (getOrder s 0 0).map fun o => writesLeft s f o && !stillF f) = some true ∧
     answers (exec (.destinationComplete 0 0) s) (fun t => t.outbox.contains (.strike 0 (strikeCores s 0) 1) && decide (t.chimes.map ChimePend.addr = [chime47] ∧
       t.ctl = [{ vc := 1, src := 0, dst := 16, body := .completion 0 false }])) = true) ∧
    (let s := sent (.check 1) wCheckCrc written
     ((getFlight s 0).bind fun f => (getOrder s 0 0).map fun o => checkFails f o && writesLeft s f o) = some true ∧
     answers (exec (.destinationComplete 0 0) s) (fun t => decide ((c1 t).regs.fault = CRC_MISMATCH ∧ (c1 t).regs.faultKind = .ending)) = true) ∧
    (let s := { slugged false with flights := [{ flight wMoveId with parts := [{ cell := 20, done := true }, { cell := 21 }] }], ctl := [{ vc := 1, src := 20, dst := 16, body := .completion 3 false }] }
     findMsg s (isCompletion 3 20) = some { vc := 1, src := 20, dst := 16, body := .completion 3 false } ∧
     answers (exec (.completionFlit 3 20) s) (fun t => decide (t.flights.map (fun f => f.parts.map Part.known) = [[true, false]])) = true) ∧
    (let m : Msg := { vc := 1, src := 336, dst := 16, body := .remoteDone 3 5 77 }
     let s := { slugged false with flights := [{ flight wMoveId with remotes := [{ chip := 5 }] }], ctl := [m] }
     findMsg s (isCompletion 3 336) = some m ∧
     answers (exec (.completionFlit 3 336) s) (fun t => decide (t.flights.map (fun f => f.remotes.map fun r => (r.completion, r.at_)) = [[(false, 77)]])) = true) := by
  decide +kernel
/-- An update of chime 47 of core 0 by 5, waiting at cell 0. -/
def chiming (op : ChimeOp) : State :=
  { turn { body wNop with wait := .subResult } with chimes := [{ id := 2, addr := chime47, op := op, amount := 5, ctx := 1, cell := 0, guard := 0, wantsResult := decide (op = .sub) }], granted := [2] }
/-- The low byte and the top byte of the word, and the overflow flags' byte 5, after an update. -/
def chimed (op : ChimeOp) (old : Word) (p : Option Byte × Option Byte × Option Byte) : Bool :=
  answers (exec (.chimeUpdate 0 2 .ok old 0) (chiming op)) fun t =>
    decide ((memRead t.mem 0xBFFFBC, memRead t.mem 0xBFFFBF, memRead t.mem 0xBFFFC5) = p)
/-- R258-R261, R233, R287: ADD that wraps; GIVE to the largest value and 1 beyond it, chime 47's flag set; SUB to 0 and below it; an error; one
whose port has not granted it; one for chip 5. -/
theorem witness_ChimeUpdatesWriteTheirWord :
    ((chiming .add).chimes.find? (fun u => u.id == 2) ≠ none ∧ servingCell (chiming .add) 0 0 chime47.toNat = 0 ∧
      (chiming .add).granted.contains 2 = true ∧ addrChip chime47 = chip.regs.chipId ∧
      answers (exec (.chimeUpdate 0 2 .ok 0 0) { chiming .add with granted := [] }) (fun _ => true) = false) ∧
    chimed .add 0xFFFFFFFE (some 3, some 0, none) = true ∧ chimed .give 0x7FFFFFFA (some 0xFF, some 0x7F, none) = true ∧
    chimed .give 0x7FFFFFFB (some 0xFF, some 0x7F, some 0x80) = true ∧ chimed .sub 5 (some 0, some 0, none) = true ∧ chimed .sub 4 (none, none, none) = true ∧
    answers (exec (.chimeUpdate 0 2 .ok 4 0) (chiming .sub)) (fun t => decide (t.ctl = [{ vc := 1, src := 0, dst := 16, body := .subResult 1 CHIME_UNDERFLOW }])) = true ∧
    answers (exec (.chimeUpdate 0 2 .err 0 0) (chiming .add)) (fun t => decide (t.mem = [])) = true ∧
    (let far : Word := chime47 + BitVec.ofNat 64 (place 5 50)
     let s := { chiming .add with chimes := [{ id := 2, addr := far, op := .add, amount := 5, ctx := 1, cell := 336, guard := 0 }] }
     addrChip far ≠ s.regs.chipId ∧ servingCell s 336 336 far.toNat = 336 ∧ (s.chimes.all fun u => chimeReady s u 336) = true ∧
     answers (exec (.chimeUpdate 336 2 .ok 0 0) s) (fun t => decide (t.mem = [] ∧ t.chimes = [])) = true) := by
  decide +kernel
/-- A word of SYNC_TIMEOUT on its way to or from an order at cell 16. -/
def accessing (write : Bool) : State :=
  { slugged false with regAccesses := [{ id := 1, insn := 3, cell := 16, isWrite := write, word := 0x50 / 8, key := 2, data := 0x300000007 }] }
/-- R450, R455, R468: a read, and a write by a context of class 1. -/
theorem witness_RegisterAccessesAnswer :
    ((accessing false).regAccesses.find? (fun a => a.id == 1) ≠ none ∧ ((accessing false).regAccesses.all fun a => !earlierAccess (accessing false) a) = true ∧
     (getOrder (accessing false) 3 16).isSome = true ∧
     answers (exec (.registerAccessResponse 1) (accessing false)) (fun t => decide ((getOrder t 3 16).map Order.words = some [(10, BitVec.ofNat 64 (10000 + place 10000 32))])) = true) ∧
    ((getFlight (accessing true) 3).isSome = true ∧ answers (exec (.registerAccessResponse 1) (accessing true)) (fun t => decide (t.regs.waitUs = 7 ∧ t.regs.pealUs = 3)) = true) := by
  decide +kernel

/-! Streams between chips and the engine cycle (R302-R306, R323-R339, R351-R354). -/

/-- A chip with links 0, 1 and 8 up, ON cells, and its time at 9,000,000 ns. -/
def linked : State :=
  { chip with time := { running := true, next := 1, ref := 9000000 }, cells := [(336, { linkUp := true }), (337, { linkUp := true }), (344, { linkUp := true })] }
/-- A window for chip 5 of incarnation 3 whose h is 0xFFFFFFFF. -/
def win : Window := { cell := 337, incarnation := 3, h := 0xFFFFFFFF, arrived := true }
/-- That window in place. -/
def windowed5 : State := { linked with windows := [(5, win)] }
/-- The stream to chip 5, on link 0 with alternate link 1, in a PEER state. -/
def streaming (p : Peer) (x : OutStream) : State :=
  { linked with routes := [(5, { bits := BitVec.ofNat 18 (place 1 8 + place 1 16 + place 1 17), peer := p })], streams := [(5, x)] }
/-- An item that adds to chime 47 of core 0, with a sequence and tag. -/
def adding (seq : BitVec 32) (isSealed last : Bool := true) : Item :=
  { chip := 5, incarnation := 3, seq := seq, isSealed := isSealed, last := last, domain := 2, ctx := 1, payload := .chime 9 chime47 .add 5 0 }
/-- R324, R336: the cell of the link has room; it is OFF; every L-cell is OFF. A stream that asked for a window; one idle for `IDLE_US`; a CLOSE. -/
theorem witness_StreamsOpenAndClose :
    (5 ≠ linked.regs.chipId ∧ (linked.flights.all fun f => !(servesRead f && f.origin.isSome)) = true ∧ tabFind linked.windows 5 = none ∧ cellOn linked 337 = true ∧
     answers (exec (.streamOpen 1 5 3 7) linked) (fun t => decide (t.windows.map (fun p => (p.1, p.2.cell, p.2.h)) = [(5, 337, 6)])) = true ∧
     answers (exec (.streamOpen 15 5 3 7) { linked with cells := [(351, { state := .off })] }) (fun t => decide (t.windows.map (fun p => p.2.cell) = [344])) = true ∧
     answers (exec (.streamOpen 7 5 3 7) { linked with cells := (List.range 8).map fun k => (336 + k, { state := .off }) }) (fun t => decide (t.windows.map (fun p => p.2.cell) = [344])) = true ∧
     answers (exec (.streamOpen 0 5 3 7) { linked with cells := (List.range 16).map fun k => (336 + k, { state := .off }) }) (fun t => decide (t.windows = [])) = true) ∧
    ((3 : BitVec 16) ≠ 4 ∧ tabWf windowed5.windows = true ∧
     answers (exec (.streamOpen 1 5 4 7) windowed5) (fun t => decide (t.windows.map (fun p => (p.2.incarnation, p.2.h)) = [(4, 6)])) = true) ∧
    ((getStream (streaming .none { opening := true }) 5).opening = true ∧
     answers (exec (.openReply 5 none) (streaming .none { opening := true })) (fun t => decide (t.regs.openRefused = 1 ∧ (getStream t 5).refused = true)) = true ∧
     answers (exec (.openReply 5 (some 15)) (streaming .none { opening := true })) (fun t => decide ((getRoute t 5).peer = .opened ∧ (getStream t 5).window = 15)) = true ∧
     answers (exec (.openReply 5 none) (streaming .opened {})) (fun t => decide ((getRoute t 5).peer = .opened ∧ t.regs.openRefused = 0)) = true ∧
     (let s := streaming .none { opening := true, refused := true, openTimer := { since := 8950000, us := 50 } }
      timerDue s (getStream s 5).openTimer = true ∧ answers (exec (.openRetry 5) s) (fun t => t.outbox.contains (.linkControl 0 5 1 0)) = true ∧
      answers (exec (.openRetry 5) { s with time := { s.time with ref := 8999999 }, regs := { s.regs with ackUs := 1 } }) (fun _ => true) = false)) ∧
    (let s := streaming .opened { idleTimer := { since := 8900000, us := 100 } }
     (getRoute s 5).peer = .opened ∧ (getStream s 5).held = [] ∧ (getStream s 5).waiting = [] ∧ timerDue s (getStream s 5).idleTimer = true ∧
     answers (exec (.streamIdle 5) s) (fun t => decide ((getRoute t 5).peer = .none)) = true) ∧
    (tabFind windowed5.windows 5 = some win ∧ answers (exec (.close 5 3) windowed5) (fun t => decide (t.windows = [])) = true ∧
     answers (exec (.close 5 4) windowed5) (fun t => decide (t.windows = [(5, win)])) = true) := by
  decide +kernel
/-- Two items in flight, from sequence 0xFFFFFFFF on, since 4,000,000 ns. -/
def sentTwo (resent : Bool) : State :=
  streaming .opened { nextSeq := 1, acked := 0xFFFFFFFE, held := [{ item := adding 0xFFFFFFFF }, { item := adding 0 }],
                       resendTimer := { since := 8950000, us := 50 }, resent := resent, lostTimer := { since := 4000000, us := 5000 } }
/-- R325, R327, R336-R339: each timer at its last microsecond; an acknowledgement of one item, of both, of none and of three; a link that goes down. -/
theorem witness_StreamsAreResentMovedOrLost :
    (tabFind windowed5.windows 5 = some win ∧ win.arrived = true ∧ elapsedUs { windowed5 with time := { ref := 1000 } } win.lastAck 1 = true ∧
     answers (exec (.ackTimer 5) { windowed5 with time := { ref := 1000 } }) (fun t => t.outbox.contains (.linkControl 0 5 5 0xFFFFFFFF)) = true ∧
     (let s := { streaming .lost {} with windows := [(5, win)], peerHeard := [(5, { since := 4000000, us := 5000 })] }
      (getRoute s 5).peer = .lost ∧ timerDue s (tabGet {} s.peerHeard 5) = true ∧ answers (exec (.peerSilence 5) s) (fun t => decide (t.windows = [])) = true)) ∧
    ((getRoute (sentTwo false) 5).peer = .opened ∧
     answers (exec (.remoteAck 5 0xFFFFFFFF) (sentTwo false)) (fun t => decide ((getStream t 5).held.map (fun h => h.item.seq) = [0])) = true ∧
     answers (exec (.remoteAck 5 0) (sentTwo false)) (fun t => decide ((getStream t 5).held = [] ∧ (getStream t 5).acked = 0)) = true ∧
     answers (exec (.remoteAck 5 0xFFFFFFFE) (sentTwo false)) (fun t => decide (t.streams = (sentTwo false).streams)) = true ∧
     answers (exec (.remoteAck 5 1) (sentTwo false)) (fun t => decide (t.streams = (sentTwo false).streams)) = true) ∧
    ((getStream (sentTwo false) 5).held ≠ [] ∧ timerDue (sentTwo false) (getStream (sentTwo false) 5).resendTimer = true ∧
     answers (exec (.resendTimer 5) (sentTwo false)) (fun t => decide (t.outbox.length = 2)) = true ∧
     (getStream (sentTwo true) 5).resent = true ∧ timerDue (sentTwo true) (getStream (sentTwo true) 5).lostTimer = true ∧
     answers (exec (.streamLostTimer 5) (sentTwo true)) (fun t => decide ((getRoute t 5).peer = .lost)) = true) ∧
    (tabWf windowed5.windows = true ∧ answers (exec (.goodbye 5 3) windowed5) (fun t => decide ((getRoute t 5).peer = .gone ∧ t.windows = [])) = true ∧
     answers (exec (.goodbye 5 4) windowed5) (fun t => decide (t.windows = [(5, win)])) = true) ∧
    (roleOf 351 = .l ∧ answers (exec (.linkUp 351) chip) (fun t => (getCell t 351).linkUp) = true ∧
     (let s := sentTwo false
      tabWf s.streams = true ∧ (tabFind s.streams 5).isSome = true ∧ (getStream s 5).opening = false ∧ 336 + currentLink s 5 = 336 ∧ bit (getRoute s 5).bits 17 = true ∧
      (getRoute s 5).useAlt = false ∧ 336 + field (getRoute s 5).bits 8 4 = 337 ∧ (getCell s 337).linkUp = true ∧
      answers (exec (.linkDown 336) s) (fun t => decide (t.outbox.length = 2 ∧ (getRoute t 5).useAlt = true)) = true ∧
      answers (exec (.linkDown 336) { s with cells := [(336, { linkUp := true })] }) (fun t => decide ((getRoute t 5).peer = .lost ∧ (getStream t 5).held = [])) = true)) := by
  decide +kernel
/-- Chip 5's window with domain 2 that may write the chimes of core 0, its key slot filled or not. -/
def receiving (key : Option (BitVec 256)) : State :=
  { windowed5 with domains := [(2, { key := key, current := [(0, { base := 0xBFFE00, last := 0xBFFFFF, wr := true, valid := true })] })] }
/-- The IV of the item of sequence 0 from chip 5. -/
abbrev iv5 : BitVec 96 := linkIv 5 0 3 0 0
/-- The item of sequence 0 encrypted under key 7, and the tag that seals it. -/
def locked : Item := { adding 0 with cipher := some (7, iv5) }
def rightTag : BitVec 128 := Config.gcmGroupTag 7 iv5 (authed [locked])
/-- A refusal for context 1, at its home. -/
def refusing : Msg := { vc := 0, src := 337, dst := 16, body := .refusal 1 (some 3) RANGE true 0xFF0 }
/-- Instruction 3 in flight and its refusal. -/
def refused : State := { turn (body wNop) with flights := [flight wMoveId], orders := [order 16 .active], ctl := [refusing] }
/-- R326, R328, R351, R354: items before, in and past the sequence, one of them not the last of its group, one behind an item that its window cell has not
handed on; a pool with no room; a sealed item with no key, with a tag that fails, and with one that verifies; a refusal. -/
theorem witness_ItemsArriveInSequence :
    (tabFind windowed5.windows 5 = some win ∧ (adding 0).incarnation = win.incarnation ∧ ((0 : BitVec 32) - win.h).toNat = win.ready.length + win.group.length + 1 ∧
     ((1 : BitVec 32) - win.h).toNat ≠ win.ready.length + win.group.length + 1 ∧ ((0xFFFFFFFF : BitVec 32) - win.h).toNat ≠ win.ready.length + win.group.length + 1 ∧
     remoteUsed (receiving none) 337 [(5, 2)] ≤ remoteSlicesOf (receiving none) 337 ∧
     answers (exec (.itemArrival 0 (adding 0 false false)) (receiving none)) (fun t => decide (t.windows.map (fun p => (p.2.h, p.2.group.length)) = [(0xFFFFFFFF, 1)])) = true ∧
     answers (exec (.itemArrival 0 (adding 1 false)) (receiving none)) (fun t => decide (t.windows = [(5, win)] ∧ t.chimes = [])) = true ∧
     answers (exec (.itemArrival 0 { adding 0 false with incarnation := 4 }) (receiving none)) (fun t => decide (t.windows = [(5, win)])) = true ∧
     (let s := { receiving none with cells := [(337, { linkUp := true, remoteSlices := some 0 })] }
      remoteUsed s 337 [(5, 2)] = 1 ∧ answers (exec (.itemArrival 0 (adding 0 false)) s) (fun _ => true) = false)) ∧
    ((getDom (receiving none) 2).key = none ∧
     answers (exec (.itemArrival 0 (adding 0)) (receiving none)) (fun t => decide (t.windows.map (fun p => p.2.h) = [0] ∧ t.chimes = [])) = true) ∧
    ((getDom (receiving (some 7)) 2).key = some 7 ∧ addrChip chime47 = (receiving (some 7)).regs.chipId ∧
     itemAllowed (receiving (some 7)) 2 [chime47.toNat / 32] chime47.toNat (chime47.toNat + 3) false true = true ∧
     cellOn (receiving (some 7)) (servingCell (receiving (some 7)) 337 337 chime47.toNat) = true ∧
     itemAllowed { receiving (some 7) with domains := [] } 2 [chime47.toNat / 32] chime47.toNat (chime47.toNat + 3) false true = false) ∧
    (∃ i : Item, i.last = true ∧ i.isSealed = true ∧ i.payload = .chime 9 chime47 .add 5 0 ∧
      i.tag = Config.gcmGroupTag 7 (linkIv i.chip (receiving (some 7)).regs.chipId i.incarnation win.wraps i.seq) (authed [i]) ∧
      i.cipher = some (7, linkIv i.chip (receiving (some 7)).regs.chipId i.incarnation win.wraps i.seq)) ∧
    (∃ i : Item, i.last = true ∧ i.isSealed = true ∧
      i.tag ≠ Config.gcmGroupTag 7 (linkIv i.chip (receiving (some 7)).regs.chipId i.incarnation win.wraps i.seq) (authed [i])) ∧
    (findMsg refused (isRefusal 1) = some refusing ∧ (flight wMoveId).job.ctx = 1 ∧ (c1 refused).regs.fault = 0 ∧ stateOf refused 1 = .running ∧
     (flight wMoveId).origin = none ∧ (flight wMoveId).complete = false ∧ getFlight refused 3 = some (flight wMoveId) ∧
     answers (exec (.refusalReport 1) refused) (fun t => decide ((c1 t).regs.fault = RANGE ∧ t.flights = [])) = true) := by
  refine ⟨by decide +kernel, by decide +kernel, by decide +kernel, ⟨{ locked with tag := rightTag }, rfl, rfl, rfl, rfl, rfl⟩,
    ⟨{ locked with tag := rightTag + 1 }, rfl, rfl, ?_⟩, by decide +kernel⟩
  show rightTag + 1 ≠ rightTag
  simp
/-- Requests of a lower priority, of a forced one, of an earlier deadline, and two of the earliest. -/
def requests : List (Ask PortJob) :=
  [⟨.read 1, 0, 0, 1, 200, 1024, 256, 0, 1, 1, true, none, none⟩, ⟨.read 2, 3, 5, 2, 31, 1024, 256, 0, 1, 1, true, none, none⟩, ⟨.read 3, 3, 9, 3, 32, 1024, 256, 0, 1, 1, true, none, none⟩,
    ⟨.read 4, 3, 8, 4, 40, 1024, 256, 0, 1, 1, true, none, none⟩, ⟨.read 5, 3, 8, 6, 40, 1024, 256, 0, 1, 1, true, none, none⟩]
/-- R302, R303, R306: shares at reset and at their limits; five requests, granted from two points of the rotation; a cycle of either half with a cell and a Peal line to arm again. -/
theorem witness_EngineCyclesArbitrate :
    (((getCell chip 0).shareRead + (getCell chip 0).shareWrite + (getCell chip 0).shareRemote = 256 ∧
      ((List.range 256).filter fun i => slotClass (getCell chip 0) (5 + i) == .remote).length = 32) ∧
     (let x : Cell := { shareRead := 16, shareWrite := 16, shareRemote := 224 }
      x.shareRead + x.shareWrite + x.shareRemote = 256 ∧ ((List.range 256).filter fun i => slotClass x (250 + i) == .read).length = 16)) ∧
    (requests ≠ [] ∧ (pick 32 63 requests).map Ask.job = some (.read 4) ∧ (pick 32 4 requests).map Ask.job = some (.read 5)) ∧
    (let s : State := { chip with cells := [(0, { state := .off, rearm := true })], lines := [(2, { state := .off, rearm := true })] }
     s.regs.powered = true ∧ s.west.seesEastFailed = false ∧ cellEast 0 = false ∧ (getCell s 0).retired = false ∧ fusedOff s 0 = false ∧ (getLine s 2).parent = 0x1F ∧
     answers (exec (.engineCycle false) s) (fun t => decide ((getCell t 0).state = .on ∧ (getLine t 2).state = .on ∧ (getHalf t false).clock.cycles = 1 ∧ (getHalf t true).clock.cycles = 0)) = true ∧
     answers (exec (.engineCycle true) s) (fun t => decide ((getHalf t true).clock.cycles = 1)) = true) := by
  decide +kernel

/-! The latency bound and frame fit (R311-R319). -/

/-- The terms of the shared worked example of 13_arbitration_latency.md. -/
def sharedBound : BoundTerms :=
  { path := boundPath 96 300 96, src := .hbm, dst := .core, arb := wArb 32 [16, 16, 16] 0,
    beats := nBeats [(attachmentStage 1048576 256 112).count, (meshStage 1048576 256).count,
      creditLoop 1048576 256 ((boundPath 96 300 96).loop .hbm .core)] }

/-- R311-R313: "Sum 8,993", "which gives 9,197 ns". -/
theorem test_bound_shared : sharedBound.cycles = 8993 ∧ sharedBound.bound = 9197 := by decide +kernel

/-- The terms of 'A lower priority beside it'. -/
def lowerBound : BoundTerms :=
  { path := boundPath 96 97 96, src := .core, dst := .core, arb := wArb 32 [16, 16, 16] 0,
    beats := nBeats [(attachmentStage 262144 256 112).count, (meshStage 262144 256).count,
      creditLoop 262144 (boundCredits true 2) ((boundPath 96 97 96).loop .core .core)],
    pre := pPrio 1 [[8192, 4682, datapathCount 1048576]] }

/-- R314, from 'A lower priority beside it': 10,531 engine cycles, 10,770 ns; R190's example: 291 cycles, 298 ns. -/
theorem test_bound_priority :
    lowerBound.cycles = 10531 ∧ lowerBound.bound = 10770 ∧
    (HoldKind.forme 0 16 .core).cycles 32 = 291 ∧ (cyclesNs 291).ceil = 298 := by decide +kernel

/-- R319 from 'A frame traced', R245 from its worked example (383 ns a wait, 17,637 ns in all). -/
theorem test_frame_fit :
    frameFits 20000 [(8, 9197), (8, 9197)] = true ∧ frameFits 20000 [(8, 9197), (8, 9197), (8, 9197)] = false ∧
    ((waitBound 0 0 16 32 .core).add (cyclesNs 32)).ceil = 383 ∧
    chainFits 20000 33 (List.replicate 3 2794 ++ List.replicate 3 2433) (List.replicate 5 383) = true ∧
    chainFits 18636 33 (List.replicate 3 2794 ++ List.replicate 3 2433) (List.replicate 5 383) = false := by decide +kernel

/-- The ring REDUCE of 'Two-chip ordered all-reduce' on chip 9, at the default shares, its route to chip 5 on the given words. -/
def ringBound (route : Nat) (alt : Bool) : BoundTerms :=
  let s : State := { chip with routes := [(5, { bits := BitVec.ofNat 18 route, useAlt := alt })] }
  let t : BoundTerms :=
    { path := boundPath 227 227 348, src := .core, dst := .off, beats := 16384, arb := wArb 32 [16, 16] 0, extra := reduceCycles true false .core }
  t.remote s 5 526336 256 (farSegment 32 16 340 72 .core false)

/-- R294: "waits at most (30 + 16 + 0) x 1.125 / 1.10 = 47.0 ns". R315, R321: "X_ext is 650 + 526,336 / 200 = 3,282 ns", "T 20,398 ns",
"1,800 + 4 x 4,128 / 121 = 1,936 ns". R337: two hops and the mesh path to cell 347 on the alternate route. R95: 1-byte and wider corner turns. -/
theorem test_bound_off_chip :
    (fenceWait 32 0 (.inside .core)).nearest = 47 ∧ (linkExt 1 526336 256).nearest = 3282 ∧ (hostExt 4128 64).nearest = 1936 ∧
    (ringBound (12 + 16) false).bound = 20398 ∧
    (ringBound (12 + 16 + 11 * 256 + 2 * 4096) true).cycles = (ringBound (12 + 16) false).cycles + (boundPath 348 348 347).wire ∧
    (imposeStage 4096 .e4m3).map BoundStage.count = some 16 ∧ imposeStage 4096 .bf16 = none := by decide +kernel

/-- R428: each field of a slug's header lies at its place, and the parity over all 256 bits is even. R425: so do those of an envelope. -/
theorem test_header_layout :
    (let g : Slug := { id := 0, insn := 9, src := 5, dst := 300, ch := 3, ctx := 37, epoch := 2, deadline := 7, beats := 4, data := {}, pool := 0 }
     let h := (slugHeader chip g).toNat
     fieldOf h 0 9 = 300 ∧ fieldOf h 9 9 = 5 ∧ fieldOf h 18 4 = 3 ∧ fieldOf h 22 10 = 37 ∧ fieldOf h 40 32 = 2 ∧ fieldOf h 72 20 = 7 ∧
       fieldOf h 92 2 = 3 ∧ fieldOf h 94 4 = 0 ∧ parityOf h 256 = false ∧ parityOf h 255 = h.testBit 255) ∧
    (let e := (itemEnvelope { chip := 9, incarnation := 3, seq := 5, window := 11, first := false, payload := .performed 0 }).toNat
     fieldOf e 0 14 = 9 ∧ fieldOf e 14 16 = 3 ∧ fieldOf e 30 32 = 5 ∧ fieldOf e 62 4 = 11 ∧ fieldOf e 66 3 = 6 ∧ fieldOf e 69 59 = 0) := by
  decide +kernel

end Sys2Proof.Tests
end

section
/-!
SUPPORT. What a cell's work leaves of the cell: everything but its power state, link, counters, impressions, slices, channels and
guard record. The shared operations that end, skip, halt and park instructions keep it at every cell.
-/

namespace Sys2Proof.Machine

/-- A change of every entry changes what a key reads in the same way, the reset value included. -/
theorem tabGet_map {α : Type} {R : α → α → Prop} {d : α} (g : Nat × α → Nat × α) (hk : ∀ p, (g p).1 = p.1) (hd : R d d)
    (hv : ∀ p, R p.2 (g p).2) (t : Tab α) (k : Nat) : R (tabGet d t k) (tabGet d (t.map g) k) := by
  simp only [tabGet]
  induction t with
  | nil => exact hd
  | cons p rest ih =>
    simp only [List.map_cons, tabFind, hk]
    split
    · exact hv p
    · exact ih

/-! Settings. -/

/-- A cell with the parts blanked that its work changes. -/
def Cell.settings (x : Cell) : Cell :=
  { x with state := .on, linkUp := false, counters := [], imp := {}, slices := [], chans := [], guardList := [] }

/-- The settings of a cell in a table of cells. -/
def settingsIn (cs : Tab Cell) (n : Nat) : Cell := (tabGet {} cs n).settings

/-- `t` keeps the settings of every cell of `s`. -/
abbrev SameSettings (s t : State) : Prop := ∀ n, settingsIn t.cells n = settingsIn s.cells n

theorem SameSettings.trans {s t u : State} (h : SameSettings s t) (k : SameSettings t u) : SameSettings s u :=
  fun n => (k n).trans (h n)

theorem settingsIn_map (cs : Tab Cell) (g : Nat × Cell → Nat × Cell) (hk : ∀ p, (g p).1 = p.1)
    (hs : ∀ p, (g p).2.settings = p.2.settings) (n : Nat) : settingsIn (cs.map g) n = settingsIn cs n :=
  tabGet_map (R := fun x y => y.settings = x.settings) g hk rfl hs cs n

@[simp] theorem getCell_modCell (s : State) (n k : Nat) (f : Cell → Cell) :
    getCell (modCell s n f) k = if k = n then f (getCell s n) else getCell s k := by simp [getCell, modCell, putCell]

/-- A part of a cell that a change leaves reads the same at every cell. -/
theorem getCell_modCell_part {β : Type} (part : Cell → β) (s : State) (n : Nat) (f : Cell → Cell) (h : ∀ x, part (f x) = part x) (k : Nat) :
    part (getCell (modCell s n f) k) = part (getCell s k) := by
  rw [getCell_modCell]
  split
  · rename_i hk; subst hk; exact h _
  · rfl

theorem modCell_settings (s : State) (n : Nat) (f : Cell → Cell) (h : ∀ x, (f x).settings = x.settings) :
    SameSettings s (modCell s n f) := getCell_modCell_part Cell.settings s n f h

@[simp] theorem each_cells {α : Type} (xs : List α) (f : State → α → State) (s : State) (h : ∀ s x, (f s x).cells = s.cells) :
    (each xs f s).cells = s.cells := by
  unfold each
  induction xs generalizing s with
  | nil => rfl
  | cons x xs ih => exact (ih (f s x)).trans (h s x)

@[simp] theorem each_settings {α : Type} (xs : List α) (f : State → α → State) (s : State) (h : ∀ s x, SameSettings s (f s x)) :
    SameSettings s (each xs f s) := by
  unfold each
  induction xs generalizing s with
  | nil => intro n; rfl
  | cons x xs ih => exact SameSettings.trans (h s x) (ih (f s x))

/-- Sending flits to some cells touches no cell. -/
@[simp] theorem each_send_cells {α : Type} (xs : List α) (vc src dst : State → α → Nat) (b : State → α → Body) (s : State) :
    (each xs (fun s x => send s (vc s x) (src s x) (dst s x) (b s x)) s).cells = s.cells := each_cells _ _ _ fun _ _ => rfl
/-- Sending messages out of the engine touches no cell. -/
@[simp] theorem each_emit_cells {α : Type} (xs : List α) (o : State → α → Out) (s : State) :
    (each xs (fun s x => emit s (o s x)) s).cells = s.cells := each_cells _ _ _ fun _ _ => rfl
@[simp] theorem modChan_settings (s : State) (n ch : Nat) (f : Chan → Chan) : SameSettings s (modChan s n ch f) :=
  modCell_settings s n _ fun _ => rfl
@[simp] theorem countCell_settings (s : State) (cell event units : Nat) (ctx dom : Option Nat) :
    SameSettings s (countCell s cell event units ctx dom) := by
  unfold countCell
  split
  · exact fun _ => rfl
  · exact modCell_settings s cell _ fun _ => rfl

/-! Machine/Ops.lean and Machine/Items.lean: logging, credits and streams touch no cell. -/

@[simp] theorem countHalf_cells (s : State) (east : Bool) (event units : Nat) (ctx dom : Option Nat) :
    (countHalf s east event units ctx dom).cells = s.cells := by rw [countHalf_rest]
@[simp] theorem logTo_cells (s : State) (east : Bool) (e : LogEntry) : (logTo s east e).cells = s.cells := by rw [logTo_rest]
@[simp] theorem logEvent_cells (s : State) (d : Bool) (e : LogEntry) : (logEvent s d e).cells = s.cells := by simp [logEvent]
@[simp] theorem returnCredit_cells (s : State) (pool : Option Nat) : (returnCredit s pool).cells = s.cells := by
  cases pool <;> simp [returnCredit]
@[simp] theorem sendControl_cells (s : State) (link chip kind : Nat) (v : BitVec 32) : (sendControl s link chip kind v).cells = s.cells := rfl
@[simp] theorem sendOpen_cells (s : State) (chip : Nat) : (sendOpen s chip).cells = s.cells := rfl
@[simp] theorem freeHeld_cells (s : State) (hs : List Held) : (freeHeld s hs).cells = s.cells := by simp [freeHeld]
@[simp] theorem queueHeld_cells (s : State) (chip dom ctx : Nat) (epoch : BitVec 32) (p : Payload) (insn : Option Nat) (credits : List Nat) :
    (queueHeld s chip dom ctx epoch p insn credits).cells = s.cells := by
  unfold queueHeld; dsimp only; (repeat' split) <;> simp
@[simp] theorem queueItem_cells (s : State) (chip dom ctx : Nat) (epoch : BitVec 32) (p : Payload) (insn : Option Nat) :
    (queueItem s chip dom ctx epoch p insn).cells = s.cells := by simp [queueItem]
@[simp] theorem queueReport_cells (s : State) (chip dom ctx : Nat) (epoch : BitVec 32) (p : Payload) :
    (queueReport s chip dom ctx epoch p).cells = s.cells := by
  unfold queueReport; split <;> simp
@[simp] theorem transmit_cells (s : State) (chip : Nat) (hs : List Held) : (transmit s chip hs).cells = s.cells := by simp [transmit]

/-! Machine/Rounds.lean and Machine/Program.lean: Peal lines, fault latches and the program touch no cell. -/

@[simp] theorem modParty_cells (s : State) (n : Nat) (p : Party) (f : Participant → Participant) : (modParty s n p f).cells = s.cells := rfl
@[simp] theorem pealOut_cells (s : State) (link n : Nat) (odd : Bool) (k : PealFlit) : (pealOut s link n odd k).cells = s.cells := by simp [pealOut]
@[simp] theorem tellCore_cells (n : Nat) (s : State) (p : Participant) : (tellCore n s p).cells = s.cells := by
  unfold tellCore; split <;> rfl
@[simp] theorem passArrive_cells (s : State) (c : Nat) : (passArrive s c).cells = s.cells := rfl
@[simp] theorem passWithdrawn_cells (n : Nat) (r : BitVec 32) (s : State) (p : Participant) : (passWithdrawn n r s p).cells = s.cells := by
  unfold passWithdrawn; dsimp only; (repeat' split) <;> rfl
@[simp] theorem tellLeft_cells (s : State) (n : Nat) (r : BitVec 32) : (tellLeft s n r).cells = s.cells := by
  unfold tellLeft; dsimp only; split <;> rfl
@[simp] theorem releaseRound_cells (s : State) (n : Nat) : (releaseRound s n).cells = s.cells := by simp [releaseRound]
@[simp] theorem settleOnce_cells (s : State) (n : Nat) : (settleOnce s n).cells = s.cells := by
  unfold settleOnce; dsimp only; (repeat' split) <;> simp
@[simp] theorem settleRound_cells (s : State) (n : Nat) : (settleRound s n).cells = s.cells := by simp [settleRound]
@[simp] theorem settleHeld_cells (s : State) (n : Nat) : (settleHeld s n).cells = s.cells := by
  refine each_cells _ _ s fun s p => ?_
  split <;> simp
@[simp] theorem leaveRound_cells (s : State) (n : Nat) (party : Party) (r : BitVec 32) : (leaveRound s n party r).cells = s.cells := by
  simp [leaveRound]
@[simp] theorem clearEnrolled_cells (s : State) (c n : Nat) : (clearEnrolled s c n).cells = s.cells := by simp [clearEnrolled]
@[simp] theorem resign_cells (s : State) (n : Nat) (p : Party) : (resign s n p).cells = s.cells := by
  cases p <;> (unfold resign; dsimp only; split <;> simp)
@[simp] theorem resignAll_cells (s : State) (c : Nat) : (resignAll s c).cells = s.cells := by simp [resignAll]
@[simp] theorem withdrawArrive_cells (s : State) (c : Nat) : (withdrawArrive s c).cells = s.cells := by
  unfold withdrawArrive; dsimp only; (repeat' split) <;> simp
@[simp] theorem enterPaused_cells (s : State) (c : Nat) : (enterPaused s c).cells = s.cells := by simp [enterPaused]
@[simp] theorem raise_cells (s : State) (c : Nat) (r : Raise) : (raise s c r).cells = s.cells := by
  unfold raise; dsimp only; (repeat' split) <;> simp
@[simp] theorem raiseHere_cells (s : State) (c : Nat) (code : Code) (kind : FaultKind) (addr : Word) (ch : Option Nat) :
    (raiseHere s c code kind addr ch).cells = s.cells := by simp [raiseHere]
@[simp] theorem atListEnd_cells (s : State) (c : Nat) (last : Word) : (atListEnd s c last).cells = s.cells := by
  unfold atListEnd; dsimp only; (repeat' split) <;> simp
@[simp] theorem goTo_cells (s : State) (c : Nat) (pc : Word) : (goTo s c pc).cells = s.cells := by simp [goTo]
@[simp] theorem retire_cells (s : State) (c : Nat) : (retire s c).cells = s.cells := by simp [retire]
@[simp] theorem retireWait_cells (s : State) (c : Nat) : (retireWait s c).cells = s.cells := by simp [retireWait, endWait]
@[simp] theorem wakeDrain_cells (s : State) (c : Nat) : (wakeDrain s c).cells = s.cells := by
  unfold wakeDrain; (repeat' split) <;> simp
@[simp] theorem wakeDrains_cells (s : State) : (wakeDrains s).cells = s.cells := by simp [wakeDrains]

/-! Machine/Transfers.lean, where no cell is touched. -/

@[simp] theorem returnStaged_cells (s : State) (o : Order) : (returnStaged s o).cells = s.cells := by simp [returnStaged]
@[simp] theorem returnCredits_cells (s : State) (o : Order) : (returnCredits s o).cells = s.cells := by simp [returnCredits]
@[simp] theorem removeOrder_cells (s : State) (o : Order) : (removeOrder s o).cells = s.cells := by simp [removeOrder]
@[simp] theorem removeFlight_cells (s : State) (insn : Nat) : (removeFlight s insn).cells = s.cells := by simp [removeFlight]
@[simp] theorem settleComplete_cells (s : State) (insn : Nat) : (settleComplete s insn).cells = s.cells := by
  unfold settleComplete; (repeat' split) <;> rfl
@[simp] theorem settleOrigin_cells (s : State) (insn : Nat) : (settleOrigin s insn).cells = s.cells := by
  unfold settleOrigin; dsimp only; (repeat' split) <;> simp
@[simp] theorem tellOrigin_cells (s : State) (insn : Nat) (skipped : Bool) : (tellOrigin s insn skipped).cells = s.cells := by
  unfold tellOrigin; dsimp only; (repeat' split) <;> simp
@[simp] theorem tellOver_cells (s : State) (f : Flight) : (tellOver s f).cells = s.cells := by
  unfold tellOver; dsimp only
  split
  · rfl
  · refine each_cells _ _ s fun s k => ?_
    split <;> simp
@[simp] theorem stopFlight_cells (s : State) (f : Flight) (reason : ParkReason) (n : Nat) : (stopFlight s f reason n).cells = s.cells := rfl
@[simp] theorem settlePause_cells (s : State) (c : Nat) : (settlePause s c).cells = s.cells := by
  unfold settlePause; split <;> simp

/-! Machine/Transfers.lean, where channels, guard records and impressions change. -/

@[simp] theorem forgetLate_settings (s : State) (insn : Nat) : SameSettings s (forgetLate s insn) :=
  settingsIn_map s.cells _ (fun _ => rfl) fun _ => rfl
@[simp] theorem finishImpression_settings (s : State) (f : Flight) (ended : Bool) : SameSettings s (finishImpression s f ended) := by
  unfold finishImpression; dsimp only
  split
  · exact fun _ => rfl
  · exact modCell_settings _ _ _ fun _ => rfl
@[simp] theorem checkComplete_settings (s : State) (insn : Nat) : SameSettings s (checkComplete s insn) := by
  unfold checkComplete; dsimp only; (repeat' split) <;> simp [SameSettings]
@[simp] theorem learnPart_settings (s : State) (insn cell : Nat) : SameSettings s (learnPart s insn cell) := by simp [SameSettings, learnPart]
@[simp] theorem tellHome_settings (s : State) (f : Flight) (cell : Nat) (skipped : Bool) : SameSettings s (tellHome s f cell skipped) := by
  unfold tellHome; (repeat' split) <;> simp [SameSettings]
@[simp] theorem clearHalts_settings (s : State) (insn : Nat) : SameSettings s (clearHalts s insn) :=
  settingsIn_map s.cells _ (fun _ => rfl) fun _ => rfl
@[simp] theorem latchHalt_settings (s : State) (f : Flight) (cell : Nat) (code : Code) (isWrite : Bool) (addr : Word) :
    SameSettings s (latchHalt s f cell code isWrite addr) := by
  unfold latchHalt; dsimp only; (repeat' split) <;> simp [SameSettings]
@[simp] theorem endFlight_settings (s : State) (f : Flight) (code : Code) (cell : Option Nat) (addr : Word) :
    SameSettings s (endFlight s f code cell addr) := by
  unfold endFlight; dsimp only; split <;> simp [SameSettings]
@[simp] theorem skipFlight_settings (s : State) (f : Flight) : SameSettings s (skipFlight s f) := by
  unfold skipFlight; dsimp only; split <;> simp [SameSettings]
@[simp] theorem settleChannel_settings (s : State) (cell ch : Nat) : SameSettings s (settleChannel s cell ch) := by
  unfold settleChannel; split <;> simp [SameSettings]

/-- Parking an instruction changes its cells' channels alone (R381). -/
@[simp] theorem parkFlight_settings (s : State) (f : Flight) : SameSettings s (parkFlight s f) := by
  have hchans (cs : Tab Cell) (p n : Nat) :
      settingsIn (cs.map fun e => (e.1, { e.2 with chans := e.2.chans.map fun q => (q.1, showHalt f p q.2) })) n = settingsIn cs n := by
    apply settingsIn_map <;> exact fun _ => rfl
  unfold parkFlight; dsimp only
  (repeat' split) <;> simp [SameSettings, hchans]
@[simp] theorem parkIfReady_settings (s : State) (insn : Nat) : SameSettings s (parkIfReady s insn) := by
  unfold parkIfReady; (repeat' split) <;> simp [SameSettings]
@[simp] theorem haltFlight_settings (s : State) (f : Flight) (cell : Nat) (code : Code) (isWrite : Bool) (addr : Word) (n : Nat) :
    SameSettings s (haltFlight s f cell code isWrite addr n) := by
  unfold haltFlight; dsimp only; (repeat' split) <;> simp [SameSettings]

end Sys2Proof.Machine
end

section
/-!
SUPPORT. Stopping and retiring a cell keeps the settings of every cell but the health flags that a retirement sets (R393, R396).
-/

namespace Sys2Proof.Machine

/-! Machine/Control.lean to Machine/Sync.lean. -/

@[simp] theorem startAbandon_cells (s : State) (c : Nat) : (startAbandon s c).cells = s.cells := by simp [startAbandon]
@[simp] theorem beginDump_cells (s : State) (ts : List Trigger) : (beginDump s ts).cells = s.cells := by simp [beginDump]
@[simp] theorem triggerDump_cells (s : State) (t : Trigger) : (triggerDump s t).cells = s.cells := by
  unfold triggerDump; split <;> simp
@[simp] theorem clearParties_cells (s : State) (n : Nat) : (clearParties s n).cells = s.cells := by simp [clearParties]
@[simp] theorem finishWait_cells (s : State) (c : Nat) : (finishWait s c).cells = s.cells := by simp [finishWait]
@[simp] theorem finishArrive_cells (n : Nat) (s : State) (c : Nat) : (finishArrive n s c).cells = s.cells := by simp [finishArrive]
@[simp] theorem faultWaiters_cells (s : State) (n : Nat) (code : Code) : (faultWaiters s n code).cells = s.cells := by simp [faultWaiters]
@[simp] theorem failHere_cells (s : State) (n : Nat) : (failHere s n).cells = s.cells := by simp [failHere]
@[simp] theorem failLine_cells (s : State) (n : Nat) : (failLine s n).cells = s.cells := by simp [failLine]
@[simp] theorem takePollResult_cells (s : State) (c id : Nat) (value : BitVec 32) (took : Bool) (fault : Code) :
    (takePollResult s c id value took fault).cells = s.cells := by
  unfold takePollResult; dsimp only; (repeat' split) <;> simp

/-! Machine/Remote.lean. -/

@[simp] theorem retireWindow_cells (s : State) (chip : Nat) : (retireWindow s chip).cells = s.cells := by
  unfold retireWindow; dsimp only; split <;> simp
@[simp] theorem dropUpdates_cells (s : State) (insn : Nat) : (dropUpdates s insn).cells = s.cells := rfl
@[simp] theorem clearDue_cells (s : State) (chip insn : Nat) : (clearDue s chip insn).cells = s.cells := rfl
@[simp] theorem endItems_settings (s : State) (chip insn : Nat) (code : Code) : SameSettings s (endItems s chip insn code) := by
  unfold endItems; dsimp only; (repeat' split) <;> simp [SameSettings]
@[simp] theorem failHeld_settings (s : State) (chip : Nat) (code : Code) (h : Held) : SameSettings s (failHeld s chip code h) := by
  unfold failHeld; (repeat' split) <;> simp [SameSettings]
@[simp] theorem faultFences_cells (s : State) (chip : Nat) : (faultFences s chip).cells = s.cells := by simp [faultFences]
@[simp] theorem faultPolls_cells (s : State) (chip : Nat) : (faultPolls s chip).cells = s.cells := by
  refine each_cells _ _ s fun s c => ?_
  dsimp only; (repeat' split) <;> simp
@[simp] theorem endStream_settings (s : State) (chip : Nat) (peer : Peer) : SameSettings s (endStream s chip peer) := by
  simp [SameSettings, endStream]
@[simp] theorem failTrees_cells (s : State) (link : Nat) : (failTrees s link).cells = s.cells := by simp [failTrees]
@[simp] theorem loseStream_settings (s : State) (chip : Nat) : SameSettings s (loseStream s chip) := by simp [SameSettings, loseStream]
@[simp] theorem resend_settings (s : State) (chip : Nat) (timer : Bool) : SameSettings s (resend s chip timer) := by
  simp [SameSettings, resend]
@[simp] theorem reroute_settings (s : State) (chip : Nat) : SameSettings s (reroute s chip) := by
  unfold reroute; dsimp only; (repeat' split) <;> simp [SameSettings]
@[simp] theorem linkFails_settings (s : State) (cell : Nat) : SameSettings s (linkFails s cell) := by
  have hdown := modCell_settings s cell (fun x => { x with linkUp := false }) fun _ => rfl
  simp [SameSettings, linkFails, hdown]

/-! Machine/Contexts.lean. -/

@[simp] theorem endCmd_cells (s : State) (c : Nat) (r : BitVec 8) : (endCmd s c r).cells = s.cells := rfl
@[simp] theorem enterStopping_settings (s : State) (c : Nat) : SameSettings s (enterStopping s c) := by
  unfold enterStopping; dsimp only; split <;> simp [SameSettings]
@[simp] theorem freeHoldings_settings (s : State) (c : Nat) : SameSettings s (freeHoldings s c) := by
  intro n
  apply settingsIn_map <;> exact fun _ => rfl

/-! Machine/Channels.lean. -/

@[simp] theorem endStopped_settings (s : State) (cell ch insn : Nat) : SameSettings s (endStopped s cell ch insn) := by
  unfold endStopped; split <;> simp [SameSettings]
@[simp] theorem stopChannel_settings (s : State) (cell ch : Nat) : SameSettings s (stopChannel s cell ch) := by
  unfold stopChannel; dsimp only; split <;> simp [SameSettings]
@[simp] theorem endLoading_settings (s : State) (c : Nat) : SameSettings s (endLoading s c) := by
  unfold endLoading; dsimp only; split <;> simp [SameSettings]
@[simp] theorem abortHomed_settings (s : State) (c : Nat) : SameSettings s (abortHomed s c) := by
  unfold abortHomed; split <;> simp [SameSettings]
@[simp] theorem endForeign_cells (s : State) (cell : Nat) : (endForeign s cell).cells = s.cells := by
  refine each_cells _ _ s fun s f => ?_
  split <;> simp

/-- A stopping cell loses its work and its power state, not its settings (R393). -/
@[simp] theorem stopCell_settings (s : State) (n : Nat) : SameSettings s (stopCell s n) := by
  have hstop := modCell_settings s n (fun x => { x with state := .stopping }) fun _ => rfl
  unfold stopCell; dsimp only; (repeat' split) <;> simp [SameSettings, hstop]
@[simp] theorem staleServed_cells (s : State) (n : Nat) : (staleServed s n).cells = s.cells := rfl
@[simp] theorem disableCores_cells (s : State) (n : Nat) : (disableCores s n).cells = s.cells := by simp [disableCores]

/-- What a retirement makes of a cell's settings (R396). -/
def retiredSettings (x : Cell) : Cell := { x with enable := false, rearm := false, retired := true }

/-- Retiring a cell sets its own health flags and leaves the settings of every other cell (R396). -/
theorem retireCell_settings (s : State) (n k : Nat) : settingsIn (retireCell s n).cells k =
    if k = n then retiredSettings (settingsIn s.cells n) else settingsIn s.cells k := by
  have hset : settingsIn (modCell (staleServed s n) n fun x => { x with enable := false, rearm := false, retired := true }).cells k =
      if k = n then retiredSettings (settingsIn s.cells n) else settingsIn s.cells k := by
    refine (congrArg Cell.settings (getCell_modCell _ n k _)).trans ?_
    split <;> rfl
  rw [← hset]
  unfold retireCell; dsimp only
  (repeat' split) <;> simp

end Sys2Proof.Machine
end

section
/-!
Power-good, the self-test and the test port: what each command makes of the chip and of a cell (R4, R29, R434, R438, R439).
-/

namespace Sys2Proof.Machine

/-! Reading the state back. -/

theorem getCell_of_cells {s t : State} (h : t.cells = s.cells) (n : Nat) : getCell t n = getCell s n := by simp [getCell, h]

theorem Kept.sameMemory {s t : State} (h : Kept s t) : sameMemory s t := by
  obtain ⟨-, hmem, -⟩ := h
  intro a
  rw [hmem]

/-- A property that an operation gives for one item and every other item leaves holds once that item has had its turn. -/
theorem each_makes {α : Type} {P : State → Prop} {f : State → α → State} {x : α} (hmake : ∀ s, P (f s x))
    (hkeep : ∀ s y, P s → P (f s y)) (xs : List α) (hx : x ∈ xs) (s : State) : P (each xs f s) := by
  have keeps (ys : List α) (s : State) (h : P s) : P (each ys f s) := List.foldlRecOn ys f h fun t ht y _ => hkeep t y ht
  induction xs generalizing s with
  | nil => simp at hx
  | cons y ys ih =>
    rcases List.mem_cons.mp hx with rfl | hy
    · exact keeps ys _ (hmake s)
    · exact ih hy (f s y)

/-! Power-good (R4, R29, R438). -/

@[simp] theorem offByFuse_regs (s : State) : (offByFuse s).regs = s.regs :=
  List.foldlRecOn (motive := fun t : State => t.regs = s.regs) _ _ rfl fun _ ht _ _ => ht
@[simp] theorem offByFuse_time (s : State) : (offByFuse s).time = s.time :=
  List.foldlRecOn (motive := fun t : State => t.time = s.time) _ _ rfl fun _ ht _ _ => ht

/-- A C-cell whose cluster is disabled by fuse is OFF (R4). -/
theorem offByFuse_state {s : State} {n : Nat} (hn : n < cellCount) (hoff : fusedOff s n = true) :
    (getCell (offByFuse s) n).state = .off := by
  refine each_makes (x := n) (P := fun t => (getCell t n).state = .off) (fun t => ?_) (fun t k ht => ?_) _ ?_ s
  · simp
  · simp only [getCell_modCell]
    split
    · rfl
    · exact ht
  · simp [hn, hoff]

/-- With the fuses read, the chip holds what they say and the disabled clusters are OFF (R4, R438). -/
theorem execPowerGood_read {s : State} {f : Fuses} (hp : s.regs.powered = false) (hg : f.grade < 3) (hr : f.readOk = true) :
    ∃ t, execPowerGood f s = .next t ∧ t.regs.fuseOk = true ∧ t.regs.grade = f.grade ∧ t.regs.good = f.good ∧ t.time.ref = 0 ∧
      t.regs.busy = s.regs.busy ∧ (∀ n, fusedOff t n = true → n < cellCount → (getCell t n).state = .off) ∧ sameMemory s t := by
  have hrow : ∃ u, execPowerGood f s = .next (offByFuse u) ∧ u.regs.fuseOk = true ∧ u.regs.grade = f.grade ∧ u.regs.good = f.good ∧
      u.time.ref = 0 ∧ u.regs.busy = s.regs.busy := by
    simp only [execPowerGood, need, hp, hg, hr, Bool.not_false, decide_true, if_true]
    exact ⟨_, rfl, rfl, rfl, rfl, rfl, rfl⟩
  obtain ⟨u, hu, hfuse, hgrade, hgood, href, hbusy⟩ := hrow
  refine ⟨_, hu, by simpa, by simpa, by simpa, by simpa, by simpa, fun n hoff hn => offByFuse_state hn ?_,
    (execPowerGood_kept f s hu).sameMemory⟩
  simpa only [fusedOff, offByFuse_regs] using hoff

/-- A failed fuse read leaves the cells and `BUSY` as they were; reference time starts all the same (R29, R438). -/
theorem execPowerGood_failed {s : State} {f : Fuses} (hp : s.regs.powered = false) (hg : f.grade < 3) (hr : f.readOk = false) :
    ∃ t, execPowerGood f s = .next t ∧ t.regs.fuseOk = s.regs.fuseOk ∧ t.regs.busy = s.regs.busy ∧ t.time.ref = 0 ∧
      t.cells = s.cells := by
  simp only [execPowerGood, need, hp, hg, hr, Bool.not_false, decide_true, if_true, Bool.false_eq_true, if_false]
  exact ⟨_, rfl, rfl, rfl, rfl, rfl⟩

/-! The self-test (R438, R439). -/

/-- A cell that is retired and switched off. -/
abbrev OutOfService (s : State) (n : Nat) : Prop := (getCell s n).retired = true ∧ (getCell s n).enable = false

theorem outOfService_iff_settings (s : State) (n : Nat) :
    OutOfService s n ↔ (settingsIn s.cells n).retired = true ∧ (settingsIn s.cells n).enable = false := Iff.rfl

/-- Retiring some cells takes each of them out of service (R396). -/
theorem each_retireCell_outOfService (s : State) {ns : List Nat} {n : Nat} (hn : n ∈ ns) : OutOfService (each ns retireCell s) n := by
  refine each_makes (P := fun t => OutOfService t n) (fun t => ?_) (fun t k ht => ?_) ns hn s
  · simp [outOfService_iff_settings, retireCell_settings, retiredSettings]
  · rw [outOfService_iff_settings] at ht ⊢
    rw [retireCell_settings]
    split
    · exact ⟨rfl, rfl⟩
    · exact ht

/-- The self-test ends in INIT with the failing cells retired (R438, R439). -/
theorem execMbistDone_next {s : State} {fails : List Nat} (hcells : ∀ n ∈ fails, n < cellCount ∧ fusedOff s n = false)
    (hfuse : s.regs.fuseOk = true) (hdone : s.regs.mbistDone = false) :
    ∃ t, execMbistDone fails s = .next t ∧ t.regs.mode = .init ∧ t.regs.busy = false ∧ t.regs.result = .done ∧ t.regs.mbistDone = true ∧
      (∀ n ∈ fails, (getCell t n).retired = true ∧ (getCell t n).enable = false) ∧ sameMemory s t := by
  have hall : (fails.all fun n => decide (n < cellCount) && !fusedOff s n) = true := by simpa using hcells
  simp only [execMbistDone, need, hall, hfuse, hdone, Bool.not_false, Bool.and_self, if_true]
  refine ⟨_, rfl, rfl, rfl, rfl, rfl, fun n hn => ?_, Kept.sameMemory ?_⟩
  · exact each_retireCell_outOfService s (List.mem_eraseDups.mpr hn)
  · exact (each_kept _ _ s retireCell_kept).trans (Kept.refl _)

/-! The test port (R434). -/

/-- In INIT and TEST, MBIST_RUN leaves no domain's data in any slice of the cell, and every slice with its owner. -/
theorem execMbistRun_tests {s : State} {cell : Nat} (hcell : cell < cellCount) (hmode : s.regs.mode = .init ∨ s.regs.mode = .test) :
    ∃ t, execMbistRun cell s = .next t ∧
      (∀ k, (getSlice (getCell t cell) k).lastDomain = none ∧ (getSlice (getCell t cell) k).owner = (getSlice (getCell s cell) k).owner) ∧
      sameMemory s t := by
  have hin : ¬(s.regs.mode ≠ .init ∧ s.regs.mode ≠ .test) := fun ⟨hi, ht⟩ => hmode.elim hi ht
  simp only [execMbistRun, need, hcell, decide_true, if_true, if_neg hin]
  refine ⟨_, rfl, fun k => ?_, fun _ => rfl⟩
  simp only [getCell_modCell, if_true]
  exact tabGet_map (R := fun x y : Slice => y.lastDomain = none ∧ y.owner = x.owner) (fun p => (p.1, { p.2 with lastDomain := none }))
    (fun _ => rfl) ⟨rfl, rfl⟩ (fun _ => ⟨rfl, rfl⟩) (getCell s cell).slices k

theorem execMbistRun_elsewhere {s : State} {cell : Nat} (hcell : cell < cellCount) (hi : s.regs.mode ≠ .init) (ht : s.regs.mode ≠ .test) :
    execMbistRun cell s = .next s := by simp [execMbistRun, need, hcell, hi, ht]

theorem execFaultInject_elsewhere {s : State} {cell : Nat} (hcell : cell < cellCount) (ht : s.regs.mode ≠ .test) (kind : Inject) :
    execFaultInject cell kind s = .next s := by simp [execFaultInject, need, hcell, ht]

theorem markDegraded_degraded (s : State) (n : Nat) : (getCell (markDegraded s n) n).degraded = true := by
  unfold markDegraded
  split
  · assumption
  · rw [getCell_of_cells (logEvent_cells _ _ _)]; simp

theorem markDegraded_corrGalley (s : State) (n k : Nat) : (getCell (markDegraded s n) k).corrGalley = (getCell s k).corrGalley := by
  unfold markDegraded
  split
  · rfl
  · rw [getCell_of_cells (logEvent_cells _ _ _)]
    exact getCell_modCell_part Cell.corrGalley s n (fun x => { x with degraded := true }) (fun _ => rfl) k

theorem addEvent_corrGalley (s : State) (n k : Nat) : (getCell (addEvent s n) k).corrGalley = (getCell s k).corrGalley := by
  have hnote := getCell_modCell_part Cell.corrGalley s n (fun x => { x with events := recentEvents s x ++ [x.healthTolls] }) (fun _ => rfl) k
  unfold addEvent; dsimp only
  split
  · exact (markDegraded_corrGalley _ n k).trans hnote
  · exact hnote

/-- A corrected galley error is counted once, to the counter's limit (R394). -/
theorem correctAt_corrGalley (s : State) (cell : Nat) :
    (getCell (correctAt s cell .galley) cell).corrGalley = min ((getCell s cell).corrGalley + 1) 65535 := by
  unfold correctAt; dsimp only
  rw [addEvent_corrGalley]
  refine (congrArg Cell.corrGalley (countCell_settings _ cell 0x20 1 none none cell)).trans ?_
  show (getCell (modCell s cell _) cell).corrGalley = _
  rw [getCell_modCell, if_pos rfl]
  rfl

/-- After the cell is marked, an uncorrectable galley error halts or ends work, which changes no cell's settings (R381, R395). -/
theorem galleyLost_settings (s : State) (cell : Nat) (insn : Option Nat) :
    SameSettings (markDegraded s cell) (galleyLost s cell insn) := by
  unfold galleyLost; dsimp only; (repeat' split) <;> simp [SameSettings]

theorem galleyLost_degraded (s : State) (cell : Nat) (insn : Option Nat) : (getCell (galleyLost s cell insn) cell).degraded = true :=
  (congrArg Cell.degraded (galleyLost_settings s cell insn cell)).trans (markDegraded_degraded s cell)

/-- In TEST, a single-bit error is counted, a double-bit one degrades the cell, and an attachment error waits there (R434). -/
theorem execFaultInject_tests {s : State} {cell : Nat} (hcell : cell < cellCount) (hmode : s.regs.mode = .test) :
    (∃ t, execFaultInject cell .galleySingle s = .next t ∧ (getCell t cell).corrGalley = min ((getCell s cell).corrGalley + 1) 65535 ∧
      sameMemory s t) ∧
    (∃ t, execFaultInject cell .galleyDouble s = .next t ∧ (getCell t cell).degraded = true ∧ sameMemory s t) ∧
    (∃ t, execFaultInject cell .attErr s = .next t ∧ getCell t cell = { getCell s cell with injected := some .attErr }) := by
  simp only [execFaultInject, need, hcell, hmode, decide_true, if_true, ne_eq, not_true_eq_false, if_false]
  refine ⟨⟨_, rfl, correctAt_corrGalley s cell, (correctAt_kept s cell .galley).sameMemory⟩,
    ⟨_, rfl, galleyLost_degraded s cell _, (galleyLost_kept s cell _).sameMemory⟩, ⟨_, rfl, ?_⟩⟩
  rw [getCell_modCell, if_pos rfl]

theorem zeroiseKeys_key (s : State) (d : Nat) : (getDom (zeroiseKeys s) d).key = none :=
  tabGet_map (R := fun _ y : Domain => y.key = none) (fun p => (p.1, { p.2 with key := none })) (fun _ => rfl) rfl (fun _ => rfl)
    s.domains d

/-- Scan entry, at rest in INIT, zeroises every key slot (R434). -/
theorem execScanEntry_enters {s : State} (hmode : s.regs.mode = .init) (hbusy : s.regs.busy = false) :
    ∃ t, execScanEntry s = .next t ∧ t.regs.scan = true ∧ (∀ d, (getDom t d).key = none) ∧ sameMemory s t := by
  simp only [execScanEntry, hmode, hbusy, ne_eq, not_true_eq_false, Bool.false_eq_true, or_self, if_false]
  exact ⟨_, rfl, rfl, zeroiseKeys_key s, fun _ => rfl⟩

theorem execScanEntry_elsewhere {s : State} (h : s.regs.mode ≠ .init ∨ s.regs.busy = true) : execScanEntry s = .next s := if_pos h

/-- Settles O40: each command's row, one lemma for each mode in which it acts or does not. -/
theorem powerGoodAndTheTestPort : Obligations.PowerGoodAndTheTestPort := by
  unfold Obligations.PowerGoodAndTheTestPort
  refine ⟨fun s f => execPowerGood_read, fun s f => execPowerGood_failed, fun s fails => execMbistDone_next,
    fun s cell hcell => ⟨execMbistRun_tests hcell, execMbistRun_elsewhere hcell, execFaultInject_elsewhere hcell,
      execFaultInject_tests hcell⟩,
    fun s => ⟨execScanEntry_enters, execScanEntry_elsewhere⟩⟩

end Sys2Proof.Machine
end

section
/-!
ADVANCE: what each state of the named slot and each new base make of it (R81, R194).
-/

namespace Sys2Proof.Machine

/-! Using the turn leaves what a forme is checked against (R69). -/

@[simp] theorem cellRetired_useTurn (s : State) (c n : Nat) : cellRetired (useTurn s c) n = cellRetired s n :=
  getCell_modCell_part Cell.retired s (homeOf s c) (fun x => { x with decode := none, lastServed := c }) (fun _ => rfl) n

@[simp] theorem unitExists_useTurn (s : State) (c : Nat) : unitExists (useTurn s c) = unitExists s := by
  funext sp u
  cases sp with
  | hbm => simp only [unitExists, cellRetired_useTurn]
  | _ => rfl

@[simp] theorem servingUnit_useTurn (s : State) (c : Nat) : servingUnit (useTurn s c) = servingUnit s := by
  funext sp u
  cases sp with
  | hbm => simp only [servingUnit, cellRetired_useTurn]
  | _ => rfl

@[simp] theorem hullCells_useTurn (s : State) (c home host : Nat) (f : Forme) :
    hullCells (useTurn s c) home host f = hullCells s home host f := by
  simp only [hullCells, unitCells, servingUnit_useTurn]; rfl

@[simp] theorem reachOk_useTurn (s : State) (c : Nat) : reachOk (useTurn s c) = reachOk s := by
  funext cfg f
  simp only [reachOk, cellRetired_useTurn, hullCells_useTurn]; rfl

@[simp] theorem formeRules_useTurn (s : State) (c : Nat) : formeRules (useTurn s c) c = formeRules s c := by
  simp only [formeRules, unitExists_useTurn, reachOk_useTurn]; rfl

@[simp] theorem checkForme_useTurn (s : State) (c : Nat) (f : Forme) : checkForme (useTurn s c) c f = checkForme s c f := by
  simp only [checkForme, formeRules_useTurn]

@[simp] theorem slotOf_useTurn (s : State) (c k : Nat) : slotOf (useTurn s c) c k = slotOf s c k := rfl

/-! The row. -/

/-- A forme with another base. -/
def rebased (f : Forme) (b : Int) : Forme := { f with base := BitVec.ofInt 64 b }

section
variable {s : State} {c : Nat} {w : Insn} (hat : AtWord s c w) (hacc : Accepted s c w) (hop : opOf w = 0x08)
include hat hacc hop

theorem execAdvance_empty (hslot : (slotOf s c (dstOf w)).state = .empty) :
    execAdvance c s = .next (refuse (useTurn s c) c BAD_FORME (slotOf s c (dstOf w)).forme.base) := by
  rw [execAdvance, decodeChecked_accepted hat hacc _ _ (by simp [isOp, hop])]
  simp [hslot]

theorem execAdvance_stale (hslot : (slotOf s c (dstOf w)).state = .stale) :
    execAdvance c s = .next (refuse (useTurn s c) c RANGE (slotOf s c (dstOf w)).forme.base) := by
  rw [execAdvance, decodeChecked_accepted hat hacc _ _ (by simp [isOp, hop])]
  simp [hslot]

variable (hslot : (slotOf s c (dstOf w)).state = .valid) {b : Int}
  (hb : advancedBase (slotOf s c (dstOf w)).forme (advDimOf w) (advMulOf w) = some b)
include hslot hb

/-- A base in another 2^48-byte space is refused (R81); one below 0 is in another. -/
theorem execAdvance_elsewhere (hspace : b / 2 ^ 48 ≠ (((slotOf s c (dstOf w)).forme.base.toNat / 2 ^ 48 : Nat) : Int)) :
    execAdvance c s = .next (refuse (useTurn s c) c RANGE (slotOf s c (dstOf w)).forme.base) := by
  rw [execAdvance, decodeChecked_accepted hat hacc _ _ (by simp [isOp, hop])]
  simp only [slotOf_useTurn, hslot, hb, ne_eq, hspace, not_false_eq_true, or_true, if_true, reduceCtorEq, if_false]

variable (hspace : b / 2 ^ 48 = (((slotOf s c (dstOf w)).forme.base.toNat / 2 ^ 48 : Nat) : Int))
include hspace

/-- A base in the same space is not below 0, and is validated next (R81). -/
theorem execAdvance_within :
    let f := rebased (slotOf s c (dstOf w)).forme b
    (∀ code, checkForme s c f = some code → execAdvance c s = .next (refuse (useTurn s c) c code f.base)) ∧
    (checkForme s c f = none →
      execAdvance c s = .next (retire (setSlot (useTurn s c) c (dstOf w) { state := .valid, forme := f }) c)) := by
  have hstays : ¬(b < 0 ∨ b / 2 ^ 48 ≠ (((slotOf s c (dstOf w)).forme.base.toNat / 2 ^ 48 : Nat) : Int)) := by omega
  rw [execAdvance, decodeChecked_accepted hat hacc _ _ (by simp [isOp, hop])]
  simp only [slotOf_useTurn, hslot, hb, hstays, reduceCtorEq, if_false, checkForme_useTurn]
  refine ⟨fun code hcode => ?_, fun hok => ?_⟩
  · rw [rebased] at hcode; rw [hcode]; rfl
  · rw [rebased] at hok; rw [hok]; rfl

end

/-- Settles O13: the row by the slot's state and, of a VALID slot, by the new base's space and validation. -/
theorem advanceMovesTheBase : Obligations.AdvanceMovesTheBase := by
  unfold Obligations.AdvanceMovesTheBase
  intro s c w hat hacc hop
  have ⟨_, hturn, _⟩ := hat
  obtain ⟨hrun, hwait⟩ := hasTurn_running hturn
  have hfaults {code : Code} {addr : Word} (hrow : execAdvance c s = .next (refuse (useTurn s c) c code addr)) :
      (getCtx s c).regs.fault = 0 → ∃ t, exec (.advance c) s = .next t ∧ Faulted (useTurn s c) t c code .issue (getCtx s c).pc :=
    fun hf => ⟨_, hrow, refuse_faulted (useTurn s c) c code addr hrun hwait hf⟩
  refine ⟨fun hempty => hfaults (execAdvance_empty hat hacc hop hempty),
    fun hstale => hfaults (execAdvance_stale hat hacc hop hstale), fun hvalid b hb =>
    ⟨fun hspace => hfaults (execAdvance_elsewhere hat hacc hop hvalid hb hspace), fun hspace => ?_⟩⟩
  obtain ⟨hinvalid, hmoves⟩ := execAdvance_within hat hacc hop hvalid hb hspace
  refine ⟨fun code hcode => hfaults (hinvalid code hcode), fun hok => ⟨_, hmoves hok, ?_⟩⟩
  have hgo := retire_goesOn (setSlot (useTurn s c) c (dstOf w) { state := .valid, forme := rebased (slotOf s c (dstOf w)).forme b }) c
    (by simpa [setSlot] using hrun) (by simpa [setSlot] using hwait)
  simpa [setSlot, modCtx_eq, rebased] using hgo

end Sys2Proof.Machine
end

section
/-!
SUPPORT. Sectors in memory (R7, R285): the bytes of a sector, what writing one leaves of the others, and tables filled from a list.
-/

namespace Sys2Proof.Machine

/-! The bytes of a sector. -/

theorem toBytes_getElem? {len i : Nat} (v : Nat) (hi : i < len) : (toBytes len v)[i]? = some (BitVec.ofNat 8 (v >>> (8 * i))) := by
  simp [toBytes, hi]

theorem sectorBytes_length (x : Sector) : (sectorBytes x).length = 32 := by simp only [sectorBytes, toBytes, List.length_map, List.length_range]

theorem fromBytes_lt (bs : List Byte) : fromBytes bs < 2 ^ (8 * bs.length) := by
  induction bs with
  | nil => simp [fromBytes]
  | cons b bs ih =>
    have hb : b.toNat < 256 := b.isLt
    rw [fromBytes, List.length_cons, Nat.mul_succ, Nat.pow_add]
    omega

/-- Byte `i` of the value of a list of bytes is byte `i` of the list. -/
theorem fromBytes_byte (bs : List Byte) {i : Nat} (hi : i < bs.length) : BitVec.ofNat 8 (fromBytes bs >>> (8 * i)) = bs[i] := by
  induction bs generalizing i with
  | nil => simp at hi
  | cons b bs ih =>
    have hb : b.toNat < 256 := b.isLt
    cases i with
    | zero => apply BitVec.eq_of_toNat_eq; simp [fromBytes]; omega
    | succ i =>
      have hrest : fromBytes (b :: bs) >>> 8 = fromBytes bs := by rw [fromBytes, Nat.shiftRight_eq_div_pow]; omega
      rw [Nat.mul_succ, Nat.add_comm, Nat.shiftRight_add, hrest, ih (by simpa using hi), List.getElem_cons_succ]

/-- Byte `i` of the sector made of 32 bytes. -/
theorem bytesSector_byte {bs : List Byte} (hlen : bs.length = 32) {i : Nat} (hi : i < 32) :
    BitVec.ofNat 8 ((bytesSector bs).toNat >>> (8 * i)) = bs[i] := by
  have hlt := fromBytes_lt bs
  rw [hlen] at hlt
  rw [bytesSector, BitVec.toNat_ofNat, Nat.mod_eq_of_lt hlt, fromBytes_byte]

/-! Memory. -/

/-- `t` reads the 32 bytes of sector `d` as `s` does. -/
abbrev SameSector (s t : State) (d : Nat) : Prop := ∀ k, k < 32 → memRead t.mem (32 * d + k) = memRead s.mem (32 * d + k)

theorem writeSector_mem (s : State) (d : Nat) (x : Sector) : (writeSector s d x).mem = memPutBytes s.mem (32 * d) (sectorBytes x) := by
  simp only [writeSector]

/-- A sector written reads back. -/
theorem writeSector_holds (s : State) (d : Nat) (x : Sector) : holdsBytes (writeSector s d x) (32 * d) 32 x.toNat := by
  intro i hi
  rw [writeSector_mem, memRead_memPutBytes_inside _ _ _ _ (by rwa [sectorBytes_length]), sectorBytes, toBytes_getElem? _ hi]

/-- A write of a sector leaves every byte outside it. -/
theorem writeSector_outside (s : State) {d b : Nat} (x : Sector) (hb : b / 32 ≠ d) :
    memRead (writeSector s d x).mem b = memRead s.mem b := by
  rw [writeSector_mem, memRead_memPutBytes_outside _ _ _ _ (by rw [sectorBytes_length]; omega)]

theorem SameSector.holds {s t : State} {d v : Nat} (h : SameSector s t d) (hs : holdsBytes s (32 * d) 32 v) : holdsBytes t (32 * d) 32 v :=
  fun i hi => (h i hi).trans (hs i hi)

/-! Tables filled from a list. -/

/-- A table in which a list of keys has taken a list of values, the later ones over the earlier. -/
def fillTab {α : Type} (t : Tab α) (ks : List Nat) (vs : List α) : Tab α := (ks.zip vs).foldl (fun t p => tabSet t p.1 p.2) t

theorem tabFind_fillTab_other {α : Type} (t : Tab α) {ks : List Nat} (vs : List α) {k : Nat} (hk : k ∉ ks) :
    tabFind (fillTab t ks vs) k = tabFind t k := by
  induction ks generalizing t vs with
  | nil => rfl
  | cons j ks ih =>
    obtain ⟨hj, hks⟩ : k ≠ j ∧ k ∉ ks := by simpa using hk
    cases vs with
    | nil => rfl
    | cons v vs => exact (ih (tabSet t j v) vs hks).trans (tabFind_tabSet_other t j k v hj)

/-- Each of several different keys has its value. -/
theorem tabFind_fillTab {α : Type} (t : Tab α) {ks : List Nat} {vs : List α} (hnodup : ks.Nodup) {i k : Nat} {v : α}
    (hk : ks[i]? = some k) (hv : vs[i]? = some v) : tabFind (fillTab t ks vs) k = some v := by
  induction ks generalizing t vs i with
  | nil => simp at hk
  | cons j ks ih =>
    obtain ⟨hj, hks⟩ := List.nodup_cons.mp hnodup
    cases vs with
    | nil => simp at hv
    | cons w vs =>
      cases i with
      | zero =>
        obtain rfl : j = k := by simpa using hk
        obtain rfl : w = v := by simpa using hv
        exact (tabFind_fillTab_other (tabSet t j w) vs hj).trans (tabFind_tabSet_same t j w)
      | succ i => exact ih (tabSet t j w) hks (by simpa using hk) (by simpa using hv)

end Sys2Proof.Machine
end

section
/-!
SUPPORT. What a channel shows of the halt it has latched (R381): the halting cell's channel takes the record, and parking keeps every record.
-/

namespace Sys2Proof.Machine

/-- The code, direction, instruction and address that a channel records of its halt (R381). -/
def haltRecord (c : Chan) : Code × Bool × Option Nat × Word := (c.fault, c.dir, c.haltedInsn, c.faultAddr)

theorem haltRecord_eq {c : Chan} {code : Code} {dir : Bool} {insn : Option Nat} {addr : Word} :
    haltRecord c = (code, dir, insn, addr) ↔ c.fault = code ∧ c.dir = dir ∧ c.haltedInsn = insn ∧ c.faultAddr = addr := by
  simp only [haltRecord, Prod.mk.injEq]

/-- Every channel of `t` has the record it has in `s`. -/
abbrev SameRecords (s t : State) : Prop := ∀ n ch, haltRecord (getChan t n ch) = haltRecord (getChan s n ch)

theorem SameRecords.trans {s t u : State} (h : SameRecords s t) (k : SameRecords t u) : SameRecords s u :=
  fun n ch => (k n ch).trans (h n ch)

theorem getChan_of_cells {s t : State} (h : t.cells = s.cells) (n ch : Nat) : getChan t n ch = getChan s n ch := by
  simp only [getChan, getCell_of_cells h]

theorem SameRecords.of_cells {s t : State} (h : t.cells = s.cells) : SameRecords s t :=
  fun n ch => congrArg haltRecord (getChan_of_cells h n ch)

theorem each_records {α : Type} (xs : List α) (f : State → α → State) (s : State) (h : ∀ s x, SameRecords s (f s x)) :
    SameRecords s (each xs f s) :=
  List.foldlRecOn xs f (fun _ _ => rfl) fun _ ht x _ => ht.trans (h _ x)

theorem getChan_modChan (s : State) (n k ch j : Nat) (f : Chan → Chan) :
    getChan (modChan s n ch f) k j = if k = n ∧ j = ch then f (getChan s n ch) else getChan s k j := by
  simp only [getChan, modChan, getCell_modCell]
  split
  · rename_i hk; subst hk; simp only [tabGet_tabSet, true_and]
  · rename_i hk; simp only [hk, false_and, if_false]

theorem modChan_records (s : State) (n ch : Nat) (f : Chan → Chan) (h : ∀ x, haltRecord (f x) = haltRecord x) :
    SameRecords s (modChan s n ch f) := by
  intro k j
  rw [getChan_modChan]
  split
  · rename_i hkj; obtain ⟨rfl, rfl⟩ := hkj; exact h _
  · rfl

/-- A cell with every listed channel changed. -/
def onChans (f : Chan → Chan) (x : Cell) : Cell := { x with chans := x.chans.map fun q => (q.1, f q.2) }

theorem mapChans_records (s : State) (f : Chan → Chan) (h : ∀ x, haltRecord (f x) = haltRecord x) :
    SameRecords s { s with cells := s.cells.map fun e => (e.1, onChans f e.2) } := fun n ch =>
  tabGet_map (R := fun x y : Cell => haltRecord (tabGet (chanReset ch) y.chans ch) = haltRecord (tabGet (chanReset ch) x.chans ch))
    (fun e => (e.1, onChans f e.2)) (fun _ => rfl) rfl
    (fun e => tabGet_map (R := fun x y : Chan => haltRecord y = haltRecord x) (fun q => (q.1, f q.2)) (fun _ => rfl) rfl (fun q => h q.2)
      e.2.chans ch) s.cells n

theorem showHalt_record (f : Flight) (p : Nat) (c : Chan) : haltRecord (showHalt f p c) = haltRecord c := by
  unfold showHalt; split <;> rfl

theorem settleChannel_records (s : State) (cell ch : Nat) : SameRecords s (settleChannel s cell ch) := by
  unfold settleChannel
  split
  · exact modChan_records _ _ _ _ fun _ => rfl
  · exact fun _ _ => rfl

/-- Parking shows the progress point at the channels that the halt holds, whose records stay (R381). -/
theorem parkFlight_records (s : State) (f : Flight) : SameRecords s (parkFlight s f) := by
  unfold parkFlight; dsimp only
  refine .trans ?_ (.trans (each_records _ _ _ fun s n => settleChannel_records s n _) (.of_cells (settlePause_cells _ _)))
  split
  · refine .trans (.of_cells ?_) (mapChans_records _ _ (showHalt_record f _))
    rw [modFlight_cells]; dsimp only; split <;> simp
  · refine .of_cells ?_
    rw [modFlight_cells]; dsimp only; split <;> simp

theorem parkIfReady_records (s : State) (insn : Nat) : SameRecords s (parkIfReady s insn) := by
  unfold parkIfReady
  split
  · split
    · exact parkFlight_records s _
    · exact fun _ _ => rfl
  · exact fun _ _ => rfl

/-- The halting cell's channel records the halt; the flits and the fault at home touch no channel (R381). -/
theorem latchHalt_record (s : State) (f : Flight) (cell : Nat) (code : Code) (isWrite : Bool) (addr : Word) :
    haltRecord (getChan (latchHalt s f cell code isWrite addr) cell (chOf f.job.word)) = (code, isWrite, some f.id, addr) := by
  have hcells : (latchHalt s f cell code isWrite addr).cells = (modChan s cell (chOf f.job.word) fun c => { c with
      fault := code, dir := isWrite, ctx := f.job.ctx, faultAddr := addr, faultPc := f.job.pc, haltedInsn := some f.id }).cells := by
    unfold latchHalt; dsimp only; (repeat' split) <;> simp
  rw [getChan_of_cells hcells, getChan_modChan, if_pos ⟨rfl, rfl⟩]
  rfl

/-- An error on an access of an instruction that is not stopped halts a channel that is free for it (R381). -/
theorem haltFlight_record {s : State} {f : Flight} {cell : Nat} (hstop : f.stop = none)
    (hfree : (getChan s cell (chOf f.job.word)).haltedInsn = none) (code : Code) (isWrite : Bool) (addr : Word) (n : Nat) :
    haltRecord (getChan (haltFlight s f cell code isWrite addr n) cell (chOf f.job.word)) = (code, isWrite, some f.id, addr) := by
  unfold haltFlight; dsimp only
  rw [show stopAt f = none by simp [stopAt, hstop]]
  dsimp only
  rw [parkIfReady_records, if_neg (by simp [hfree])]
  exact latchHalt_record _ f cell code isWrite addr

end Sys2Proof.Machine
end

section
/-!
What the attachment peers' answers do: read data and read errors, write data and write errors (R80, R284, R285, R381, R417, R418).
-/

namespace Sys2Proof.Machine

/-! What an answered access leaves: its entry and an injected error are gone (R434). -/

/-- The state in which an access has been answered. -/
abbrev afterAnswer (s : State) (cell tag : Nat) : State := useInjected (dropAccess s tag) cell

theorem useInjected_rest (s : State) (cell : Nat) : useInjected s cell = { s with cells := (useInjected s cell).cells } := by
  unfold useInjected; split <;> rfl

@[simp] theorem useInjected_flights (s : State) (cell : Nat) : (useInjected s cell).flights = s.flights := by rw [useInjected_rest]
@[simp] theorem useInjected_orders (s : State) (cell : Nat) : (useInjected s cell).orders = s.orders := by rw [useInjected_rest]
@[simp] theorem useInjected_accesses (s : State) (cell : Nat) : (useInjected s cell).accesses = s.accesses := by rw [useInjected_rest]
@[simp] theorem useInjected_ctxs (s : State) (cell : Nat) : (useInjected s cell).ctxs = s.ctxs := by rw [useInjected_rest]
@[simp] theorem useInjected_west (s : State) (cell : Nat) : (useInjected s cell).west = s.west := by rw [useInjected_rest]

theorem useInjected_part {β : Type} (part : Cell → β) (h : ∀ x : Cell, part { x with injected := none } = part x) (s : State) (cell n : Nat) :
    part (getCell (useInjected s cell) n) = part (getCell s n) := by
  unfold useInjected
  split
  · exact getCell_modCell_part part s cell _ h n
  · rfl

@[simp] theorem getChan_afterAnswer (s : State) (cell tag n ch : Nat) : getChan (afterAnswer s cell tag) n ch = getChan s n ch :=
  congrArg (tabGet (chanReset ch) · ch) (useInjected_part Cell.chans (fun _ => rfl) (dropAccess s tag) cell n)

@[simp] theorem cellOn_afterAnswer (s : State) (cell tag n : Nat) : cellOn (afterAnswer s cell tag) n = cellOn s n := by
  have hstate : (getCell (afterAnswer s cell tag) n).state = (getCell s n).state :=
    useInjected_part Cell.state (fun _ => rfl) (dropAccess s tag) cell n
  simp only [cellOn, eastLost, hstate, useInjected_west]
  rfl

@[simp] theorem getFlight_afterAnswer (s : State) (cell tag insn : Nat) : getFlight (afterAnswer s cell tag) insn = getFlight s insn := by
  simp only [getFlight, useInjected_flights]; rfl
@[simp] theorem getOrder_afterAnswer (s : State) (cell tag insn n : Nat) : getOrder (afterAnswer s cell tag) insn n = getOrder s insn n := by
  simp only [getOrder, useInjected_orders]; rfl
@[simp] theorem writerOf_afterAnswer (s : State) (cell tag insn n : Nat) : writerOf (afterAnswer s cell tag) insn n = writerOf s insn n := by
  simp only [writerOf, useInjected_orders]; rfl

theorem afterAnswer_kept (s : State) (cell tag : Nat) : Kept s (afterAnswer s cell tag) :=
  (dropAccess_kept s tag).trans (useInjected_kept _ cell)

/-! Looking up instructions, orders and accesses. -/

theorem getFlight_id {s : State} {insn : Nat} {f : Flight} (h : getFlight s insn = some f) : f.id = insn := by
  simpa using List.find?_some h

/-- A change of an instruction's order at a cell is what is read back there. -/
theorem getOrder_modOrder {s : State} {insn cell : Nat} {o : Order} {f : Order → Order} (h : getOrder s insn cell = some o)
    (hf : ∀ o, (f o).insn = o.insn ∧ (f o).cell = o.cell) : getOrder (modOrder s insn cell f) insn cell = some (f o) := by
  have hhere : o.insn = insn ∧ o.cell = cell := by simpa using List.find?_some h
  have hsame : ((fun o : Order => o.insn == insn && o.cell == cell) ∘ fun o => if o.insn = insn ∧ o.cell = cell then f o else o) =
      fun o => o.insn == insn && o.cell == cell := by
    funext o
    simp only [Function.comp]
    split
    · rw [(hf o).1, (hf o).2]
    · rfl
  rw [getOrder] at h
  rw [getOrder, modOrder, List.find?_map, hsame, h, Option.map_some, if_pos hhere]

/-- The access that a response is for. -/
theorem access_of_find {s : State} {p : Access → Bool} {cell tag : Nat} {a : Access}
    (h : s.accesses.find? (fun a => a.tag == tag && a.cell == cell && p a) = some a) : a.tag = tag ∧ a.cell = cell := by
  have := List.find?_some h
  simp only [Bool.and_eq_true, beq_iff_eq] at this
  exact this.1

/-! Reads (R381, R417, R418). -/

theorem countGalley_rest (s : State) (cell : Nat) (j : Job) (n : Nat) :
    countGalley s cell j n = { s with cells := (countGalley s cell j n).cells } := by
  unfold countGalley work countCell; split <;> rfl

theorem getOrder_countGalley (s : State) (cell n insn k : Nat) (j : Job) :
    getOrder (countGalley s cell j n) insn k = getOrder s insn k := by rw [countGalley_rest]; rfl
theorem countGalley_accesses (s : State) (cell n : Nat) (j : Job) : (countGalley s cell j n).accesses = s.accesses := by rw [countGalley_rest]
theorem countGalley_ctxs (s : State) (cell n : Nat) (j : Job) : (countGalley s cell j n).ctxs = s.ctxs := by rw [countGalley_rest]

/-- Plain source data fill the sectors of the read's keys. -/
theorem takeRead_source {s : State} {a : Access} {insn : Nat} {keys : List Nat} {f : Flight} (hkind : a.kind = .source insn keys)
    (hf : getFlight s insn = some f) (hplain : (srcF f 0).sealed = false) (data : List Sector) :
    takeRead s a data =
      modOrder (countGalley s a.cell f.job 1) insn a.cell fun o => { o with sectors := fillTab o.sectors keys data } := by
  simp only [takeRead, hkind, hf, hplain, Bool.false_eq_true, if_false]
  rfl

theorem sectorsOf_getElem? {n i : Nat} (data : List Byte) (hi : i < n) :
    (sectorsOf n data)[i]? = some (bytesSector ((data.drop (32 * i)).take 32)) := by
  simp [sectorsOf, hi]

section
variable {s : State} {cell tag : Nat} {a : Access}
  (hfind : s.accesses.find? (fun a => a.tag == tag && a.cell == cell && !a.isWrite) = some a) (hturn : inOrder s a = true)
include hfind hturn

theorem execReadResponse_ok {data : List Byte} (hok : statusAt s cell tag .ok = none) (hlen : data.length = 32 * a.sectors.length) :
    execReadResponse cell tag .ok data s = .next (takeRead (afterAnswer s cell tag) a (sectorsOf a.sectors.length data)) := by
  simp [execReadResponse, hfind, need, statusFits, hlen, hturn, hok]

theorem execReadResponse_error {st : AttStatus} {code : Code} (data : List Byte) (hst : st ≠ .ok) (htime : st ≠ .timeout)
    (hcode : statusAt s cell tag st = some code) :
    execReadResponse cell tag st data s = .next (failRead (afterAnswer s cell tag) a code) := by
  simp [execReadResponse, hfind, need, statusFits, hst, htime, hturn, hcode]

end

/-- A failed read of source data halts the channel of its order (R381). -/
theorem failRead_source {s : State} {a : Access} {insn : Nat} {keys : List Nat} {f : Flight} {o : Order} (hkind : a.kind = .source insn keys)
    (hf : getFlight s insn = some f) (ho : getOrder s insn a.cell = some o) (hhere : f.origin = none) (hdrop : f.dropped = false) (code : Code) :
    failRead s a code =
      haltFlight (modOrder s insn a.cell fun o => { o with readAgain := some { kind := a.kind, sectors := a.sectors } }) f a.cell code false
        (BitVec.ofNat 64 (32 * a.sectors.headD 0)) (readPoint f o a.kind) := by
  have hid := getFlight_id hf
  subst hid
  simp [failRead, hkind, accessInsn, hf, ho, hhere, hdrop]

section
variable {s : State} {cell tag insn : Nat} {keys : List Nat} {a : Access} {f : Flight} {o : Order} {data : List Byte}
  (hfind : s.accesses.find? (fun a => a.tag == tag && a.cell == cell && !a.isWrite) = some a) (hkind : a.kind = .source insn keys)
  (hturn : inOrder s a = true) (hf : getFlight s insn = some f) (ho : getOrder s insn cell = some o)
include hfind hkind hturn hf ho

/-- Read data fill the sectors that were asked for; the access is over, and contexts and memory stay (R417). -/
theorem readResponse_fills (hok : statusAt s cell tag .ok = none) (hplain : (srcF f 0).sealed = false)
    (hlen : data.length = 32 * a.sectors.length) (hkeys : keys.length = a.sectors.length) (hnodup : keys.Nodup) :
    ∃ t o', exec (.readResponse cell tag .ok data) s = .next t ∧ getOrder t insn cell = some o' ∧ o' = { o with sectors := o'.sectors } ∧
      (∀ i k, keys[i]? = some k → tabFind o'.sectors k = some (bytesSector ((data.drop (32 * i)).take 32))) ∧
      t.accesses = s.accesses.filter (fun x => x.tag != tag) ∧ t.ctxs = s.ctxs ∧ sameMemory s t := by
  obtain ⟨-, hcell⟩ := access_of_find hfind
  have hread := takeRead_source (s := afterAnswer s cell tag) hkind (by rwa [getFlight_afterAnswer]) hplain (sectorsOf a.sectors.length data)
  rw [hcell] at hread
  refine ⟨_, { o with sectors := fillTab o.sectors keys (sectorsOf a.sectors.length data) },
    execReadResponse_ok hfind hturn hok hlen, ?_, rfl, fun i k hk => ?_, ?_, ?_, ((afterAnswer_kept s cell tag).trans (takeRead_kept _ a _)).sameMemory⟩
  · rw [hread]
    exact getOrder_modOrder (by rw [getOrder_countGalley, getOrder_afterAnswer, ho]) fun _ => ⟨rfl, rfl⟩
  · have hi : i < a.sectors.length := hkeys ▸ (List.getElem?_eq_some_iff.mp hk).1
    exact tabFind_fillTab o.sectors hnodup hk (sectorsOf_getElem? data hi)
  · rw [hread, modOrder_accesses, countGalley_accesses, useInjected_accesses]; rfl
  · rw [hread, modOrder_ctxs, countGalley_ctxs, useInjected_ctxs]; rfl

/-- A failed read halts its channel, which records the code, the direction and the first sector (R381; log 8). -/
theorem readResponse_halts {st : AttStatus} {code : Code} (hst : st ≠ .ok) (htime : st ≠ .timeout) (hcode : statusAt s cell tag st = some code)
    (hhere : f.origin = none) (hdrop : f.dropped = false) (hstop : f.stop = none)
    (hfree : (getChan s cell (chOf f.job.word)).haltedInsn = none) :
    ∃ t, exec (.readResponse cell tag st data) s = .next t ∧
      haltRecord (getChan t cell (chOf f.job.word)) = (code, false, some insn, BitVec.ofNat 64 (32 * a.sectors.headD 0)) ∧ sameMemory s t := by
  obtain ⟨-, hcell⟩ := access_of_find hfind
  refine ⟨_, execReadResponse_error hfind hturn data hst htime hcode, ?_, ((afterAnswer_kept s cell tag).trans (failRead_kept _ a code)).sameMemory⟩
  rw [failRead_source hkind (by rwa [getFlight_afterAnswer]) (by rwa [getOrder_afterAnswer, hcell]) hhere hdrop, hcell,
    haltFlight_record hstop (by rwa [getChan_of_cells (modOrder_cells ..), getChan_afterAnswer]), getFlight_id hf]

end

/-! Writes (R80, R284, R285). -/

/-- A sector shared by two units of an order holds what the one or the other wrote (R80). -/
theorem sharedSector_cases (s : State) (f : Flight) (o : Order) (d : Nat) (unit : Option Nat) (old new : Sector) :
    sharedSector s f o d unit old new = new ∨ sharedSector s f o d unit old new = old := by
  unfold sharedSector
  (repeat' split) <;> simp

/-- A byte that something has written stays in the sector that a write of a sharing unit finds. -/
theorem heldSector_byte (s : State) (d : Nat) (new : Sector) {k : Nat} (hk : k < 32) (hthere : memRead s.mem (32 * d + k) ≠ none) :
    some (BitVec.ofNat 8 ((heldSector s d new).toNat >>> (8 * k))) = memRead s.mem (32 * d + k) := by
  rw [heldSector, bytesSector_byte (by simp) hk, List.getElem_map, List.getElem_range]
  obtain ⟨b, hb⟩ := Option.ne_none_iff_exists'.mp hthere
  rw [hb, Option.getD_some]

/-- What the write of a sector, of data and of the unit that made it has left in `t`, where memory was as in `s`: the data, or,
where a unit may share the sector, what was there (R80, R285). -/
def Landed (s t : State) (p : Nat × Sector × Option Nat) : Prop :=
  (p.2.2 = none → holdsBytes t (32 * p.1) 32 p.2.1.toNat) ∧
  (holdsBytes t (32 * p.1) 32 p.2.1.toNat ∨
    ∀ k, k < 32 → memRead s.mem (32 * p.1 + k) ≠ none → memRead t.mem (32 * p.1 + k) = memRead s.mem (32 * p.1 + k))

theorem Landed.after {s t u : State} {p : Nat × Sector × Option Nat} (h : Landed s t p) (hsame : SameSector t u p.1) : Landed s u p :=
  ⟨fun hp => hsame.holds (h.1 hp), h.2.imp hsame.holds fun hold k hk hthere => (hsame k hk).trans (hold k hk hthere)⟩

theorem Landed.before {s t u : State} {p : Nat × Sector × Option Nat} (h : Landed t u p) (hsame : SameSector s t p.1) : Landed s u p :=
  ⟨h.1, h.2.imp_right fun hold k hk hthere => (hold k hk (by rwa [hsame k hk])).trans (hsame k hk)⟩

/-- One sector of a write changes memory as a write of its data does, or of what the sector holds already. -/
theorem landSector_mem (a : Access) (s : State) (p : Nat × Sector × Option Nat) :
    ∃ x, (landSector a s p).mem = (writeSector s p.1 x).mem ∧ (x = p.2.1 ∨ p.2.2 ≠ none ∧ x = heldSector s p.1 p.2.1) := by
  unfold landSector
  dsimp only
  split
  · rename_i u f o hu hf ho
    refine ⟨sharedSector s f o p.1 (some u) (heldSector s p.1 p.2.1) p.2.1, ?_, ?_⟩
    · simp only [modOrder_mem, writeSector_mem]
    · exact (sharedSector_cases s f o p.1 (some u) _ _).imp_right fun h => ⟨by simp [hu], h⟩
  · exact ⟨p.2.1, rfl, .inl rfl⟩

theorem landSector_landed (a : Access) (s : State) (p : Nat × Sector × Option Nat) : Landed s (landSector a s p) p := by
  obtain ⟨x, hmem, hx⟩ := landSector_mem a s p
  have hholds : holdsBytes (landSector a s p) (32 * p.1) 32 x.toNat := by
    intro k hk
    rw [hmem]
    exact writeSector_holds s p.1 x k hk
  rcases hx with rfl | ⟨hunit, rfl⟩
  · exact ⟨fun _ => hholds, .inl hholds⟩
  · exact ⟨fun hp => absurd hp hunit, .inr fun k hk hthere => (hholds k hk).trans (heldSector_byte s p.1 p.2.1 hk hthere)⟩

theorem landSector_outside (a : Access) (s : State) (p : Nat × Sector × Option Nat) {b : Nat} (hb : b / 32 ≠ p.1) :
    memRead (landSector a s p).mem b = memRead s.mem b := by
  obtain ⟨x, hmem, -⟩ := landSector_mem a s p
  rw [hmem, writeSector_outside s x hb]

theorem each_landSector_outside (a : Access) (ps : List (Nat × Sector × Option Nat)) (s : State) {b : Nat}
    (hb : b / 32 ∉ ps.map Prod.fst) : memRead (each ps (landSector a) s).mem b = memRead s.mem b := by
  induction ps generalizing s with
  | nil => rfl
  | cons p ps ih =>
    obtain ⟨hp, hps⟩ : b / 32 ≠ p.1 ∧ b / 32 ∉ ps.map Prod.fst := by simpa only [List.map_cons, List.mem_cons, not_or] using hb
    exact (ih (landSector a s p) hps).trans (landSector_outside a s p hp)

/-- Of several different sectors, each has landed when all have had their turn. -/
theorem each_landSector_landed (a : Access) {ps : List (Nat × Sector × Option Nat)} (s : State) (hnodup : (ps.map Prod.fst).Nodup)
    {p : Nat × Sector × Option Nat} (hp : p ∈ ps) : Landed s (each ps (landSector a) s) p := by
  induction ps generalizing s with
  | nil => simp at hp
  | cons q ps ih =>
    obtain ⟨hq, hps⟩ := List.nodup_cons.mp hnodup
    have hin (d : Nat) {k : Nat} (hk : k < 32) : (32 * d + k) / 32 = d := by omega
    rcases List.mem_cons.mp hp with rfl | hp
    · exact (landSector_landed a s p).after fun k hk => each_landSector_outside a ps (landSector a s p) (by rwa [hin _ hk])
    · have hne : p.1 ≠ q.1 := fun h => hq (h ▸ List.mem_map_of_mem hp)
      exact (ih (landSector a s q) hps hp).before fun k hk => landSector_outside a s q (by rwa [hin _ hk])

/-- The sectors of a write with their data and the units that made them. -/
def landings (a : Access) : List (Nat × Sector × Option Nat) :=
  a.sectors.zip (a.data.zip (a.units ++ List.replicate a.sectors.length none))

theorem landWrite_mem (s : State) (a : Access) : (landWrite s a).mem = (each (landings a) (landSector a) s).mem := by
  unfold landWrite; dsimp only; split <;> rfl

theorem landings_sectors {a : Access} (hlen : a.data.length = a.sectors.length) : (landings a).map Prod.fst = a.sectors :=
  List.map_fst_zip (by simp [hlen])

theorem mem_landings {a : Access} {i d : Nat} {x : Sector} (hd : a.sectors[i]? = some d) (hx : a.data[i]? = some x) :
    (d, x, a.units[i]?.getD none) ∈ landings a := by
  have hi : i < a.sectors.length := (List.getElem?_eq_some_iff.mp hd).1
  refine List.mem_of_getElem? (i := i) ?_
  have hunit : (a.units ++ List.replicate a.sectors.length none)[i]? = some (a.units[i]?.getD none) := by
    rw [List.getElem?_append]
    split
    · rename_i h; simp [h]
    · rename_i h
      rw [List.getElem?_replicate, if_pos (by omega), List.getElem?_eq_none (Nat.le_of_not_lt h), Option.getD_none]
  simp [landings, List.getElem?_zip_eq_some, hd, hx, hunit]

theorem landings_subset {a : Access} {d : Nat} (hd : d ∈ (landings a).map Prod.fst) : d ∈ a.sectors := by
  obtain ⟨p, hp, rfl⟩ := List.mem_map.mp hd
  exact (List.of_mem_zip hp).1

section
variable {s : State} {cell tag : Nat} {a : Access} {st : AttStatus}
  (hfind : s.accesses.find? (fun a => a.tag == tag && a.cell == cell && a.isWrite) = some a) (hturn : inOrder s a = true) (htime : st ≠ .timeout)
include hfind hturn htime

theorem execWriteResponse_ok (hok : statusAt s cell tag st = none) :
    execWriteResponse cell tag st s = .next (finishWrite (landWrite (afterAnswer s cell tag) a) ((accessInsn a.kind).getD 0) tag) := by
  simp [execWriteResponse, hfind, need, needSome, statusFits, htime, hturn, hok]

theorem execWriteResponse_error {code : Code} (hcode : statusAt s cell tag st = some code) :
    execWriteResponse cell tag st s = .next (failWrite (afterAnswer s cell tag) a code) := by
  simp [execWriteResponse, hfind, need, needSome, statusFits, htime, hturn, hcode]

end

/-- A failed write of an order of this chip halts the order's channel, also where the order has completed if the channel is still
ON (R381; log 53). -/
theorem failWrite_put {s : State} {a : Access} {insn : Nat} {f : Flight} {o : Order} (hkind : a.kind = .put insn)
    (hf : getFlight s insn = some f) (hw : writerOf s insn a.tag = some o) (hhere : f.origin = none)
    (hlast : o.finished = true → (getChan s o.cell o.ch).state = .on ∧ cellOn s o.cell = true) (code : Code) :
    ∃ g n, failWrite s a code =
      haltFlight (modOrder s insn o.cell g) f o.cell code true (BitVec.ofNat 64 (32 * a.sectors.headD 0)) n := by
  have hopen : (!o.finished || (decide ((getChan s o.cell o.ch).state = .on) && cellOn s o.cell)) = true := by
    cases hfin : o.finished with
    | false => rfl
    | true => simp [hlast hfin]
  simp only [failWrite, hkind, accessInsn, hf, hw, hhere, hopen, if_true]
  exact ⟨_, _, rfl⟩

/-- A performed write has landed each of its sectors (R80, R284, R285). -/
theorem finishWrite_landed (s : State) (cell insn tag : Nat) {a : Access} (hnodup : a.sectors.Nodup) (hlen : a.data.length = a.sectors.length)
    {i d : Nat} {x : Sector} (hd : a.sectors[i]? = some d) (hx : a.data[i]? = some x) :
    Landed s (finishWrite (landWrite (afterAnswer s cell tag) a) insn tag) (d, x, a.units[i]?.getD none) := by
  have hland := each_landSector_landed a (afterAnswer s cell tag) (by rwa [landings_sectors hlen]) (mem_landings hd hx)
  have hdone := (finishWrite_kept (landWrite (afterAnswer s cell tag) a) insn tag).sameMemory
  refine (hland.after fun k _ => ?_).before fun k _ => (afterAnswer_kept s cell tag).sameMemory _
  rw [hdone, landWrite_mem]

/-- A performed write changes no byte outside its sectors (R284). -/
theorem finishWrite_outside (s : State) (cell insn tag : Nat) {a : Access} {b : Nat} (hb : b / 32 ∉ a.sectors) :
    memRead (finishWrite (landWrite (afterAnswer s cell tag) a) insn tag).mem b = memRead s.mem b := by
  rw [(finishWrite_kept (landWrite (afterAnswer s cell tag) a) insn tag).sameMemory, landWrite_mem,
    each_landSector_outside a (landings a) _ fun h => hb (landings_subset h), (afterAnswer_kept s cell tag).sameMemory]

/-- A failed write halts its order's channel, which records the code, the direction and the first sector (R381; log 8). -/
theorem failWrite_halts {s : State} {cell tag insn : Nat} {a : Access} {f : Flight} {o : Order} (htag : a.tag = tag)
    (hkind : a.kind = .put insn) (hf : getFlight s insn = some f) (hw : writerOf s insn tag = some o) (hhere : f.origin = none)
    (hstop : f.stop = none) (hch : o.ch = chOf f.job.word) (hfree : (getChan s o.cell o.ch).haltedInsn = none)
    (hlast : o.finished = true → (getChan s o.cell o.ch).state = .on ∧ cellOn s o.cell = true) (code : Code) :
    haltRecord (getChan (failWrite (afterAnswer s cell tag) a code) o.cell o.ch) =
      (code, true, some insn, BitVec.ofNat 64 (32 * a.sectors.headD 0)) := by
  obtain ⟨g, n, hfail⟩ := failWrite_put (s := afterAnswer s cell tag) hkind (by rwa [getFlight_afterAnswer]) (by rwa [writerOf_afterAnswer, htag]) hhere
    (by rwa [getChan_afterAnswer, cellOn_afterAnswer]) code
  rw [hch] at hfree ⊢
  rw [hfail, haltFlight_record hstop (by rwa [getChan_of_cells (modOrder_cells ..), getChan_afterAnswer]), getFlight_id hf]

/-- Settles O52: a read and a write each by the peer's answer. -/
theorem attachmentResponses : Obligations.AttachmentResponses := by
  unfold Obligations.AttachmentResponses
  refine ⟨fun s cell tag insn keys a f o data hfind hkind hturn hf ho _ =>
      ⟨readResponse_fills hfind hkind hturn hf ho, fun st code hst htime hcode hhere hdrop hstop hfree => ?_⟩,
    fun s cell tag a st hfind hturn htime => ?_⟩
  · obtain ⟨t, hrow, hrecord, hmem⟩ := readResponse_halts hfind hkind hturn hf ho hst htime hcode hhere hdrop hstop hfree
    obtain ⟨hfault, hdir, hinsn, haddr⟩ := haltRecord_eq.mp hrecord
    exact ⟨t, hrow, hfault, hdir, hinsn, haddr, hmem⟩
  obtain ⟨htag, -⟩ := access_of_find hfind
  cases hanswer : statusAt s cell tag st with
  | none =>
    exact ⟨_, execWriteResponse_ok hfind hturn htime hanswer,
      fun _ hnodup hlen => ⟨fun i d x => finishWrite_landed s cell _ tag hnodup hlen, fun b => finishWrite_outside s cell _ tag⟩,
      fun h => absurd rfl h, fun _ _ _ _ _ h => (nomatch h)⟩
  | some e =>
    refine ⟨_, execWriteResponse_error hfind hturn htime hanswer, fun h => (nomatch h),
      fun _ => ((afterAnswer_kept s cell tag).trans (failWrite_kept _ a e)).sameMemory,
      fun insn code f o hkind hcode hf hw hhere hstop hch hfree hlast => ?_⟩
    obtain rfl : e = code := Option.some.inj hcode
    exact haltRecord_eq.mp (failWrite_halts htag hkind hf hw hhere hstop hch hfree hlast e)

end Sys2Proof.Machine
end

section
/-!
SUPPORT. The tags of the accesses under way: no shared operation that faults, ends, halts or parks an instruction makes an access or gives
one another tag.
-/

namespace Sys2Proof.Machine

@[simp] theorem each_accesses {α : Type} (xs : List α) (f : State → α → State) (s : State) (h : ∀ s x, (f s x).accesses = s.accesses) :
    (each xs f s).accesses = s.accesses :=
  List.foldlRecOn (motive := fun t : State => t.accesses = s.accesses) xs f rfl fun t ht x _ => (h t x).trans ht
@[simp] theorem each_send_accesses {α : Type} (xs : List α) (vc src dst : State → α → Nat) (b : State → α → Body) (s : State) :
    (each xs (fun s x => send s (vc s x) (src s x) (dst s x) (b s x)) s).accesses = s.accesses := each_accesses _ _ _ fun _ _ => rfl
@[simp] theorem each_emit_accesses {α : Type} (xs : List α) (o : State → α → Out) (s : State) :
    (each xs (fun s x => emit s (o s x)) s).accesses = s.accesses := each_accesses _ _ _ fun _ _ => rfl

/-! Machine/Ops.lean and Machine/Items.lean. -/

@[simp] theorem countHalf_accesses (s : State) (east : Bool) (event units : Nat) (ctx dom : Option Nat) :
    (countHalf s east event units ctx dom).accesses = s.accesses := by rw [countHalf_rest]
@[simp] theorem logEvent_accesses (s : State) (d : Bool) (e : LogEntry) : (logEvent s d e).accesses = s.accesses := by
  rw [logEvent, logTo_rest]
@[simp] theorem returnCredit_accesses (s : State) (pool : Option Nat) : (returnCredit s pool).accesses = s.accesses := by
  cases pool <;> simp [returnCredit]
@[simp] theorem sendOpen_accesses (s : State) (chip : Nat) : (sendOpen s chip).accesses = s.accesses := rfl
@[simp] theorem queueItem_accesses (s : State) (chip dom ctx : Nat) (epoch : BitVec 32) (p : Payload) (insn : Option Nat) :
    (queueItem s chip dom ctx epoch p insn).accesses = s.accesses := by
  unfold queueItem queueHeld; dsimp only; (repeat' split) <;> simp [freeHeld]
@[simp] theorem queueReport_accesses (s : State) (chip dom ctx : Nat) (epoch : BitVec 32) (p : Payload) :
    (queueReport s chip dom ctx epoch p).accesses = s.accesses := by
  unfold queueReport; split <;> simp

/-! Machine/Rounds.lean and Machine/Program.lean. -/

@[simp] theorem modParty_accesses (s : State) (n : Nat) (p : Party) (f : Participant → Participant) :
    (modParty s n p f).accesses = s.accesses := rfl
@[simp] theorem pealOut_accesses (s : State) (link n : Nat) (odd : Bool) (k : PealFlit) : (pealOut s link n odd k).accesses = s.accesses := rfl
@[simp] theorem tellCore_accesses (n : Nat) (s : State) (p : Participant) : (tellCore n s p).accesses = s.accesses := by
  unfold tellCore; split <;> rfl
@[simp] theorem passArrive_accesses (s : State) (c : Nat) : (passArrive s c).accesses = s.accesses := rfl
@[simp] theorem passWithdrawn_accesses (n : Nat) (r : BitVec 32) (s : State) (p : Participant) :
    (passWithdrawn n r s p).accesses = s.accesses := by
  unfold passWithdrawn; dsimp only; (repeat' split) <;> rfl
@[simp] theorem tellLeft_accesses (s : State) (n : Nat) (r : BitVec 32) : (tellLeft s n r).accesses = s.accesses := by
  unfold tellLeft; dsimp only; split <;> rfl
@[simp] theorem releaseRound_accesses (s : State) (n : Nat) : (releaseRound s n).accesses = s.accesses := by
  simp [releaseRound, pealOut]
@[simp] theorem settleOnce_accesses (s : State) (n : Nat) : (settleOnce s n).accesses = s.accesses := by
  unfold settleOnce; dsimp only; (repeat' split) <;> simp
@[simp] theorem settleRound_accesses (s : State) (n : Nat) : (settleRound s n).accesses = s.accesses := by simp [settleRound]
@[simp] theorem settleHeld_accesses (s : State) (n : Nat) : (settleHeld s n).accesses = s.accesses := by
  refine each_accesses _ _ s fun s p => ?_
  split <;> simp
@[simp] theorem leaveRound_accesses (s : State) (n : Nat) (party : Party) (r : BitVec 32) : (leaveRound s n party r).accesses = s.accesses := by
  simp [leaveRound]
@[simp] theorem withdrawArrive_accesses (s : State) (c : Nat) : (withdrawArrive s c).accesses = s.accesses := by
  unfold withdrawArrive; dsimp only; (repeat' split) <;> simp
@[simp] theorem raise_accesses (s : State) (c : Nat) (r : Raise) : (raise s c r).accesses = s.accesses := by
  unfold raise; dsimp only; (repeat' split) <;> simp [enterPaused]
@[simp] theorem retireWait_accesses (s : State) (c : Nat) : (retireWait s c).accesses = s.accesses := by
  unfold retireWait retire goTo atListEnd; dsimp only; (repeat' split) <;> simp [endWait]
@[simp] theorem wakeDrains_accesses (s : State) : (wakeDrains s).accesses = s.accesses := by
  refine each_accesses _ _ s fun s c => ?_
  unfold wakeDrain; (repeat' split) <;> simp

/-! Machine/Transfers.lean, where accesses stay as they are. -/

@[simp] theorem returnStaged_accesses (s : State) (o : Order) : (returnStaged s o).accesses = s.accesses := by simp [returnStaged]
@[simp] theorem returnCredits_accesses (s : State) (o : Order) : (returnCredits s o).accesses = s.accesses := by simp [returnCredits]
@[simp] theorem forgetLate_accesses (s : State) (insn : Nat) : (forgetLate s insn).accesses = s.accesses := rfl
@[simp] theorem finishImpression_accesses (s : State) (f : Flight) (ended : Bool) : (finishImpression s f ended).accesses = s.accesses := by
  unfold finishImpression; dsimp only; split <;> rfl
@[simp] theorem clearHalts_accesses (s : State) (insn : Nat) : (clearHalts s insn).accesses = s.accesses := rfl
@[simp] theorem latchHalt_accesses (s : State) (f : Flight) (cell : Nat) (code : Code) (isWrite : Bool) (addr : Word) :
    (latchHalt s f cell code isWrite addr).accesses = s.accesses := by
  unfold latchHalt; dsimp only; (repeat' split) <;> simp
@[simp] theorem tellOver_accesses (s : State) (f : Flight) : (tellOver s f).accesses = s.accesses := by
  unfold tellOver; dsimp only
  split
  · rfl
  · refine each_accesses _ _ s fun s k => ?_
    split <;> simp
@[simp] theorem stopFlight_accesses (s : State) (f : Flight) (reason : ParkReason) (n : Nat) :
    (stopFlight s f reason n).accesses = s.accesses := rfl
@[simp] theorem settleChannel_accesses (s : State) (cell ch : Nat) : (settleChannel s cell ch).accesses = s.accesses := by
  unfold settleChannel; split <;> rfl
@[simp] theorem settlePause_accesses (s : State) (c : Nat) : (settlePause s c).accesses = s.accesses := by
  unfold settlePause; split <;> rfl

/-! Where reads that nobody wants any more become discards (R211), and keep their tags. -/

/-- The accesses of `t` have, one by one, the tags of those of `s`. -/
abbrev SameTags (s t : State) : Prop := t.accesses.map Access.tag = s.accesses.map Access.tag

@[simp] theorem discardReads_tag (insn cell : Nat) (a : Access) : (discardReads insn cell a).tag = a.tag := by
  unfold discardReads; dsimp only; rw [apply_ite Access.tag]; exact ite_self _

theorem map_accesses_tags {as : List Access} {g : Access → Access} (h : ∀ a, (g a).tag = a.tag) : (as.map g).map Access.tag = as.map Access.tag := by
  rw [List.map_map]; exact List.map_congr_left fun a _ => h a

theorem each_tags {α : Type} (xs : List α) (f : State → α → State) (s : State) (h : ∀ s x, SameTags s (f s x)) : SameTags s (each xs f s) :=
  List.foldlRecOn (motive := fun t : State => SameTags s t) xs f rfl fun t ht x _ => (h t x).trans ht

@[simp] theorem removeOrder_tags (s : State) (o : Order) : SameTags s (removeOrder s o) := by
  simp only [SameTags, removeOrder, returnCredits_accesses]
  exact map_accesses_tags (discardReads_tag o.insn o.cell)
@[simp] theorem removeFlight_tags (s : State) (insn : Nat) : SameTags s (removeFlight s insn) := each_tags _ _ s removeOrder_tags
@[simp] theorem sweepOrders_tags (s : State) : SameTags s (sweepOrders s) := each_tags _ _ s removeOrder_tags
@[simp] theorem endFlight_tags (s : State) (f : Flight) (code : Code) (cell : Option Nat) (addr : Word) :
    SameTags s (endFlight s f code cell addr) := by
  unfold endFlight; dsimp only; split <;> simp [SameTags]
@[simp] theorem endWith_tags (s : State) (f : Flight) (code : Code) (cell : Nat) (addr : Word) : SameTags s (endWith s f code cell addr) := by
  simp [SameTags, endWith, afterEnd]
@[simp] theorem failForeign_tags (s : State) (cell : Nat) (f : Flight) (chip k : Nat) (code : Code) :
    SameTags s (failForeign s cell f chip k code) := by simp [SameTags, failForeign]

/-- Parking discards what its cells still read; an order after the other leaves an access its tag (R381). -/
theorem foldl_discardReads_tag (insn : Nat) (os : List Order) (a : Access) :
    (os.foldl (fun a o => discardReads insn o.cell a) a).tag = a.tag :=
  List.foldlRecOn (motive := fun b : Access => b.tag = a.tag) os _ rfl fun b hb o _ => (discardReads_tag insn o.cell b).trans hb

@[simp] theorem parkFlight_tags (s : State) (f : Flight) : SameTags s (parkFlight s f) := by
  unfold parkFlight; dsimp only
  (repeat' split) <;> simp [SameTags, foldl_discardReads_tag]
@[simp] theorem parkIfReady_tags (s : State) (insn : Nat) : SameTags s (parkIfReady s insn) := by
  unfold parkIfReady; (repeat' split) <;> simp [SameTags]
@[simp] theorem haltFlight_tags (s : State) (f : Flight) (cell : Nat) (code : Code) (isWrite : Bool) (addr : Word) (n : Nat) :
    SameTags s (haltFlight s f cell code isWrite addr n) := by
  unfold haltFlight; dsimp only; (repeat' split) <;> simp [SameTags]

/-- A read that ends with an error starts no other (R381, R384). -/
theorem failRead_tags (s : State) (a : Access) (code : Code) : SameTags s (failRead s a code) := by
  unfold failRead; dsimp only; (repeat' split) <;> simp [SameTags]

end Sys2Proof.Machine
end

section
/-!
SUPPORT. What retiring a wait, and waking the DRAINs, leave of the other contexts (R157, R210).
-/

namespace Sys2Proof.Machine

@[simp] theorem getCtx_logEvent (s : State) (d : Bool) (e : LogEntry) (k : Nat) : getCtx (logEvent s d e) k = getCtx s k := by
  rw [logEvent, logTo_rest]; rfl

/-- A context that pauses touches no other, unless it waits in a Peal's ARRIVE that it takes back (R271). -/
theorem enterPaused_getCtx_other {s : State} {c k : Nat} (hk : k ≠ c) (hwait : (getCtx s c).wait ≠ .peal) :
    getCtx (enterPaused s c) k = getCtx s k := by
  have hstays : withdrawArrive s c = s := if_pos hwait
  simp [enterPaused, hstays, hk]

/-- A fault in a context that does not wait in ARRIVE touches no other context (R189). -/
theorem raise_getCtx_other {s : State} {c k : Nat} (hk : k ≠ c) (hwait : (getCtx s c).wait ≠ .peal) (r : Raise) :
    getCtx (raise s c r) k = getCtx s k := by
  have hlatch (u : State) (g : CtxRegs → CtxRegs) : getCtx (modRegs u c g) k = getCtx u k := by simp [modRegs, hk]
  unfold raise; dsimp only
  generalize hu : (if r.code = FRAME_OVERRUN then s else logEvent s false _) = u
  have hlog (j : Nat) : getCtx u j = getCtx s j := by rw [← hu]; split <;> simp
  (repeat' split)
  · exact hlog k
  · rw [enterPaused_getCtx_other hk (by simpa [modRegs, hlog] using hwait), hlatch, hlog]
  · rw [hlatch, hlog]

theorem atListEnd_getCtx_other {s : State} {c k : Nat} (hk : k ≠ c) (hwait : (getCtx s c).wait ≠ .peal) (last : Word) :
    getCtx (atListEnd s c last) k = getCtx s k := by
  unfold atListEnd; dsimp only
  (repeat' split)
  · rfl
  · rw [raise_getCtx_other hk (by simpa using hwait)]; simp [hk]
  all_goals simp [hk]

theorem retireWait_getCtx_other {s : State} {c k : Nat} (hk : k ≠ c) : getCtx (retireWait s c) k = getCtx s k := by
  rw [retireWait, retire, goTo, atListEnd_getCtx_other hk (by simp [endWait])]
  simp [endWait, hk]

/-- Waking the DRAINs leaves a context that is in none (R210). -/
theorem wakeDrains_getCtx {s : State} {k : Nat} (hwait : ∀ all, (getCtx s k).wait ≠ .drain all) : getCtx (wakeDrains s) k = getCtx s k := by
  refine List.foldlRecOn (motive := fun t : State => getCtx t k = getCtx s k) _ wakeDrain rfl fun t ht c _ => ?_
  rw [← ht] at hwait ⊢
  unfold wakeDrain
  split
  · rename_i all hdrain
    split
    · exact retireWait_getCtx_other fun hk => hwait all (hk ▸ hdrain)
    · rfl
  · rfl

end Sys2Proof.Machine
end

section
/-!
What the host port's answers do: flushing reads, host reads whose time is up, completions of superseded tags and the link's state
(R288, R293, R423).
-/

namespace Sys2Proof.Machine

/-! Flushing reads (R288, R293). -/

/-- With no update behind the flushing read, its failure raises the fault of the FENCE alone (R293). -/
theorem faultChimes_idle {s : State} {h : Flush} (hidle : ∀ u ∈ s.chimes, u.flush ≠ some h.id) (code : Code) :
    faultChimes s h code = s := by
  have hmine : s.chimes.filter (fun u => u.flush == some h.id) = [] := by simpa using hidle
  have hrest : s.chimes.filter (fun u => u.flush != some h.id) = s.chimes := by simpa using hidle
  simp only [faultChimes, hmine, hrest]
  rfl

/-- A FENCE of SYSTEM scope that a failed flushing read served faults with its code (R293). -/
theorem faultFence_faulted {s : State} {h : Flush} {all : Bool} {cells : List Nat} (hwait : (getCtx s h.ctx).wait = .fence 3 all cells)
    (hcell : h.cell ∈ cells) (hstate : (getCtx s h.ctx).regs.state = .waiting) (hfault : (getCtx s h.ctx).regs.fault = 0) (code : Code) :
    Faulted s (faultFence s h code) h.ctx code .sync (getCtx s h.ctx).pc := by
  simp only [faultFence, hwait, List.contains_iff_mem.mpr hcell, if_true]
  exact raise_faulted s h.ctx _ rfl (.inr hstate) (by simp [hwait]) (by simp [hwait]) (by simp [hwait]) hfault

/-- The state in which a flushing read is over and nothing else has changed. -/
abbrev withoutFlush (s : State) (h : Flush) : State := { s with flushes := s.flushes.filter fun x => x.id != h.id }

section
variable {s : State} {cell id : Nat} {h : Flush} (hfind : s.flushes.find? (fun h => h.id == id && h.cell == cell) = some h)
  (hup : hostDown s cell id = false)
include hfind hup

theorem execFlushComplete_row {st : AttStatus} (htime : st ≠ .timeout) :
    execFlushComplete cell id st s = .next (endFlush s h (statusCode st)) := by
  simp [execFlushComplete, hfind, hup, need, statusFits, htime]

/-- A flushing read that ends well shows the writes it covers performed and lets go what waited for it (R284, R288; log 72). -/
theorem flushComplete_performs :
    ∃ t, exec (.flushComplete cell id .ok) s = .next t ∧ t.flushes = s.flushes.filter (fun x => x.id != h.id) ∧
      (∀ w, w ∈ t.hostWrites ↔ w ∈ s.hostWrites ∧ ¬(w.cell = h.cell ∧ w.id < h.upto)) ∧ (∀ u ∈ t.chimes, u.flush ≠ some h.id) ∧
      t.ctxs = s.ctxs ∧ sameMemory s t := by
  refine ⟨_, execFlushComplete_row hfind hup (by decide), rfl, fun w => ?_, fun u hu => ?_, rfl, (endFlush_kept s h _).sameMemory⟩
  · simp only [endFlush, statusCode, List.mem_filter, Bool.not_eq_true', ← Bool.not_eq_true, Bool.and_eq_true, beq_iff_eq, decide_eq_true_eq]
  · obtain ⟨v, -, rfl⟩ := List.mem_map.mp hu
    split
    · exact nofun
    · assumption

/-- A failed flushing read leaves the context whose FENCE it served PAUSED at the FENCE, with BUS_ERROR (R293). -/
theorem flushComplete_faults {all : Bool} {cells : List Nat}
    (hwait : (getCtx s h.ctx).wait = .fence 3 all cells) (hcell : h.cell ∈ cells) (hstate : (getCtx s h.ctx).regs.state = .waiting)
    (hfault : (getCtx s h.ctx).regs.fault = 0) (hidle : ∀ u ∈ s.chimes, u.flush ≠ some h.id) :
    ∃ t, exec (.flushComplete cell id .err) s = .next t ∧ (getCtx t h.ctx).regs.fault = BUS_ERROR ∧ stateOf t h.ctx = .paused ∧
      (getCtx t h.ctx).pc = (getCtx s h.ctx).pc ∧ sameMemory s t := by
  refine ⟨_, execFlushComplete_row hfind hup (by decide), ?_⟩
  have hend : endFlush s h (statusCode .err) = wakeDrains (faultFence (withoutFlush s h) h BUS_ERROR) :=
    congrArg (fun u => wakeDrains (faultFence u h BUS_ERROR)) (faultChimes_idle (s := withoutFlush s h) hidle BUS_ERROR)
  obtain ⟨hctx, -, -⟩ := faultFence_faulted (s := withoutFlush s h) hwait hcell hstate hfault BUS_ERROR
  have hkeep : getCtx (endFlush s h (statusCode .err)) h.ctx = getCtx (faultFence (withoutFlush s h) h BUS_ERROR) h.ctx := by
    rw [hend]
    refine wakeDrains_getCtx ?_
    rw [hctx]
    exact nofun
  refine ⟨?_, ?_, ?_, (endFlush_kept s h _).sameMemory⟩
  · rw [hkeep, hctx]
  · rw [stateOf, hkeep, hctx]
  · rw [hkeep, hctx]; rfl

end

/-! Host reads whose time is up, and superseded tags (R423). -/

section
variable {s : State} {cell tag : Nat} {a : Access} (hflush : ∀ h ∈ s.flushes, ¬(h.id = tag ∧ h.cell = cell))
  (hfind : s.accesses.find? (fun a => a.tag == tag && a.cell == cell && !a.isWrite && decide (roleOf cell = .h)) = some a)
  (hdue : elapsedUs s a.issued (getCell s cell).readTimeoutUs = true)
include hflush hfind hdue

theorem execHostReadTimeout_row : execHostReadTimeout cell tag s =
    .next (if a.tries < (getCell s cell).readRetries then retryRead s a else failRead (dropAccess s tag) a HOST_TIMEOUT) := by
  have hnone : s.flushes.find? (fun h => h.id == tag && h.cell == cell) = none := by simpa using hflush
  simp [execHostReadTimeout, hnone, hfind, needSome, need, hdue]

/-- A host read whose time is up goes on under a new tag while it has retries left, and is over when they are spent. -/
theorem hostReadTimeout_retries :
    ∃ t, exec (.hostReadTimeout cell tag) s = .next t ∧ sameMemory s t ∧
      (a.tries < (getCell s cell).readRetries →
        t.accesses = s.accesses.filter (fun x => x.tag != a.tag) ++ [{ a with tag := s.seq, issued := s.time.ref, tries := a.tries + 1 }] ∧
        t.outbox = s.outbox ++ [.hostRead a.cell s.seq] ∧ t.ctxs = s.ctxs) ∧
      ((getCell s cell).readRetries ≤ a.tries → ∀ x ∈ t.accesses, x.tag ≠ tag) := by
  have hrow := execHostReadTimeout_row hflush hfind hdue
  refine ⟨_, hrow, (execHostReadTimeout_kept cell tag s hrow).sameMemory, fun hleft => ?_, fun hspent x hx => ?_⟩
  · rw [if_pos hleft]
    exact ⟨rfl, rfl, rfl⟩
  · rw [if_neg (Nat.not_lt.mpr hspent)] at hx
    have htag : x.tag ∈ (dropAccess s tag).accesses.map Access.tag := failRead_tags _ a HOST_TIMEOUT ▸ List.mem_map_of_mem hx
    obtain ⟨y, hy, hxy⟩ := List.mem_map.mp htag
    have hne : y.tag ≠ tag := by simpa using (List.mem_filter.mp hy).2
    exact hxy ▸ hne

end

theorem superseded_host {s : State} {cell tag : Nat} (hrole : roleOf cell = .h) (htag : tag < s.seq) : superseded s cell tag = true := by
  simp [superseded, hrole, htag]

/-! The host link (R423). -/

/-- The state in which the port has said what the link is. -/
abbrev linkSaid (s : State) (cell : Nat) (up : Bool) : State :=
  modCell s cell fun x => { x with linkUp := up, upFrom := if up && !x.linkUp then s.seq else x.upFrom }

theorem execHostLinkState_row {cell : Nat} (hrole : roleOf cell = .h) (hcell : cell < cellCount) (s : State) (up : Bool) :
    execHostLinkState cell up s = .next (linkSaid s cell up) := by
  simp only [execHostLinkState, need, hrole, hcell, decide_true, Bool.and_self, if_true]

/-- While the link is down, and for an access made before it came up, the host is not there. -/
theorem hostDown_linkSaid {s : State} {cell tag : Nat} {up : Bool} (h : up = false ∨ ((getCell s cell).linkUp = false ∧ tag < s.seq)) :
    hostDown (linkSaid s cell up) cell tag = true := by
  rw [hostDown, getCell_modCell, if_pos rfl]
  cases up with
  | false => rfl
  | true =>
    obtain ⟨hdown, htag⟩ := h.resolve_left (by decide)
    simp [hdown, htag]

theorem statusAt_hostDown {s : State} {cell tag : Nat} (hrole : roleOf cell = .h) (hdown : hostDown s cell tag = true) (st : AttStatus) :
    statusAt s cell tag st = some BUS_ERROR := if_pos ⟨hrole, hdown⟩

/-- Settles O53: flushing reads, timeouts, superseded tags and the link's state each by its row. -/
theorem hostPortResponses : Obligations.HostPortResponses := by
  unfold Obligations.HostPortResponses
  refine ⟨fun s cell id h hfind hup =>
      ⟨flushComplete_performs hfind hup, fun all cells hwait hcell hstate hfault => flushComplete_faults hfind hup hwait hcell hstate hfault⟩,
    fun s cell tag a hflush _ hfind => hostReadTimeout_retries hflush hfind,
    fun s cell tag st data hrole htag => ⟨fun hnone => ?_, fun hnone => ?_⟩,
    fun s cell up hrole hcell => ⟨execHostLinkState_row hrole hcell s up, fun tag st t hrow hdown => ?_⟩⟩
  · show execReadResponse cell tag st data s = .next s
    simp [execReadResponse, hnone, need, superseded_host hrole htag]
  · show execFlushComplete cell tag st s = .next s
    simp [execFlushComplete, hnone, need, superseded_host hrole htag]
  · obtain rfl : linkSaid s cell up = t := Host.Outcome.next.inj ((execHostLinkState_row hrole hcell s up).symm.trans hrow)
    exact statusAt_hostDown hrole (hostDown_linkSaid hdown) st

end Sys2Proof.Machine
end
